-- ==== Sys2Proof/Word.lean ====
section
/-! DEFINITION. The word types of the block: 32-bit registers and command words, 8-bit source and bitmap bytes. -/

namespace Sys2Proof

/-- A `u32`: every host register and every command word (R21, R90). -/
abbrev Word := BitVec 32

/-- A `u8`: one byte of the source memory or of a bitmap window (R60). -/
abbrev Byte := BitVec 8

end Sys2Proof
end

