-- ==== Sys2Proof/Config.lean ====
section
/-! DEFINITION. What an implementation fixes: the constants of R7, the type of the open parameters of R8, the types of
the two ROMs, and the free values (the spec's draws) as constants without a body. -/

namespace Sys2Proof

/-! ### Constants (R7, R41) -/

/-- Rows of the probability state table (R7 `QE_ROWS`). -/
def Config.qeRows : Nat := 47
/-- Entries of the GB context bank (R7 `GB_SIZE`). -/
def Config.gbSize : Nat := 65536
/-- Entries of the GR context bank (R7 `GR_SIZE`). -/
def Config.grSize : Nat := 8192
/-- Longest source span, in bytes (R7 `SRC_CAP`). -/
def Config.srcCap : Nat := 2 ^ 28
/-- Longest prefix code the Huffman decoder can match (R8 `HT_MAXLEN`, fixed at 32). -/
def Config.htMaxLen : Nat := 32
/-- The constant of the `ID` register (R41). -/
def Config.idWord : Word := 0x4A423201

/-! ### ROM row types -/

/-- One row of the probability state table (R151). -/
structure QeRow where
  qe : Word
  nmps : Fin 47
  nlps : Fin 47
  switch : Bool
  deriving DecidableEq, Repr

/-- What a Huffman row is (R201). -/
inductive RowKind where
  | normal
  | lower
  | upper
  | oob
  deriving DecidableEq, Repr

/-- A Huffman row as it is given, by ROM or by a parsed description, before its code is assigned (R200). -/
structure RawRow where
  kind : RowKind
  preflen : Nat
  rangelen : Nat
  rangelow : Word
  deriving DecidableEq, Repr

/-- A standard table as the ROM gives it (R220). -/
structure RomTable where
  oob : Bool
  rows : List RawRow
  deriving DecidableEq, Repr

/-! ### Parameters (R8) -/

/-- The parameters the spec leaves open, each a named argument of the model (R8).
The three window bases are not among them: the model's host interface has no bus addresses (R66). -/
structure Params where
  /-- number of bitmap slots -/
  nbm : Nat
  /-- largest bitmap width in pixels -/
  bmMaxW : Nat
  /-- largest bitmap height in pixels -/
  bmMaxH : Nat
  /-- largest `STRIDE × H` of one bitmap, in bytes -/
  bmMaxBytes : Nat
  /-- number of custom Huffman table slots -/
  nhtCustom : Nat
  /-- largest row count of a custom table, escape rows included -/
  htMaxRows : Nat
  /-- whether refinement typical prediction centres its test on the displaced reference pixel -/
  tpgrCenterDisplaced : Bool
  /-- the standard Huffman tables 1, 2, … in order -/
  stdRom : List RomTable
  deriving DecidableEq, Repr

/-- The constraints R8 puts on the parameters; those on the ROM tables are R46 (7). -/
def Params.legal (p : Params) : Bool :=
  decide (2 ≤ p.nbm) && decide (p.nbm ≤ 256) && decide (1 ≤ p.bmMaxW) && decide (1 ≤ p.bmMaxH)
    && decide (4 ≤ p.bmMaxBytes) && decide (1 ≤ p.nhtCustom) && decide (p.nhtCustom ≤ 240)
    && decide (4 ≤ p.htMaxRows) && decide (p.htMaxRows ≤ 65535)
    && decide (p.stdRom.length = 15)
    && p.stdRom.all fun t =>
      (if t.oob then decide (4 ≤ t.rows.length) && decide (t.rows.length ≤ p.htMaxRows) else decide (3 ≤ t.rows.length))
        && t.rows.all fun r => decide (r.preflen ≤ 32) && decide (r.rangelen ≤ 32)

/-! ### Free values (R18, R440): nothing in the model can evaluate them -/

/-- The byte a source cell holds that the host has not written since the `era`-th hardware reset (R44, U1).
DEDUCED, log 8. Unsafe if such a cell can change by itself. -/
opaque Config.srcPowerOn (era address : Nat) : Byte

/-- The padding bits a `BmRead` shows, one draw per read (R64, U2). DEDUCED, log 9. Safe. -/
opaque Config.bmPadding (draw : Nat) : Byte

/-- The byte a `BmRead` of an invalid slot, or beyond the bitmap, returns, one draw per read (R65, U3).
DEDUCED, log 10. Safe. -/
opaque Config.bmStray (draw : Nat) : Byte

/-- The `STATUS` fields above `CORE` in a read made while a command executes, one draw per read (R72, U4).
DEDUCED, log 3. Safe. -/
opaque Config.busyFields (draw : Nat) : BitVec 9

end Sys2Proof
end

