-- ==== Sys2Proof/Machine/Rom.lean ====
section
/-! DEFINITION. The two ROMs of the block, the probability state table (R152) and the standard Huffman tables (R221 to
R235), and the parameter set that R8 gives as default. Every number here is marked in the spec as general knowledge. -/

namespace Sys2Proof.Machine

/-- The 47 rows of the probability state table, in the order of their index (R152). -/
def qeTable : List QeRow :=
  [⟨0x5601, 1, 1, true⟩,
   ⟨0x3401, 2, 6, false⟩,
   ⟨0x1801, 3, 9, false⟩,
   ⟨0x0AC1, 4, 12, false⟩,
   ⟨0x0521, 5, 29, false⟩,
   ⟨0x0221, 38, 33, false⟩,
   ⟨0x5601, 7, 6, true⟩,
   ⟨0x5401, 8, 14, false⟩,
   ⟨0x4801, 9, 14, false⟩,
   ⟨0x3801, 10, 14, false⟩,
   ⟨0x3001, 11, 17, false⟩,
   ⟨0x2401, 12, 18, false⟩] ++
  [⟨0x1C01, 13, 20, false⟩,
   ⟨0x1601, 29, 21, false⟩,
   ⟨0x5601, 15, 14, true⟩,
   ⟨0x5401, 16, 14, false⟩,
   ⟨0x5101, 17, 15, false⟩,
   ⟨0x4801, 18, 16, false⟩,
   ⟨0x3801, 19, 17, false⟩,
   ⟨0x3401, 20, 18, false⟩,
   ⟨0x3001, 21, 19, false⟩,
   ⟨0x2801, 22, 19, false⟩,
   ⟨0x2401, 23, 20, false⟩,
   ⟨0x2201, 24, 21, false⟩] ++
  [⟨0x1C01, 25, 22, false⟩,
   ⟨0x1801, 26, 23, false⟩,
   ⟨0x1601, 27, 24, false⟩,
   ⟨0x1401, 28, 25, false⟩,
   ⟨0x1201, 29, 26, false⟩,
   ⟨0x1101, 30, 27, false⟩,
   ⟨0x0AC1, 31, 28, false⟩,
   ⟨0x09C1, 32, 29, false⟩,
   ⟨0x08A1, 33, 30, false⟩,
   ⟨0x0521, 34, 31, false⟩,
   ⟨0x0441, 35, 32, false⟩,
   ⟨0x02A1, 36, 33, false⟩] ++
  [⟨0x0221, 37, 34, false⟩,
   ⟨0x0141, 38, 35, false⟩,
   ⟨0x0111, 39, 36, false⟩,
   ⟨0x0085, 40, 37, false⟩,
   ⟨0x0049, 41, 38, false⟩,
   ⟨0x0025, 42, 39, false⟩,
   ⟨0x0015, 43, 40, false⟩,
   ⟨0x0009, 44, 41, false⟩,
   ⟨0x0005, 45, 42, false⟩,
   ⟨0x0001, 45, 43, false⟩,
   ⟨0x5601, 46, 46, false⟩]

/-- The row of a context's probability index; the index is in range by its type (R151). -/
def qeRow (i : Fin 47) : QeRow := qeTable.getD i.val ⟨0x5601, 46, 46, false⟩

/-- A row of a standard table as the spec's listing prints it. -/
def romRow (kind : RowKind) (preflen rangelen : Nat) (low : Int) : RawRow :=
  ⟨kind, preflen, rangelen, BitVec.ofInt 32 low⟩

/-- Standard table 1 (R221). -/
def stdTable1 : RomTable :=
  ⟨false, [
    romRow .normal 1 4 0,
    romRow .normal 2 8 16,
    romRow .normal 3 16 272,
    romRow .upper 3 32 65808]⟩

/-- Standard table 2 (R222). -/
def stdTable2 : RomTable :=
  ⟨true, [
    romRow .normal 1 0 0,
    romRow .normal 2 0 1,
    romRow .normal 3 0 2,
    romRow .normal 4 3 3,
    romRow .normal 5 6 11,
    romRow .upper 6 32 75,
    romRow .oob 6 0 0]⟩

/-- Standard table 3 (R223). -/
def stdTable3 : RomTable :=
  ⟨true, [
    romRow .normal 8 8 (-256),
    romRow .normal 1 0 0,
    romRow .normal 2 0 1,
    romRow .normal 3 0 2,
    romRow .normal 4 3 3,
    romRow .normal 5 6 11,
    romRow .lower 8 32 (-257),
    romRow .upper 7 32 75,
    romRow .oob 6 0 0]⟩

/-- Standard table 4 (R224). -/
def stdTable4 : RomTable :=
  ⟨false, [
    romRow .normal 1 0 1,
    romRow .normal 2 0 2,
    romRow .normal 3 0 3,
    romRow .normal 4 3 4,
    romRow .normal 5 6 12,
    romRow .upper 5 32 76]⟩

/-- Standard table 5 (R225). -/
def stdTable5 : RomTable :=
  ⟨false, [
    romRow .normal 7 8 (-255),
    romRow .normal 1 0 1,
    romRow .normal 2 0 2,
    romRow .normal 3 0 3,
    romRow .normal 4 3 4,
    romRow .normal 5 6 12,
    romRow .lower 7 32 (-256),
    romRow .upper 6 32 76]⟩

/-- Standard table 6 (R226). -/
def stdTable6 : RomTable :=
  ⟨false, [
    romRow .normal 5 10 (-2048),
    romRow .normal 4 9 (-1024),
    romRow .normal 4 8 (-512),
    romRow .normal 4 7 (-256),
    romRow .normal 5 7 (-128),
    romRow .normal 5 7 0,
    romRow .normal 4 7 128,
    romRow .normal 3 8 256,
    romRow .normal 3 9 512,
    romRow .normal 4 10 1024,
    romRow .lower 6 32 (-2049),
    romRow .upper 6 32 2048]⟩

/-- Standard table 7 (R227). -/
def stdTable7 : RomTable :=
  ⟨false, [
    romRow .normal 4 9 (-1024),
    romRow .normal 3 8 (-512),
    romRow .normal 4 7 (-256),
    romRow .normal 5 7 (-128),
    romRow .normal 5 7 0,
    romRow .normal 4 7 128,
    romRow .normal 4 8 256,
    romRow .normal 4 9 512,
    romRow .normal 5 10 1024,
    romRow .lower 5 32 (-1025),
    romRow .upper 5 32 2048]⟩

/-- Standard table 8 (R228). -/
def stdTable8 : RomTable :=
  ⟨true, [
    romRow .normal 8 3 (-15),
    romRow .normal 9 1 (-7),
    romRow .normal 8 1 (-5),
    romRow .normal 9 0 (-3),
    romRow .normal 7 0 (-2),
    romRow .normal 4 0 (-1),
    romRow .normal 2 1 0,
    romRow .normal 5 0 2,
    romRow .normal 6 0 3,
    romRow .normal 3 4 4,
    romRow .normal 6 1 20,
    romRow .normal 4 4 22,
    romRow .normal 4 5 38,
    romRow .normal 5 6 70,
    romRow .normal 5 7 134,
    romRow .normal 6 7 262,
    romRow .normal 7 8 390,
    romRow .normal 6 10 646,
    romRow .lower 9 32 (-16),
    romRow .upper 9 32 1670,
    romRow .oob 2 0 0]⟩

/-- Standard table 9 (R229). -/
def stdTable9 : RomTable :=
  ⟨true, [
    romRow .normal 8 4 (-31),
    romRow .normal 9 2 (-15),
    romRow .normal 8 2 (-11),
    romRow .normal 9 1 (-7),
    romRow .normal 7 1 (-5),
    romRow .normal 4 1 (-3),
    romRow .normal 3 1 (-1),
    romRow .normal 3 1 1,
    romRow .normal 5 1 3,
    romRow .normal 6 1 5,
    romRow .normal 3 5 7,
    romRow .normal 6 2 39,
    romRow .normal 4 5 43,
    romRow .normal 4 6 75,
    romRow .normal 5 7 139,
    romRow .normal 5 8 267,
    romRow .normal 6 8 523,
    romRow .normal 7 9 779,
    romRow .normal 6 11 1291,
    romRow .lower 9 32 (-32),
    romRow .upper 9 32 3339,
    romRow .oob 2 0 0]⟩

/-- Standard table 10 (R230). -/
def stdTable10 : RomTable :=
  ⟨true, [
    romRow .normal 7 4 (-21),
    romRow .normal 8 0 (-5),
    romRow .normal 7 0 (-4),
    romRow .normal 5 0 (-3),
    romRow .normal 2 2 (-2),
    romRow .normal 5 0 2,
    romRow .normal 6 0 3,
    romRow .normal 7 0 4,
    romRow .normal 8 0 5,
    romRow .normal 2 6 6,
    romRow .normal 5 5 70,
    romRow .normal 6 5 102,
    romRow .normal 6 6 134,
    romRow .normal 6 7 198,
    romRow .normal 6 8 326,
    romRow .normal 6 9 582,
    romRow .normal 6 10 1094,
    romRow .normal 7 11 2118,
    romRow .lower 8 32 (-22),
    romRow .upper 8 32 4166,
    romRow .oob 2 0 0]⟩

/-- Standard table 11 (R231). -/
def stdTable11 : RomTable :=
  ⟨false, [
    romRow .normal 1 0 1,
    romRow .normal 2 1 2,
    romRow .normal 4 0 4,
    romRow .normal 4 1 5,
    romRow .normal 5 1 7,
    romRow .normal 5 2 9,
    romRow .normal 6 2 13,
    romRow .normal 7 2 17,
    romRow .normal 7 3 21,
    romRow .normal 7 4 29,
    romRow .normal 7 5 45,
    romRow .normal 7 6 77,
    romRow .upper 7 32 141]⟩

/-- Standard table 12 (R232). -/
def stdTable12 : RomTable :=
  ⟨false, [
    romRow .normal 1 0 1,
    romRow .normal 2 0 2,
    romRow .normal 3 1 3,
    romRow .normal 5 0 5,
    romRow .normal 5 1 6,
    romRow .normal 6 1 8,
    romRow .normal 7 0 10,
    romRow .normal 7 1 11,
    romRow .normal 7 2 13,
    romRow .normal 7 3 17,
    romRow .normal 7 4 25,
    romRow .normal 8 5 41,
    romRow .upper 8 32 73]⟩

/-- Standard table 13 (R233). -/
def stdTable13 : RomTable :=
  ⟨false, [
    romRow .normal 1 0 1,
    romRow .normal 3 0 2,
    romRow .normal 4 0 3,
    romRow .normal 5 0 4,
    romRow .normal 4 1 5,
    romRow .normal 3 3 7,
    romRow .normal 6 1 15,
    romRow .normal 6 2 17,
    romRow .normal 6 3 21,
    romRow .normal 6 4 29,
    romRow .normal 6 5 45,
    romRow .normal 7 6 77,
    romRow .upper 7 32 141]⟩

/-- Standard table 14 (R234). -/
def stdTable14 : RomTable :=
  ⟨false, [
    romRow .normal 3 0 (-2),
    romRow .normal 3 0 (-1),
    romRow .normal 1 0 0,
    romRow .normal 3 0 1,
    romRow .normal 3 0 2]⟩

/-- Standard table 15 (R235). -/
def stdTable15 : RomTable :=
  ⟨false, [
    romRow .normal 7 4 (-24),
    romRow .normal 6 2 (-8),
    romRow .normal 5 1 (-4),
    romRow .normal 4 0 (-2),
    romRow .normal 3 0 (-1),
    romRow .normal 1 0 0,
    romRow .normal 3 0 1,
    romRow .normal 4 0 2,
    romRow .normal 5 1 3,
    romRow .normal 6 2 5,
    romRow .normal 7 4 9,
    romRow .lower 7 32 (-25),
    romRow .upper 7 32 25]⟩

/-- The default contents of the standard tables, table 1 first (R8 `STD_ROM`, R220). -/
def stdRom : List RomTable :=
  [stdTable1, stdTable2, stdTable3, stdTable4, stdTable5, stdTable6, stdTable7, stdTable8, stdTable9, stdTable10,
   stdTable11, stdTable12, stdTable13, stdTable14, stdTable15]

/-- The default value of every parameter of R8. -/
def defaultParams : Params where
  nbm := 8
  bmMaxW := 65535
  bmMaxH := 65535
  bmMaxBytes := 2 ^ 26
  nhtCustom := 4
  htMaxRows := 4096
  tpgrCenterDisplaced := true
  stdRom := stdRom

end Sys2Proof.Machine
end

