-- ==== Sys2Proof/Syntax.lean ====
section
/-! DEFINITION. The 34 commands of the opcode map (R93), with their operand fields (R94) as data. -/

namespace Sys2Proof

/-- A context bank: 0 is GB, 1 is GR (R32). -/
inductive Bank where
  | gb
  | gr
  deriving DecidableEq, Repr

/-- A combination operator of `BM.COMPOSE` (R95, R261). -/
inductive CombOp where
  | or
  | and
  | xor
  | xnor
  | replace
  deriving DecidableEq, Repr

/-- The field of a Huffman row that `HT.ROW` reports (R215). -/
inductive RowSel where
  | preflen
  | rangelen
  | rangelow
  | code
  | kind
  deriving DecidableEq, Repr

/-- The field of a bitmap slot that `BM.INFO` reports (R266). -/
inductive InfoSel where
  | valid
  | width
  | height
  | stride
  deriving DecidableEq, Repr

/-- A command, one constructor per row of the opcode map (R93).
Slot numbers, table ids and the bit count are kept as the byte the word holds; `wellFormed` says which are legal. -/
inductive Instr where
  | sysNop
  | sysClrf
  | sysReset
  | brSeek
  | brSkip
  | brAlign
  | brReadBits (n : Byte)
  | brReadByte
  | brReadU16
  | brReadU32
  | brRemain
  | mqInit
  | mqDecode (bank : Bank)
  | cxClear (bank : Bank)
  | cxRd (bank : Bank)
  | cxWr (bank : Bank)
  | htParse (id : Byte)
  | htDecode (id : Byte)
  | htInfo (id : Byte)
  | htRow (id : Byte) (sel : RowSel)
  | bmAlloc (slot : Byte)
  | bmFree (slot : Byte)
  | bmFill (slot : Byte) (v : Bool)
  | bmGet (slot : Byte)
  | bmSet (slot : Byte) (v : Bool)
  | bmCopyLine (slot : Byte)
  | bmCompose (dst src : Byte) (cop : CombOp) (clip : Bool)
  | bmExpand (slot : Byte) (v : Bool)
  | bmSubImage (dst src : Byte)
  | bmInfo (slot : Byte) (sel : InfoSel)
  | grdStart
  | grdCont
  | grdAbort
  | grrDecode
  deriving DecidableEq, Repr

end Sys2Proof
end

