-- ==== Sys2Proof/WellFormed.lean ====
section
/-! DEFINITION. Which commands have legal operand fields (the ranges of R94; R96 case 3). -/

namespace Sys2Proof

/-- A bitmap slot number below `NBM`. -/
def slotOk (p : Params) (slot : Byte) : Bool := decide (slot.toNat < p.nbm)

/-- A Huffman table id that exists: 1 .. 15+NHT_CUSTOM (R34). -/
def tableOk (p : Params) (id : Byte) : Bool := decide (1 ≤ id.toNat) && decide (id.toNat ≤ 15 + p.nhtCustom)

/-- A custom Huffman table slot: 16 .. 15+NHT_CUSTOM (R208). -/
def customOk (p : Params) (id : Byte) : Bool := decide (16 ≤ id.toNat) && decide (id.toNat ≤ 15 + p.nhtCustom)

/-- The operand fields are inside the ranges of R94. -/
def wellFormed (p : Params) : Instr → Bool
  | .sysNop => true
  | .sysClrf => true
  | .sysReset => true
  | .brSeek => true
  | .brSkip => true
  | .brAlign => true
  | .brReadBits n => decide (n.toNat ≤ 32)
  | .brReadByte => true
  | .brReadU16 => true
  | .brReadU32 => true
  | .brRemain => true
  | .mqInit => true
  | .mqDecode _ => true
  | .cxClear _ => true
  | .cxRd _ => true
  | .cxWr _ => true
  | .htParse id => customOk p id
  | .htDecode id => tableOk p id
  | .htInfo id => tableOk p id
  | .htRow id _ => tableOk p id
  | .bmAlloc slot => slotOk p slot
  | .bmFree slot => slotOk p slot
  | .bmFill slot _ => slotOk p slot
  | .bmGet slot => slotOk p slot
  | .bmSet slot _ => slotOk p slot
  | .bmCopyLine slot => slotOk p slot
  | .bmCompose dst src _ _ => slotOk p dst && slotOk p src
  | .bmExpand slot _ => slotOk p slot
  | .bmSubImage dst src => slotOk p dst && slotOk p src
  | .bmInfo slot _ => slotOk p slot
  | .grdStart => true
  | .grdCont => true
  | .grdAbort => true
  | .grrDecode => true

end Sys2Proof
end

