-- ==== Sys2Proof/Decode.lean ====
section
/-! DEFINITION. The command decoder, total on every 32-bit word (R90, R93, R94, R96), and after it the encoder written from
the same map (R98). -/

namespace Sys2Proof

/-- Why a word is no command (R96, cases 1, 2 and 3). Each of them raises IllegalCommand. -/
inductive Illegal where
  /-- `w[31:24]` is not an opcode of R93 -/
  | opcode
  /-- a field or sub-field that must be zero is not -/
  | mustBeZero
  /-- a field is outside its legal range -/
  | range
  deriving DecidableEq, Repr

/-! ### The format `F0` (R90) -/

/-- Bits 31:24, the opcode. -/
def fieldOp (w : Word) : Byte := w.extractLsb' 24 8
/-- Bits 23:16, the first small operand. -/
def fieldA (w : Word) : Byte := w.extractLsb' 16 8
/-- Bits 15:8, the second small operand. -/
def fieldB (w : Word) : Byte := w.extractLsb' 8 8
/-- Bits 7:0, the immediate. -/
def fieldC (w : Word) : Byte := w.extractLsb' 0 8

/-- The word with these four fields. -/
def assemble (op a b c : Byte) : Word := op ++ a ++ b ++ c

/-! ### Field readers -/

/-- A context bank number, 0 or 1. -/
def readBank (a : Byte) : Except Illegal Bank :=
  if a = 0 then .ok .gb else if a = 1 then .ok .gr else .error .range

/-- A one-bit value in bit 0, bits 7:1 zero. -/
def readFlag (c : Byte) : Except Illegal Bool :=
  if c = 0 then .ok false else if c = 1 then .ok true else .error .mustBeZero

/-- The selector of `HT.ROW`, 0 to 4 (R215). -/
def readRowSel (c : Byte) : Except Illegal RowSel :=
  if c = 0 then .ok .preflen else if c = 1 then .ok .rangelen else if c = 2 then .ok .rangelow
  else if c = 3 then .ok .code else if c = 4 then .ok .kind else .error .range

/-- The selector of `BM.INFO`, 0 to 3 (R266). -/
def readInfoSel (c : Byte) : Except Illegal InfoSel :=
  if c = 0 then .ok .valid else if c = 1 then .ok .width else if c = 2 then .ok .height
  else if c = 3 then .ok .stride else .error .range

/-- The operator code in bits 2:0 (R95). -/
def readCombOp (code : BitVec 3) : Except Illegal CombOp :=
  if code = 0 then .ok .or else if code = 1 then .ok .and else if code = 2 then .ok .xor
  else if code = 3 then .ok .xnor else if code = 4 then .ok .replace else .error .range

/-- The immediate of `BM.COMPOSE`: `cop` in bits 2:0, `clip` in bit 3, bits 7:4 zero (R94). -/
def readCompose (c : Byte) : Except Illegal (CombOp × Bool) :=
  if c.extractLsb' 4 4 ≠ 0 then .error .mustBeZero
  else (readCombOp (c.extractLsb' 0 3)).map fun op => (op, c.getLsbD 3)

/-- The command, if the fields that must be zero are zero. -/
def whenZero (ok : Bool) (r : Except Illegal Instr) : Except Illegal Instr :=
  if ok then r else .error .mustBeZero

/-- The opcode map (R93) with the field use of R94, before the ranges that depend on the parameters. -/
def decodeFields (op a b c : Byte) : Except Illegal Instr :=
  let noA := decide (a = 0)
  let noB := decide (b = 0)
  let noC := decide (c = 0)
  match op.toNat with
  | 0x00 => whenZero (noA && noB && noC) (.ok .sysNop)
  | 0x01 => whenZero (noA && noB && noC) (.ok .sysClrf)
  | 0x02 => whenZero (noA && noB && noC) (.ok .sysReset)
  | 0x10 => whenZero (noA && noB && noC) (.ok .brSeek)
  | 0x11 => whenZero (noA && noB && noC) (.ok .brSkip)
  | 0x12 => whenZero (noA && noB && noC) (.ok .brAlign)
  | 0x13 => whenZero (noA && noB) (.ok (.brReadBits c))
  | 0x14 => whenZero (noA && noB && noC) (.ok .brReadByte)
  | 0x15 => whenZero (noA && noB && noC) (.ok .brReadU16)
  | 0x16 => whenZero (noA && noB && noC) (.ok .brReadU32)
  | 0x17 => whenZero (noA && noB && noC) (.ok .brRemain)
  | 0x20 => whenZero (noA && noB && noC) (.ok .mqInit)
  | 0x21 => whenZero (noB && noC) ((readBank a).map .mqDecode)
  | 0x22 => whenZero (noB && noC) ((readBank a).map .cxClear)
  | 0x23 => whenZero (noB && noC) ((readBank a).map .cxRd)
  | 0x24 => whenZero (noB && noC) ((readBank a).map .cxWr)
  | 0x30 => whenZero (noB && noC) (.ok (.htParse a))
  | 0x31 => whenZero (noB && noC) (.ok (.htDecode a))
  | 0x32 => whenZero (noB && noC) (.ok (.htInfo a))
  | 0x33 => whenZero noB ((readRowSel c).map (.htRow a))
  | 0x40 => whenZero (noB && noC) (.ok (.bmAlloc a))
  | 0x41 => whenZero (noB && noC) (.ok (.bmFree a))
  | 0x42 => whenZero noB ((readFlag c).map (.bmFill a))
  | 0x43 => whenZero (noB && noC) (.ok (.bmGet a))
  | 0x44 => whenZero noB ((readFlag c).map (.bmSet a))
  | 0x45 => whenZero (noB && noC) (.ok (.bmCopyLine a))
  | 0x46 => (readCompose c).map fun q => .bmCompose a b q.1 q.2
  | 0x47 => whenZero noB ((readFlag c).map (.bmExpand a))
  | 0x48 => whenZero noC (.ok (.bmSubImage a b))
  | 0x49 => whenZero noB ((readInfoSel c).map (.bmInfo a))
  | 0x50 => whenZero (noA && noB && noC) (.ok .grdStart)
  | 0x51 => whenZero (noA && noB && noC) (.ok .grdCont)
  | 0x52 => whenZero (noA && noB && noC) (.ok .grdAbort)
  | 0x60 => whenZero (noA && noB && noC) (.ok .grrDecode)
  | _ => .error .opcode

/-- The ranges that depend on the parameters, after the fields have been read (R96 case 3). -/
def checkRange (p : Params) (r : Except Illegal Instr) : Except Illegal Instr :=
  match r with
  | .ok i => if wellFormed p i then .ok i else .error .range
  | .error e => .error e

/-- The command decoder (R96): a command with legal fields, or the reason there is none. -/
def decode (p : Params) (w : Word) : Except Illegal Instr :=
  checkRange p (decodeFields (fieldOp w) (fieldA w) (fieldB w) (fieldC w))

/-- The decoder on a command given by its bits as the opcode table numbers them, with the default parameters. A command is
one 32-bit word (R90) and every row of the table has 32 bits, so the bits are the word. -/
def decodeTableWord (_nbits w : Nat) : Option Instr :=
  match decode Machine.defaultParams (BitVec.ofNat 32 w) with
  | .ok i => some i
  | .error _ => none

/-! ### Encoder (R98) -/

/-- The field value of a bank. -/
def bankCode : Bank → Byte
  | .gb => 0
  | .gr => 1

/-- The field value of a one-bit immediate. -/
def flagCode (v : Bool) : Byte := if v then 1 else 0

/-- The operator codes of R95. -/
def combCode : CombOp → Byte
  | .or => 0
  | .and => 1
  | .xor => 2
  | .xnor => 3
  | .replace => 4

/-- The selector codes of R215. -/
def rowSelCode : RowSel → Byte
  | .preflen => 0
  | .rangelen => 1
  | .rangelow => 2
  | .code => 3
  | .kind => 4

/-- The selector codes of R266. -/
def infoSelCode : InfoSel → Byte
  | .valid => 0
  | .width => 1
  | .height => 2
  | .stride => 3

/-- The word a command assembles to (R98). -/
def encode : Instr → Word
  | .sysNop => assemble 0x00 0 0 0
  | .sysClrf => assemble 0x01 0 0 0
  | .sysReset => assemble 0x02 0 0 0
  | .brSeek => assemble 0x10 0 0 0
  | .brSkip => assemble 0x11 0 0 0
  | .brAlign => assemble 0x12 0 0 0
  | .brReadBits n => assemble 0x13 0 0 n
  | .brReadByte => assemble 0x14 0 0 0
  | .brReadU16 => assemble 0x15 0 0 0
  | .brReadU32 => assemble 0x16 0 0 0
  | .brRemain => assemble 0x17 0 0 0
  | .mqInit => assemble 0x20 0 0 0
  | .mqDecode bank => assemble 0x21 (bankCode bank) 0 0
  | .cxClear bank => assemble 0x22 (bankCode bank) 0 0
  | .cxRd bank => assemble 0x23 (bankCode bank) 0 0
  | .cxWr bank => assemble 0x24 (bankCode bank) 0 0
  | .htParse id => assemble 0x30 id 0 0
  | .htDecode id => assemble 0x31 id 0 0
  | .htInfo id => assemble 0x32 id 0 0
  | .htRow id sel => assemble 0x33 id 0 (rowSelCode sel)
  | .bmAlloc slot => assemble 0x40 slot 0 0
  | .bmFree slot => assemble 0x41 slot 0 0
  | .bmFill slot v => assemble 0x42 slot 0 (flagCode v)
  | .bmGet slot => assemble 0x43 slot 0 0
  | .bmSet slot v => assemble 0x44 slot 0 (flagCode v)
  | .bmCopyLine slot => assemble 0x45 slot 0 0
  | .bmCompose dst src cop clip => assemble 0x46 dst src (combCode cop + if clip then 8 else 0)
  | .bmExpand slot v => assemble 0x47 slot 0 (flagCode v)
  | .bmSubImage dst src => assemble 0x48 dst src 0
  | .bmInfo slot sel => assemble 0x49 slot 0 (infoSelCode sel)
  | .grdStart => assemble 0x50 0 0 0
  | .grdCont => assemble 0x51 0 0 0
  | .grdAbort => assemble 0x52 0 0 0
  | .grrDecode => assemble 0x60 0 0 0

end Sys2Proof
end

