-- ==== Sys2Proof/Machine/State.lean ====
section
/-! DEFINITION. The state of the block (R20) as plain data, the host that drives it as a list of port operations still to
come (R446), the reasons a step can stop, and the state after hardware reset (R44). -/

namespace Sys2Proof.Machine

/-! ### Why a step can stop -/

/-- The machine stops: the host used a port address that does not exist. The block's own faults (R391) are no `Fault`:
they are taken as a next state. -/
inductive Fault where
  /-- Raised by `hostStep` on `SrcRead` or `SrcWrite` at an offset `≥ SRC_CAP`, which "does not exist at the port" (R61).
  Safe: the hardware has no such access. -/
  | noSourceByte
  /-- Raised by `hostStep` on a register access whose offset is not one of the 64 word offsets (R67).
  Safe: the hardware has no such access. -/
  | misalignedRegister
  deriving DecidableEq, Repr

/-- No meaning for a command. -/
inductive Refusal where
  /-- Raised only by an arm of `exec` whose command has no meaning yet; no arm answers it. Safe. -/
  | notModelled (mnemonic : String)
  deriving DecidableEq, Repr

/-! ### Faults of the block -/

/-- `CORE` (R25) between commands. `Busy` has no constructor: commands are atomic, and only a `STATUS` read made while a
command executes shows it (R25, R72). DEDUCED, log 3. Safe. -/
inductive CoreState where
  | idle
  | faulted
  deriving DecidableEq, Repr

/-- The fault codes 1 to 9 (R391); code 0 is the absence of one. -/
inductive FaultCode where
  | illegalCommand
  | badState
  | misaligned
  | operandRange
  | resourceLimitExceeded
  | structuralError
  | streamExhausted
  | arithmeticStreamComplete
  | huffmanNoCode
  deriving DecidableEq, Repr

/-! ### Decoder units -/

/-- The bit reader's cursor: the next bit is bit `7 − bitIdx` of byte `byteIdx` of the span (R27). -/
structure Cursor where
  byteIdx : Word
  bitIdx : BitVec 3
  deriving DecidableEq, Repr

/-- The stream state of the MQ decoder (R29). -/
inductive MqState where
  | dataAvailable
  | decodingFinished
  | looping
  deriving DecidableEq, Repr

/-- The MQ registers `A`, `C`, `CT`, `B` (R28), `MQ_STATE`, `MQ_COMPLETE` and the interlock `MQ_VALID` (R29). -/
structure Mq where
  a : Word
  c : Word
  ct : Word
  b : Byte
  st : MqState
  complete : Bool
  valid : Bool
  deriving DecidableEq, Repr

/-- An arithmetic context: the pair `(I, MPS)` with `I` in 0..46 (R32). -/
structure Ctx where
  idx : Fin 47
  mps : Bool
  deriving DecidableEq, Repr

/-- The value every context starts from (R32, R160). -/
def Ctx.initial : Ctx := ⟨0, false⟩

/-- A context bank: its valid flag `CXV` and its entries by index. An entry that is not listed is `(0, 0)` (R32, R160).
DESIGN CHOICE for a bank after reset, whose entries R44 leaves unspecified behind `CXV = 0`, log 12. Safe. -/
structure ContextBank where
  valid : Bool
  entries : List (Nat × Ctx)
  deriving DecidableEq, Repr

/-- A row of a stored Huffman table (R34): `code` is `CODE mod 2^32` and `dead` the `DEAD` bit, `CODE ≥ 2^PREFLEN`. -/
structure HtRow where
  kind : RowKind
  preflen : Nat
  rangelen : Nat
  rangelow : Word
  code : Word
  dead : Bool
  deriving DecidableEq, Repr

/-- A Huffman table: `HTOOB` and its rows; `NROWS` is their number (R34). -/
structure HTable where
  oob : Bool
  rows : List HtRow
  deriving DecidableEq, Repr

/-- Bytes by address, in one canonical form: addresses strictly rising (`Store.Sorted`), no entry equal to what an
unlisted address reads as. -/
abbrev Memory := List Host.Cell

/-- A valid bitmap (R35): its dimensions in pixels and the bytes of its window (R63), an unlisted byte being 0. `STRIDE` is
a function of the width. -/
structure Bitmap where
  w : Nat
  h : Nat
  cells : Memory
  deriving DecidableEq, Repr

/-! ### Host registers -/

/-- `RECT_X`, `RECT_Y`, `RECT_W`, `RECT_H` (R39). -/
structure Rect where
  x : Word
  y : Word
  w : Word
  h : Word
  deriving DecidableEq, Repr

/-- `GBW`, `GBH`, `GB_CFG`, `GBAT_LO`, `GBAT_HI` (R36). -/
structure GbRegs where
  w : Word
  h : Word
  cfg : Word
  atLo : Word
  atHi : Word
  deriving DecidableEq, Repr

/-- `GRW`, `GRH`, `GR_CFG`, `GRREFDX`, `GRREFDY`, `GRAT` (R38). -/
structure GrRegs where
  w : Word
  h : Word
  cfg : Word
  refDx : Word
  refDy : Word
  atPix : Word
  deriving DecidableEq, Repr

/-- `GRD_STATE` (R37). -/
inductive GrdState where
  | ready
  | decoding
  | finished
  | error
  deriving DecidableEq, Repr

/-- The generic-region run state `GRD_STATE`, `GRD_ROW`, `GRD_LTP` (R37). -/
structure GrdRun where
  st : GrdState
  row : Word
  ltp : Bool
  deriving DecidableEq, Repr

/-! ### The host (the second agent, R17) -/

/-- A host operation on the port (R446). -/
inductive HostOp where
  /-- `RegRead(off)` -/
  | regRead (off : Byte)
  /-- `RegWrite(off, v)`; at offset 0 it issues the command word `v` -/
  | regWrite (off : Byte) (v : Word)
  /-- `SrcRead(i)` -/
  | srcRead (i : Nat)
  /-- `SrcWrite(i, b)` -/
  | srcWrite (i : Nat) (b : Byte)
  /-- `BmRead(s, a)` -/
  | bmRead (s a : Nat)
  /-- `BmWrite(s, a, b)` -/
  | bmWrite (s a : Nat) (b : Byte)
  /-- hardware reset (R430) -/
  | hardReset
  /-- a `STATUS` read that reaches the port while the command issued just before is still executing (R72) -/
  | statusWhileBusy
  deriving DecidableEq, Repr

/-- The model's own fields for the host's side of the port; the spec's state tuple (R20) has none of them.
DESIGN CHOICE, log 1, 4, 11, 15. Safe. -/
structure HostPort where
  /-- the host operations still to come, next first -/
  ops : List HostOp
  /-- for each row boundary still to be reached, what the host has written to `CTRL.PAUSE` by then, if anything (R311) -/
  pauseFeed : List (Option Bool)
  /-- what the last read returned -/
  readData : Word
  /-- the last operation issued a command, so a `STATUS` read may still find it executing -/
  busyWindow : Bool
  /-- free values drawn so far by reads (R18) -/
  draws : Nat
  /-- hardware resets so far, which the power-on contents of the source memory depend on -/
  resets : Nat
  deriving DecidableEq, Repr

/-! ### The state -/

/-- The complete state of the block (R20), with the parameters (R8) and the host's side of the port beside it. -/
structure State where
  /-- the parameters of R8; no step changes them -/
  cfg : Params
  /-- `CORE` (R25) -/
  core : CoreState
  /-- `FAULT` (R30); `none` is code 0 -/
  fault : Option FaultCode
  /-- `FAULT_CMD` (R30) -/
  faultCmd : Word
  /-- `RESULT` (R23) -/
  result : Word
  /-- `FLAGS.OOB` (R23) -/
  oob : Bool
  /-- `FLAGS.BOUNDARY` (R23) -/
  boundary : Bool
  /-- `CTRL.PAUSE` (R31) -/
  pause : Bool
  /-- `SRC_LEN` (R26) -/
  srcLen : Word
  /-- `ARG0` (R40) -/
  arg0 : Word
  /-- `ARG1` (R40) -/
  arg1 : Word
  /-- `RECT_*` (R39) -/
  rect : Rect
  /-- the cursor (R27) -/
  cur : Cursor
  /-- the MQ decoder (R28, R29) -/
  mq : Mq
  /-- the generic-region parameter registers (R36) -/
  gb : GbRegs
  /-- the generic-region run state (R37) -/
  grd : GrdRun
  /-- the refinement-region parameter registers (R38) -/
  gr : GrRegs
  /-- context bank 0 (R32) -/
  gbBank : ContextBank
  /-- context bank 1 (R32) -/
  grBank : ContextBank
  /-- the valid custom Huffman tables by id; an id that is not listed has `HTV = 0` (R34) -/
  tables : List (Nat × HTable)
  /-- the valid bitmaps by slot; a slot that is not listed has `VALID = 0` (R35) -/
  bitmaps : List (Nat × Bitmap)
  /-- the source memory; a byte that is not listed has not been written since hardware reset (R61) -/
  src : Memory
  /-- the host's side of the port -/
  host : HostPort
  deriving DecidableEq, Repr

/-- The state after hardware reset (R44), with the default parameters and no host operation pending
(DESIGN CHOICE, log 5, 15; unsafe for a claim about this one state). -/
def State.reset : State where
  cfg := defaultParams
  core := .idle
  fault := none
  faultCmd := 0
  result := 0
  oob := false
  boundary := false
  pause := false
  srcLen := 0
  arg0 := 0
  arg1 := 0
  rect := ⟨0, 0, 0, 0⟩
  cur := ⟨0, 0⟩
  mq := ⟨0, 0, 0, 0, .dataAvailable, false, false⟩
  gb := ⟨0, 0, 0, 0, 0⟩
  grd := ⟨.ready, 0, false⟩
  gr := ⟨0, 0, 0, 0, 0, 0⟩
  gbBank := ⟨false, []⟩
  grBank := ⟨false, []⟩
  tables := []
  bitmaps := []
  src := []
  host := ⟨[], [], 0, false, 0, 0⟩

end Sys2Proof.Machine
end

