-- ==== Sys2Proof/Machine/Ops.lean ====
section
/-! DEFINITION. The named operations over the state: sparse stores, the source span, the register and memory groups, fault
entry and leaving it, the two resets, and the shape every command has (R14, R394). -/

namespace Sys2Proof.Machine

/-! ### Sparse stores: lists of key and value, keys strictly rising -/

/-- The canonical form of a store: keys strictly rising. -/
abbrev Store.Sorted {α : Type} (l : List (Nat × α)) : Prop := l.Pairwise fun p q => p.1 < q.1

/-- What is listed under a key. -/
def Store.get {α : Type} : List (Nat × α) → Nat → Option α
  | [], _ => none
  | (k, v) :: t, a => if a = k then some v else Store.get t a

/-- The store with `v` listed under `k`. -/
def Store.set {α : Type} : List (Nat × α) → Nat → α → List (Nat × α)
  | [], k, v => [(k, v)]
  | (k', v') :: t, k, v =>
    if k < k' then (k, v) :: (k', v') :: t
    else if k = k' then (k, v) :: t
    else (k', v') :: Store.set t k v

/-- The store with nothing listed under `k`. -/
def Store.erase {α : Type} (l : List (Nat × α)) (k : Nat) : List (Nat × α) := l.filter fun p => p.1 != k

/-- What a key reads as, an unlisted key reading as `d`. -/
def Store.read {α : Type} (d : α) (l : List (Nat × α)) (k : Nat) : α := (Store.get l k).getD d

/-- A write that keeps the canonical form for the default `d`: writing `d` removes the entry. -/
def Store.write {α : Type} [DecidableEq α] (d : α) (l : List (Nat × α)) (k : Nat) (v : α) : List (Nat × α) :=
  if v = d then Store.erase l k else Store.set l k v

/-- The canonical form of a store whose unlisted keys read as `d`: keys strictly rising, no entry equal to `d`. -/
abbrev Store.Canonical {α : Type} [DecidableEq α] (d : α) (l : List (Nat × α)) : Prop :=
  Store.Sorted l ∧ ∀ p ∈ l, p.2 ≠ d

/-- The canonical form of the source memory: addresses strictly rising and inside the window. An unlisted byte reads as no
listed value (it is a free value), so no entry equals it. -/
abbrev Memory.wf (m : Memory) : Prop := Store.Sorted m ∧ ∀ p ∈ m, p.1 < Config.srcCap

/-! ### The source span (R26, R61) -/

/-- The effective span length `LEN` (R26). -/
def State.len (s : State) : Nat := if s.srcLen.toNat ≤ Config.srcCap then s.srcLen.toNat else 0

/-- The source memory as the decoders see it: the span length, the listed bytes, and the era of the unlisted ones. -/
structure Span where
  len : Nat
  era : Nat
  mem : Memory
  deriving DecidableEq, Repr

/-- `SRC[i]` (R61). A byte not written since hardware reset is a free value (R44, U1). -/
def Span.byte (sp : Span) (i : Nat) : Byte := (Store.get sp.mem i).getD (Config.srcPowerOn sp.era i)

/-- The span of a state. -/
def State.span (s : State) : Span := ⟨s.len, s.host.resets, s.src⟩

/-! ### Register groups -/

/-- Move the cursor (R27). -/
def State.setCursor (s : State) (c : Cursor) : State := { s with cur := c }

/-- `MQ_VALID <- 0` (R29). -/
def State.dropMq (s : State) : State := { s with mq := { s.mq with valid := false } }

/-- Write the generic-region run state (R37). -/
def State.setGrd (s : State) (g : GrdRun) : State := { s with grd := g }

/-- A paused decode that lost its stream goes to Error (R26, R61). -/
def State.loseGrd (s : State) : State :=
  if s.grd.st = .decoding then { s with grd := { s.grd with st := .error } } else s

/-! ### Bitmap slots, Huffman slots, context banks -/

/-- The bitmap in a slot, if the slot is valid (R35). -/
def State.bitmap (s : State) (slot : Nat) : Option Bitmap := Store.get s.bitmaps slot

/-- Give a slot a bitmap; what it held is discarded (R255). -/
def State.putBitmap (s : State) (slot : Nat) (bm : Bitmap) : State := { s with bitmaps := Store.set s.bitmaps slot bm }

/-- `BM[slot].VALID <- 0` (R256). -/
def State.freeBitmap (s : State) (slot : Nat) : State := { s with bitmaps := Store.erase s.bitmaps slot }

/-- A valid table in a custom slot: `HTV[id] <- 1` (R208). -/
def State.putTable (s : State) (id : Nat) (t : HTable) : State := { s with tables := Store.set s.tables id t }

/-- `HTV[id] <- 0` (R208). -/
def State.dropTable (s : State) (id : Nat) : State := { s with tables := Store.erase s.tables id }

/-- A context bank (R32). -/
def State.bank (s : State) : Bank → ContextBank
  | .gb => s.gbBank
  | .gr => s.grBank

/-- Write a context bank. -/
def State.putBank (s : State) (k : Bank) (b : ContextBank) : State :=
  match k with
  | .gb => { s with gbBank := b }
  | .gr => { s with grBank := b }

/-- The entry count of a bank (R32). -/
def bankSize : Bank → Nat
  | .gb => Config.gbSize
  | .gr => Config.grSize

/-- `CX[bank][i]` of a bank's entries. -/
def readCtx (entries : List (Nat × Ctx)) (i : Nat) : Ctx := Store.read Ctx.initial entries i

/-- `CX[bank][i] <- x`. -/
def writeCtx (entries : List (Nat × Ctx)) (i : Nat) (x : Ctx) : List (Nat × Ctx) := Store.write Ctx.initial entries i x

/-! ### Fault entry and leaving it (R393, R396) -/

/-- Fault entry: `FAULT <- f`, `FAULT_CMD <- w`, `CORE <- Faulted`, and nothing else (R393). -/
def State.takeFault (s : State) (f : FaultCode) (w : Word) : State :=
  { s with core := .faulted, fault := some f, faultCmd := w }

/-- Leaving the Faulted state: `FAULT <- 0`, `FAULT_CMD <- 0`, `CORE <- Idle`, and nothing else (R396). -/
def State.clearFault (s : State) : State := { s with core := .idle, fault := none, faultCmd := 0 }

/-! ### Reset (R44, R430, R431) -/

/-- Soft reset: everything as after hardware reset, but the source bytes are preserved (R431). The parameters and the host's
side of the port are no state of the block. DEDUCED, log 16 (safe) and 17 (unsafe if R23 wins over R44). -/
def State.softReset (s : State) : State := { State.reset with cfg := s.cfg, src := s.src, host := s.host }

/-- Hardware reset: the source bytes are unspecified again (R430), so the era of the unlisted bytes moves on. -/
def State.hardReset (s : State) : State :=
  { State.reset with cfg := s.cfg, host := { s.host with resets := s.host.resets + 1 } }

/-! ### The shape of a command (R14, R394) -/

/-- How the checks and the operation of a command end. -/
inductive Result where
  /-- the command completes -/
  | done (s : State)
  /-- `raise f`, with the state the command had made up to there -/
  | raise (f : FaultCode) (s : State)
  deriving DecidableEq, Repr

/-- The end of a command whose word is `w`: a raise is fault entry (R393). -/
def Result.finish (w : Word) : Result → Host.Outcome State Fault Refusal
  | .done s => .next s
  | .raise f s => .next (s.takeFault f w)

/-- A command with everything that comes before its own checks (R394): while Faulted it is ignored (R397); with an operand
field outside its range it raises IllegalCommand (R96); otherwise `body` is its remaining checks and its operation. -/
def command (i : Instr) (s : State) (body : Result) : Host.Outcome State Fault Refusal :=
  match s.core with
  | .faulted => .next s
  | .idle => if wellFormed s.cfg i then body.finish (encode i) else .next (s.takeFault .illegalCommand (encode i))

end Sys2Proof.Machine
end

