-- ==== Sys2Proof/Machine/Flags.lean ====
section
/-! DEFINITION. Results and flags: the one way `RESULT` and `FLAGS` are written (R23), the register codes of the state
machines, and the read-only views `STATUS`, `FLAGS`, `FAULT` (R25, R23, R30). -/

namespace Sys2Proof.Machine

/-- Write `RESULT` and all of `FLAGS` (R23). -/
def State.setResult (s : State) (v : Word) (oob boundary : Bool) : State :=
  { s with result := v, oob := oob, boundary := boundary }

/-- A result-producing command's result with `FLAGS <- 0` (R23). -/
def State.giveResult (s : State) (v : Word) : State := s.setResult v false false

/-- One bit as a word. -/
def bitWord (b : Bool) : Word := if b then 1 else 0

/-- `CORE` codes (R25); 1 is Busy. -/
def CoreState.code : CoreState → BitVec 2
  | .idle => 0
  | .faulted => 2

/-- `FAULT` codes (R391). -/
def FaultCode.code : FaultCode → Byte
  | .illegalCommand => 1
  | .badState => 2
  | .misaligned => 3
  | .operandRange => 4
  | .resourceLimitExceeded => 5
  | .structuralError => 6
  | .streamExhausted => 7
  | .arithmeticStreamComplete => 8
  | .huffmanNoCode => 9

/-- `MQ_STATE` codes (R25). -/
def MqState.code : MqState → BitVec 2
  | .dataAvailable => 0
  | .decodingFinished => 1
  | .looping => 2

/-- `GRD_STATE` codes (R37). -/
def GrdState.code : GrdState → BitVec 2
  | .ready => 0
  | .decoding => 1
  | .finished => 2
  | .error => 3

/-- `KIND` codes (R201). -/
def rowKindCode : RowKind → Word
  | .normal => 0
  | .lower => 1
  | .upper => 2
  | .oob => 3

/-- The `STATUS` register (R25): bits 31:11 read 0. -/
def State.statusWord (s : State) : Word :=
  0#21 ++ BitVec.ofBool s.grd.ltp ++ BitVec.ofBool s.grBank.valid ++ BitVec.ofBool s.gbBank.valid ++ s.mq.st.code
    ++ BitVec.ofBool s.mq.complete ++ BitVec.ofBool s.mq.valid ++ s.grd.st.code ++ s.core.code

/-- What a `STATUS` read made while a command executes returns: `CORE = Busy` and the other fields free (R72). -/
def busyStatusWord (draw : Nat) : Word := 0#21 ++ Config.busyFields draw ++ 1#2

/-- The `FLAGS` register (R23): bits 31:2 read 0. -/
def State.flagsWord (s : State) : Word := 0#30 ++ BitVec.ofBool s.boundary ++ BitVec.ofBool s.oob

/-- The `FAULT` register (R30): the code in bits 7:0, bits 31:8 zero. -/
def State.faultWord (s : State) : Word :=
  match s.fault with
  | none => 0
  | some f => f.code.setWidth 32

/-- The packed form of a context entry (R32): `I` in bits 5:0, bit 6 zero, `MPS` in bit 7. -/
def Ctx.packed (x : Ctx) : Word := BitVec.ofNat 32 (x.idx.val + if x.mps then 128 else 0)

/-- The entry a packed word stands for, if it is a legal one (R162): bits 31:8 and bit 6 zero and `I ≤ 46`. -/
def unpackCtx (v : Word) : Option Ctx :=
  if v.extractLsb' 8 24 ≠ 0 ∨ v.getLsbD 6 = true then none
  else
    if h : (v.extractLsb' 0 6).toNat < 47 then some ⟨⟨(v.extractLsb' 0 6).toNat, h⟩, v.getLsbD 7⟩ else none

end Sys2Proof.Machine
end

