-- ==== Sys2Proof/Machine/BitReader.lean ====
section
/-! DEFINITION. The bit reader (R120 to R122) and the `BR.*` commands (R123 to R130). -/

namespace Sys2Proof.Machine

/-! ### The unit -/

/-- The bit under the cursor: bit `7 − BIT_IDX` of the byte, so bit 7 of a byte is read first (R10, R27). -/
def bitAt (sp : Span) (c : Cursor) : Bool := (sp.byte c.byteIdx.toNat).getMsbD c.bitIdx.toNat

/-- The cursor after one bit (R122). -/
def Cursor.advance (c : Cursor) : Cursor := if c.bitIdx = 7 then ⟨c.byteIdx + 1, 0⟩ else ⟨c.byteIdx, c.bitIdx + 1⟩

/-- `AVAIL = 8 × (LEN − BYTE_IDX) − BIT_IDX` (R121). -/
def availBits (len : Nat) (c : Cursor) : Nat := 8 * (len - c.byteIdx.toNat) - c.bitIdx.toNat

/-- Take `k` bits onto the value read so far, most significant first. -/
def takeBits (sp : Span) : Nat → Nat → Cursor → Nat × Cursor
  | 0, v, c => (v, c)
  | k + 1, v, c => takeBits sp k (2 * v + (bitAt sp c).toNat) c.advance

/-- What `ReadBits` yields: the value, the boundary signal, and the cursor after it. -/
structure BitRead where
  value : Nat
  boundary : Bool
  cur : Cursor
  deriving DecidableEq, Repr

/-- `ReadBits(n)` (R122): a partial read yields the bits there were, right-aligned, and signals boundary. -/
def readBits (sp : Span) (c : Cursor) (n : Nat) : BitRead :=
  let k := min n (availBits sp.len c)
  let r := takeBits sp k 0 c
  ⟨r.1, decide (k < n), r.2⟩

/-- Whole bytes from the cursor to the end of the span, a partly read byte counting as one (R130). -/
def State.bytesLeft (s : State) : Nat := s.len - s.cur.byteIdx.toNat

/-- `n` bytes of the span from index `i` as a big-endian number (R62). -/
def bigEndian (sp : Span) (i : Nat) : Nat → Nat
  | 0 => 0
  | n + 1 => bigEndian sp i n * 256 + (sp.byte (i + n)).toNat

/-- The byte-granular reads (R124 to R126): they need `BIT_IDX = 0` and `n` whole bytes; a read that fails consumes
nothing, gives 0 and signals boundary. -/
def readWhole (n : Nat) (s : State) : Result :=
  if s.cur.bitIdx ≠ 0 then .raise .misaligned s
  else if n ≤ s.bytesLeft then
    .done (((s.setCursor ⟨s.cur.byteIdx + BitVec.ofNat 32 n, 0⟩).dropMq).giveResult
      (BitVec.ofNat 32 (bigEndian s.span s.cur.byteIdx.toNat n)))
  else .done (s.dropMq.setResult 0 false true)

/-- The seeks (R128, R129): they need `BIT_IDX = 0` and saturate at the end of the span. -/
def seekTo (target : Nat) (s : State) : Result :=
  if s.cur.bitIdx ≠ 0 then .raise .misaligned s
  else .done (s.setCursor ⟨BitVec.ofNat 32 (min target s.len), 0⟩).dropMq

/-! ### The commands -/

/-- `BR.SEEK` (R128): absolute seek to byte `ARG0`. -/
def execBrSeek (s : State) : Host.Outcome State Fault Refusal :=
  command .brSeek s (seekTo s.arg0.toNat s)

/-- `BR.SKIP` (R129): relative seek forward by `ARG0` bytes, the sum taken without wrap. -/
def execBrSkip (s : State) : Host.Outcome State Fault Refusal :=
  command .brSkip s (seekTo (s.cur.byteIdx.toNat + s.arg0.toNat) s)

/-- `BR.ALIGN` (R127): round the cursor up to a byte. -/
def execBrAlign (s : State) : Host.Outcome State Fault Refusal :=
  command .brAlign s
    (.done ((if s.cur.bitIdx ≠ 0 then s.setCursor ⟨s.cur.byteIdx + 1, 0⟩ else s).dropMq))

/-- `BR.READBITS` (R123): read `n` bits; running out of data is a flag, not a fault. -/
def execBrReadBits (n : Byte) (s : State) : Host.Outcome State Fault Refusal :=
  command (.brReadBits n) s
    (let r := readBits s.span s.cur n.toNat
     .done ((s.setCursor r.cur).dropMq.setResult (BitVec.ofNat 32 r.value) false r.boundary))

/-- `BR.READBYTE` (R124). -/
def execBrReadByte (s : State) : Host.Outcome State Fault Refusal := command .brReadByte s (readWhole 1 s)

/-- `BR.READU16` (R125). -/
def execBrReadU16 (s : State) : Host.Outcome State Fault Refusal := command .brReadU16 s (readWhole 2 s)

/-- `BR.READU32` (R126). -/
def execBrReadU32 (s : State) : Host.Outcome State Fault Refusal := command .brReadU32 s (readWhole 4 s)

/-- `BR.REMAIN` (R130): the one `BR.*` command that leaves `MQ_VALID`. -/
def execBrRemain (s : State) : Host.Outcome State Fault Refusal :=
  command .brRemain s (.done (s.giveResult (BitVec.ofNat 32 s.bytesLeft)))

end Sys2Proof.Machine
end

