-- ==== Sys2Proof/Machine/Operands.lean ====
section
/-! DEFINITION. Operand forms (R92): signed and unsigned readings of the operand registers, the fields of the region
configuration registers, the adaptive-template offsets, and the rectangle of a composition. -/

namespace Sys2Proof.Machine

/-- Byte `k` of a register read as an `i8` (R92). -/
def offsetByte (w : Word) (k : Nat) : Int := (w.extractLsb' (8 * k) 8).toInt

/-- Byte `k` of a register as a slot number. -/
def slotByte (w : Word) (k : Nat) : Nat := (w.extractLsb' (8 * k) 8).toNat

/-- The pair of offsets in bytes `k` and `k + 1` of a register. -/
def offsetPair (w : Word) (k : Nat) : Int × Int := (offsetByte w k, offsetByte w (k + 1))

/-! ### `GB_CFG` (R36) -/

/-- Bits of `GB_CFG` that hold a field; the others read 0 and ignore writes. -/
def gbCfgMask : Word := 0x00FFFF0F
/-- `GB_CFG.TEMPLATE`. -/
def GbRegs.template (g : GbRegs) : BitVec 2 := g.cfg.extractLsb' 0 2
/-- `GB_CFG.TPGDON`. -/
def GbRegs.tpgdon (g : GbRegs) : Bool := g.cfg.getLsbD 2
/-- `GB_CFG.USESKIP`. -/
def GbRegs.useSkip (g : GbRegs) : Bool := g.cfg.getLsbD 3
/-- `GB_CFG.DST`. -/
def GbRegs.dst (g : GbRegs) : Nat := slotByte g.cfg 1
/-- `GB_CFG.SKIP`. -/
def GbRegs.skip (g : GbRegs) : Nat := slotByte g.cfg 2

/-! ### `GR_CFG` (R38) -/

/-- Bits of `GR_CFG` that hold a field; the others read 0 and ignore writes. -/
def grCfgMask : Word := 0x00FFFF03
/-- `GR_CFG.TEMPLATE`. -/
def GrRegs.template (g : GrRegs) : BitVec 1 := g.cfg.extractLsb' 0 1
/-- `GR_CFG.TPGRON`. -/
def GrRegs.tpgron (g : GrRegs) : Bool := g.cfg.getLsbD 1
/-- `GR_CFG.DST`. -/
def GrRegs.dst (g : GrRegs) : Nat := slotByte g.cfg 1
/-- `GR_CFG.REF`. -/
def GrRegs.ref (g : GrRegs) : Nat := slotByte g.cfg 2

/-! ### Bitmap dimensions -/

/-- `STRIDE = 4 × ceil(W / 32)` (R35). -/
def strideOf (w : Nat) : Nat := 4 * ((w + 31) / 32)

/-- A bitmap of these dimensions exceeds the parameters (R255). -/
def tooLarge (p : Params) (w h : Nat) : Bool :=
  decide (p.bmMaxW < w) || decide (p.bmMaxH < h) || decide (p.bmMaxBytes < strideOf w * h)

/-! ### The rectangle of a composition (R262) -/

/-- A rectangle in source coordinates, and the part of it inside the source. -/
structure Clip where
  /-- `RX`, the column that lands on the target column -/
  rx : Int
  /-- `RY`, the row that lands on the target row -/
  ry : Int
  /-- `sx0`, first source column composed -/
  sx0 : Int
  /-- `sx1`, one past the last source column composed -/
  sx1 : Int
  /-- `sy0`, first source row composed -/
  sy0 : Int
  /-- `sy1`, one past the last source row composed -/
  sy1 : Int
  deriving DecidableEq, Repr

/-- The effective rectangle: the intersection with the source bounds, in exact integers (R262). -/
def effectiveRect (rx ry rw rh : Int) (w h : Nat) : Clip where
  rx := rx
  ry := ry
  sx0 := max rx 0
  sx1 := min (rx + rw) w
  sy0 := max ry 0
  sy1 := min (ry + rh) h

/-- The rectangle of a `BM.COMPOSE` whose source is `w × h`: the whole source, or `RECT_*` when the clip flag is set (R262). -/
def composeRect (clip : Bool) (r : Rect) (w h : Nat) : Clip :=
  if clip then effectiveRect r.x.toInt r.y.toInt (r.w.toNat : Int) (r.h.toNat : Int) w h
  else effectiveRect 0 0 (w : Int) (h : Int) w h

end Sys2Proof.Machine
end

