-- ==== Sys2Proof/Machine/BitmapStore.lean ====
section
/-! DEFINITION. The bitmap store: the byte layout (R63), the pixel accessors (R252, R253), the composition engine (R261, R262),
the `BM.*` commands (R255 to R266), and the host's byte access to a bitmap (R65). -/

namespace Sys2Proof.Machine

/-! ### Layout (R63) -/

/-- `STRIDE` of a bitmap (R35). -/
def Bitmap.stride (bm : Bitmap) : Nat := strideOf bm.w

/-- The bytes of a bitmap's window. -/
def Bitmap.size (bm : Bitmap) : Nat := bm.stride * bm.h

/-- The byte at an address of the bitmap window, padding bits 0. -/
def Bitmap.byte (bm : Bitmap) (a : Nat) : Byte := Store.read 0 bm.cells a

/-- Pixel `(x, y)` is bit `7 − (x mod 8)` of the byte at `y × STRIDE + x / 8` (R63). -/
def Bitmap.pixel (bm : Bitmap) (x y : Nat) : Bool := (bm.byte (y * bm.stride + x / 8)).getMsbD (x % 8)

/-- The byte whose bit `7 − k` is `f k`. -/
def packByte (f : Nat → Bool) : Byte :=
  BitVec.ofBool (f 0) ++ BitVec.ofBool (f 1) ++ BitVec.ofBool (f 2) ++ BitVec.ofBool (f 3)
    ++ BitVec.ofBool (f 4) ++ BitVec.ofBool (f 5) ++ BitVec.ofBool (f 6) ++ BitVec.ofBool (f 7)

/-- The byte at address `a` of a bitmap of width `w` whose pixels are `f`, padding bits 0 (R63). -/
def layoutByte (w : Nat) (f : Nat → Nat → Bool) (a : Nat) : Byte :=
  packByte fun k =>
    let x := a % strideOf w * 8 + k
    decide (x < w) && f x (a / strideOf w)

/-- The cells of the addresses from `a` on, `n` of them, in canonical form. -/
def layoutCells (w : Nat) (f : Nat → Nat → Bool) : Nat → Nat → Memory
  | _, 0 => []
  | a, n + 1 =>
    let b := layoutByte w f a
    if b = 0 then layoutCells w f (a + 1) n else (a, b) :: layoutCells w f (a + 1) n

/-- The `w × h` bitmap whose pixel `(x, y)` is `f x y`. -/
def Bitmap.tabulate (w h : Nat) (f : Nat → Nat → Bool) : Bitmap := ⟨w, h, layoutCells w f 0 (strideOf w * h)⟩

/-- The `w × h` bitmap of zeros (R255). -/
def Bitmap.blank (w h : Nat) : Bitmap := ⟨w, h, []⟩

/-! ### Pixel accessors (R252, R253) -/

/-- Coordinates inside the bitmap (R251). -/
def Bitmap.inside (bm : Bitmap) (x y : Int) : Bool :=
  decide (0 ≤ x) && decide (x < bm.w) && decide (0 ≤ y) && decide (y < bm.h)

/-- `Get` (R252): 0 outside the bitmap. -/
def Bitmap.get (bm : Bitmap) (x y : Int) : Bool := bm.inside x y && bm.pixel x.toNat y.toNat

/-- A byte with bit `7 − k` replaced. -/
def putBit (b : Byte) (k : Nat) (v : Bool) : Byte :=
  packByte fun j => if j = k then v else b.getMsbD j

/-- `Set` (R253): nothing changes outside the bitmap. -/
def Bitmap.set (bm : Bitmap) (x y : Int) (v : Bool) : Bitmap :=
  if bm.inside x y then
    let a := y.toNat * bm.stride + x.toNat / 8
    { bm with cells := Store.write 0 bm.cells a (putBit (bm.byte a) (x.toNat % 8) v) }
  else bm

/-- `CopyLine` (R260): row `d` becomes row `r`, a row outside the bitmap reading as zeros. -/
def Bitmap.copyLine (bm : Bitmap) (d r : Int) : Bitmap :=
  if 0 ≤ d ∧ d < bm.h then
    Bitmap.tabulate bm.w bm.h fun x y => if (y : Int) = d then bm.get x r else bm.pixel x y
  else bm

/-! ### Composition (R261 to R263) -/

/-- `Combine(cop, d, s)` (R261). -/
def combine (cop : CombOp) (d s : Bool) : Bool :=
  match cop with
  | .or => d || s
  | .and => d && s
  | .xor => d ^^ s
  | .xnor => !(d ^^ s)
  | .replace => s

/-- Source coordinates inside the effective rectangle. -/
def Clip.covers (q : Clip) (sx sy : Int) : Bool :=
  decide (q.sx0 ≤ sx) && decide (sx < q.sx1) && decide (q.sy0 ≤ sy) && decide (sy < q.sy1)

/-- Composition of `src` onto `dst` at `(x, y)` (R263). Destination pixel `(dx, dy)` is written by source pixel
`(dx − x + RX, dy − y + RY)` when the effective rectangle holds it, and kept otherwise. -/
def Bitmap.compose (dst src : Bitmap) (x y : Int) (q : Clip) (cop : CombOp) : Bitmap :=
  Bitmap.tabulate dst.w dst.h fun dx dy =>
    let sx := (dx : Int) - x + q.rx
    let sy := (dy : Int) - y + q.ry
    if q.covers sx sy then combine cop (dst.pixel dx dy) (src.get sx sy) else dst.pixel dx dy

/-! ### Host access to a bitmap (R64, R65) -/

/-- The padding bits of the byte at address `a` (R64). -/
def Bitmap.padMask (bm : Bitmap) (a : Nat) : Byte :=
  packByte fun k => decide (bm.w ≤ a % bm.stride * 8 + k)

/-- `BmRead` of a valid bitmap: pixel bits exact, padding bits drawn (R65). -/
def Bitmap.hostRead (bm : Bitmap) (a draw : Nat) : Byte :=
  if a < bm.size then (bm.byte a &&& ~~~bm.padMask a) ||| (Config.bmPadding draw &&& bm.padMask a)
  else Config.bmStray draw

/-- `BmWrite` of a valid bitmap: the pixels of the byte are set, padding bits have no effect (R64, R65). -/
def Bitmap.hostWrite (bm : Bitmap) (a : Nat) (b : Byte) : Bitmap :=
  if a < bm.size then { bm with cells := Store.write 0 bm.cells a (b &&& ~~~bm.padMask a) } else bm

/-! ### The commands -/

/-- A command that needs the contents of a slot: BadState when the slot is invalid (R250). -/
def withBitmap (s : State) (slot : Nat) (f : Bitmap → Result) : Result :=
  match s.bitmap slot with
  | none => .raise .badState s
  | some bm => f bm

/-- `BM.ALLOC` (R255): a new all-zero bitmap of `ARG0 × ARG1`. -/
def execBmAlloc (slot : Byte) (s : State) : Host.Outcome State Fault Refusal :=
  command (.bmAlloc slot) s
    (let w := s.arg0.toNat
     let h := s.arg1.toNat
     if w = 0 ∨ h = 0 then .raise .operandRange s
     else if tooLarge s.cfg w h then .raise .resourceLimitExceeded s
     else .done (s.putBitmap slot.toNat (Bitmap.blank w h)))

/-- `BM.FREE` (R256). -/
def execBmFree (slot : Byte) (s : State) : Host.Outcome State Fault Refusal :=
  command (.bmFree slot) s (.done (s.freeBitmap slot.toNat))

/-- `BM.FILL` (R257). -/
def execBmFill (slot : Byte) (v : Bool) (s : State) : Host.Outcome State Fault Refusal :=
  command (.bmFill slot v) s
    (withBitmap s slot.toNat fun bm =>
      .done (s.putBitmap slot.toNat (Bitmap.tabulate bm.w bm.h fun _ _ => v)))

/-- `BM.GET` (R258): pixel `(ARG0, ARG1)`, read as signed. -/
def execBmGet (slot : Byte) (s : State) : Host.Outcome State Fault Refusal :=
  command (.bmGet slot) s
    (withBitmap s slot.toNat fun bm => .done (s.giveResult (bitWord (bm.get s.arg0.toInt s.arg1.toInt))))

/-- `BM.SET` (R259): pixel `(ARG0, ARG1)`, read as signed. -/
def execBmSet (slot : Byte) (v : Bool) (s : State) : Host.Outcome State Fault Refusal :=
  command (.bmSet slot v) s
    (withBitmap s slot.toNat fun bm => .done (s.putBitmap slot.toNat (bm.set s.arg0.toInt s.arg1.toInt v)))

/-- `BM.COPYLINE` (R260): destination row `ARG0`, source row `ARG1`. -/
def execBmCopyLine (slot : Byte) (s : State) : Host.Outcome State Fault Refusal :=
  command (.bmCopyLine slot) s
    (withBitmap s slot.toNat fun bm => .done (s.putBitmap slot.toNat (bm.copyLine s.arg0.toInt s.arg1.toInt)))

/-- `BM.COMPOSE` (R263): the source is read as it was at issue, so `src = dst` is allowed. -/
def execBmCompose (dst src : Byte) (cop : CombOp) (clip : Bool) (s : State) : Host.Outcome State Fault Refusal :=
  command (.bmCompose dst src cop clip) s
    (withBitmap s dst.toNat fun d =>
      withBitmap s src.toNat fun b =>
        .done (s.putBitmap dst.toNat
          (d.compose b s.arg0.toInt s.arg1.toInt (composeRect clip s.rect b.w b.h) cop)))

/-- `BM.EXPAND` (R264): grow to height `ARG0` with fill bit `v`; a height not above the old one changes nothing. -/
def execBmExpand (slot : Byte) (v : Bool) (s : State) : Host.Outcome State Fault Refusal :=
  command (.bmExpand slot v) s
    (withBitmap s slot.toNat fun bm =>
      let nh := s.arg0.toNat
      if nh ≤ bm.h then .done s
      else if s.cfg.bmMaxH < nh ∨ s.cfg.bmMaxBytes < bm.stride * nh then .raise .resourceLimitExceeded s
      else .done (s.putBitmap slot.toNat
        (Bitmap.tabulate bm.w nh fun x y => if y < bm.h then bm.pixel x y else v)))

/-- `BM.SUBIMAGE` (R265): the rectangle may leave the source, where it reads as 0. -/
def execBmSubImage (dst src : Byte) (s : State) : Host.Outcome State Fault Refusal :=
  command (.bmSubImage dst src) s
    (withBitmap s src.toNat fun b =>
      let w := s.rect.w.toNat
      let h := s.rect.h.toNat
      if w = 0 ∨ h = 0 then .raise .operandRange s
      else if tooLarge s.cfg w h then .raise .resourceLimitExceeded s
      else .done (s.putBitmap dst.toNat
        (Bitmap.tabulate w h fun i j => b.get (s.rect.x.toInt + i) (s.rect.y.toInt + j))))

/-- The field of a slot's header that a selector names (R266); an invalid slot gives 0 for each. -/
def slotField (sel : InfoSel) (slot : Option Bitmap) : Word :=
  match slot with
  | none => 0
  | some bm =>
    match sel with
    | .valid => 1
    | .width => BitVec.ofNat 32 bm.w
    | .height => BitVec.ofNat 32 bm.h
    | .stride => BitVec.ofNat 32 bm.stride

/-- `BM.INFO` (R266). -/
def execBmInfo (slot : Byte) (sel : InfoSel) (s : State) : Host.Outcome State Fault Refusal :=
  command (.bmInfo slot sel) s (.done (s.giveResult (slotField sel (s.bitmap slot.toNat))))

end Sys2Proof.Machine
end

