-- ==== Sys2Proof/Machine/MqDecoder.lean ====
section
/-! DEFINITION. The MQ arithmetic decoder (R150 to R158) and the commands `MQ.*` and `CX.*` (R157, R159 to R162). -/

namespace Sys2Proof.Machine

/-! ### Procedures -/

/-- What the decoder's procedures work on: its registers and the byte pointer, which is `BYTE_IDX` (R154). -/
structure Coder where
  a : Word
  c : Word
  ct : Word
  b : Byte
  st : MqState
  complete : Bool
  ptr : Word
  deriving DecidableEq, Repr

/-- The decoder's registers and pointer in a state. -/
def State.coder (s : State) : Coder :=
  ⟨s.mq.a, s.mq.c, s.mq.ct, s.mq.b, s.mq.st, s.mq.complete, s.cur.byteIdx⟩

/-- Put the decoder's registers and pointer back; `MQ_VALID` and `BIT_IDX` stay. -/
def State.putCoder (s : State) (k : Coder) : State :=
  { s with mq := ⟨k.a, k.c, k.ct, k.b, k.st, k.complete, s.mq.valid⟩, cur := ⟨k.ptr, s.cur.bitIdx⟩ }

/-- `ByteAt(i)` (R154): a fetch at or beyond the end of the span yields `0xFF`. -/
def byteAt (sp : Span) (i : Nat) : Byte := if i < sp.len then sp.byte i else 0xFF

/-- `IncPtr` (R154): the pointer saturates at `LEN`. -/
def incPtr (sp : Span) (p : Word) : Word := if p.toNat < sp.len then p + 1 else p

/-- The marker path of a byte-in (R155): the stream state moves on, the second time setting `MQ_COMPLETE`.
UNVERIFIED count (D10, U5), log 24. Unsafe relative to a reading with three. -/
def markerHit (k : Coder) : Coder :=
  match k.st with
  | .dataAvailable => { k with ct := 8, st := .decodingFinished }
  | .decodingFinished => { k with ct := 8, st := .looping, complete := true }
  | .looping => { k with ct := 8, complete := true }

/-- A byte-in before its end-of-stream test (R155). -/
def byteInFetch (sp : Span) (k : Coder) : Coder :=
  if k.b = 0xFF then
    let b1 := byteAt sp (k.ptr.toNat + 1)
    if b1 > 0x8F then markerHit k
    else { k with ptr := incPtr sp k.ptr, b := b1, c := k.c + 0xFE00 - (b1.setWidth 32 <<< 9), ct := 7 }
  else
    let p := incPtr sp k.ptr
    let b1 := byteAt sp p.toNat
    { k with ptr := p, b := b1, c := k.c + 0xFF00 - (b1.setWidth 32 <<< 8), ct := 8 }

/-- `BYTEIN` (R155). -/
def byteIn (sp : Span) (k : Coder) : Coder :=
  let k := byteInFetch sp k
  if sp.len ≤ k.ptr.toNat then { k with complete := true } else k

/-- One iteration of the renormalization (R156). -/
def renormStep (sp : Span) (k : Coder) : Coder :=
  let k := if k.ct = 0 then byteIn sp k else k
  { k with a := k.a <<< 1, c := k.c <<< 1, ct := k.ct - 1 }

/-- At most `n` iterations, stopping when bit 15 of `A` is set. -/
def renormLoop (sp : Span) : Nat → Coder → Coder
  | 0, k => k
  | n + 1, k =>
    let k := renormStep sp k
    if k.a.getLsbD 15 then k else renormLoop sp n k

/-- `RENORMD` (R156). It is entered with `1 ≤ A < 0x8000`, so its loop ends within 15 iterations.
DEDUCED, log 20. Unsafe only in unreachable states. -/
def renorm (sp : Span) (k : Coder) : Coder := renormLoop sp 15 k

/-- `INITDEC` (R157). -/
def initDec (sp : Span) (k : Coder) : Coder :=
  let b := byteAt sp k.ptr.toNat
  let k := byteIn sp
    { k with st := .dataAvailable, complete := false, b := b, c := (b ^^^ 0xFF).setWidth 32 <<< 16 }
  { k with c := k.c <<< 7, ct := k.ct - 7, a := 0x8000 }

/-- The context on the MPS side: `I <- NMPS` (R158). -/
def Ctx.onMps (x : Ctx) : Ctx := ⟨(qeRow x.idx).nmps, x.mps⟩

/-- The context on the LPS side: `MPS` is flipped when the row says so, `I <- NLPS` (R158). -/
def Ctx.onLps (x : Ctx) : Ctx := ⟨(qeRow x.idx).nlps, if (qeRow x.idx).switch then !x.mps else x.mps⟩

/-- What one decision yields: the bit, the context afterwards, and the decoder afterwards. -/
structure Decision where
  bit : Bool
  ctx : Ctx
  coder : Coder
  deriving DecidableEq, Repr

/-- `DECODE` (R158) against the context `x`. -/
def decodeBit (sp : Span) (x : Ctx) (k : Coder) : Decision :=
  let qe := (qeRow x.idx).qe
  let a := k.a - qe
  if k.c >>> 16 < a then
    if a.getLsbD 15 then ⟨x.mps, x, { k with a := a }⟩
    else if a < qe then ⟨!x.mps, x.onLps, renorm sp { k with a := a }⟩
    else ⟨x.mps, x.onMps, renorm sp { k with a := a }⟩
  else
    let k := { k with c := k.c - (a <<< 16) }
    if a < qe then ⟨x.mps, x.onMps, renorm sp { k with a := qe }⟩
    else ⟨!x.mps, x.onLps, renorm sp { k with a := qe }⟩

/-! ### The commands -/

/-- `MQ.INIT` (R157). -/
def execMqInit (s : State) : Host.Outcome State Fault Refusal :=
  command .mqInit s
    (if s.cur.bitIdx ≠ 0 then .raise .misaligned s
     else
       let t := s.putCoder (initDec s.span s.coder)
       .done { t with mq := { t.mq with valid := true } })

/-- `MQ.DECODE` (R159): one decision against context `ARG0` of the bank. -/
def execMqDecode (bank : Bank) (s : State) : Host.Outcome State Fault Refusal :=
  command (.mqDecode bank) s
    (if !s.mq.valid || !(s.bank bank).valid then .raise .badState s
     else if bankSize bank ≤ s.arg0.toNat then .raise .operandRange s
     else if s.mq.complete then .raise .arithmeticStreamComplete s
     else
       let entries := (s.bank bank).entries
       let d := decodeBit s.span (readCtx entries s.arg0.toNat) s.coder
       .done (((s.putCoder d.coder).putBank bank ⟨(s.bank bank).valid, writeCtx entries s.arg0.toNat d.ctx⟩).giveResult
         (bitWord d.bit)))

/-- `CX.CLEAR` (R160): every entry of the bank is `(0, 0)`, and the bank is valid. -/
def execCxClear (bank : Bank) (s : State) : Host.Outcome State Fault Refusal :=
  command (.cxClear bank) s (.done (s.putBank bank ⟨true, []⟩))

/-- `CX.RD` (R161): read entry `ARG0` in its packed form. -/
def execCxRd (bank : Bank) (s : State) : Host.Outcome State Fault Refusal :=
  command (.cxRd bank) s
    (if !(s.bank bank).valid then .raise .badState s
     else if bankSize bank ≤ s.arg0.toNat then .raise .operandRange s
     else .done (s.giveResult (readCtx (s.bank bank).entries s.arg0.toNat).packed))

/-- `CX.WR` (R162): write entry `ARG0` from the packed form in `ARG1`. -/
def execCxWr (bank : Bank) (s : State) : Host.Outcome State Fault Refusal :=
  command (.cxWr bank) s
    (if !(s.bank bank).valid then .raise .badState s
     else if bankSize bank ≤ s.arg0.toNat then .raise .operandRange s
     else
       match unpackCtx s.arg1 with
       | none => .raise .operandRange s
       | some x =>
         .done (s.putBank bank ⟨(s.bank bank).valid, writeCtx (s.bank bank).entries s.arg0.toNat x⟩))

end Sys2Proof.Machine
end

