-- ==== Sys2Proof/Machine/Region.lean ====
section
/-! DEFINITION. What the two region decoders share: the data a region decode works on, one checked decision (R164), and the
packing of a context number from neighbouring pixels. -/

namespace Sys2Proof.Machine

/-- What a region decode changes: the MQ decoder, the bank's entries, the destination, and the running typical-prediction
flag. -/
structure Region where
  coder : Coder
  entries : List (Nat × Ctx)
  bm : Bitmap
  ltp : Bool
  deriving DecidableEq, Repr

/-- A piece of a region decode: it goes on, or it ends with ArithmeticStreamComplete, in either case with what it has
made of the region so far (R317). -/
abbrev RegionStep := Except Region Region

/-- Continue a region decode. -/
def RegionStep.andThen (p : RegionStep) (f : Region → RegionStep) : RegionStep :=
  match p with
  | .ok r => f r
  | .error r => .error r

/-- One decision against context `i`: the bit, and the region with the decoder and the context updated (R158). -/
def Region.decision (sp : Span) (i : Nat) (r : Region) : Bool × Region :=
  let d := decodeBit sp (readCtx r.entries i) r.coder
  (d.bit, { r with coder := d.coder, entries := writeCtx r.entries i d.ctx })

/-- `CheckComplete` and then one decision, whose bit `use` puts to use (R164). -/
def Region.checked (sp : Span) (i : Nat) (r : Region) (use : Bool → Region → Region) : RegionStep :=
  if r.coder.complete then .error r
  else
    let d := r.decision sp i
    .ok (use d.1 d.2)

/-- `Set(DST, x, y, v)`. -/
def Region.setPixel (x y : Nat) (v : Bool) (r : Region) : Region := { r with bm := r.bm.set x y v }

/-- A typical-prediction decision: its bit is XORed into the running flag (R308, R360). -/
def Region.toggleLtp (v : Bool) (r : Region) : Region := { r with ltp := r.ltp ^^ v }

/-- A region step for each of `n` columns or rows from `i` on. -/
def RegionStep.each (f : Nat → Region → RegionStep) : Nat → Nat → Region → RegionStep
  | _, 0, r => .ok r
  | i, n + 1, r => RegionStep.andThen (f i r) (RegionStep.each f (i + 1) n)

/-- The number whose bit `k` is the `k`-th bit of the list. -/
def bitsNumber : List Bool → Nat
  | [] => 0
  | b :: t => b.toNat + 2 * bitsNumber t

end Sys2Proof.Machine
end

