-- ==== Sys2Proof/Machine/GenericRegion.lean ====
section
/-! DEFINITION. The generic-region decoder: context formation (R312 to R315), the row (R308), the row loop with its pause
samples (R307, R311), and the `GRD.*` commands (R304 to R306). -/

namespace Sys2Proof.Machine

/-! ### Context formation -/

/-- The adaptive-template offsets `A1` to `A4` (R36). -/
structure AtPixels where
  a1 : Int × Int
  a2 : Int × Int
  a3 : Int × Int
  a4 : Int × Int
  deriving DecidableEq, Repr

/-- The offsets in `GBAT_LO` and `GBAT_HI` (R36). -/
def GbRegs.atPixels (g : GbRegs) : AtPixels :=
  ⟨offsetPair g.atLo 0, offsetPair g.atLo 2, offsetPair g.atHi 0, offsetPair g.atHi 2⟩

/-- The neighbour positions of a template, bit 0 first (R312 to R315). -/
def gbTemplate (t : BitVec 2) (p : AtPixels) : List (Int × Int) :=
  if t = 0 then
    [(-1, 0), (-2, 0), (-3, 0), (-4, 0), p.a1, (2, -1), (1, -1), (0, -1),
     (-1, -1), (-2, -1), p.a2, p.a3, (1, -2), (0, -2), (-1, -2), p.a4]
  else if t = 1 then
    [(-1, 0), (-2, 0), (-3, 0), p.a1, (2, -1), (1, -1), (0, -1), (-1, -1), (-2, -1), (2, -2), (1, -2), (0, -2), (-1, -2)]
  else if t = 2 then
    [(-1, 0), (-2, 0), p.a1, (1, -1), (0, -1), (-1, -1), (-2, -1), (1, -2), (0, -2), (-1, -2)]
  else
    [(-1, 0), (-2, 0), (-3, 0), (-4, 0), p.a1, (1, -1), (0, -1), (-1, -1), (-2, -1), (-3, -1)]

/-- `Context(T, x, y)`: the neighbours read with `Get`, so a position outside the bitmap contributes 0 (R312 to R316). -/
def gbContext (t : BitVec 2) (p : AtPixels) (bm : Bitmap) (x y : Nat) : Nat :=
  bitsNumber ((gbTemplate t p).map fun d => bm.get (x + d.1) (y + d.2))

/-- `SLTP_CX[T]` (R310). -/
def sltpContext (t : BitVec 2) : Nat :=
  if t = 0 then 0x9B25 else if t = 1 then 0x0795 else if t = 2 then 0x00E5 else 0x0195

/-! ### The row (R308) -/

/-- Where the skip bitmap is read from. -/
inductive SkipSource where
  /-- `USESKIP = 0` -/
  | unused
  /-- the bitmap of slot `SKIP` -/
  | slot (bm : Bitmap)
  /-- slot `SKIP` is the destination itself; `GRD.START` forbids it, so no run has it -/
  | destination
  deriving DecidableEq, Repr

/-- What a generic-region decode reads and does not change. -/
structure GrdEnv where
  sp : Span
  w : Nat
  h : Nat
  t : BitVec 2
  tpgdon : Bool
  atPixels : AtPixels
  skip : SkipSource
  deriving DecidableEq, Repr

/-- The pixel is forced to zero by the skip bitmap (R308, R316). -/
def GrdEnv.skips (e : GrdEnv) (bm : Bitmap) (x y : Nat) : Bool :=
  match e.skip with
  | .unused => false
  | .slot k => k.get x y
  | .destination => bm.get x y

/-- One pixel of a row (R308). -/
def grdPixel (e : GrdEnv) (y x : Nat) (r : Region) : RegionStep :=
  if e.skips r.bm x y then .ok (r.setPixel x y false)
  else r.checked e.sp (gbContext e.t e.atPixels r.bm x y) fun v r => r.setPixel x y v

/-- The typical-prediction bit of a row (R308). -/
def grdSltp (e : GrdEnv) (r : Region) : RegionStep :=
  if e.tpgdon then r.checked e.sp (sltpContext e.t) Region.toggleLtp else .ok r

/-- `DecodeRow(y)` (R308). -/
def decodeRow (e : GrdEnv) (y : Nat) (r : Region) : RegionStep :=
  RegionStep.andThen (grdSltp e r) fun r =>
    if e.tpgdon && r.ltp then .ok { r with bm := r.bm.copyLine y ((y : Int) - 1) }
    else RegionStep.each (grdPixel e y) 0 e.w r

/-! ### The row loop (R307, R311) -/

/-- What the row loop changes beside the region: `GRD_ROW`, `GRD_STATE`, and the pause indicator with the host's writes to
it that are still to come. -/
structure GrdLoop where
  region : Region
  row : Nat
  st : GrdState
  pause : Bool
  feed : List (Option Bool)
  deriving DecidableEq, Repr

/-- The pause indicator and the feed when a row boundary is reached: what the host has written to `CTRL` by then takes
effect; with nothing listed the host has not written (R311). DESIGN CHOICE, log 4. Safe. -/
def pauseAt (pause : Bool) (feed : List (Option Bool)) : Bool × List (Option Bool) :=
  match feed with
  | [] => (pause, [])
  | none :: rest => (pause, rest)
  | some v :: rest => (v, rest)

/-- `RowLoop` with at most `n` rows to go (R307); `n` is `H − GRD_ROW`. DEDUCED, log 21. Unsafe only
in unreachable states. -/
def rowLoop (e : GrdEnv) : Nat → GrdLoop → GrdLoop
  | 0, l => l
  | n + 1, l =>
    match decodeRow e l.row l.region with
    | .error r => { l with region := r, st := .error }
    | .ok r =>
      if l.row + 1 = e.h then { l with region := r, row := l.row + 1, st := .finished }
      else
        let q := pauseAt l.pause l.feed
        let l := { l with region := r, row := l.row + 1, pause := q.1, feed := q.2 }
        if q.1 then l else rowLoop e n l

/-! ### The commands -/

/-- The destination and the MQ decoder, bank 0 and the run state as the row loop leaves them; an Error is
ArithmeticStreamComplete (R317). -/
def finishGrd (s : State) (l : GrdLoop) : Result :=
  let t := ((s.putCoder l.region.coder).putBank .gb ⟨s.gbBank.valid, l.region.entries⟩).putBitmap s.gb.dst l.region.bm
  let t := { t with
    grd := ⟨l.st, BitVec.ofNat 32 l.row, l.region.ltp⟩
    pause := l.pause
    host := { t.host with pauseFeed := l.feed } }
  if l.st = .error then .raise .arithmeticStreamComplete t else .done t

/-- The registers of a generic-region decode (R301), read when a command starts. -/
def grdEnv (s : State) (skip : SkipSource) : GrdEnv :=
  ⟨s.span, s.gb.w.toNat, s.gb.h.toNat, s.gb.template, s.gb.tpgdon, s.gb.atPixels, skip⟩

/-- Run the row loop from row `row` on the destination `bm` (R307). -/
def runGrd (s : State) (skip : SkipSource) (bm : Bitmap) (row : Nat) (ltp : Bool) : Result :=
  finishGrd s (rowLoop (grdEnv s skip) (s.gb.h.toNat - row)
    ⟨⟨s.coder, s.gbBank.entries, bm, ltp⟩, row, .decoding, s.pause, s.host.pauseFeed⟩)

/-- The skip source, or BadState when the skip slot is needed and invalid (R304, R305). -/
def withSkip (s : State) (f : SkipSource → Result) : Result :=
  if s.gb.useSkip then
    match s.bitmap s.gb.skip with
    | none => .raise .badState s
    | some k => f (if s.gb.skip = s.gb.dst then .destination else .slot k)
  else f .unused

/-- `GRD.START` (R304): the destination is made anew, all zero; the bank is not cleared. -/
def execGrdStart (s : State) : Host.Outcome State Fault Refusal :=
  command .grdStart s
    (if s.grd.st = .decoding ∨ s.mq.valid = false ∨ s.gbBank.valid = false then .raise .badState s
     else if s.gb.w = 0 ∨ s.gb.h = 0 ∨ s.cfg.nbm ≤ s.gb.dst
         ∨ (s.gb.useSkip = true ∧ (s.cfg.nbm ≤ s.gb.skip ∨ s.gb.skip = s.gb.dst)) then .raise .operandRange s
     else withSkip s fun skip =>
       if tooLarge s.cfg s.gb.w.toNat s.gb.h.toNat then .raise .resourceLimitExceeded s
       else runGrd s skip (Bitmap.blank s.gb.w.toNat s.gb.h.toNat) 0 false)

/-- `GRD.CONT` (R305): resume a paused decode at `GRD_ROW`. -/
def execGrdCont (s : State) : Host.Outcome State Fault Refusal :=
  command .grdCont s
    (if s.grd.st ≠ .decoding ∨ s.mq.valid = false ∨ s.gbBank.valid = false then .raise .badState s
     else withBitmap s s.gb.dst fun bm =>
       if bm.w ≠ s.gb.w.toNat ∨ bm.h ≠ s.gb.h.toNat then .raise .badState s
       else withSkip s fun skip => runGrd s skip bm s.grd.row.toNat s.grd.ltp)

/-- `GRD.ABORT` (R306): abandon the decode and unlock the parameter registers. -/
def execGrdAbort (s : State) : Host.Outcome State Fault Refusal :=
  command .grdAbort s (.done (s.setGrd ⟨.ready, 0, false⟩))

end Sys2Proof.Machine
end

