-- ==== Sys2Proof/Machine/Huffman.lean ====
section
/-! DEFINITION. The Huffman decoder and table store: code assignment (R206), the custom table description (R209, R210),
decoding a value (R211), and the `HT.*` commands (R208, R212, R214, R215). -/

namespace Sys2Proof.Machine

/-! ### Canonical codes (R206) -/

/-- `count[L]` for `L ≥ 1`: the rows whose prefix length is `L`; rows of length 0 are not counted. -/
def lengthCount (rows : List RawRow) (len : Nat) : Nat :=
  if len = 0 then 0 else rows.countP fun r => r.preflen == len

/-- `firstCode[L]`, in exact arithmetic. -/
def firstCode (rows : List RawRow) : Nat → Nat
  | 0 => 0
  | len + 1 => (firstCode rows len + lengthCount rows len) * 2

/-- `CODE` of a row of prefix length `len` that stands after the rows `before` in the table `rows`: the codes of one length
ascend in table order. A row of length 0 has code 0. -/
def codeOf (rows before : List RawRow) (len : Nat) : Nat :=
  if len = 0 then 0 else firstCode rows len + lengthCount before len

/-- A row with its code: the store keeps `CODE mod 2^32` and the bit `DEAD`, equal to `CODE ≥ 2^PREFLEN` (R34). -/
def assignRow (rows before : List RawRow) (r : RawRow) : HtRow :=
  let code := codeOf rows before r.preflen
  ⟨r.kind, r.preflen, r.rangelen, r.rangelow, BitVec.ofNat 32 code, decide (2 ^ r.preflen ≤ code)⟩

/-- A row that never matches (R206): its code does not fit its length (`DEAD`), or it has no code. DEDUCED, log 18: the bit
`DEAD` is R34's formula, which a row of length 0 does not meet. Unsafe for that bit of `HT.ROW`. -/
def HtRow.isDead (r : HtRow) : Bool := r.dead || decide (r.preflen = 0)

/-- Assign the rows `rest`, which stand after the rows `before`. -/
def assignFrom (rows before : List RawRow) : List RawRow → List HtRow
  | [] => []
  | r :: rest => assignRow rows before r :: assignFrom rows (before ++ [r]) rest

/-- `AssignCodes` (R206). -/
def assignCodes (rows : List RawRow) : List HtRow := assignFrom rows [] rows

/-! ### The table store (R34) -/

/-- A standard table from the ROM, its codes assigned (R220). -/
def romTable (p : Params) (id : Nat) : Option HTable :=
  (p.stdRom[id - 1]?).map fun t => ⟨t.oob, assignCodes t.rows⟩

/-- The table with a given id: ids up to 15 are the ROM's, the others custom slots (R34). -/
def State.table (s : State) (id : Nat) : Option HTable :=
  if id < 16 then romTable s.cfg id else Store.get s.tables id

/-! ### Parsing a custom table (R209, R210) -/

/-- The end of a procedure that reads the stream: a value, or a raise with the cursor where it stands. -/
inductive Parse (α : Type) where
  | ok (v : α) (c : Cursor)
  | raise (f : FaultCode) (c : Cursor)
  deriving DecidableEq, Repr

/-- `need(ReadBits(n))` (R210): a boundary is StreamExhausted. -/
def need (sp : Span) (c : Cursor) (n : Nat) : Parse Nat :=
  let r := readBits sp c n
  if r.boundary then .raise .streamExhausted r.cur else .ok r.value r.cur

/-- Continue after a value, passing a raise on. -/
def Parse.andThen {α β : Type} (p : Parse α) (f : α → Cursor → Parse β) : Parse β :=
  match p with
  | .ok v c => f v c
  | .raise e c => .raise e c

/-- The fields of a description's header that its rows depend on (R209). -/
structure HtHeader where
  oob : Bool
  ps : Nat
  rs : Nat
  low : Int
  high : Int
  deriving DecidableEq, Repr

/-- The flags byte and the two bounds (R209, R210). -/
def parseHeader (sp : Span) (c : Cursor) : Parse HtHeader :=
  (need sp c 8).andThen fun f c =>
    if f.testBit 7 then .raise .structuralError c
    else (need sp c 32).andThen fun lo c =>
      (need sp c 32).andThen fun hi c =>
        let low := (BitVec.ofNat 32 lo).toInt
        let high := (BitVec.ofNat 32 hi).toInt
        if high < low then .raise .structuralError c
        else .ok ⟨f.testBit 0, f / 2 % 8 + 1, f / 16 % 8 + 1, low, high⟩ c

/-- The normal rows (R210), at most `fuel` of them: `cur` is `CURLOW` and `rows` the rows so far. The row limit raises before
`fuel = HT_MAXROWS + 1` runs out. -/
def parseNormal (sp : Span) (maxRows : Nat) (hd : HtHeader) : Nat → Int → List RawRow → Cursor → Parse (List RawRow)
  | 0, _, _, c => .raise .resourceLimitExceeded c
  | fuel + 1, cur, rows, c =>
    (need sp c hd.ps).andThen fun p c =>
      (need sp c hd.rs).andThen fun r c =>
        if 31 < r then .raise .structuralError c
        else
          let rows := rows ++ [⟨.normal, p, r, BitVec.ofInt 32 cur⟩]
          let cur := cur + 2 ^ r
          if 2 ^ 31 - 1 < cur then .raise .structuralError c
          else if maxRows < rows.length + 2 + hd.oob.toNat then .raise .resourceLimitExceeded c
          else if hd.high ≤ cur then .ok rows c
          else parseNormal sp maxRows hd fuel cur rows c

/-- The Lower row, the Upper row and the Oob row if requested (R210). -/
def parseEscapes (sp : Span) (hd : HtHeader) (rows : List RawRow) (c : Cursor) : Parse (List RawRow) :=
  if hd.low = -2 ^ 31 then .raise .structuralError c
  else (need sp c hd.ps).andThen fun pl c =>
    (need sp c hd.ps).andThen fun pu c =>
      let rows := rows ++ [⟨.lower, pl, 32, BitVec.ofInt 32 (hd.low - 1)⟩, ⟨.upper, pu, 32, BitVec.ofInt 32 hd.high⟩]
      if hd.oob then (need sp c hd.ps).andThen fun po c => .ok (rows ++ [⟨.oob, po, 0, 0⟩]) c
      else .ok rows c

/-- `ParseTable` (R210), with the codes assigned (R206). -/
def parseTable (sp : Span) (maxRows : Nat) (c : Cursor) : Parse HTable :=
  (parseHeader sp c).andThen fun hd c =>
    (parseNormal sp maxRows hd (maxRows + 1) hd.low [] c).andThen fun rows c =>
      (parseEscapes sp hd rows c).andThen fun rows c =>
        if rows.any fun r => decide (32 < r.preflen) then .raise .structuralError c
        else .ok ⟨hd.oob, assignCodes rows⟩ c

/-! ### Decoding a value (R211) -/

/-- The live row that the `n`-bit candidate `cand` matches. -/
def matchRow (rows : List HtRow) (n cand : Nat) : Option HtRow :=
  rows.find? fun r => !r.isDead && r.preflen == n && r.code.toNat == cand

/-- The value of a matched row after its literal bits: `none` is the out-of-band indication; only a Lower row subtracts
(R201), and the result wraps as an `i32` (R203). -/
def rowValue (sp : Span) (r : HtRow) (c : Cursor) : Parse (Option Word) :=
  match r.kind with
  | .oob => .ok none c
  | .lower => (need sp c r.rangelen).andThen fun off c => .ok (some (r.rangelow - BitVec.ofNat 32 off)) c
  | .normal => (need sp c r.rangelen).andThen fun off c => .ok (some (r.rangelow + BitVec.ofNat 32 off)) c
  | .upper => (need sp c r.rangelen).andThen fun off c => .ok (some (r.rangelow + BitVec.ofNat 32 off)) c

/-- `DecodeValue` from a candidate of `n` bits, with `fuel` more prefix bits allowed (R211). -/
def decodeFrom (sp : Span) (rows : List HtRow) : Nat → Nat → Nat → Cursor → Parse (Option Word)
  | 0, _, _, c => .raise .huffmanNoCode c
  | fuel + 1, n, cand, c =>
    (need sp c 1).andThen fun b c =>
      match matchRow rows (n + 1) (cand * 2 + b) with
      | some r => rowValue sp r c
      | none => decodeFrom sp rows fuel (n + 1) (cand * 2 + b) c

/-- `DecodeValue` (R211): at most 32 prefix bits. -/
def decodeValue (sp : Span) (t : HTable) (c : Cursor) : Parse (Option Word) :=
  decodeFrom sp t.rows Config.htMaxLen 0 0 c

/-! ### The commands -/

/-- `HT.PARSE` (R208): the slot is invalid from the start of the operation until it succeeds. -/
def execHtParse (id : Byte) (s : State) : Host.Outcome State Fault Refusal :=
  command (.htParse id) s
    (if s.cur.bitIdx ≠ 0 then .raise .misaligned s
     else
       let t := (s.dropTable id.toNat).dropMq
       match parseTable s.span s.cfg.htMaxRows s.cur with
       | .ok table c => .done ((t.setCursor c).putTable id.toNat table)
       | .raise f c => .raise f (t.setCursor c))

/-- `HT.DECODE` (R212). -/
def execHtDecode (id : Byte) (s : State) : Host.Outcome State Fault Refusal :=
  command (.htDecode id) s
    (match s.table id.toNat with
     | none => .raise .badState s
     | some table =>
       match decodeValue s.span table s.cur with
       | .ok (some v) c => .done ((s.setCursor c).dropMq.giveResult v)
       | .ok none c => .done ((s.setCursor c).dropMq.setResult 0 true false)
       | .raise f c => .raise f (s.setCursor c).dropMq)

/-- `HT.INFO` (R214): the header of a table, or 0 for an invalid custom slot. -/
def execHtInfo (id : Byte) (s : State) : Host.Outcome State Fault Refusal :=
  command (.htInfo id) s
    (.done (s.giveResult
      (match s.table id.toNat with
       | none => 0
       | some t => BitVec.ofNat 32 (t.rows.length + t.oob.toNat * 2 ^ 16 + 2 ^ 31))))

/-- The field of a row that a selector names (R215). -/
def rowField (sel : RowSel) (r : HtRow) : Word :=
  match sel with
  | .preflen => BitVec.ofNat 32 r.preflen
  | .rangelen => BitVec.ofNat 32 r.rangelen
  | .rangelow => r.rangelow
  | .code => r.code
  | .kind => rowKindCode r.kind + if r.dead then 256 else 0

/-- `HT.ROW` (R215): one field of row `ARG0`. -/
def execHtRow (id : Byte) (sel : RowSel) (s : State) : Host.Outcome State Fault Refusal :=
  command (.htRow id sel) s
    (match s.table id.toNat with
     | none => .raise .badState s
     | some t =>
       match t.rows[s.arg0.toNat]? with
       | none => .raise .operandRange s
       | some r => .done (s.giveResult (rowField sel r)))

end Sys2Proof.Machine
end

