-- ==== Sys2Proof/Machine/RefinementRegion.lean ====
section
/-! DEFINITION. The refinement-region decoder: context formation (R357, R358), typical prediction (R360, R361) and
`GRR.DECODE` (R353). -/

namespace Sys2Proof.Machine

/-! ### Context formation -/

/-- A neighbour of a refinement context: a pixel of the reference or of the bitmap being decoded, by its offset. -/
inductive Neighbour where
  /-- `R(i, j)` -/
  | reference (i j : Int)
  /-- `P(i, j)` -/
  | decoded (i j : Int)
  deriving DecidableEq, Repr

/-- What a refinement-region decode reads and does not change (R350). -/
structure GrrEnv where
  sp : Span
  w : Nat
  h : Nat
  t : BitVec 1
  tpgron : Bool
  ref : Bitmap
  dx : Int
  dy : Int
  a1 : Int × Int
  a2 : Int × Int
  centerDisplaced : Bool
  deriving DecidableEq, Repr

/-- The neighbours of a template, bit 0 first (R357, R358). Template 1 ignores the adaptive pixels (R359). -/
def grTemplate (t : BitVec 1) (a1 a2 : Int × Int) : List Neighbour :=
  if t = 0 then
    [.reference 1 1, .reference 0 1, .reference (-1) 1, .reference 1 0, .reference 0 0, .reference (-1) 0,
     .reference 1 (-1), .reference 0 (-1), .reference a2.1 a2.2,
     .decoded (-1) 0, .decoded 1 (-1), .decoded 0 (-1), .decoded a1.1 a1.2]
  else
    [.reference 1 1, .reference 0 1, .reference 1 0, .reference 0 0, .reference (-1) 0, .reference 0 (-1),
     .decoded (-1) 0, .decoded 1 (-1), .decoded 0 (-1), .decoded (-1) (-1)]

/-- A neighbour's value for pixel `(x, y)`; the corresponding reference pixel is `(x − dx, y − dy)` (R350). -/
def GrrEnv.look (e : GrrEnv) (bm : Bitmap) (x y : Nat) : Neighbour → Bool
  | .reference i j => e.ref.get (x - e.dx + i) (y - e.dy + j)
  | .decoded i j => bm.get (x + i) (y + j)

/-- `RContext(T, x, y)` (R357, R358). -/
def grContext (e : GrrEnv) (bm : Bitmap) (x y : Nat) : Nat :=
  bitsNumber ((grTemplate e.t e.a1 e.a2).map (e.look bm x y))

/-- `SLTP_RCX[T]` (R360). -/
def sltpRefContext (t : BitVec 1) : Nat := if t = 0 then 0x0010 else 0x0008

/-! ### Typical prediction (R361) -/

/-- The centre of the 3×3 test (R361). -/
def GrrEnv.centre (e : GrrEnv) (x y : Nat) : Int × Int :=
  if e.centerDisplaced then ((x : Int) - e.dx, (y : Int) - e.dy) else ((x : Int), (y : Int))

/-- `TypicalValue(x, y)` (R361). -/
def GrrEnv.typicalValue (e : GrrEnv) (x y : Nat) : Bool := e.ref.get (e.centre x y).1 (e.centre x y).2

/-- `Uniform(x, y)` (R361). -/
def GrrEnv.uniform (e : GrrEnv) (x y : Nat) : Bool :=
  ([-1, 0, 1] : List Int).all fun j => ([-1, 0, 1] : List Int).all fun i =>
    e.ref.get ((e.centre x y).1 + i) ((e.centre x y).2 + j) == e.typicalValue x y

/-! ### Rows and the command (R353) -/

/-- One pixel (R353). -/
def grrPixel (e : GrrEnv) (y x : Nat) (r : Region) : RegionStep :=
  if e.tpgron && r.ltp && e.uniform x y then .ok (r.setPixel x y (e.typicalValue x y))
  else r.checked e.sp (grContext e r.bm x y) fun v r => r.setPixel x y v

/-- The typical-prediction bit of a row (R360). -/
def grrSltp (e : GrrEnv) (r : Region) : RegionStep :=
  if e.tpgron then r.checked e.sp (sltpRefContext e.t) Region.toggleLtp else .ok r

/-- One row (R353). -/
def grrRow (e : GrrEnv) (y : Nat) (r : Region) : RegionStep :=
  RegionStep.andThen (grrSltp e r) (RegionStep.each (grrPixel e y) 0 e.w)

/-- All rows (R353). -/
def grrRows (e : GrrEnv) (r : Region) : RegionStep := RegionStep.each (grrRow e) 0 e.h r

/-- The destination, the MQ decoder and bank 1 as the decode leaves them. -/
def putGrr (s : State) (r : Region) : State :=
  ((s.putCoder r.coder).putBank .gr ⟨s.grBank.valid, r.entries⟩).putBitmap s.gr.dst r.bm

/-- The registers of a refinement-region decode (R350), read when the command starts. -/
def grrEnv (s : State) (ref : Bitmap) : GrrEnv where
  sp := s.span
  w := s.gr.w.toNat
  h := s.gr.h.toNat
  t := s.gr.template
  tpgron := s.gr.tpgron
  ref := ref
  dx := s.gr.refDx.toInt
  dy := s.gr.refDy.toInt
  a1 := offsetPair s.gr.atPix 0
  a2 := offsetPair s.gr.atPix 2
  centerDisplaced := s.cfg.tpgrCenterDisplaced

/-- `GRR.DECODE` (R353). -/
def execGrrDecode (s : State) : Host.Outcome State Fault Refusal :=
  command .grrDecode s
    (if s.mq.valid = false ∨ s.grBank.valid = false then .raise .badState s
     else if s.gr.w = 0 ∨ s.gr.h = 0 ∨ s.cfg.nbm ≤ s.gr.dst ∨ s.cfg.nbm ≤ s.gr.ref ∨ s.gr.ref = s.gr.dst then
       .raise .operandRange s
     else withBitmap s s.gr.ref fun ref =>
       if tooLarge s.cfg s.gr.w.toNat s.gr.h.toNat then .raise .resourceLimitExceeded s
       else
         match grrRows (grrEnv s ref)
             ⟨s.coder, s.grBank.entries, Bitmap.blank s.gr.w.toNat s.gr.h.toNat, false⟩ with
         | .ok r => .done (putGrr s r)
         | .error r => .raise .arithmeticStreamComplete (putGrr s r))

end Sys2Proof.Machine
end

