-- ==== Sys2Proof/Machine/System.lean ====
section
/-! DEFINITION. The system commands `SYS.NOP` (R405), `SYS.CLRF` (R396), `SYS.RESET` (R431). -/

namespace Sys2Proof.Machine

/-- `SYS.NOP` (R405): nothing at all. -/
def execSysNop (s : State) : Host.Outcome State Fault Refusal := command .sysNop s (.done s)

/-- `SYS.CLRF` (R396): clear the fault. Accepted while Faulted (R397). -/
def execSysClrf (s : State) : Host.Outcome State Fault Refusal := .next s.clearFault

/-- `SYS.RESET` (R431): soft reset. Accepted while Faulted (R397). -/
def execSysReset (s : State) : Host.Outcome State Fault Refusal := .next s.softReset

end Sys2Proof.Machine
end

