-- ==== Sys2Proof/Machine/Dispatch.lean ====
section
/-! DEFINITION. One arm per command: its meaning. -/

namespace Sys2Proof.Machine

def exec (i : Instr) (s : State) : Host.Outcome State Fault Refusal :=
  match i with
  | .sysNop => Sys2Proof.Machine.execSysNop s
  | .sysClrf => Sys2Proof.Machine.execSysClrf s
  | .sysReset => Sys2Proof.Machine.execSysReset s
  | .brSeek => Sys2Proof.Machine.execBrSeek s
  | .brSkip => Sys2Proof.Machine.execBrSkip s
  | .brAlign => Sys2Proof.Machine.execBrAlign s
  | .brReadBits n => Sys2Proof.Machine.execBrReadBits n s
  | .brReadByte => Sys2Proof.Machine.execBrReadByte s
  | .brReadU16 => Sys2Proof.Machine.execBrReadU16 s
  | .brReadU32 => Sys2Proof.Machine.execBrReadU32 s
  | .brRemain => Sys2Proof.Machine.execBrRemain s
  | .mqInit => Sys2Proof.Machine.execMqInit s
  | .mqDecode bank => Sys2Proof.Machine.execMqDecode bank s
  | .cxClear bank => Sys2Proof.Machine.execCxClear bank s
  | .cxRd bank => Sys2Proof.Machine.execCxRd bank s
  | .cxWr bank => Sys2Proof.Machine.execCxWr bank s
  | .htParse id => Sys2Proof.Machine.execHtParse id s
  | .htDecode id => Sys2Proof.Machine.execHtDecode id s
  | .htInfo id => Sys2Proof.Machine.execHtInfo id s
  | .htRow id sel => Sys2Proof.Machine.execHtRow id sel s
  | .bmAlloc slot => Sys2Proof.Machine.execBmAlloc slot s
  | .bmFree slot => Sys2Proof.Machine.execBmFree slot s
  | .bmFill slot v => Sys2Proof.Machine.execBmFill slot v s
  | .bmGet slot => Sys2Proof.Machine.execBmGet slot s
  | .bmSet slot v => Sys2Proof.Machine.execBmSet slot v s
  | .bmCopyLine slot => Sys2Proof.Machine.execBmCopyLine slot s
  | .bmCompose dst src cop clip => Sys2Proof.Machine.execBmCompose dst src cop clip s
  | .bmExpand slot v => Sys2Proof.Machine.execBmExpand slot v s
  | .bmSubImage dst src => Sys2Proof.Machine.execBmSubImage dst src s
  | .bmInfo slot sel => Sys2Proof.Machine.execBmInfo slot sel s
  | .grdStart => Sys2Proof.Machine.execGrdStart s
  | .grdCont => Sys2Proof.Machine.execGrdCont s
  | .grdAbort => Sys2Proof.Machine.execGrdAbort s
  | .grrDecode => Sys2Proof.Machine.execGrrDecode s

end Sys2Proof.Machine
end

