-- ==== Sys2Proof/Machine/Port.lean ====
section
/-! DEFINITION. The host's side of the port: the register window (R21, R42), the issue of a command word (R100), the source and
bitmap windows (R61, R65), and one host operation (R446). -/

namespace Sys2Proof.Machine

/-! ### The register window -/

/-- What a register reads as, by its offset (R21): 0 for `CMD` and for the offsets that hold no register. -/
def State.regView (s : State) (off : Byte) : Word :=
  match off.toNat with
  | 0x04 => s.statusWord
  | 0x08 => s.faultWord
  | 0x0C => s.faultCmd
  | 0x10 => s.result
  | 0x14 => s.flagsWord
  | 0x18 => bitWord s.pause
  | 0x1C => s.srcLen
  | 0x20 => s.arg0
  | 0x24 => s.arg1
  | 0x28 => s.rect.x
  | 0x2C => s.rect.y
  | 0x30 => s.rect.w
  | 0x34 => s.rect.h
  | 0x38 => s.cur.byteIdx
  | 0x3C => s.cur.bitIdx.setWidth 32
  | 0x40 => s.mq.a
  | 0x44 => s.mq.c
  | 0x48 => s.mq.ct
  | 0x4C => s.mq.b.setWidth 32
  | 0x50 => s.gb.w
  | 0x54 => s.gb.h
  | 0x58 => s.gb.cfg
  | 0x5C => s.gb.atLo
  | 0x60 => s.gb.atHi
  | 0x64 => s.grd.row
  | 0x68 => s.gr.w
  | 0x6C => s.gr.h
  | 0x70 => s.gr.cfg
  | 0x74 => s.gr.refDx
  | 0x78 => s.gr.refDy
  | 0x7C => s.gr.atPix
  | 0x80 => Config.idWord
  | _ => 0

/-- A write to one of the five generic-region registers, ignored while a decode is in progress (R36). -/
def State.writeGb (s : State) (g : GbRegs) : State := if s.grd.st = .decoding then s else { s with gb := g }

/-- A write to `SRC_LEN`: the construction of the reader (R26). -/
def State.writeSrcLen (s : State) (v : Word) : State :=
  (({ s with srcLen := v, cur := ⟨0, 0⟩ }).dropMq).loseGrd

/-- A register write other than to `CMD`, by offset (R21, R42, R446): read-only registers and offsets that hold no register
ignore it, and reserved fields are not stored. -/
def State.regWrite (s : State) (off : Byte) (v : Word) : State :=
  match off.toNat with
  | 0x18 => { s with pause := v.getLsbD 0 }
  | 0x1C => s.writeSrcLen v
  | 0x20 => { s with arg0 := v }
  | 0x24 => { s with arg1 := v }
  | 0x28 => { s with rect := { s.rect with x := v } }
  | 0x2C => { s with rect := { s.rect with y := v } }
  | 0x30 => { s with rect := { s.rect with w := v } }
  | 0x34 => { s with rect := { s.rect with h := v } }
  | 0x50 => s.writeGb { s.gb with w := v }
  | 0x54 => s.writeGb { s.gb with h := v }
  | 0x58 => s.writeGb { s.gb with cfg := v &&& gbCfgMask }
  | 0x5C => s.writeGb { s.gb with atLo := v }
  | 0x60 => s.writeGb { s.gb with atHi := v }
  | 0x68 => { s with gr := { s.gr with w := v } }
  | 0x6C => { s with gr := { s.gr with h := v } }
  | 0x70 => { s with gr := { s.gr with cfg := v &&& grCfgMask } }
  | 0x74 => { s with gr := { s.gr with refDx := v } }
  | 0x78 => { s with gr := { s.gr with refDy := v } }
  | 0x7C => { s with gr := { s.gr with atPix := v } }
  | _ => s

/-! ### Issue of a command word (R100) -/

/-- The word is executed: always while Idle, while Faulted only if it is exactly `SYS.CLRF` or `SYS.RESET` (R100). -/
def State.accepts (s : State) (w : Word) : Bool :=
  decide (s.core = .idle) || decide (w = encode .sysClrf) || decide (w = encode .sysReset)

/-- A write of `w` to `CMD` (R100): a legal word runs its command, any other raises IllegalCommand while Idle (R96) and is
ignored while Faulted (R397). -/
def issue (w : Word) (s : State) : Host.Outcome State Fault Refusal :=
  match decode s.cfg w with
  | .ok i => exec i s
  | .error _ => .next (if s.core = .idle then s.takeFault .illegalCommand w else s)

/-! ### The source and bitmap windows -/

/-- `SrcWrite(i, b)` (R61): a write into the live span also ends the decoder state derived from it. -/
def State.srcWrite (s : State) (i : Nat) (b : Byte) : State :=
  let t := { s with src := Store.set s.src i b }
  if i < s.len then (t.dropMq).loseGrd else t

/-- `BmWrite(s, a, b)` (R65): ignored for an invalid slot. -/
def State.bmWrite (s : State) (slot a : Nat) (b : Byte) : State :=
  match s.bitmap slot with
  | none => s
  | some bm => s.putBitmap slot (bm.hostWrite a b)

/-- `BmRead(s, a)` with the draw that its unspecified bits come from (R65). -/
def State.bmRead (s : State) (slot a draw : Nat) : Byte :=
  match s.bitmap slot with
  | none => Config.bmStray draw
  | some bm => bm.hostRead a draw

/-! ### One host operation (R446) -/

/-- What a read returns to the host. -/
def State.returnData (s : State) (v : Word) : State := { s with host := { s.host with readData := v } }

/-- Use up a draw (R18). -/
def State.spendDraw (s : State) : State := { s with host := { s.host with draws := s.host.draws + 1 } }

/-- Whether a `STATUS` read may still find the last operation's command executing (R72). -/
def State.setBusyWindow (s : State) (v : Bool) : State := { s with host := { s.host with busyWindow := v } }

/-- The host operation `op` in a state it has been taken from (R446). -/
def hostStep (op : HostOp) (s : State) : Host.Outcome State Fault Refusal :=
  match op with
  | .regRead off =>
    if off.toNat % 4 ≠ 0 then .fault .misalignedRegister
    else .next ((s.setBusyWindow false).returnData (s.regView off))
  | .regWrite off v =>
    if off.toNat % 4 ≠ 0 then .fault .misalignedRegister
    else if off = 0 then issue v (s.setBusyWindow (s.accepts v))
    else .next ((s.setBusyWindow false).regWrite off v)
  | .srcRead i =>
    if i < Config.srcCap then .next ((s.setBusyWindow false).returnData ((s.span.byte i).setWidth 32))
    else .fault .noSourceByte
  | .srcWrite i b =>
    if i < Config.srcCap then .next ((s.setBusyWindow false).srcWrite i b) else .fault .noSourceByte
  | .bmRead slot a =>
    .next (((s.setBusyWindow false).returnData ((s.bmRead slot a s.host.draws).setWidth 32)).spendDraw)
  | .bmWrite slot a b => .next ((s.setBusyWindow false).bmWrite slot a b)
  | .hardReset => .next ((s.setBusyWindow false).hardReset)
  | .statusWhileBusy =>
    if s.host.busyWindow then .next ((s.returnData (busyStatusWord s.host.draws)).spendDraw)
    else .next (s.returnData s.statusWord)

/-- The state with its next host operation taken from the list. -/
def State.popOp (s : State) (rest : List HostOp) : State := { s with host := { s.host with ops := rest } }

/-- One step: the host's next operation; with none left the block does nothing on its own (R446). -/
def portStep (s : State) : Host.Outcome State Fault Refusal :=
  match s.host.ops with
  | [] => .next s
  | op :: rest => hostStep op (s.popOp rest)

/-- The state with the operation `op` put before the host's other operations. -/
def State.pushOp (s : State) (op : HostOp) : State := { s with host := { s.host with ops := op :: s.host.ops } }

end Sys2Proof.Machine
end

