-- ==== Sys2Proof/Machine/Step.lean ====
section
/-! DEFINITION. One step of the machine (R446), and the placing of a command word where the next step takes it from. -/

namespace Sys2Proof.Machine

/-- One step: the host's next operation on the port, a command being the write of its word to `CMD` (R90, R100). -/
def step (s : State) : Host.Outcome State Fault Refusal := portStep s

/-- The state in which the host's next operation is the write of this command word to `CMD`. Every command is one 32-bit
word (R90), so the bits are the word. -/
def State.withFetchWord (s : State) (_nbits w : Nat) : State := s.pushOp (.regWrite 0x00 (BitVec.ofNat 32 w))

end Sys2Proof.Machine
end

