-- ==== Sys2Proof/Safety.lean ====
section
/-! DEFINITION. What holds between steps, in the terms the claims use: the invariants of R46 and of the registers and
memories, part by part and together, and when a run has ended without a fault (R446). -/

namespace Sys2Proof.Machine

/-- R46 (1), R27: the cursor is inside the span, and at its end it is byte-aligned. -/
def State.CursorOk (s : State) : Prop :=
  s.cur.byteIdx.toNat ≤ s.len ∧ (s.cur.byteIdx.toNat = s.len → s.cur.bitIdx = 0)

/-- R46 (4), R28: while the decoder is valid, `0x8000 ≤ A ≤ 0xFFFF`, `CT ≤ 8`, Looping is complete; and the cursor is
byte-aligned, since everything that moves it by bits clears `MQ_VALID` (R29). -/
def State.MqOk (s : State) : Prop :=
  s.mq.valid = true →
    0x8000 ≤ s.mq.a.toNat ∧ s.mq.a.toNat ≤ 0xFFFF ∧ s.mq.ct.toNat ≤ 8
      ∧ (s.mq.st = .looping → s.mq.complete = true) ∧ s.cur.bitIdx = 0

/-- R46 (5), R25: `FAULT ≠ 0` exactly when `CORE = Faulted`. -/
def State.FaultOk (s : State) : Prop := s.fault ≠ none ↔ s.core = .faulted

/-- R46 (6): a paused decode has a row left. -/
def State.GrdOk (s : State) : Prop := s.grd.st = .decoding → s.grd.row.toNat < s.gb.h.toNat

/-- R36, R38, R42: the reserved bits of the configuration registers read 0. -/
def State.ReservedOk (s : State) : Prop := s.gb.cfg &&& ~~~gbCfgMask = 0 ∧ s.gr.cfg &&& ~~~grCfgMask = 0

/-- The canonical form of a bitmap's bytes (R63, R64): addresses strictly rising and inside the window, no byte 0, padding
bits 0. -/
def Bitmap.wf (bm : Bitmap) : Prop :=
  Store.Canonical 0 bm.cells ∧ ∀ p ∈ bm.cells, p.1 < bm.size ∧ p.2 &&& bm.padMask p.1 = 0

/-- R46 (3): dimensions inside the parameters, and the bytes in canonical form. -/
def Bitmap.Fits (p : Params) (bm : Bitmap) : Prop :=
  1 ≤ bm.w ∧ bm.w ≤ p.bmMaxW ∧ 1 ≤ bm.h ∧ bm.h ≤ p.bmMaxH ∧ bm.size ≤ p.bmMaxBytes ∧ bm.wf

/-- R46 (3) for every valid slot, the slots being below `NBM`. -/
def State.BitmapsOk (s : State) : Prop :=
  Store.Sorted s.bitmaps ∧ ∀ q ∈ s.bitmaps, q.1 < s.cfg.nbm ∧ q.2.Fits s.cfg

/-- R46 (7): the row count of a valid custom table, and the widths of its rows. -/
def HTable.Fits (p : Params) (t : HTable) : Prop :=
  3 + t.oob.toNat ≤ t.rows.length ∧ t.rows.length ≤ p.htMaxRows
    ∧ ∀ r ∈ t.rows, r.preflen ≤ 32 ∧ r.rangelen ≤ 32

/-- R46 (7) for every valid custom slot, the ids being those of custom slots (R34). -/
def State.TablesOk (s : State) : Prop :=
  Store.Sorted s.tables ∧ ∀ q ∈ s.tables, 16 ≤ q.1 ∧ q.1 ≤ 15 + s.cfg.nhtCustom ∧ q.2.Fits s.cfg

/-- The entries of a bank are in canonical form and inside the bank (R32); that `I ≤ 46` (R46 (2)) is in their type. -/
def BankOk (k : Bank) (b : ContextBank) : Prop :=
  Store.Canonical Ctx.initial b.entries ∧ ∀ q ∈ b.entries, q.1 < bankSize k

/-- Both banks. -/
def State.BanksOk (s : State) : Prop := BankOk .gb s.gbBank ∧ BankOk .gr s.grBank

/-- The source memory is in canonical form (R61). -/
def State.SourceOk (s : State) : Prop := Memory.wf s.src

/-- Everything that holds in every reachable state (R46). -/
structure State.Inv (s : State) : Prop where
  cursor : s.CursorOk
  mq : s.MqOk
  fault : s.FaultOk
  grd : s.GrdOk
  reserved : s.ReservedOk
  bitmaps : s.BitmapsOk
  tables : s.TablesOk
  banks : s.BanksOk
  source : s.SourceOk

/-- A run is over without a fault: the host has no operation left and `FAULT = 0` (R446). -/
def State.EndedWell (s : State) : Prop := s.host.ops = [] ∧ s.fault = none

/-- What a command neither reads as an operand's home nor writes (R22, R36, R38, R39, R40): the parameters, the registers
only the host writes, the source memory. -/
structure State.SameHostSide (s t : State) : Prop where
  cfg : t.cfg = s.cfg
  srcLen : t.srcLen = s.srcLen
  arg0 : t.arg0 = s.arg0
  arg1 : t.arg1 = s.arg1
  rect : t.rect = s.rect
  gb : t.gb = s.gb
  gr : t.gr = s.gr
  src : t.src = s.src

/-! ### Positions in the stream (R27, R62) -/

/-- The position of the cursor in bits from the start of the span (R27). -/
def Cursor.pos (c : Cursor) : Nat := 8 * c.byteIdx.toNat + c.bitIdx.toNat

/-- The cursor at a position in bits. -/
def cursorAt (p : Nat) : Cursor := ⟨BitVec.ofNat 32 (p / 8), BitVec.ofNat 3 (p % 8)⟩

/-- The bit of the stream at a position: bit 7 of a byte comes first (R10, R62). -/
def Span.bit (sp : Span) (p : Nat) : Bool := (sp.byte (p / 8)).getMsbD (p % 8)

/-- The number that the `n` bits from position `p` on stand for, the first one most significant (R62). -/
def Span.number (sp : Span) (p : Nat) : Nat → Nat
  | 0 => 0
  | n + 1 => 2 * sp.number p n + (sp.bit (p + n)).toNat

/-- Two spans of one length with the same bytes (R26, R61). -/
def Span.Agree (a b : Span) : Prop := a.len = b.len ∧ ∀ i, i < a.len → a.byte i = b.byte i

/-! ### Commands by what they may do, as the spec lists them -/

/-- The block is Idle and the command's fields are inside their ranges (R94, R100). -/
def State.Ready (s : State) (i : Instr) : Prop := s.core = .idle ∧ wellFormed s.cfg i = true

/-- The legal command words, by the four fields as numbers (R93, R94, R96). -/
def LegalWord (p : Params) (op a b c : Nat) : Prop :=
  (op ∈ [0x00, 0x01, 0x02, 0x10, 0x11, 0x12, 0x14, 0x15, 0x16, 0x17, 0x20, 0x50, 0x51, 0x52, 0x60] ∧ a = 0 ∧ b = 0 ∧ c = 0)
    ∨ (op = 0x13 ∧ a = 0 ∧ b = 0 ∧ c ≤ 32)
    ∨ (op ∈ [0x21, 0x22, 0x23, 0x24] ∧ a ≤ 1 ∧ b = 0 ∧ c = 0)
    ∨ (op = 0x30 ∧ 16 ≤ a ∧ a ≤ 15 + p.nhtCustom ∧ b = 0 ∧ c = 0)
    ∨ (op ∈ [0x31, 0x32] ∧ 1 ≤ a ∧ a ≤ 15 + p.nhtCustom ∧ b = 0 ∧ c = 0)
    ∨ (op = 0x33 ∧ 1 ≤ a ∧ a ≤ 15 + p.nhtCustom ∧ b = 0 ∧ c ≤ 4)
    ∨ (op ∈ [0x40, 0x41, 0x43, 0x45] ∧ a < p.nbm ∧ b = 0 ∧ c = 0)
    ∨ (op ∈ [0x42, 0x44, 0x47] ∧ a < p.nbm ∧ b = 0 ∧ c ≤ 1)
    ∨ (op = 0x46 ∧ a < p.nbm ∧ b < p.nbm ∧ c % 8 ≤ 4 ∧ c < 16)
    ∨ (op = 0x48 ∧ a < p.nbm ∧ b < p.nbm ∧ c = 0)
    ∨ (op = 0x49 ∧ a < p.nbm ∧ b = 0 ∧ c ≤ 3)

/-- The twelve commands that write `RESULT` and `FLAGS` (R23). -/
def writesResult : Instr → Bool
  | .brReadBits _ | .brReadByte | .brReadU16 | .brReadU32 | .brRemain | .mqDecode _ | .cxRd _ | .htDecode _ | .htInfo _
  | .htRow _ _ | .bmGet _ | .bmInfo _ _ => true
  | _ => false

/-- The bit-reader reads that can report a boundary (R43). -/
def reportsBoundary : Instr → Bool
  | .brReadBits _ | .brReadByte | .brReadU16 | .brReadU32 => true
  | _ => false

/-- The commands that clear `MQ_VALID` (R29). -/
def clearsMqValid : Instr → Bool
  | .brSeek | .brSkip | .brAlign | .brReadBits _ | .brReadByte | .brReadU16 | .brReadU32 | .htParse _ | .htDecode _ => true
  | _ => false

/-- The commands that can move the cursor (R24, R436); `SYS.RESET` aside. -/
def movesCursor : Instr → Bool
  | .brSeek | .brSkip | .brAlign | .brReadBits _ | .brReadByte | .brReadU16 | .brReadU32 | .mqInit | .mqDecode _
  | .htParse _ | .htDecode _ | .grdStart | .grdCont | .grrDecode => true
  | _ => false

/-- The commands that run the MQ decoder or start it (R159, R304, R305, R353, R157). -/
def runsMq : Instr → Bool
  | .mqInit | .mqDecode _ | .grdStart | .grdCont | .grrDecode => true
  | _ => false

/-- The slot a command creates, changes or releases (R250 to R266, R304, R305, R353); `SYS.RESET` aside. -/
def State.target (s : State) : Instr → Option Nat
  | .bmAlloc slot | .bmFree slot | .bmFill slot _ | .bmSet slot _ | .bmCopyLine slot | .bmExpand slot _ => some slot.toNat
  | .bmCompose dst _ _ _ | .bmSubImage dst _ => some dst.toNat
  | .grdStart | .grdCont => some s.gb.dst
  | .grrDecode => some s.gr.dst
  | _ => none

/-- The custom Huffman table a command replaces (R208). -/
def tableTarget : Instr → Option Nat
  | .htParse id => some id.toNat
  | _ => none

/-- The context bank a command changes (R159, R160, R162, R304, R353); `SYS.RESET` aside. -/
def bankTarget : Instr → Option Bank
  | .mqDecode k | .cxClear k | .cxWr k => some k
  | .grdStart | .grdCont => some .gb
  | .grrDecode => some .gr
  | _ => none

/-- How many entries of bank 0 a generic template touches, and of bank 1 a refinement template (R33). -/
def gbPrefix (t : BitVec 2) : Nat := if t = 0 then 65536 else if t = 1 then 8192 else 1024

/-- How many entries of bank 1 a refinement template touches (R33). -/
def grPrefix (t : BitVec 1) : Nat := if t = 0 then 8192 else 1024

/-- The faults a command can raise by a check (R406). -/
def checkFaults : Instr → List FaultCode
  | .sysNop | .sysClrf | .sysReset => [.illegalCommand]
  | .brSeek | .brSkip | .brReadByte | .brReadU16 | .brReadU32 | .mqInit | .htParse _ => [.illegalCommand, .misaligned]
  | .brAlign | .brReadBits _ | .brRemain => [.illegalCommand]
  | .mqDecode _ => [.illegalCommand, .badState, .operandRange, .arithmeticStreamComplete]
  | .cxClear _ => [.illegalCommand]
  | .cxRd _ | .cxWr _ | .htRow _ _ => [.illegalCommand, .badState, .operandRange]
  | .htDecode _ => [.illegalCommand, .badState]
  | .htInfo _ => [.illegalCommand]
  | .bmAlloc _ => [.illegalCommand, .operandRange, .resourceLimitExceeded]
  | .bmFree _ | .bmInfo _ _ => [.illegalCommand]
  | .bmFill _ _ | .bmGet _ | .bmSet _ _ | .bmCopyLine _ | .bmCompose _ _ _ _ => [.illegalCommand, .badState]
  | .bmExpand _ _ => [.illegalCommand, .badState, .resourceLimitExceeded]
  | .bmSubImage _ _ | .grdStart | .grrDecode => [.illegalCommand, .badState, .operandRange, .resourceLimitExceeded]
  | .grdCont => [.illegalCommand, .badState]
  | .grdAbort => [.illegalCommand]

/-- The faults a command can raise during its operation (R406). -/
def operationFaults : Instr → List FaultCode
  | .htParse _ => [.resourceLimitExceeded, .structuralError, .streamExhausted]
  | .htDecode _ => [.streamExhausted, .huffmanNoCode]
  | .grdStart | .grdCont | .grrDecode => [.arithmeticStreamComplete]
  | _ => []

/-! ### Pause samples (R311) -/

/-- The value `CTRL.PAUSE` has at the `k`-th row boundary from now on, the host's writes by then having taken effect. -/
def pauseSample (pause : Bool) : List (Option Bool) → Nat → Bool
  | _, 0 => pause
  | [], _ + 1 => pause
  | w :: feed, k + 1 => pauseSample (w.getD pause) feed k

/-- The state with `CTRL.PAUSE = 0` and no write to it to come: no pause sample reads 1 (R311). -/
def State.quiet (s : State) : State := { s with pause := false, host := { s.host with pauseFeed := [] } }

/-- Where a generic-region decode that needs its skip bitmap reads it (R308). -/
def State.skipSource (s : State) : SkipSource :=
  if s.gb.useSkip then (match s.bitmap s.gb.skip with | some k => .slot k | none => .unused) else .unused

/-- The state after a generic-region command has made the region `r`, with `GRD_STATE = st` and `GRD_ROW = row`, having taken
`m` pause samples (R304, R305, R307). -/
def State.afterRows (s : State) (r : Region) (st : GrdState) (row m : Nat) : State :=
  { s with
    mq := ⟨r.coder.a, r.coder.c, r.coder.ct, r.coder.b, r.coder.st, r.coder.complete, s.mq.valid⟩
    cur := ⟨r.coder.ptr, s.cur.bitIdx⟩
    gbBank := ⟨s.gbBank.valid, r.entries⟩
    bitmaps := Store.set s.bitmaps s.gb.dst r.bm
    grd := ⟨st, BitVec.ofNat 32 row, r.ltp⟩
    pause := pauseSample s.pause s.host.pauseFeed m
    host := { s.host with pauseFeed := s.host.pauseFeed.drop m } }

/-- The state after a refinement-region command has made the region `r` (R353). -/
def State.afterRefinement (s : State) (r : Region) : State :=
  { s with
    mq := ⟨r.coder.a, r.coder.c, r.coder.ct, r.coder.b, r.coder.st, r.coder.complete, s.mq.valid⟩
    cur := ⟨r.coder.ptr, s.cur.bitIdx⟩
    grBank := ⟨s.grBank.valid, r.entries⟩
    bitmaps := Store.set s.bitmaps s.gr.dst r.bm }

/-- What `GRD.START` checks, in one condition (R304). -/
structure State.CanStart (s : State) : Prop where
  idle : s.core = .idle
  state : s.grd.st ≠ .decoding
  mq : s.mq.valid = true
  bank : s.gbBank.valid = true
  width : s.gb.w ≠ 0
  height : s.gb.h ≠ 0
  dst : s.gb.dst < s.cfg.nbm
  fits : tooLarge s.cfg s.gb.w.toNat s.gb.h.toNat = false
  skip : s.gb.useSkip = true → s.gb.skip < s.cfg.nbm ∧ s.gb.skip ≠ s.gb.dst ∧ ∃ k, s.bitmap s.gb.skip = some k

/-- What `GRD.CONT` checks, with the destination `bm` it resumes on (R305). -/
structure State.CanContinue (s : State) (bm : Bitmap) : Prop where
  idle : s.core = .idle
  state : s.grd.st = .decoding
  mq : s.mq.valid = true
  bank : s.gbBank.valid = true
  dst : s.bitmap s.gb.dst = some bm
  width : bm.w = s.gb.w.toNat
  height : bm.h = s.gb.h.toNat
  skip : s.gb.useSkip = true → s.gb.skip ≠ s.gb.dst ∧ ∃ k, s.bitmap s.gb.skip = some k

/-- What `GRR.DECODE` checks, with the reference `ref` it reads (R353). -/
structure State.CanRefine (s : State) (ref : Bitmap) : Prop where
  idle : s.core = .idle
  mq : s.mq.valid = true
  bank : s.grBank.valid = true
  width : s.gr.w ≠ 0
  height : s.gr.h ≠ 0
  dst : s.gr.dst < s.cfg.nbm
  refSlot : s.gr.ref < s.cfg.nbm
  differ : s.gr.ref ≠ s.gr.dst
  valid : s.bitmap s.gr.ref = some ref
  fits : tooLarge s.cfg s.gr.w.toNat s.gr.h.toNat = false

/-! ### Reset (R44) -/

/-- The columns of R44 that both kinds of reset give. -/
structure State.AfterReset (t : State) : Prop where
  core : t.core = .idle
  fault : t.fault = none ∧ t.faultCmd = 0
  result : t.result = 0 ∧ t.oob = false ∧ t.boundary = false
  ctrl : t.pause = false
  srcLen : t.srcLen = 0 ∧ t.len = 0
  operands : t.arg0 = 0 ∧ t.arg1 = 0 ∧ t.rect = ⟨0, 0, 0, 0⟩
  cursor : t.cur = ⟨0, 0⟩
  mq : t.mq = ⟨0, 0, 0, 0, .dataAvailable, false, false⟩
  gb : t.gb = ⟨0, 0, 0, 0, 0⟩
  grd : t.grd = ⟨.ready, 0, false⟩
  gr : t.gr = ⟨0, 0, 0, 0, 0, 0⟩
  id : t.regView 0x80 = 0x4A423201
  banks : t.gbBank.valid = false ∧ t.grBank.valid = false
  tables : ∀ id, 16 ≤ id → t.table id = none
  slots : ∀ slot, t.bitmap slot = none

/-! ### A custom table description (R209), as numbers -/

/-- The items of a description, in the order they stand in the stream (R209). -/
structure Description where
  oob : Bool
  /-- `HTPS` -/
  ps : Nat
  /-- `HTRS` -/
  rs : Nat
  /-- `HTLOW` -/
  low : Int
  /-- `HTHIGH` -/
  high : Int
  /-- `PREFLEN` and `RANGELEN` of the normal rows -/
  normal : List (Nat × Nat)
  /-- `PREFLEN` of the Lower row -/
  lower : Nat
  /-- `PREFLEN` of the Upper row -/
  upper : Nat
  /-- `PREFLEN` of the Oob row, read only when `HTOOB = 1` -/
  oobLen : Nat
  deriving DecidableEq, Repr

/-- `CURLOW` after `k` normal rows (R210). -/
def Description.bound (d : Description) (k : Nat) : Int := d.low + ((d.normal.take k).map fun q => (2 : Int) ^ q.2).sum

/-- The rows a description stands for, in table order (R202, R210). -/
def Description.rows (d : Description) : List RawRow :=
  ((List.range d.normal.length).map fun k =>
      ⟨.normal, (d.normal.getD k (0, 0)).1, (d.normal.getD k (0, 0)).2, BitVec.ofInt 32 (d.bound k)⟩)
    ++ [⟨.lower, d.lower, 32, BitVec.ofInt 32 (d.low - 1)⟩, ⟨.upper, d.upper, 32, BitVec.ofInt 32 d.high⟩]
    ++ if d.oob then [⟨.oob, d.oobLen, 0, 0⟩] else []

/-- The length of a description in bits (R209). -/
def Description.size (d : Description) : Nat := 72 + d.normal.length * (d.ps + d.rs) + (2 + d.oob.toNat) * d.ps

/-- The description stands in the stream from bit position `p` on (R209). -/
structure Description.At (d : Description) (sp : Span) (p : Nat) : Prop where
  flags : sp.number p 8 = d.oob.toNat + 2 * (d.ps - 1) + 16 * (d.rs - 1)
  low : sp.number (p + 8) 32 = (BitVec.ofInt 32 d.low).toNat
  high : sp.number (p + 40) 32 = (BitVec.ofInt 32 d.high).toNat
  normal : ∀ k, k < d.normal.length →
    sp.number (p + 72 + k * (d.ps + d.rs)) d.ps = (d.normal.getD k (0, 0)).1
      ∧ sp.number (p + 72 + k * (d.ps + d.rs) + d.ps) d.rs = (d.normal.getD k (0, 0)).2
  lower : sp.number (p + 72 + d.normal.length * (d.ps + d.rs)) d.ps = d.lower
  upper : sp.number (p + 72 + d.normal.length * (d.ps + d.rs) + d.ps) d.ps = d.upper
  oob : d.oob = true → sp.number (p + 72 + d.normal.length * (d.ps + d.rs) + 2 * d.ps) d.ps = d.oobLen

/-- The description passes every test of `ParseTable` (R210): its rows cover `[low, high)` and no shorter run of them does. -/
structure Description.Legal (d : Description) (p : Params) : Prop where
  widths : 1 ≤ d.ps ∧ d.ps ≤ 8 ∧ 1 ≤ d.rs ∧ d.rs ≤ 8
  bounds : -2 ^ 31 < d.low ∧ d.low ≤ d.high ∧ d.high ≤ 2 ^ 31 - 1
  nonempty : 1 ≤ d.normal.length
  ranges : ∀ q ∈ d.normal, q.2 ≤ 31
  short : ∀ k, 1 ≤ k → k < d.normal.length → d.bound k < d.high
  covers : d.high ≤ d.bound d.normal.length
  top : d.bound d.normal.length ≤ 2 ^ 31 - 1
  count : d.normal.length + 2 + d.oob.toNat ≤ p.htMaxRows
  lengths : ∀ r ∈ d.rows, r.preflen ≤ 32


end Sys2Proof.Machine
end

