-- ==== Sys2Proof/Certificates/Slice0/Obligations.lean ====
section
/-! DEFINITION. The statements about this model, each drawn from numbered rules of the spec. Where a statement gives a next
state as an equation `{ s with … }`, everything the equation does not name is unchanged: it is the frame as well. -/

open Sys2Proof Sys2Proof.Machine

/-! ### Command words -/

/-- A command with legal fields decodes from the word it assembles to, for every choice of the parameters (R90, R93, R94, R98). -/
def Obligations.DecodeOfEncode : Prop :=
  ∀ (p : Params) (i : Instr), wellFormed p i = true → decode p (encode i) = .ok i

/-- The decoder reads a command only from the one word it assembles to, and only with legal fields (R91, R96). -/
def Obligations.EncodeOfDecode : Prop :=
  ∀ (p : Params) (w : Word) (i : Instr), decode p w = .ok i → wellFormed p i = true ∧ encode i = w

/-- Exactly the words R94 allows are commands; every other word is IllegalCommand (R93, R94, R96). -/
def Obligations.LegalWords : Prop :=
  ∀ (p : Params) (w : Word),
    (∃ i, decode p w = .ok i)
      ↔ LegalWord p (w.toNat / 2 ^ 24) (w.toNat / 2 ^ 16 % 256) (w.toNat / 2 ^ 8 % 256) (w.toNat % 256)

/-- The worked encodings of R98, and words of other rows of its table, read as the commands they stand for. -/
def Obligations.WordsOfTheSpec : Prop :=
  decode defaultParams 0x1300000A = .ok (.brReadBits 10)
    ∧ decode defaultParams 0x21010000 = .ok (.mqDecode .gr)
    ∧ decode defaultParams 0x33100003 = .ok (.htRow 16 .code)
    ∧ decode defaultParams 0x4602050B = .ok (.bmCompose 2 5 .xnor true)
    ∧ decode defaultParams 0x44070001 = .ok (.bmSet 7 true)
    ∧ decode defaultParams 0x01000000 = .ok .sysClrf
    ∧ decode defaultParams 0x50000000 = .ok .grdStart
    ∧ decode defaultParams 0x60000000 = .ok .grrDecode

/-! ### The port and the step -/

/-- A step whose host operation writes a legal command word to `CMD` is `exec` of that command: the operation is taken from
the host's list, and the host may find the command executing (R90, R100). A word placed by `withFetchWord` is run so. -/
def Obligations.StepRunsDecoded : Prop :=
  ∀ (s : State) (w : Word) (i : Instr), decode s.cfg w = .ok i →
    (∀ rest, s.host.ops = .regWrite 0x00 w :: rest →
      step s = exec i ((s.popOp rest).setBusyWindow (s.accepts w)))
    ∧ step (s.withFetchWord 32 w.toNat) = exec i (s.setBusyWindow (s.accepts w))

/-- A write to `CMD` of a word that is no command raises IllegalCommand while Idle; while Faulted every word but the two of
`SYS.CLRF` and `SYS.RESET` is ignored, and those two are executed (R96, R100, R393, R397). -/
def Obligations.IssueRule : Prop :=
  ∀ (s : State) (w : Word) (rest : List HostOp), s.host.ops = .regWrite 0x00 w :: rest →
    (s.core = .idle → ∀ e, decode s.cfg w = .error e →
      step s = .next (((s.popOp rest).setBusyWindow true).takeFault .illegalCommand w))
    ∧ (s.core = .faulted → w ≠ 0x01000000 → w ≠ 0x02000000 →
      step s = .next ((s.popOp rest).setBusyWindow false))
    ∧ (s.core = .faulted → w = 0x01000000 → step s = .next ((s.popOp rest).setBusyWindow true).clearFault)
    ∧ (s.core = .faulted → w = 0x02000000 → step s = .next ((s.popOp rest).setBusyWindow true).softReset)

/-- While Faulted every command but `SYS.CLRF` and `SYS.RESET` is discarded: it changes no state (R397). -/
def Obligations.FaultGate : Prop :=
  ∀ (i : Instr) (s : State), s.core = .faulted → i ≠ .sysClrf → i ≠ .sysReset → exec i s = .next s

/-- The state after hardware reset and after `SYS.RESET` (R44, R430, R431): the registers, the cleared valid flags, the ROM
kept, and the source bytes kept by `SYS.RESET`. -/
def Obligations.ResetValues : Prop :=
  State.reset.AfterReset
    ∧ (∀ (s : State) (rest : List HostOp), s.host.ops = .hardReset :: rest →
      ∃ t, step s = .next t ∧ t.AfterReset ∧ t.cfg = s.cfg)
    ∧ ∀ s : State, ∃ t, exec .sysReset s = .next t ∧ t.AfterReset ∧ t.cfg = s.cfg ∧ ∀ a, t.span.byte a = s.span.byte a

/-- The invariants of R46, with the forms of the memories, hold after reset. -/
def Obligations.ResetInv : Prop := State.reset.Inv

/-- Every step, whatever the host does, keeps the invariants of R46 and the forms of the memories. -/
def Obligations.StepKeepsInv : Prop :=
  ∀ s t : State, s.Inv → step s = .next t → t.Inv

/-- Every command answers a next state in every state: it terminates, and malformed input ends in a fault of the block (R19,
R441). -/
def Obligations.ExecAnswersNext : Prop := ∀ (i : Instr) (s : State), ∃ t, exec i s = .next t

/-! ### Faults and what commands leave alone -/

/-- Which command can raise which fault, by a check or during its operation (R406); a check that faults changes nothing but
`FAULT`, `FAULT_CMD`, `CORE` (R395), and a fault during operation records its command and leaves `RESULT` and `FLAGS` (R393). -/
def Obligations.FaultMatrix : Prop :=
  ∀ (i : Instr) (s t : State), s.core = .idle → exec i s = .next t → t.core = .faulted →
    (∃ f ∈ checkFaults i, t = s.takeFault f (encode i))
      ∨ ((∃ f ∈ operationFaults i, t.fault = some f) ∧ t.faultCmd = encode i
        ∧ t.result = s.result ∧ t.oob = s.oob ∧ t.boundary = s.boundary)

/-- `RESULT` and `FLAGS` are written only by the twelve commands of R23 (and `SYS.RESET`), and never by one that faults; a flag
the command's rule does not mention is written 0 (R23, R43). -/
def Obligations.ResultAndFlags : Prop :=
  ∀ (i : Instr) (s t : State), exec i s = .next t → i ≠ .sysReset →
    (writesResult i = false ∨ t.core = .faulted → t.result = s.result ∧ t.oob = s.oob ∧ t.boundary = s.boundary)
    ∧ (writesResult i = true → t.core = .idle →
      (t.oob = true → ∃ id, i = .htDecode id) ∧ (t.boundary = true → reportsBoundary i = true))

/-- No command writes an operand register, a parameter register, `SRC_LEN` or a source byte; `SYS.RESET` alone clears the
registers, and not even it changes the source bytes, the parameters or the host's operations (R22, R39, R40, R61). -/
def Obligations.OperandRegistersKept : Prop :=
  ∀ (i : Instr) (s t : State), exec i s = .next t →
    (i ≠ .sysReset → s.SameHostSide t) ∧ t.cfg = s.cfg ∧ t.src = s.src ∧ t.host.ops = s.host.ops

/-- `MQ_VALID` is set by `MQ.INIT`, cleared by the commands of R29 that complete or fault after their checks, and kept by
every other command (R29). -/
def Obligations.MqValidRule : Prop :=
  ∀ (i : Instr) (s t : State), exec i s = .next t →
    (clearsMqValid i = false → i ≠ .mqInit → i ≠ .sysReset → t.mq.valid = s.mq.valid)
    ∧ (s.core = .idle → clearsMqValid i = true → t.mq.valid = false ∨ ∃ f, t = s.takeFault f (encode i))
    ∧ (s.core = .idle → i = .mqInit → t.mq.valid = true ∨ ∃ f, t = s.takeFault f (encode i))
    ∧ (i = .sysReset → t.mq.valid = false)

/-- The transitions of `GRD_STATE` that commands make (R303): a start only from Ready, Finished, Error and a continuation only
from Decoding; a pause only at a sample that reads 1; Finished with `GRD_ROW = H`; Error exactly with the fault; Ready by
`GRD.ABORT`; nothing else changes it. -/
def Obligations.GrdStateRule : Prop :=
  ∀ (i : Instr) (s t : State), exec i s = .next t →
    (i ≠ .grdStart → i ≠ .grdCont → i ≠ .grdAbort → i ≠ .sysReset → t.grd = s.grd)
    ∧ (i = .grdStart ∨ i = .grdCont → t.grd ≠ s.grd →
      (i = .grdStart ↔ s.grd.st ≠ .decoding) ∧ t.grd.st ≠ .ready
        ∧ (t.grd.st = .decoding → t.pause = true) ∧ (t.grd.st = .finished → t.grd.row = s.gb.h)
        ∧ (t.grd.st = .error ↔ t.core = .faulted))
    ∧ (i = .grdAbort → s.core = .idle → t.grd = ⟨.ready, 0, false⟩)

/-- No command but `SYS.RESET` changes a byte of a bitmap slot other than the one it names as its destination, and no command
at all changes a byte of the source memory (R61, R268, R320, R362). -/
def Obligations.MemoryFrame : Prop :=
  ∀ (i : Instr) (s t : State), exec i s = .next t →
    (∀ a, t.span.byte a = s.span.byte a)
    ∧ (i ≠ .sysReset → ∀ k, s.target i ≠ some k → t.bitmap k = s.bitmap k)

/-- Tables change only by `HT.PARSE` into that id, and contexts only in the bank and below the prefix the command uses; a
bank's valid flag is set by `CX.CLEAR` alone (R33, R165 (6), R216, R320, R362). -/
def Obligations.TableAndContextFrame : Prop :=
  ∀ (i : Instr) (s t : State), exec i s = .next t → i ≠ .sysReset →
    (∀ id, tableTarget i ≠ some id → t.table id = s.table id)
    ∧ (∀ k, bankTarget i ≠ some k → t.bank k = s.bank k)
    ∧ (∀ k, i ≠ .cxClear k → (t.bank k).valid = (s.bank k).valid)
    ∧ (i = .grdStart ∨ i = .grdCont → ∀ j, gbPrefix s.gb.template ≤ j → readCtx t.gbBank.entries j = readCtx s.gbBank.entries j)
    ∧ (i = .grrDecode → ∀ j, grPrefix s.gr.template ≤ j → readCtx t.grBank.entries j = readCtx s.grBank.entries j)
    ∧ (∀ k, i = .mqDecode k ∨ i = .cxWr k → ∀ j, j ≠ s.arg0.toNat →
      readCtx (t.bank k).entries j = readCtx (s.bank k).entries j)

/-- The cursor moves only by the commands that read the stream, never backwards except by `BR.SEEK`, and never past the end of
the span (R27, R132 (1), (4), R165 (4), R216). -/
def Obligations.CursorForward : Prop :=
  ∀ (i : Instr) (s t : State), s.CursorOk → s.MqOk → exec i s = .next t → i ≠ .sysReset →
    (movesCursor i = false → t.cur = s.cur) ∧ (i ≠ .brSeek → s.cur.pos ≤ t.cur.pos) ∧ t.cur.pos ≤ 8 * t.len

/-- No command reads a source byte at or beyond `LEN`: with any other bytes there it does the same (R120, R165 (3), R216,
R320, R362). -/
def Obligations.BeyondSpanUnread : Prop :=
  ∀ (i : Instr) (s t : State) (m : Memory),
    (∀ a, a < s.len → (State.span { s with src := m }).byte a = s.span.byte a) →
    exec i s = .next t → exec i { s with src := m } = .next { t with src := m }

/-! ### System commands -/

/-- `SYS.NOP` does nothing, `SYS.CLRF` clears the fault, `SYS.RESET` resets all but the source bytes, `GRD.ABORT` ends the
decode (R405, R396, R431, R306). -/
def Obligations.SystemCommands : Prop :=
  ∀ s : State,
    (s.core = .idle → exec .sysNop s = .next s)
    ∧ exec .sysClrf s = .next { s with core := .idle, fault := none, faultCmd := 0 }
    ∧ exec .sysReset s = .next { State.reset with cfg := s.cfg, src := s.src, host := s.host }
    ∧ (s.core = .idle → exec .grdAbort s = .next { s with grd := ⟨.ready, 0, false⟩ })

/-! ### Bit reader -/

/-- `BR.READBITS` reads the bits there are, up to `n`, first bit most significant, right-aligned, and reports a boundary when
there are fewer; the cursor then stands at the end (R121, R122, R123). -/
def Obligations.ReadBitsResult : Prop :=
  ∀ (n : Byte) (s : State), s.Ready (.brReadBits n) →
    let avail := 8 * (s.len - s.cur.byteIdx.toNat) - s.cur.bitIdx.toNat
    let k := min n.toNat avail
    exec (.brReadBits n) s = .next { s with
        result := BitVec.ofNat 32 (s.span.number s.cur.pos k), oob := false, boundary := decide (avail < n.toNat),
        cur := cursorAt (s.cur.pos + k), mq := { s.mq with valid := false } }
      ∧ (s.CursorOk → avail < n.toNat → cursorAt (s.cur.pos + k) = ⟨BitVec.ofNat 32 s.len, 0⟩)

/-- `BR.READBYTE`, `BR.READU16`, `BR.READU32` at a byte boundary: the big-endian number when its bytes are there, else 0 and a
boundary with nothing consumed (R124, R125, R126). -/
def Obligations.WholeByteReads : Prop :=
  ∀ s : State, s.core = .idle → s.cur.bitIdx = 0 →
    let p := s.cur.byteIdx.toNat
    let got : Nat → Nat → State := fun n v => { s with
      result := BitVec.ofNat 32 v, oob := false, boundary := false,
      cur := ⟨s.cur.byteIdx + BitVec.ofNat 32 n, 0⟩, mq := { s.mq with valid := false } }
    let short : State := { s with result := 0, oob := false, boundary := true, mq := { s.mq with valid := false } }
    let b : Nat → Nat := fun k => (s.span.byte (p + k)).toNat
    exec .brReadByte s = .next (if 1 ≤ s.len - p then got 1 (b 0) else short)
      ∧ exec .brReadU16 s = .next (if 2 ≤ s.len - p then got 2 (b 0 * 256 + b 1) else short)
      ∧ exec .brReadU32 s = .next (if 4 ≤ s.len - p then
          got 4 (b 0 * 2 ^ 24 + b 1 * 2 ^ 16 + b 2 * 2 ^ 8 + b 3) else short)

/-- `BR.SEEK`, `BR.SKIP`, `BR.ALIGN`, `BR.REMAIN`: seeks saturate at the end of the span, the sum of a skip does not wrap,
aligning rounds up, and what remains counts a partly read byte (R127, R128, R129, R130). -/
def Obligations.CursorCommands : Prop :=
  ∀ s : State, s.core = .idle →
    let at' : Cursor → State := fun c => { s with cur := c, mq := { s.mq with valid := false } }
    (s.cur.bitIdx = 0 → exec .brSeek s = .next (at' ⟨BitVec.ofNat 32 (min s.arg0.toNat s.len), 0⟩))
    ∧ (s.cur.bitIdx = 0 →
      exec .brSkip s = .next (at' ⟨BitVec.ofNat 32 (min (s.cur.byteIdx.toNat + s.arg0.toNat) s.len), 0⟩))
    ∧ exec .brAlign s = .next (at' (if s.cur.bitIdx = 0 then s.cur else ⟨s.cur.byteIdx + 1, 0⟩))
    ∧ exec .brRemain s = .next { s with
        result := BitVec.ofNat 32 (s.len - s.cur.byteIdx.toNat), oob := false, boundary := false }

/-- The byte-granular commands raise Misaligned at a non-zero bit index and change nothing else (R68, R391, R395). -/
def Obligations.MisalignedCommands : Prop :=
  ∀ (i : Instr) (s : State), s.Ready i → s.cur.bitIdx ≠ 0 →
    i ∈ [.brSeek, .brSkip, .brReadByte, .brReadU16, .brReadU32, .mqInit] ∨ (∃ id, i = .htParse id) →
    exec i s = .next (s.takeFault .misaligned (encode i))

/-- Two reads of `n1` and `n2` bits move the cursor as one read of `n1 + n2` does, and `v1 × 2^n2 + v2` is its value; a read of
32 bits at a byte boundary with 4 bytes there is `BR.READU32` (R132 (2), (3)). -/
def Obligations.ReadBitsLaws : Prop :=
  (∀ (n1 n2 n : Byte) (s t1 t2 t : State), s.core = .idle → n1.toNat + n2.toNat ≤ 32 → n.toNat = n1.toNat + n2.toNat →
    n.toNat ≤ 8 * (s.len - s.cur.byteIdx.toNat) - s.cur.bitIdx.toNat →
    exec (.brReadBits n1) s = .next t1 → exec (.brReadBits n2) t1 = .next t2 → exec (.brReadBits n) s = .next t →
    t2.cur = t.cur ∧ t1.result.toNat * 2 ^ n2.toNat + t2.result.toNat = t.result.toNat)
  ∧ ∀ (s : State), s.core = .idle → s.cur.bitIdx = 0 → 4 ≤ s.len - s.cur.byteIdx.toNat →
    exec (.brReadBits 32) s = exec .brReadU32 s

/-! ### MQ decoder and contexts -/

/-- `MQ.INIT` at a byte boundary, by the three cases of its byte-in: a first byte other than `0xFF`; `0xFF` before a marker or
the end of the span; `0xFF` before a stuffed byte (R154, R155, R157). -/
def Obligations.MqInitResult : Prop :=
  ∀ s : State, s.core = .idle → s.cur.bitIdx = 0 → s.CursorOk →
    let p := s.cur.byteIdx.toNat
    let byteOr : Nat → Nat := fun i => if i < s.len then (s.span.byte i).toNat else 0xFF
    let q := min (p + 1) s.len
    (byteOr p ≠ 0xFF → exec .mqInit s = .next { s with
        mq := ⟨0x8000, BitVec.ofNat 32 (((255 - byteOr p) * 2 ^ 16 + 0xFF00 - byteOr q * 2 ^ 8) * 2 ^ 7), 1,
          BitVec.ofNat 8 (byteOr q), .dataAvailable, decide (s.len ≤ q), true⟩,
        cur := ⟨BitVec.ofNat 32 q, 0⟩ })
    ∧ (byteOr p = 0xFF → 0x8F < byteOr (p + 1) → exec .mqInit s = .next { s with
        mq := ⟨0x8000, 0, 1, 0xFF, .decodingFinished, decide (s.len ≤ p), true⟩ })
    ∧ (byteOr p = 0xFF → byteOr (p + 1) ≤ 0x8F → exec .mqInit s = .next { s with
        mq := ⟨0x8000, BitVec.ofNat 32 ((2 ^ 32 + 0xFE00 - byteOr (p + 1) * 2 ^ 9) * 2 ^ 7), 0,
          BitVec.ofNat 8 (byteOr (p + 1)), .dataAvailable, decide (s.len ≤ q), true⟩,
        cur := ⟨BitVec.ofNat 32 q, 0⟩ })

/-- A byte-in on its three paths: after a byte other than `0xFF`, after `0xFF` before a stuffed byte, and after `0xFF` before
a marker or the end (R155). Once on the marker path every byte-in takes it: `B`, `C` and the pointer stay, the first moves
DataAvailable to DecodingFinished, and two have reached Looping and completion (D10, log 24; the spec's inference R165 (5)). -/
def Obligations.MarkerByteIns : Prop :=
  ∀ (sp : Span) (k : Coder),
    let byteOr : Nat → Byte := fun i => if i < sp.len then sp.byte i else 0xFF
    let next := (byteOr (k.ptr.toNat + 1)).toNat
    let q := if k.ptr.toNat < sp.len then k.ptr + 1 else k.ptr
    (k.b ≠ 0xFF → byteIn sp k = { k with
        ptr := q, b := byteOr q.toNat, c := k.c + 0xFF00 - BitVec.ofNat 32 ((byteOr q.toNat).toNat * 2 ^ 8), ct := 8,
        complete := k.complete || decide (sp.len ≤ q.toNat) })
    ∧ (k.b = 0xFF → next ≤ 0x8F → byteIn sp k = { k with
        ptr := q, b := BitVec.ofNat 8 next, c := k.c + 0xFE00 - BitVec.ofNat 32 (next * 2 ^ 9), ct := 7,
        complete := k.complete || decide (sp.len ≤ q.toNat) })
    ∧ (k.b = 0xFF → 0x8F < next →
      byteIn sp k = { k with
        ct := 8, st := if k.st = .dataAvailable then .decodingFinished else .looping,
        complete := k.complete || decide (k.st ≠ .dataAvailable) || decide (sp.len ≤ k.ptr.toNat) }
      ∧ ∀ n : Nat,
        let kn := (byteIn sp)^[n] k
        kn.b = 0xFF ∧ kn.c = k.c ∧ kn.ptr = k.ptr ∧ (1 ≤ n → kn.ct = 8)
          ∧ (n = 1 → k.st = .dataAvailable → kn.st = .decodingFinished)
          ∧ (2 ≤ n → kn.st = .looping ∧ kn.complete = true))


/-- One decision, in numbers: the high half of `C` against `A − Qe`, the exchanges, the context's next state, and what is
renormalized (R153, R158, R163). A renormalization repeats, between 1 and 15 times and until bit 15 of `A` is set: a byte-in
when `CT = 0`, `A` and `C` shifted left by one, `CT` counted down (R156). -/
def Obligations.DecisionFlow : Prop :=
  ∀ (sp : Span) (x : Ctx) (k : Coder),
    let row := qeRow x.idx
    let a := k.a.toNat - row.qe.toNat
    let mpsCtx : Ctx := ⟨row.nmps, x.mps⟩
    let lpsCtx : Ctx := ⟨row.nlps, if row.switch then !x.mps else x.mps⟩
    let shift : Coder → Coder := fun q =>
      let q := if q.ct = 0 then byteIn sp q else q
      { q with a := BitVec.ofNat 32 (2 * q.a.toNat), c := BitVec.ofNat 32 (2 * q.c.toNat), ct := q.ct - 1 }
    (0x8000 ≤ k.a.toNat → k.a.toNat ≤ 0xFFFF →
      (k.c.toNat / 2 ^ 16 < a → 0x8000 ≤ a → decodeBit sp x k = ⟨x.mps, x, { k with a := BitVec.ofNat 32 a }⟩)
      ∧ (k.c.toNat / 2 ^ 16 < a → a < 0x8000 → a < row.qe.toNat →
        decodeBit sp x k = ⟨!x.mps, lpsCtx, renorm sp { k with a := BitVec.ofNat 32 a }⟩)
      ∧ (k.c.toNat / 2 ^ 16 < a → a < 0x8000 → row.qe.toNat ≤ a →
        decodeBit sp x k = ⟨x.mps, mpsCtx, renorm sp { k with a := BitVec.ofNat 32 a }⟩)
      ∧ (a ≤ k.c.toNat / 2 ^ 16 → a < row.qe.toNat →
        decodeBit sp x k
          = ⟨x.mps, mpsCtx, renorm sp { k with a := row.qe, c := BitVec.ofNat 32 (k.c.toNat - a * 2 ^ 16) }⟩)
      ∧ (a ≤ k.c.toNat / 2 ^ 16 → row.qe.toNat ≤ a →
        decodeBit sp x k
          = ⟨!x.mps, lpsCtx, renorm sp { k with a := row.qe, c := BitVec.ofNat 32 (k.c.toNat - a * 2 ^ 16) }⟩))
    ∧ (1 ≤ k.a.toNat → k.a.toNat < 0x8000 →
      ∃ n, 1 ≤ n ∧ n ≤ 15 ∧ renorm sp k = shift^[n] k ∧ (shift^[n] k).a.getLsbD 15 = true
        ∧ (∀ m, 1 ≤ m → m < n → (shift^[m] k).a.getLsbD 15 = false)
        ∧ 0x8000 ≤ (renorm sp k).a.toNat ∧ (renorm sp k).a.toNat ≤ 0xFFFE)


/-- `MQ.DECODE` with everything in place: `RESULT` is the decoded bit, the one context entry and the decoder's registers are
those of the decision, and nothing else changes (R159, R165 (6)). -/
def Obligations.MqDecodeResult : Prop :=
  ∀ (bank : Bank) (s : State), s.core = .idle → s.mq.valid = true → (s.bank bank).valid = true →
    s.arg0.toNat < bankSize bank → s.mq.complete = false →
    let d := decodeBit s.span (readCtx (s.bank bank).entries s.arg0.toNat) s.coder
    ∃ t, exec (.mqDecode bank) s = .next t
      ∧ (t.bank bank).valid = true
      ∧ (∀ j, readCtx (t.bank bank).entries j = if j = s.arg0.toNat then d.ctx else readCtx (s.bank bank).entries j)
      ∧ (∀ other, other ≠ bank → t.bank other = s.bank other)
      ∧ t = { s with
          result := if d.bit then 1 else 0, oob := false, boundary := false,
          mq := ⟨d.coder.a, d.coder.c, d.coder.ct, d.coder.b, d.coder.st, d.coder.complete, true⟩,
          cur := ⟨d.coder.ptr, s.cur.bitIdx⟩, gbBank := t.gbBank, grBank := t.grBank }

/-- The checks of the context commands in their order: BadState before OperandRange before ArithmeticStreamComplete, and the
packed entries `CX.WR` rejects (R159, R161, R162, R394, R395). -/
def Obligations.ContextChecks : Prop :=
  ∀ (bank : Bank) (s : State), s.core = .idle →
    let noValid := (s.bank bank).valid = false
    let outside := bankSize bank ≤ s.arg0.toNat
    let v := s.arg1.toNat
    (s.mq.valid = false ∨ noValid → exec (.mqDecode bank) s = .next (s.takeFault .badState (encode (.mqDecode bank))))
    ∧ (s.mq.valid = true → ¬ noValid → outside →
      exec (.mqDecode bank) s = .next (s.takeFault .operandRange (encode (.mqDecode bank))))
    ∧ (s.mq.valid = true → ¬ noValid → ¬ outside → s.mq.complete = true →
      exec (.mqDecode bank) s = .next (s.takeFault .arithmeticStreamComplete (encode (.mqDecode bank))))
    ∧ (noValid → exec (.cxRd bank) s = .next (s.takeFault .badState (encode (.cxRd bank)))
      ∧ exec (.cxWr bank) s = .next (s.takeFault .badState (encode (.cxWr bank))))
    ∧ (¬ noValid → outside → exec (.cxRd bank) s = .next (s.takeFault .operandRange (encode (.cxRd bank))))
    ∧ (¬ noValid → outside ∨ 256 ≤ v ∨ v / 64 % 2 = 1 ∨ 46 < v % 64 →
      exec (.cxWr bank) s = .next (s.takeFault .operandRange (encode (.cxWr bank))))

/-- `CX.CLEAR` makes every entry `(0, 0)` and the bank valid; `CX.WR` stores the entry its packed operand stands for and no
other; `CX.RD` reports an entry packed, and after a `CX.WR` the word that was written (R32, R160, R161, R162). -/
def Obligations.ContextCommands : Prop :=
  ∀ (bank : Bank) (s : State), s.core = .idle →
    (∃ t, exec (.cxClear bank) s = .next t ∧ (t.bank bank).valid = true
      ∧ (∀ j, readCtx (t.bank bank).entries j = ⟨0, false⟩) ∧ (∀ other, other ≠ bank → t.bank other = s.bank other)
      ∧ t = { s with gbBank := t.gbBank, grBank := t.grBank })
    ∧ ((s.bank bank).valid = true → s.arg0.toNat < bankSize bank →
      (exec (.cxRd bank) s = .next { s with
        result := BitVec.ofNat 32 ((readCtx (s.bank bank).entries s.arg0.toNat).idx.val
          + 128 * (readCtx (s.bank bank).entries s.arg0.toNat).mps.toNat), oob := false, boundary := false })
      ∧ (s.arg1.toNat < 256 → s.arg1.toNat / 64 % 2 = 0 → s.arg1.toNat % 64 ≤ 46 →
        ∃ t, exec (.cxWr bank) s = .next t ∧ (t.bank bank).valid = true
          ∧ (readCtx (t.bank bank).entries s.arg0.toNat).idx.val = s.arg1.toNat % 64
          ∧ (readCtx (t.bank bank).entries s.arg0.toNat).mps = decide (128 ≤ s.arg1.toNat)
          ∧ (∀ j, j ≠ s.arg0.toNat → readCtx (t.bank bank).entries j = readCtx (s.bank bank).entries j)
          ∧ (∀ other, other ≠ bank → t.bank other = s.bank other)
          ∧ t = { s with gbBank := t.gbBank, grBank := t.grBank }
          ∧ exec (.cxRd bank) t = .next { t with result := s.arg1, oob := false, boundary := false }))

/-! ### Huffman decoder -/

/-- `HT.PARSE` of a description that stands in the stream at the cursor, complete and legal, stores its rows with their codes,
makes the table valid, and leaves the cursor after its last field (R202, R208, R209, R210). -/
def Obligations.HtParseReads : Prop :=
  ∀ (s : State) (id : Byte) (d : Description), s.Ready (.htParse id) → s.cur.bitIdx = 0 → d.Legal s.cfg →
    d.At s.span s.cur.pos → d.size ≤ 8 * (s.len - s.cur.byteIdx.toNat) →
    ∃ t, exec (.htParse id) s = .next t
      ∧ t.table id.toNat = some ⟨d.oob, assignCodes d.rows⟩
      ∧ (∀ k, k ≠ id.toNat → t.table k = s.table k)
      ∧ t = { s with tables := t.tables, cur := cursorAt (s.cur.pos + d.size), mq := { s.mq with valid := false } }

/-- Every way a description ends `HT.PARSE` in a fault (R210). In its header: too short a span, the reserved flag, crossed
bounds. In its rows, at the first row that does not let the loop go on: a span that ends inside the row, a range length above
31, values past `2^31 − 1`, more than `HT_MAXROWS` rows; and after the last row: `HTLOW = −2^31`, a span that ends inside the
escape rows, a prefix length above 32. The slot is then invalid, `MQ_VALID` is 0, and the cursor stands where the last read
left it (R208, R213, R395). -/
def Obligations.HtParseFaults : Prop :=
  ∀ (s : State) (id : Byte), s.Ready (.htParse id) → s.cur.bitIdx = 0 →
    let p := s.cur.pos
    let avail := 8 * (s.len - s.cur.byteIdx.toNat)
    let flags := s.span.number p 8
    let oob := flags % 2
    let ps := flags / 2 % 8 + 1
    let rs := flags / 16 % 8 + 1
    let bound : Nat → Int := fun q => (BitVec.ofNat 32 (s.span.number q 32)).toInt
    let low := bound (p + 8)
    let high := bound (p + 40)
    let row : Nat → Nat := fun k => 72 + k * (ps + rs)
    let range : Nat → Nat := fun k => s.span.number (p + row k + ps) rs
    let reach : Nat → Int := fun k => low + ∑ j ∈ Finset.range k, (2 : Int) ^ range j
    let failed : FaultCode → Nat → Prop := fun f n => exec (.htParse id) s = .next (State.takeFault { s with
      tables := Store.erase s.tables id.toNat, cur := cursorAt (p + n), mq := { s.mq with valid := false } } f (encode (.htParse id)))
    (avail < 72 → (8 ≤ avail → flags < 128) → failed .streamExhausted avail)
    ∧ (8 ≤ avail → 128 ≤ flags → failed .structuralError 8)
    ∧ (72 ≤ avail → flags < 128 → high < low → failed .structuralError 72)
    ∧ ∀ k, 72 ≤ avail → flags < 128 → low ≤ high → row k ≤ avail →
      (∀ j, j < k → range j ≤ 31 ∧ reach (j + 1) ≤ 2 ^ 31 - 1 ∧ j + 3 + oob ≤ s.cfg.htMaxRows ∧ reach (j + 1) < high) →
      let stop := row (k + 1)
      let done := stop + (2 + oob) * ps
      (avail < stop → failed .streamExhausted avail)
      ∧ (stop ≤ avail → 31 < range k → failed .structuralError stop)
      ∧ (stop ≤ avail → range k ≤ 31 → 2 ^ 31 - 1 < reach (k + 1) → failed .structuralError stop)
      ∧ (stop ≤ avail → range k ≤ 31 → reach (k + 1) ≤ 2 ^ 31 - 1 → s.cfg.htMaxRows < k + 3 + oob →
        failed .resourceLimitExceeded stop)
      ∧ (stop ≤ avail → range k ≤ 31 → reach (k + 1) ≤ 2 ^ 31 - 1 → k + 3 + oob ≤ s.cfg.htMaxRows → high ≤ reach (k + 1) →
        (low = -2 ^ 31 → failed .structuralError stop)
        ∧ (low ≠ -2 ^ 31 → avail < done → failed .streamExhausted avail)
        ∧ (low ≠ -2 ^ 31 → done ≤ avail →
          (∃ j, j ≤ k ∧ 32 < s.span.number (p + row j) ps) ∨ (∃ j, j < 2 + oob ∧ 32 < s.span.number (p + stop + j * ps) ps) →
          failed .structuralError done))


/-- `HT.DECODE` when the stream at the cursor begins with the code of a live row and of no other live row as short: the row's
value, its literal bits added, or subtracted for the Lower row, or the out-of-band indication; StreamExhausted when the span
ends inside the literal bits (R201, R203, R211, R212, R213). -/
def Obligations.HtDecodeValue : Prop :=
  ∀ (s : State) (id : Byte) (tb : HTable) (r : HtRow), s.Ready (.htDecode id) → s.table id.toNat = some tb →
    r ∈ tb.rows → r.dead = false → 1 ≤ r.preflen → r.preflen ≤ 32 → s.span.number s.cur.pos r.preflen = r.code.toNat →
    (∀ q ∈ tb.rows, q.dead = false → 1 ≤ q.preflen → q.preflen ≤ r.preflen →
      s.span.number s.cur.pos q.preflen = q.code.toNat → q = r) →
    let avail := 8 * (s.len - s.cur.byteIdx.toNat) - s.cur.bitIdx.toNat
    let off := BitVec.ofNat 32 (s.span.number (s.cur.pos + r.preflen) r.rangelen)
    let after : Nat → State := fun n => { s with
      cur := cursorAt (s.cur.pos + n), mq := { s.mq with valid := false }, boundary := false }
    (r.kind = .oob → r.preflen ≤ avail →
      exec (.htDecode id) s = .next { after r.preflen with result := 0, oob := true })
    ∧ (r.kind ≠ .oob → r.preflen + r.rangelen ≤ avail →
      exec (.htDecode id) s = .next { after (r.preflen + r.rangelen) with
        result := if r.kind = .lower then r.rangelow - off else r.rangelow + off, oob := false })
    ∧ (r.kind ≠ .oob → r.preflen ≤ avail → avail < r.preflen + r.rangelen →
      exec (.htDecode id) s = .next (State.takeFault { s with
        cur := cursorAt (s.cur.pos + avail), mq := { s.mq with valid := false } } .streamExhausted (encode (.htDecode id))))

/-- How `HT.DECODE` fails: an invalid custom table; the span ending before a row matches; 32 bits without a match. `RESULT` and
`FLAGS` stay, the cursor stands where the reads left it (R211, R212, R213, R395). -/
def Obligations.HtDecodeFaults : Prop :=
  ∀ (s : State) (id : Byte), s.Ready (.htDecode id) →
    let avail := 8 * (s.len - s.cur.byteIdx.toNat) - s.cur.bitIdx.toNat
    let failed : FaultCode → Nat → State := fun f n => State.takeFault { s with
      cur := cursorAt (s.cur.pos + n), mq := { s.mq with valid := false } } f (encode (.htDecode id))
    (s.table id.toNat = none → exec (.htDecode id) s = .next (s.takeFault .badState (encode (.htDecode id))))
    ∧ ∀ tb, s.table id.toNat = some tb →
      (∀ q ∈ tb.rows, q.dead = false → 1 ≤ q.preflen → q.preflen ≤ min avail 32 →
        s.span.number s.cur.pos q.preflen ≠ q.code.toNat) →
      (avail < 32 → exec (.htDecode id) s = .next (failed .streamExhausted avail))
      ∧ (32 ≤ avail → exec (.htDecode id) s = .next (failed .huffmanNoCode 32))

/-- The code of every row: the canonical formula, ascending within a length in table order, and the bit `DEAD`, equal to
`CODE ≥ 2^PREFLEN`; the row's other fields are those given (R34, R206). The closed sum for the first code of a length is the
spec's inference R207 (2). That `DEAD` is 0 for a row of length 0, which R206 also calls dead, is the model's reading of R34
(DEDUCED, log 18). -/
def Obligations.CanonicalCodes : Prop :=
  ∀ (rows : List RawRow) (k : Nat) (r : RawRow), rows[k]? = some r →
    let code := (∑ j ∈ Finset.Ico 1 r.preflen, (rows.filter fun q => q.preflen = j).length * 2 ^ (r.preflen - j))
      + ((rows.take k).filter fun q => q.preflen = r.preflen).length
    ∃ h, (assignCodes rows)[k]? = some h
      ∧ h.kind = r.kind ∧ h.preflen = r.preflen ∧ h.rangelen = r.rangelen ∧ h.rangelow = r.rangelow
      ∧ (1 ≤ r.preflen → h.code = BitVec.ofNat 32 code ∧ (h.dead = true ↔ 2 ^ r.preflen ≤ code))
      ∧ (r.preflen = 0 → h.code = 0 ∧ h.dead = false)


/-- With a Kraft sum of at most 1 no row with a code is dead, and no row's code is a prefix of another's (R207 (3)). -/
def Obligations.KraftPrefixFree : Prop :=
  ∀ rows : List RawRow, (∀ r ∈ rows, r.preflen ≤ 32) →
    ((rows.filter fun r => decide (1 ≤ r.preflen)).map fun r => 2 ^ (32 - r.preflen)).sum ≤ 2 ^ 32 →
    (∀ h ∈ assignCodes rows, 1 ≤ h.preflen → h.dead = false ∧ h.code.toNat < 2 ^ h.preflen)
    ∧ ∀ (i j : Nat) (g h : HtRow), i ≠ j → (assignCodes rows)[i]? = some g → (assignCodes rows)[j]? = some h →
      1 ≤ g.preflen → g.preflen ≤ h.preflen → h.code.toNat / 2 ^ (h.preflen - g.preflen) ≠ g.code.toNat

/-- `HT.INFO` reports a table's header, 0 for an invalid slot; `HT.ROW` reports one field of one row, and faults on an invalid
slot or a row number that is too large (R214, R215). -/
def Obligations.TableInspection : Prop :=
  ∀ (s : State) (id : Byte) (sel : RowSel), s.Ready (.htRow id sel) →
    let gives : Word → State := fun v => { s with result := v, oob := false, boundary := false }
    (s.table id.toNat = none → exec (.htInfo id) s = .next (gives 0)
      ∧ exec (.htRow id sel) s = .next (s.takeFault .badState (encode (.htRow id sel))))
    ∧ ∀ tb, s.table id.toNat = some tb →
      exec (.htInfo id) s = .next (gives (BitVec.ofNat 32 (tb.rows.length + tb.oob.toNat * 2 ^ 16 + 2 ^ 31)))
      ∧ (tb.rows.length ≤ s.arg0.toNat →
        exec (.htRow id sel) s = .next (s.takeFault .operandRange (encode (.htRow id sel))))
      ∧ ∀ r, tb.rows[s.arg0.toNat]? = some r →
        exec (.htRow id .preflen) s = .next (gives (BitVec.ofNat 32 r.preflen))
        ∧ exec (.htRow id .rangelen) s = .next (gives (BitVec.ofNat 32 r.rangelen))
        ∧ exec (.htRow id .rangelow) s = .next (gives r.rangelow)
        ∧ exec (.htRow id .code) s = .next (gives r.code)
        ∧ exec (.htRow id .kind) s = .next (gives (BitVec.ofNat 32
          ((match r.kind with | .normal => 0 | .lower => 1 | .upper => 2 | .oob => 3) + r.dead.toNat * 2 ^ 8)))

/-! ### Bitmap store -/

/-- `BM.ALLOC` makes an all-zero bitmap of its dimensions or faults on a zero or too large one; `BM.FREE` invalidates a slot;
`BM.INFO` reports its header, 0 for an invalid one (R35, R255, R256, R266). -/
def Obligations.BmSlotCommands : Prop :=
  ∀ (slot : Byte) (s : State), s.Ready (.bmFree slot) →
    let w := s.arg0.toNat
    let h := s.arg1.toNat
    let tooBig := s.cfg.bmMaxW < w ∨ s.cfg.bmMaxH < h ∨ s.cfg.bmMaxBytes < 4 * ((w + 31) / 32) * h
    let gives : Nat → State := fun v => { s with result := BitVec.ofNat 32 v, oob := false, boundary := false }
    (w ≠ 0 → h ≠ 0 → ¬ tooBig → ∃ t bm, exec (.bmAlloc slot) s = .next t ∧ t.bitmap slot.toNat = some bm
      ∧ bm.w = w ∧ bm.h = h ∧ (∀ x y, bm.get x y = false) ∧ (∀ k, k ≠ slot.toNat → t.bitmap k = s.bitmap k)
      ∧ t = { s with bitmaps := t.bitmaps })
    ∧ (w = 0 ∨ h = 0 → exec (.bmAlloc slot) s = .next (s.takeFault .operandRange (encode (.bmAlloc slot))))
    ∧ (w ≠ 0 → h ≠ 0 → tooBig → exec (.bmAlloc slot) s = .next (s.takeFault .resourceLimitExceeded (encode (.bmAlloc slot))))
    ∧ (∃ t, exec (.bmFree slot) s = .next t ∧ t.bitmap slot.toNat = none
      ∧ (∀ k, k ≠ slot.toNat → t.bitmap k = s.bitmap k) ∧ t = { s with bitmaps := t.bitmaps })
    ∧ (s.bitmap slot.toNat = none → ∀ sel, exec (.bmInfo slot sel) s = .next (gives 0))
    ∧ ∀ bm, s.bitmap slot.toNat = some bm →
      exec (.bmInfo slot .valid) s = .next (gives 1) ∧ exec (.bmInfo slot .width) s = .next (gives bm.w)
      ∧ exec (.bmInfo slot .height) s = .next (gives bm.h)
      ∧ exec (.bmInfo slot .stride) s = .next (gives (4 * ((bm.w + 31) / 32)))

/-- `BM.FILL` makes every pixel `v`; `BM.GET` reports a pixel, 0 outside; `BM.SET` changes exactly its pixel, whose byte is the
only one that can change, or nothing outside (R63, R252, R253, R257, R258, R259). -/
def Obligations.BmPixelCommands : Prop :=
  ∀ (slot : Byte) (v : Bool) (s : State) (bm : Bitmap), s.Ready (.bmSet slot v) → s.bitmap slot.toNat = some bm →
    let x := s.arg0.toInt
    let y := s.arg1.toInt
    let inside : Int → Int → Prop := fun x y => 0 ≤ x ∧ x < bm.w ∧ 0 ≤ y ∧ y < bm.h
    (∃ t b, exec (.bmFill slot v) s = .next t ∧ t.bitmap slot.toNat = some b ∧ b.w = bm.w ∧ b.h = bm.h
      ∧ (∀ x y, inside x y → b.get x y = v) ∧ (∀ k, k ≠ slot.toNat → t.bitmap k = s.bitmap k)
      ∧ t = { s with bitmaps := t.bitmaps })
    ∧ (exec (.bmGet slot) s = .next { s with result := if bm.get x y then 1 else 0, oob := false, boundary := false })
    ∧ (¬ inside x y → bm.get x y = false)
    ∧ (inside x y → bm.get x y
        = (bm.byte (y.toNat * (4 * ((bm.w + 31) / 32)) + x.toNat / 8)).getLsbD (7 - x.toNat % 8))
    ∧ ∃ t b, exec (.bmSet slot v) s = .next t ∧ t.bitmap slot.toNat = some b ∧ b.w = bm.w ∧ b.h = bm.h
      ∧ (∀ x' y', b.get x' y' = if x' = x ∧ y' = y ∧ inside x y then v else bm.get x' y')
      ∧ (∀ a, (inside x y → a ≠ y.toNat * (4 * ((bm.w + 31) / 32)) + x.toNat / 8) → b.byte a = bm.byte a)
      ∧ (∀ k, k ≠ slot.toNat → t.bitmap k = s.bitmap k) ∧ t = { s with bitmaps := t.bitmaps }

/-- `BM.COPYLINE` makes a row equal to another, a row outside reading as zeros and a destination outside changing nothing;
`BM.EXPAND` adds rows of its fill bit, changes nothing for a height not above the old one, and faults beyond the limits
(R260, R264). -/
def Obligations.BmRowCommands : Prop :=
  ∀ (slot : Byte) (v : Bool) (s : State) (bm : Bitmap), s.Ready (.bmExpand slot v) → s.bitmap slot.toNat = some bm →
    let d := s.arg0.toInt
    let r := s.arg1.toInt
    let nh := s.arg0.toNat
    let tooBig := s.cfg.bmMaxH < nh ∨ s.cfg.bmMaxBytes < 4 * ((bm.w + 31) / 32) * nh
    (∃ t b, exec (.bmCopyLine slot) s = .next t ∧ t.bitmap slot.toNat = some b ∧ b.w = bm.w ∧ b.h = bm.h
      ∧ (∀ x y, b.get x y = if y = d ∧ 0 ≤ d ∧ d < bm.h then bm.get x r else bm.get x y)
      ∧ (∀ k, k ≠ slot.toNat → t.bitmap k = s.bitmap k) ∧ t = { s with bitmaps := t.bitmaps })
    ∧ (nh ≤ bm.h → exec (.bmExpand slot v) s = .next s)
    ∧ (bm.h < nh → tooBig → exec (.bmExpand slot v) s
        = .next (s.takeFault .resourceLimitExceeded (encode (.bmExpand slot v))))
    ∧ (bm.h < nh → ¬ tooBig → ∃ t b, exec (.bmExpand slot v) s = .next t ∧ t.bitmap slot.toNat = some b
      ∧ b.w = bm.w ∧ b.h = nh
      ∧ (∀ x y : Int, 0 ≤ x → x < bm.w → 0 ≤ y → y < nh → b.get x y = if y < bm.h then bm.get x y else v)
      ∧ (∀ k, k ≠ slot.toNat → t.bitmap k = s.bitmap k) ∧ t = { s with bitmaps := t.bitmaps })

/-- `BM.COMPOSE`: the destination pixel a source pixel of the effective rectangle lands on becomes the combination of the two,
every other pixel stays; the source is read as it was (R95, R261, R262, R263). -/
def Obligations.BmComposeResult : Prop :=
  ∀ (dst src : Byte) (cop : CombOp) (clip : Bool) (s : State) (d b : Bitmap), s.Ready (.bmCompose dst src cop clip) →
    s.bitmap dst.toNat = some d → s.bitmap src.toNat = some b →
    let rx : Int := if clip then s.rect.x.toInt else 0
    let ry : Int := if clip then s.rect.y.toInt else 0
    let rw' : Int := if clip then s.rect.w.toNat else b.w
    let rh : Int := if clip then s.rect.h.toNat else b.h
    ∃ t c, exec (.bmCompose dst src cop clip) s = .next t ∧ t.bitmap dst.toNat = some c ∧ c.w = d.w ∧ c.h = d.h
      ∧ (∀ x y : Int, 0 ≤ x → x < d.w → 0 ≤ y → y < d.h →
        let sx := x - s.arg0.toInt + rx
        let sy := y - s.arg1.toInt + ry
        c.get x y =
          if max rx 0 ≤ sx ∧ sx < min (rx + rw') b.w ∧ max ry 0 ≤ sy ∧ sy < min (ry + rh) b.h then
            match cop with
            | .or => d.get x y || b.get sx sy
            | .and => d.get x y && b.get sx sy
            | .xor => d.get x y != b.get sx sy
            | .xnor => d.get x y == b.get sx sy
            | .replace => b.get sx sy
          else d.get x y)
      ∧ (∀ k, k ≠ dst.toNat → t.bitmap k = s.bitmap k) ∧ t = { s with bitmaps := t.bitmaps }

/-- `BM.SUBIMAGE`: the new bitmap's pixel `(i, j)` is the source's at `(RECT_X + i, RECT_Y + j)`, 0 outside it; zero or too
large dimensions fault (R252, R265). -/
def Obligations.BmSubImageResult : Prop :=
  ∀ (dst src : Byte) (s : State) (b : Bitmap), s.Ready (.bmSubImage dst src) → s.bitmap src.toNat = some b →
    let w := s.rect.w.toNat
    let h := s.rect.h.toNat
    let tooBig := s.cfg.bmMaxW < w ∨ s.cfg.bmMaxH < h ∨ s.cfg.bmMaxBytes < 4 * ((w + 31) / 32) * h
    let faults : FaultCode → Prop := fun f =>
      exec (.bmSubImage dst src) s = .next (s.takeFault f (encode (.bmSubImage dst src)))
    (w = 0 ∨ h = 0 → faults .operandRange)
    ∧ (w ≠ 0 → h ≠ 0 → tooBig → faults .resourceLimitExceeded)
    ∧ (w ≠ 0 → h ≠ 0 → ¬ tooBig → ∃ t c, exec (.bmSubImage dst src) s = .next t ∧ t.bitmap dst.toNat = some c
      ∧ c.w = w ∧ c.h = h
      ∧ (∀ i j : Nat, i < w → j < h → c.get i j = b.get (s.rect.x.toInt + i) (s.rect.y.toInt + j))
      ∧ (∀ k, k ≠ dst.toNat → t.bitmap k = s.bitmap k) ∧ t = { s with bitmaps := t.bitmaps })

/-- Composing one bitmap onto another twice: OR, AND and REPLACE give what once gives, XOR and XNOR give the destination back;
REPLACE and then XOR of a bitmap of equal dimensions at `(0, 0)` leaves every pixel 0 (R267). -/
def Obligations.ComposeAlgebra : Prop :=
  ∀ (dst src : Byte) (cop : CombOp) (clip : Bool) (s t u : State) (d b : Bitmap), s.core = .idle → dst ≠ src →
    s.Ready (.bmCompose dst src cop clip) → s.bitmap dst.toNat = some d → s.bitmap src.toNat = some b →
    (exec (.bmCompose dst src cop clip) s = .next t → exec (.bmCompose dst src cop clip) t = .next u →
      ∃ c e, t.bitmap dst.toNat = some c ∧ u.bitmap dst.toNat = some e ∧ e.w = d.w ∧ e.h = d.h
        ∧ ∀ x y, e.get x y = if cop = .xor ∨ cop = .xnor then d.get x y else c.get x y)
    ∧ (d.w = b.w → d.h = b.h → s.arg0 = 0 → s.arg1 = 0 →
      exec (.bmCompose dst src .replace false) s = .next t → exec (.bmCompose dst src .xor false) t = .next u →
      ∃ e, u.bitmap dst.toNat = some e ∧ e.w = d.w ∧ e.h = d.h ∧ ∀ x y, e.get x y = false)

/-- A command that needs the contents of an invalid slot raises BadState and changes nothing else (R250, R391, R395). -/
def Obligations.InvalidSlots : Prop :=
  ∀ (i : Instr) (slot other : Byte) (s : State), s.Ready i → s.bitmap slot.toNat = none →
    (∃ v, i = .bmFill slot v ∨ i = .bmSet slot v ∨ i = .bmExpand slot v) ∨ i = .bmGet slot ∨ i = .bmCopyLine slot
      ∨ (∃ cop clip, i = .bmCompose slot other cop clip ∨ i = .bmCompose other slot cop clip) ∨ i = .bmSubImage other slot →
    exec i s = .next (s.takeFault .badState (encode i))

/-! ### Region decoders -/

/-- A region every pixel of which the skip bitmap forces to zero takes no decision: `GRD.START` finishes with an all-zero bitmap
and the decoder untouched; `GRD.CONT` likewise makes every row from `GRD_ROW` on zero (R304, R305, R308, R316). -/
def Obligations.GrdAllSkipped : Prop :=
  ∀ (s : State) (k : Bitmap), s.gb.useSkip = true → s.gb.tpgdon = false → s.pause = false → s.host.pauseFeed = [] →
    s.bitmap s.gb.skip = some k → (∀ x y : Nat, x < s.gb.w.toNat → y < s.gb.h.toNat → k.get x y = true) →
    (s.CanStart → ∃ t b, exec .grdStart s = .next t ∧ t.bitmap s.gb.dst = some b
      ∧ b.w = s.gb.w.toNat ∧ b.h = s.gb.h.toNat ∧ (∀ x y, b.get x y = false)
      ∧ (∀ j, j ≠ s.gb.dst → t.bitmap j = s.bitmap j)
      ∧ t = { s with bitmaps := t.bitmaps, grd := ⟨.finished, s.gb.h, false⟩ })
    ∧ ∀ bm, s.CanContinue bm → s.grd.row.toNat < s.gb.h.toNat → ∃ t b, exec .grdCont s = .next t
      ∧ t.bitmap s.gb.dst = some b ∧ b.w = bm.w ∧ b.h = bm.h
      ∧ (∀ x y : Int, b.get x y = if s.grd.row.toNat ≤ y then false else bm.get x y)
      ∧ (∀ j, j ≠ s.gb.dst → t.bitmap j = s.bitmap j)
      ∧ t = { s with bitmaps := t.bitmaps, grd := ⟨.finished, s.gb.h, s.grd.ltp⟩ }

/-- The row loop of `GRD.START` (from row 0 of a new all-zero bitmap) and of `GRD.CONT` (from `GRD_ROW`): after `n` rows
without a failure and with every earlier sample 0, it ends Finished at row `H` or paused at a sample that reads 1; a row that
fails ends it in Error with ArithmeticStreamComplete (R304, R305, R307, R311, R317). A row (R36, R308, R310): with `TPGDON` it
takes one decision in `SLTP_CX[T]`, whose bit is XORed into `GRD_LTP`, and with the flag 1 it becomes a copy of the row above
(zeros for row 0); otherwise its pixels from left to right are 0 where skipped, and else the decision in their context. Every
decision comes after the completeness check, and a row ends in failure at the first that finds the decoder complete. -/
def Obligations.GrdRowLoop : Prop :=
  (∀ (s : State) (n : Nat) (r r' : Region),
    let e := grdEnv s s.skipSource
    let sample := pauseSample s.pause s.host.pauseFeed
    let runs : Instr → Nat → Region → Prop := fun i row0 start =>
      RegionStep.each (decodeRow e) row0 n start = .ok r → row0 + n ≤ e.h →
      (1 ≤ n → (∀ j, 1 ≤ j → j < n → sample j = false) →
        (row0 + n = e.h → exec i s = .next (s.afterRows r .finished e.h (n - 1)))
        ∧ (row0 + n < e.h → sample n = true → exec i s = .next (s.afterRows r .decoding (row0 + n) n)))
      ∧ ((∀ j, 1 ≤ j → j ≤ n → sample j = false) → row0 + n < e.h → decodeRow e (row0 + n) r = .error r' →
        exec i s = .next ((s.afterRows r' .error (row0 + n) n).takeFault .arithmeticStreamComplete (encode i)))
    (s.CanStart → runs .grdStart 0 ⟨s.coder, s.gbBank.entries, Bitmap.blank e.w e.h, false⟩)
    ∧ ∀ bm, s.CanContinue bm → runs .grdCont s.grd.row.toNat ⟨s.coder, s.gbBank.entries, bm, s.grd.ltp⟩)
  ∧ ∀ (s : State) (y n : Nat) (r : Region) (px : Nat → Region),
    let row := decodeRow (grdEnv s s.skipSource) y
    let dec : Nat → Region → Decision := fun i q => decodeBit s.span (readCtx q.entries i) q.coder
    let took : Nat → Region → Region := fun i q =>
      { q with coder := (dec i q).coder, entries := writeCtx q.entries i (dec i q).ctx }
    let cfg := s.gb.cfg
    let t : BitVec 2 := cfg.extractLsb' 0 2
    let tpgdon := cfg.getLsbD 2
    let offset : Word → Nat → Int := fun v k => (v.extractLsb' k 8).toInt
    let pixels : AtPixels := ⟨(offset s.gb.atLo 0, offset s.gb.atLo 8), (offset s.gb.atLo 16, offset s.gb.atLo 24),
      (offset s.gb.atHi 0, offset s.gb.atHi 8), (offset s.gb.atHi 16, offset s.gb.atHi 24)⟩
    let sltp := if t = 0 then 0x9B25 else if t = 1 then 0x0795 else if t = 2 then 0x00E5 else 0x0195
    let typ : Region := { took sltp r with ltp := r.ltp != (dec sltp r).bit }
    let cx : Nat → Nat := fun x => gbContext t pixels (px x).bm x y
    let skipped : Nat → Bool := fun x => cfg.getLsbD 3 && (s.bitmap (cfg.extractLsb' 16 8).toNat).any fun k => k.get x y
    s.gb.dst = (cfg.extractLsb' 8 8).toNat
    ∧ (tpgdon = true → r.coder.complete = true → row r = .error r)
    ∧ (tpgdon = true → r.coder.complete = false → typ.ltp = true →
      ∃ b : Bitmap, row r = .ok { typ with bm := b } ∧ b.w = r.bm.w ∧ b.h = r.bm.h
        ∧ ∀ x' y' : Int, b.get x' y' = if y' = y ∧ y < r.bm.h then r.bm.get x' (y - 1) else r.bm.get x' y')
    ∧ (tpgdon = false ∨ (r.coder.complete = false ∧ typ.ltp = false) → n ≤ s.gb.w.toNat →
      px 0 = (if tpgdon then typ else r) →
      (∀ x, x < n →
        (skipped x = true → px (x + 1) = { px x with bm := (px x).bm.set x y false })
        ∧ (skipped x = false → (px x).coder.complete = false
          ∧ px (x + 1) = { took (cx x) (px x) with bm := (px x).bm.set x y (dec (cx x) (px x)).bit })) →
      (n = s.gb.w.toNat → row r = .ok (px n))
      ∧ (n < s.gb.w.toNat → skipped n = false → (px n).coder.complete = true → row r = .error (px n)))


/-- After `GRD.START` has passed its checks the rows it has not decoded are all 0: those from `GRD_ROW` on while it is paused,
those after `GRD_ROW` when it failed (R317, R319). -/
def Obligations.GrdZeroBelow : Prop :=
  ∀ s t : State, s.CanStart → exec .grdStart s = .next t →
    ∃ bm, t.bitmap s.gb.dst = some bm ∧ bm.w = s.gb.w.toNat ∧ bm.h = s.gb.h.toNat
      ∧ ∀ x y : Int, (t.grd.st = .decoding ∧ t.grd.row.toNat ≤ y) ∨ t.grd.row.toNat < y → bm.get x y = false

/-- Row-resumability (R318): a generic-region decode that paused, continued without a further pause, ends in the state the same
decode reaches when it never pauses, but for the command word a fault records. It holds from every pause, so from every
sequence of pauses. -/
def Obligations.RowResumability : Prop :=
  ∀ (i : Instr) (s t u v : State), i = .grdStart ∨ i = .grdCont → s.core = .idle → exec i s = .next t → t.core = .idle →
    t.grd.st = .decoding → exec .grdCont t.quiet = .next u → exec i s.quiet = .next v →
    { u with faultCmd := 0 } = { v with faultCmd := 0 }

/-- The checks of the region commands in their order: BadState for the decoder's state, OperandRange, BadState for the slots,
ResourceLimitExceeded (R304, R305, R353, R394, R395). -/
def Obligations.RegionChecks : Prop :=
  ∀ s : State, s.core = .idle →
    let faults : Instr → FaultCode → Prop := fun i f => exec i s = .next (s.takeFault f (encode i))
    let gbBad := s.mq.valid = false ∨ s.gbBank.valid = false
    let gbRange := s.gb.w = 0 ∨ s.gb.h = 0 ∨ s.cfg.nbm ≤ s.gb.dst
      ∨ (s.gb.useSkip = true ∧ (s.cfg.nbm ≤ s.gb.skip ∨ s.gb.skip = s.gb.dst))
    let noSkip := s.gb.useSkip = true ∧ s.bitmap s.gb.skip = none
    let grBad := s.mq.valid = false ∨ s.grBank.valid = false
    let grRange := s.gr.w = 0 ∨ s.gr.h = 0 ∨ s.cfg.nbm ≤ s.gr.dst ∨ s.cfg.nbm ≤ s.gr.ref ∨ s.gr.ref = s.gr.dst
    let big : Nat → Nat → Prop := fun w h =>
      s.cfg.bmMaxW < w ∨ s.cfg.bmMaxH < h ∨ s.cfg.bmMaxBytes < 4 * ((w + 31) / 32) * h
    (s.grd.st = .decoding ∨ gbBad → faults .grdStart .badState)
    ∧ (s.grd.st ≠ .decoding → ¬ gbBad → gbRange → faults .grdStart .operandRange)
    ∧ (s.grd.st ≠ .decoding → ¬ gbBad → ¬ gbRange → noSkip → faults .grdStart .badState)
    ∧ (s.grd.st ≠ .decoding → ¬ gbBad → ¬ gbRange → ¬ noSkip → big s.gb.w.toNat s.gb.h.toNat →
      faults .grdStart .resourceLimitExceeded)
    ∧ (s.grd.st ≠ .decoding ∨ gbBad → faults .grdCont .badState)
    ∧ (s.bitmap s.gb.dst = none ∨ noSkip → faults .grdCont .badState)
    ∧ (∀ bm, s.bitmap s.gb.dst = some bm → bm.w ≠ s.gb.w.toNat ∨ bm.h ≠ s.gb.h.toNat → faults .grdCont .badState)
    ∧ (grBad → faults .grrDecode .badState)
    ∧ (¬ grBad → grRange → faults .grrDecode .operandRange)
    ∧ (¬ grBad → ¬ grRange → s.bitmap s.gr.ref = none → faults .grrDecode .badState)
    ∧ (¬ grBad → ¬ grRange → s.bitmap s.gr.ref ≠ none → big s.gr.w.toNat s.gr.h.toNat →
      faults .grrDecode .resourceLimitExceeded)

/-- `GRR.DECODE`: the region its rows make one after the other, or ArithmeticStreamComplete with what they made up to there; a
one-pixel region without typical prediction always completes, its pixel being the decision in its context (R38, R353). A row
(R360, R361): with `TPGRON` it takes one decision in `SLTP_RCX[T]`, whose bit is XORed into `LTP`; then its pixels from left to right
are the uniform value of their reference neighbourhood where the short-circuit applies, which only rows with `LTP = 1` have,
and else the decision in their context. Every decision comes after the completeness check (R164). -/
def Obligations.GrrResult : Prop :=
  (∀ (s : State) (ref : Bitmap), s.CanRefine ref →
    let e := grrEnv s ref
    let start : Region := ⟨s.coder, s.grBank.entries, Bitmap.blank e.w e.h, false⟩
    let offset : Nat → Int := fun k => (s.gr.atPix.extractLsb' k 8).toInt
    (e.sp = s.span ∧ e.w = s.gr.w.toNat ∧ e.h = s.gr.h.toNat ∧ e.t = s.gr.cfg.extractLsb' 0 1 ∧ e.tpgron = s.gr.cfg.getLsbD 1
      ∧ e.ref = ref ∧ e.dx = s.gr.refDx.toInt ∧ e.dy = s.gr.refDy.toInt ∧ e.a1 = (offset 0, offset 8)
      ∧ e.a2 = (offset 16, offset 24) ∧ e.centerDisplaced = s.cfg.tpgrCenterDisplaced
      ∧ s.gr.dst = (s.gr.cfg.extractLsb' 8 8).toNat ∧ s.gr.ref = (s.gr.cfg.extractLsb' 16 8).toNat)
    ∧ (∀ r, grrRows e start = .ok r → exec .grrDecode s = .next (s.afterRefinement r))
    ∧ (∀ r, grrRows e start = .error r →
      exec .grrDecode s = .next ((s.afterRefinement r).takeFault .arithmeticStreamComplete (encode .grrDecode)))
    ∧ (s.gr.w = 1 → s.gr.h = 1 → s.gr.tpgron = false → s.mq.complete = false →
      ∃ t b, exec .grrDecode s = .next t ∧ t.core = .idle ∧ t.bitmap s.gr.dst = some b ∧ b.w = 1 ∧ b.h = 1
        ∧ b.get 0 0 = (decodeBit s.span (readCtx s.grBank.entries (grContext e start.bm 0 0)) s.coder).bit))
  ∧ (∀ (e : GrrEnv) (m : Nat) (q : Region) (rw' : Nat → Region), m ≤ e.h →
    (∀ y, y < m → grrRow e y (rw' y) = .ok (rw' (y + 1))) →
    (m = e.h → grrRows e (rw' 0) = .ok (rw' m)) ∧ (m < e.h → grrRow e m (rw' m) = .error q → grrRows e (rw' 0) = .error q))
  ∧ ∀ (e : GrrEnv) (y n : Nat) (r : Region) (px : Nat → Region),
    let dec : Nat → Region → Decision := fun i q => decodeBit e.sp (readCtx q.entries i) q.coder
    let took : Nat → Region → Region := fun i q =>
      { q with coder := (dec i q).coder, entries := writeCtx q.entries i (dec i q).ctx }
    let sltp := if e.t = 0 then 0x0010 else 0x0008
    let typ : Region := { took sltp r with ltp := r.ltp != (dec sltp r).bit }
    let cx : Nat → Nat := fun x => grContext e (px x).bm x y
    let near : Nat → Int → Int → Bool := fun x i j =>
      if e.centerDisplaced then e.ref.get (x - e.dx + i) (y - e.dy + j) else e.ref.get (x + i) (y + j)
    let short : Nat → Prop := fun x => e.tpgron = true ∧ (px x).ltp = true
      ∧ ∀ i ∈ ([-1, 0, 1] : List Int), ∀ j ∈ ([-1, 0, 1] : List Int), near x i j = near x 0 0
    (e.tpgron = true → r.coder.complete = true → grrRow e y r = .error r)
    ∧ (e.tpgron = false ∨ r.coder.complete = false → n ≤ e.w → px 0 = (if e.tpgron then typ else r) →
      (∀ x, x < n →
        (short x → px (x + 1) = { px x with bm := (px x).bm.set x y (near x 0 0) })
        ∧ (¬ short x → (px x).coder.complete = false
          ∧ px (x + 1) = { took (cx x) (px x) with bm := (px x).bm.set x y (dec (cx x) (px x)).bit })) →
      (n = e.w → grrRow e y r = .ok (px n))
      ∧ (n < e.w → ¬ short n → (px n).coder.complete = true → grrRow e y r = .error (px n)))


/-- The context numbers of the four generic templates, written out from the tables of the spec; a pixel outside the bitmap
counts 0, and every number lies below the template's prefix of the bank (R33, R312, R313, R314, R315). -/
def Obligations.GenericContexts : Prop :=
  ∀ (q : AtPixels) (bm : Bitmap) (x y : Nat),
    let p : Int → Int → Nat := fun dx dy => (bm.get (x + dx) (y + dy)).toNat
    gbContext 0 q bm x y
        = p (-1) 0 + 2 * p (-2) 0 + 4 * p (-3) 0 + 8 * p (-4) 0 + 16 * p q.a1.1 q.a1.2 + 32 * p 2 (-1) + 64 * p 1 (-1)
          + 128 * p 0 (-1) + 256 * p (-1) (-1) + 512 * p (-2) (-1) + 1024 * p q.a2.1 q.a2.2 + 2048 * p q.a3.1 q.a3.2
          + 4096 * p 1 (-2) + 8192 * p 0 (-2) + 16384 * p (-1) (-2) + 32768 * p q.a4.1 q.a4.2
      ∧ gbContext 1 q bm x y
        = p (-1) 0 + 2 * p (-2) 0 + 4 * p (-3) 0 + 8 * p q.a1.1 q.a1.2 + 16 * p 2 (-1) + 32 * p 1 (-1) + 64 * p 0 (-1)
          + 128 * p (-1) (-1) + 256 * p (-2) (-1) + 512 * p 2 (-2) + 1024 * p 1 (-2) + 2048 * p 0 (-2) + 4096 * p (-1) (-2)
      ∧ gbContext 2 q bm x y
        = p (-1) 0 + 2 * p (-2) 0 + 4 * p q.a1.1 q.a1.2 + 8 * p 1 (-1) + 16 * p 0 (-1) + 32 * p (-1) (-1)
          + 64 * p (-2) (-1) + 128 * p 1 (-2) + 256 * p 0 (-2) + 512 * p (-1) (-2)
      ∧ gbContext 3 q bm x y
        = p (-1) 0 + 2 * p (-2) 0 + 4 * p (-3) 0 + 8 * p (-4) 0 + 16 * p q.a1.1 q.a1.2 + 32 * p 1 (-1) + 64 * p 0 (-1)
          + 128 * p (-1) (-1) + 256 * p (-2) (-1) + 512 * p (-3) (-1)

/-- The context numbers of the two refinement templates, and the pixel typical prediction sets without a decision: where the
3×3 reference neighbourhood is uniform, its value (R350, R357, R358, R359, R361). -/
def Obligations.RefinementContexts : Prop :=
  ∀ (e : GrrEnv) (bm : Bitmap) (x y : Nat),
    let r : Int → Int → Nat := fun i j => (e.ref.get (x - e.dx + i) (y - e.dy + j)).toNat
    let p : Int → Int → Nat := fun i j => (bm.get (x + i) (y + j)).toNat
    (e.t = 0 → grContext e bm x y
        = r 1 1 + 2 * r 0 1 + 4 * r (-1) 1 + 8 * r 1 0 + 16 * r 0 0 + 32 * r (-1) 0 + 64 * r 1 (-1) + 128 * r 0 (-1)
          + 256 * r e.a2.1 e.a2.2 + 512 * p (-1) 0 + 1024 * p 1 (-1) + 2048 * p 0 (-1) + 4096 * p e.a1.1 e.a1.2)
    ∧ (e.t = 1 → grContext e bm x y
        = r 1 1 + 2 * r 0 1 + 4 * r 1 0 + 8 * r 0 0 + 16 * r (-1) 0 + 32 * r 0 (-1)
          + 64 * p (-1) 0 + 128 * p 1 (-1) + 256 * p 0 (-1) + 512 * p (-1) (-1))
    ∧ ∀ reg : Region, e.tpgron = true → reg.ltp = true →
      let cx : Int := if e.centerDisplaced then x - e.dx else x
      let cy : Int := if e.centerDisplaced then y - e.dy else y
      (∀ i j : Int, -1 ≤ i → i ≤ 1 → -1 ≤ j → j ≤ 1 → e.ref.get (cx + i) (cy + j) = e.ref.get cx cy) →
      grrPixel e y x reg = .ok { reg with bm := reg.bm.set x y (e.ref.get cx cy) }

/-! ### The host's other operations -/

/-- A write to `SRC_LEN` constructs the reader: `LEN` is the value up to 2^28 and 0 above, the cursor is `(0, 0)`, `MQ_VALID` is
0, a paused decode goes to Error, and nothing else changes (R26). -/
def Obligations.SrcLenWrite : Prop :=
  ∀ (s : State) (v : Word) (rest : List HostOp), s.host.ops = .regWrite 0x1C v :: rest →
    ∃ t, step s = .next t ∧ t.len = (if v.toNat ≤ 2 ^ 28 then v.toNat else 0)
      ∧ t = { (s.popOp rest).setBusyWindow false with
          srcLen := v, cur := ⟨0, 0⟩, mq := { s.mq with valid := false },
          grd := { s.grd with st := if s.grd.st = .decoding then .error else s.grd.st } }

/-- The source window: a write stores its byte and no other, and inside the live span clears `MQ_VALID` and ends a paused
decode; a read returns the byte and changes nothing else; an offset at or beyond `SRC_CAP` does not exist (R61). -/
def Obligations.SourceWindow : Prop :=
  ∀ (s : State) (i : Nat) (b : Byte) (rest : List HostOp),
    (s.host.ops = .srcWrite i b :: rest → i < 2 ^ 28 →
      ∃ t, step s = .next t ∧ (∀ a, t.span.byte a = if a = i then b else s.span.byte a)
        ∧ t = { (s.popOp rest).setBusyWindow false with
            src := t.src,
            mq := { s.mq with valid := s.mq.valid && decide (s.len ≤ i) },
            grd := { s.grd with st := if i < s.len ∧ s.grd.st = .decoding then .error else s.grd.st } })
    ∧ (s.host.ops = .srcRead i :: rest → i < 2 ^ 28 →
      step s = .next (((s.popOp rest).setBusyWindow false).returnData (BitVec.ofNat 32 (s.span.byte i).toNat)))
    ∧ (s.host.ops = .srcWrite i b :: rest ∨ s.host.ops = .srcRead i :: rest → 2 ^ 28 ≤ i → step s = .fault .noSourceByte)

/-- The generic-region registers ignore writes while `GRD_STATE = Decoding`; otherwise each holds what was written, reserved
bits of `GB_CFG` reading 0 (R36, R42). -/
def Obligations.GbRegistersLocked : Prop :=
  ∀ (s : State) (off : Byte) (v : Word) (rest : List HostOp), s.host.ops = .regWrite off v :: rest →
    off ∈ ([0x50, 0x54, 0x58, 0x5C, 0x60] : List Byte) →
    let q := (s.popOp rest).setBusyWindow false
    (s.grd.st = .decoding → step s = .next q)
    ∧ (s.grd.st ≠ .decoding → ∃ t, step s = .next t ∧ t = { q with gb := t.gb }
      ∧ t.regView off = (if off = 0x58 then v &&& 0x00FFFF0F else v)
      ∧ ∀ other, other ∈ ([0x50, 0x54, 0x58, 0x5C, 0x60] : List Byte) → other ≠ off → t.regView other = s.regView other)

/-- A write to `CTRL`, to an operand register or to a refinement-region register stores what is written, reserved bits reading
0, and changes no other register; a write to a read-only register or to an offset that holds no register is ignored (R21,
R31, R38, R42). -/
def Obligations.RegisterWrites : Prop :=
  ∀ (s : State) (off : Byte) (v : Word) (rest : List HostOp), s.host.ops = .regWrite off v :: rest →
    let q := (s.popOp rest).setBusyWindow false
    let plain : List Byte := [0x18, 0x20, 0x24, 0x28, 0x2C, 0x30, 0x34, 0x68, 0x6C, 0x70, 0x74, 0x78, 0x7C]
    let readOnly : List Byte := [0x04, 0x08, 0x0C, 0x10, 0x14, 0x38, 0x3C, 0x40, 0x44, 0x48, 0x4C, 0x64, 0x80]
    (off ∈ plain → ∃ t, step s = .next t
      ∧ t.regView off = (if off = 0x18 then v &&& 1 else if off = 0x70 then v &&& 0x00FFFF03 else v)
      ∧ (∀ other, other ≠ off → t.regView other = s.regView other)
      ∧ t = { q with pause := t.pause, arg0 := t.arg0, arg1 := t.arg1, rect := t.rect, gr := t.gr })
    ∧ (off ∈ readOnly ∨ (0x84 ≤ off.toNat ∧ off.toNat % 4 = 0) → step s = .next q)

/-- A register read returns the register and changes nothing but what the host holds: the fields of `STATUS`, `FLAGS`, `FAULT`,
the constant `ID`, 0 for `CMD` and for the offsets that hold no register, and for every other offset of the register map the
piece of state it names (R21, R23, R25 to R28, R30, R31, R36 to R42). -/
def Obligations.RegisterReads : Prop :=
  ∀ (s : State) (off : Byte) (rest : List HostOp), s.host.ops = .regRead off :: rest → off.toNat % 4 = 0 →
    step s = .next (((s.popOp rest).setBusyWindow false).returnData (s.regView off))
      ∧ (s.regView 0x04).toNat
        = (match s.core with | .idle => 0 | .faulted => 2)
          + 4 * (match s.grd.st with | .ready => 0 | .decoding => 1 | .finished => 2 | .error => 3)
          + 16 * s.mq.valid.toNat + 32 * s.mq.complete.toNat
          + 64 * (match s.mq.st with | .dataAvailable => 0 | .decodingFinished => 1 | .looping => 2)
          + 256 * s.gbBank.valid.toNat + 512 * s.grBank.valid.toNat + 1024 * s.grd.ltp.toNat
      ∧ (s.regView 0x14).toNat = s.oob.toNat + 2 * s.boundary.toNat
      ∧ (s.fault = none → s.regView 0x08 = 0)
      ∧ (∀ f, s.fault = some f → (s.regView 0x08).toNat = (match f with
        | .illegalCommand => 1 | .badState => 2 | .misaligned => 3 | .operandRange => 4 | .resourceLimitExceeded => 5
        | .structuralError => 6 | .streamExhausted => 7 | .arithmeticStreamComplete => 8 | .huffmanNoCode => 9))
      ∧ s.regView 0x80 = 0x4A423201
      ∧ (off = 0 ∨ 0x84 ≤ off.toNat → s.regView off = 0)
      ∧ s.regView 0x0C = s.faultCmd ∧ s.regView 0x10 = s.result ∧ s.regView 0x18 = (if s.pause then 1 else 0)
      ∧ s.regView 0x1C = s.srcLen ∧ s.regView 0x20 = s.arg0 ∧ s.regView 0x24 = s.arg1
      ∧ s.regView 0x28 = s.rect.x ∧ s.regView 0x2C = s.rect.y ∧ s.regView 0x30 = s.rect.w ∧ s.regView 0x34 = s.rect.h
      ∧ s.regView 0x38 = s.cur.byteIdx ∧ (s.regView 0x3C).toNat = s.cur.bitIdx.toNat
      ∧ s.regView 0x40 = s.mq.a ∧ s.regView 0x44 = s.mq.c ∧ s.regView 0x48 = s.mq.ct ∧ (s.regView 0x4C).toNat = s.mq.b.toNat
      ∧ s.regView 0x50 = s.gb.w ∧ s.regView 0x54 = s.gb.h ∧ s.regView 0x58 = s.gb.cfg
      ∧ s.regView 0x5C = s.gb.atLo ∧ s.regView 0x60 = s.gb.atHi ∧ s.regView 0x64 = s.grd.row
      ∧ s.regView 0x68 = s.gr.w ∧ s.regView 0x6C = s.gr.h ∧ s.regView 0x70 = s.gr.cfg
      ∧ s.regView 0x74 = s.gr.refDx ∧ s.regView 0x78 = s.gr.refDy ∧ s.regView 0x7C = s.gr.atPix

/-- The bitmap windows: a write sets the pixels of its byte and no other, padding bits having no effect, and is ignored for an
invalid slot or beyond the bitmap; a read shows each pixel at its bit and changes nothing but what the host holds
(R63, R64, R65). -/
def Obligations.BitmapWindow : Prop :=
  ∀ (s : State) (slot a : Nat) (b : Byte) (rest : List HostOp),
    (s.host.ops = .bmWrite slot a b :: rest →
      (s.bitmap slot = none ∨ (∃ bm, s.bitmap slot = some bm ∧ 4 * ((bm.w + 31) / 32) * bm.h ≤ a) →
        ∃ t, step s = .next t ∧ (∀ k, t.bitmap k = s.bitmap k)
          ∧ t = { (s.popOp rest).setBusyWindow false with bitmaps := t.bitmaps })
      ∧ ∀ bm, s.bitmap slot = some bm → a < 4 * ((bm.w + 31) / 32) * bm.h →
        ∃ t c, step s = .next t ∧ t.bitmap slot = some c ∧ c.w = bm.w ∧ c.h = bm.h
          ∧ (∀ x y : Nat, x < bm.w → y < bm.h → c.get x y =
            if y * (4 * ((bm.w + 31) / 32)) + x / 8 = a then b.getLsbD (7 - x % 8) else bm.get x y)
          ∧ (∀ k, k ≠ slot → t.bitmap k = s.bitmap k)
          ∧ t = { (s.popOp rest).setBusyWindow false with bitmaps := t.bitmaps })
    ∧ (s.host.ops = .bmRead slot a :: rest →
      ∃ v : Byte, step s = .next ((((s.popOp rest).setBusyWindow false).returnData (BitVec.ofNat 32 v.toNat)).spendDraw)
        ∧ ∀ bm, s.bitmap slot = some bm → ∀ x y : Nat, x < bm.w → y < bm.h → y * (4 * ((bm.w + 31) / 32)) + x / 8 = a →
          v.getLsbD (7 - x % 8) = bm.get x y)
end

