-- ==== Sys2Proof/Laws/State.lean ====
section
/-! SUPPORT. One lemma per field per update of the state, so that no proof unfolds a record update, and what the derived
views (`len`, `span`, `bank`, `bitmap`, `table`) read after an update. -/

namespace Sys2Proof.Machine

/-! ### `setCursor` -/

@[simp] theorem State.setCursor_cfg (s : State) (c : Cursor) :
    (s.setCursor c).cfg = s.cfg := rfl
@[simp] theorem State.setCursor_core (s : State) (c : Cursor) :
    (s.setCursor c).core = s.core := rfl
@[simp] theorem State.setCursor_fault (s : State) (c : Cursor) :
    (s.setCursor c).fault = s.fault := rfl
@[simp] theorem State.setCursor_faultCmd (s : State) (c : Cursor) :
    (s.setCursor c).faultCmd = s.faultCmd := rfl
@[simp] theorem State.setCursor_result (s : State) (c : Cursor) :
    (s.setCursor c).result = s.result := rfl
@[simp] theorem State.setCursor_oob (s : State) (c : Cursor) :
    (s.setCursor c).oob = s.oob := rfl
@[simp] theorem State.setCursor_boundary (s : State) (c : Cursor) :
    (s.setCursor c).boundary = s.boundary := rfl
@[simp] theorem State.setCursor_pause (s : State) (c : Cursor) :
    (s.setCursor c).pause = s.pause := rfl
@[simp] theorem State.setCursor_srcLen (s : State) (c : Cursor) :
    (s.setCursor c).srcLen = s.srcLen := rfl
@[simp] theorem State.setCursor_arg0 (s : State) (c : Cursor) :
    (s.setCursor c).arg0 = s.arg0 := rfl
@[simp] theorem State.setCursor_arg1 (s : State) (c : Cursor) :
    (s.setCursor c).arg1 = s.arg1 := rfl
@[simp] theorem State.setCursor_rect (s : State) (c : Cursor) :
    (s.setCursor c).rect = s.rect := rfl
@[simp] theorem State.setCursor_cur (s : State) (c : Cursor) :
    (s.setCursor c).cur = c := rfl
@[simp] theorem State.setCursor_mq (s : State) (c : Cursor) :
    (s.setCursor c).mq = s.mq := rfl
@[simp] theorem State.setCursor_gb (s : State) (c : Cursor) :
    (s.setCursor c).gb = s.gb := rfl
@[simp] theorem State.setCursor_grd (s : State) (c : Cursor) :
    (s.setCursor c).grd = s.grd := rfl
@[simp] theorem State.setCursor_gr (s : State) (c : Cursor) :
    (s.setCursor c).gr = s.gr := rfl
@[simp] theorem State.setCursor_gbBank (s : State) (c : Cursor) :
    (s.setCursor c).gbBank = s.gbBank := rfl
@[simp] theorem State.setCursor_grBank (s : State) (c : Cursor) :
    (s.setCursor c).grBank = s.grBank := rfl
@[simp] theorem State.setCursor_tables (s : State) (c : Cursor) :
    (s.setCursor c).tables = s.tables := rfl
@[simp] theorem State.setCursor_bitmaps (s : State) (c : Cursor) :
    (s.setCursor c).bitmaps = s.bitmaps := rfl
@[simp] theorem State.setCursor_src (s : State) (c : Cursor) :
    (s.setCursor c).src = s.src := rfl
@[simp] theorem State.setCursor_host (s : State) (c : Cursor) :
    (s.setCursor c).host = s.host := rfl
@[simp] theorem State.setCursor_len (s : State) (c : Cursor) : (s.setCursor c).len = s.len := rfl
@[simp] theorem State.setCursor_span (s : State) (c : Cursor) : (s.setCursor c).span = s.span := rfl
@[simp] theorem State.setCursor_bank (s : State) (c : Cursor) (bk : Bank) : (s.setCursor c).bank bk = s.bank bk := by
  cases bk <;> simp [State.bank]
@[simp] theorem State.setCursor_bitmap (s : State) (c : Cursor) (slot : Nat) : (s.setCursor c).bitmap slot = s.bitmap slot := by
  simp [State.bitmap]
@[simp] theorem State.setCursor_table (s : State) (c : Cursor) (id : Nat) : (s.setCursor c).table id = s.table id := by
  simp [State.table]

/-! ### `dropMq` -/

@[simp] theorem State.dropMq_cfg (s : State) :
    s.dropMq.cfg = s.cfg := rfl
@[simp] theorem State.dropMq_core (s : State) :
    s.dropMq.core = s.core := rfl
@[simp] theorem State.dropMq_fault (s : State) :
    s.dropMq.fault = s.fault := rfl
@[simp] theorem State.dropMq_faultCmd (s : State) :
    s.dropMq.faultCmd = s.faultCmd := rfl
@[simp] theorem State.dropMq_result (s : State) :
    s.dropMq.result = s.result := rfl
@[simp] theorem State.dropMq_oob (s : State) :
    s.dropMq.oob = s.oob := rfl
@[simp] theorem State.dropMq_boundary (s : State) :
    s.dropMq.boundary = s.boundary := rfl
@[simp] theorem State.dropMq_pause (s : State) :
    s.dropMq.pause = s.pause := rfl
@[simp] theorem State.dropMq_srcLen (s : State) :
    s.dropMq.srcLen = s.srcLen := rfl
@[simp] theorem State.dropMq_arg0 (s : State) :
    s.dropMq.arg0 = s.arg0 := rfl
@[simp] theorem State.dropMq_arg1 (s : State) :
    s.dropMq.arg1 = s.arg1 := rfl
@[simp] theorem State.dropMq_rect (s : State) :
    s.dropMq.rect = s.rect := rfl
@[simp] theorem State.dropMq_cur (s : State) :
    s.dropMq.cur = s.cur := rfl
@[simp] theorem State.dropMq_mq (s : State) :
    s.dropMq.mq = { s.mq with valid := false } := rfl
@[simp] theorem State.dropMq_gb (s : State) :
    s.dropMq.gb = s.gb := rfl
@[simp] theorem State.dropMq_grd (s : State) :
    s.dropMq.grd = s.grd := rfl
@[simp] theorem State.dropMq_gr (s : State) :
    s.dropMq.gr = s.gr := rfl
@[simp] theorem State.dropMq_gbBank (s : State) :
    s.dropMq.gbBank = s.gbBank := rfl
@[simp] theorem State.dropMq_grBank (s : State) :
    s.dropMq.grBank = s.grBank := rfl
@[simp] theorem State.dropMq_tables (s : State) :
    s.dropMq.tables = s.tables := rfl
@[simp] theorem State.dropMq_bitmaps (s : State) :
    s.dropMq.bitmaps = s.bitmaps := rfl
@[simp] theorem State.dropMq_src (s : State) :
    s.dropMq.src = s.src := rfl
@[simp] theorem State.dropMq_host (s : State) :
    s.dropMq.host = s.host := rfl
@[simp] theorem State.dropMq_len (s : State) : s.dropMq.len = s.len := rfl
@[simp] theorem State.dropMq_span (s : State) : s.dropMq.span = s.span := rfl
@[simp] theorem State.dropMq_bank (s : State) (bk : Bank) : s.dropMq.bank bk = s.bank bk := by
  cases bk <;> simp [State.bank]
@[simp] theorem State.dropMq_bitmap (s : State) (slot : Nat) : s.dropMq.bitmap slot = s.bitmap slot := by
  simp [State.bitmap]
@[simp] theorem State.dropMq_table (s : State) (id : Nat) : s.dropMq.table id = s.table id := by
  simp [State.table]

/-! ### `setGrd` -/

@[simp] theorem State.setGrd_cfg (s : State) (g : GrdRun) :
    (s.setGrd g).cfg = s.cfg := rfl
@[simp] theorem State.setGrd_core (s : State) (g : GrdRun) :
    (s.setGrd g).core = s.core := rfl
@[simp] theorem State.setGrd_fault (s : State) (g : GrdRun) :
    (s.setGrd g).fault = s.fault := rfl
@[simp] theorem State.setGrd_faultCmd (s : State) (g : GrdRun) :
    (s.setGrd g).faultCmd = s.faultCmd := rfl
@[simp] theorem State.setGrd_result (s : State) (g : GrdRun) :
    (s.setGrd g).result = s.result := rfl
@[simp] theorem State.setGrd_oob (s : State) (g : GrdRun) :
    (s.setGrd g).oob = s.oob := rfl
@[simp] theorem State.setGrd_boundary (s : State) (g : GrdRun) :
    (s.setGrd g).boundary = s.boundary := rfl
@[simp] theorem State.setGrd_pause (s : State) (g : GrdRun) :
    (s.setGrd g).pause = s.pause := rfl
@[simp] theorem State.setGrd_srcLen (s : State) (g : GrdRun) :
    (s.setGrd g).srcLen = s.srcLen := rfl
@[simp] theorem State.setGrd_arg0 (s : State) (g : GrdRun) :
    (s.setGrd g).arg0 = s.arg0 := rfl
@[simp] theorem State.setGrd_arg1 (s : State) (g : GrdRun) :
    (s.setGrd g).arg1 = s.arg1 := rfl
@[simp] theorem State.setGrd_rect (s : State) (g : GrdRun) :
    (s.setGrd g).rect = s.rect := rfl
@[simp] theorem State.setGrd_cur (s : State) (g : GrdRun) :
    (s.setGrd g).cur = s.cur := rfl
@[simp] theorem State.setGrd_mq (s : State) (g : GrdRun) :
    (s.setGrd g).mq = s.mq := rfl
@[simp] theorem State.setGrd_gb (s : State) (g : GrdRun) :
    (s.setGrd g).gb = s.gb := rfl
@[simp] theorem State.setGrd_grd (s : State) (g : GrdRun) :
    (s.setGrd g).grd = g := rfl
@[simp] theorem State.setGrd_gr (s : State) (g : GrdRun) :
    (s.setGrd g).gr = s.gr := rfl
@[simp] theorem State.setGrd_gbBank (s : State) (g : GrdRun) :
    (s.setGrd g).gbBank = s.gbBank := rfl
@[simp] theorem State.setGrd_grBank (s : State) (g : GrdRun) :
    (s.setGrd g).grBank = s.grBank := rfl
@[simp] theorem State.setGrd_tables (s : State) (g : GrdRun) :
    (s.setGrd g).tables = s.tables := rfl
@[simp] theorem State.setGrd_bitmaps (s : State) (g : GrdRun) :
    (s.setGrd g).bitmaps = s.bitmaps := rfl
@[simp] theorem State.setGrd_src (s : State) (g : GrdRun) :
    (s.setGrd g).src = s.src := rfl
@[simp] theorem State.setGrd_host (s : State) (g : GrdRun) :
    (s.setGrd g).host = s.host := rfl
@[simp] theorem State.setGrd_len (s : State) (g : GrdRun) : (s.setGrd g).len = s.len := rfl
@[simp] theorem State.setGrd_span (s : State) (g : GrdRun) : (s.setGrd g).span = s.span := rfl
@[simp] theorem State.setGrd_bank (s : State) (g : GrdRun) (bk : Bank) : (s.setGrd g).bank bk = s.bank bk := by
  cases bk <;> simp [State.bank]
@[simp] theorem State.setGrd_bitmap (s : State) (g : GrdRun) (slot : Nat) : (s.setGrd g).bitmap slot = s.bitmap slot := by
  simp [State.bitmap]
@[simp] theorem State.setGrd_table (s : State) (g : GrdRun) (id : Nat) : (s.setGrd g).table id = s.table id := by
  simp [State.table]

/-! ### `putBitmap` -/

@[simp] theorem State.putBitmap_cfg (s : State) (k : Nat) (bm : Bitmap) :
    (s.putBitmap k bm).cfg = s.cfg := rfl
@[simp] theorem State.putBitmap_core (s : State) (k : Nat) (bm : Bitmap) :
    (s.putBitmap k bm).core = s.core := rfl
@[simp] theorem State.putBitmap_fault (s : State) (k : Nat) (bm : Bitmap) :
    (s.putBitmap k bm).fault = s.fault := rfl
@[simp] theorem State.putBitmap_faultCmd (s : State) (k : Nat) (bm : Bitmap) :
    (s.putBitmap k bm).faultCmd = s.faultCmd := rfl
@[simp] theorem State.putBitmap_result (s : State) (k : Nat) (bm : Bitmap) :
    (s.putBitmap k bm).result = s.result := rfl
@[simp] theorem State.putBitmap_oob (s : State) (k : Nat) (bm : Bitmap) :
    (s.putBitmap k bm).oob = s.oob := rfl
@[simp] theorem State.putBitmap_boundary (s : State) (k : Nat) (bm : Bitmap) :
    (s.putBitmap k bm).boundary = s.boundary := rfl
@[simp] theorem State.putBitmap_pause (s : State) (k : Nat) (bm : Bitmap) :
    (s.putBitmap k bm).pause = s.pause := rfl
@[simp] theorem State.putBitmap_srcLen (s : State) (k : Nat) (bm : Bitmap) :
    (s.putBitmap k bm).srcLen = s.srcLen := rfl
@[simp] theorem State.putBitmap_arg0 (s : State) (k : Nat) (bm : Bitmap) :
    (s.putBitmap k bm).arg0 = s.arg0 := rfl
@[simp] theorem State.putBitmap_arg1 (s : State) (k : Nat) (bm : Bitmap) :
    (s.putBitmap k bm).arg1 = s.arg1 := rfl
@[simp] theorem State.putBitmap_rect (s : State) (k : Nat) (bm : Bitmap) :
    (s.putBitmap k bm).rect = s.rect := rfl
@[simp] theorem State.putBitmap_cur (s : State) (k : Nat) (bm : Bitmap) :
    (s.putBitmap k bm).cur = s.cur := rfl
@[simp] theorem State.putBitmap_mq (s : State) (k : Nat) (bm : Bitmap) :
    (s.putBitmap k bm).mq = s.mq := rfl
@[simp] theorem State.putBitmap_gb (s : State) (k : Nat) (bm : Bitmap) :
    (s.putBitmap k bm).gb = s.gb := rfl
@[simp] theorem State.putBitmap_grd (s : State) (k : Nat) (bm : Bitmap) :
    (s.putBitmap k bm).grd = s.grd := rfl
@[simp] theorem State.putBitmap_gr (s : State) (k : Nat) (bm : Bitmap) :
    (s.putBitmap k bm).gr = s.gr := rfl
@[simp] theorem State.putBitmap_gbBank (s : State) (k : Nat) (bm : Bitmap) :
    (s.putBitmap k bm).gbBank = s.gbBank := rfl
@[simp] theorem State.putBitmap_grBank (s : State) (k : Nat) (bm : Bitmap) :
    (s.putBitmap k bm).grBank = s.grBank := rfl
@[simp] theorem State.putBitmap_tables (s : State) (k : Nat) (bm : Bitmap) :
    (s.putBitmap k bm).tables = s.tables := rfl
@[simp] theorem State.putBitmap_bitmaps (s : State) (k : Nat) (bm : Bitmap) :
    (s.putBitmap k bm).bitmaps = Store.set s.bitmaps k bm := rfl
@[simp] theorem State.putBitmap_src (s : State) (k : Nat) (bm : Bitmap) :
    (s.putBitmap k bm).src = s.src := rfl
@[simp] theorem State.putBitmap_host (s : State) (k : Nat) (bm : Bitmap) :
    (s.putBitmap k bm).host = s.host := rfl
@[simp] theorem State.putBitmap_len (s : State) (k : Nat) (bm : Bitmap) : (s.putBitmap k bm).len = s.len := rfl
@[simp] theorem State.putBitmap_span (s : State) (k : Nat) (bm : Bitmap) : (s.putBitmap k bm).span = s.span := rfl
@[simp] theorem State.putBitmap_bank (s : State) (k : Nat) (bm : Bitmap) (bk : Bank) : (s.putBitmap k bm).bank bk = s.bank bk := by
  cases bk <;> simp [State.bank]
@[simp] theorem State.putBitmap_table (s : State) (k : Nat) (bm : Bitmap) (id : Nat) : (s.putBitmap k bm).table id = s.table id := by
  simp [State.table]

/-! ### `freeBitmap` -/

@[simp] theorem State.freeBitmap_cfg (s : State) (k : Nat) :
    (s.freeBitmap k).cfg = s.cfg := rfl
@[simp] theorem State.freeBitmap_core (s : State) (k : Nat) :
    (s.freeBitmap k).core = s.core := rfl
@[simp] theorem State.freeBitmap_fault (s : State) (k : Nat) :
    (s.freeBitmap k).fault = s.fault := rfl
@[simp] theorem State.freeBitmap_faultCmd (s : State) (k : Nat) :
    (s.freeBitmap k).faultCmd = s.faultCmd := rfl
@[simp] theorem State.freeBitmap_result (s : State) (k : Nat) :
    (s.freeBitmap k).result = s.result := rfl
@[simp] theorem State.freeBitmap_oob (s : State) (k : Nat) :
    (s.freeBitmap k).oob = s.oob := rfl
@[simp] theorem State.freeBitmap_boundary (s : State) (k : Nat) :
    (s.freeBitmap k).boundary = s.boundary := rfl
@[simp] theorem State.freeBitmap_pause (s : State) (k : Nat) :
    (s.freeBitmap k).pause = s.pause := rfl
@[simp] theorem State.freeBitmap_srcLen (s : State) (k : Nat) :
    (s.freeBitmap k).srcLen = s.srcLen := rfl
@[simp] theorem State.freeBitmap_arg0 (s : State) (k : Nat) :
    (s.freeBitmap k).arg0 = s.arg0 := rfl
@[simp] theorem State.freeBitmap_arg1 (s : State) (k : Nat) :
    (s.freeBitmap k).arg1 = s.arg1 := rfl
@[simp] theorem State.freeBitmap_rect (s : State) (k : Nat) :
    (s.freeBitmap k).rect = s.rect := rfl
@[simp] theorem State.freeBitmap_cur (s : State) (k : Nat) :
    (s.freeBitmap k).cur = s.cur := rfl
@[simp] theorem State.freeBitmap_mq (s : State) (k : Nat) :
    (s.freeBitmap k).mq = s.mq := rfl
@[simp] theorem State.freeBitmap_gb (s : State) (k : Nat) :
    (s.freeBitmap k).gb = s.gb := rfl
@[simp] theorem State.freeBitmap_grd (s : State) (k : Nat) :
    (s.freeBitmap k).grd = s.grd := rfl
@[simp] theorem State.freeBitmap_gr (s : State) (k : Nat) :
    (s.freeBitmap k).gr = s.gr := rfl
@[simp] theorem State.freeBitmap_gbBank (s : State) (k : Nat) :
    (s.freeBitmap k).gbBank = s.gbBank := rfl
@[simp] theorem State.freeBitmap_grBank (s : State) (k : Nat) :
    (s.freeBitmap k).grBank = s.grBank := rfl
@[simp] theorem State.freeBitmap_tables (s : State) (k : Nat) :
    (s.freeBitmap k).tables = s.tables := rfl
@[simp] theorem State.freeBitmap_bitmaps (s : State) (k : Nat) :
    (s.freeBitmap k).bitmaps = Store.erase s.bitmaps k := rfl
@[simp] theorem State.freeBitmap_src (s : State) (k : Nat) :
    (s.freeBitmap k).src = s.src := rfl
@[simp] theorem State.freeBitmap_host (s : State) (k : Nat) :
    (s.freeBitmap k).host = s.host := rfl
@[simp] theorem State.freeBitmap_len (s : State) (k : Nat) : (s.freeBitmap k).len = s.len := rfl
@[simp] theorem State.freeBitmap_span (s : State) (k : Nat) : (s.freeBitmap k).span = s.span := rfl
@[simp] theorem State.freeBitmap_bank (s : State) (k : Nat) (bk : Bank) : (s.freeBitmap k).bank bk = s.bank bk := by
  cases bk <;> simp [State.bank]
@[simp] theorem State.freeBitmap_table (s : State) (k : Nat) (id : Nat) : (s.freeBitmap k).table id = s.table id := by
  simp [State.table]

/-! ### `putTable` -/

@[simp] theorem State.putTable_cfg (s : State) (k : Nat) (t : HTable) :
    (s.putTable k t).cfg = s.cfg := rfl
@[simp] theorem State.putTable_core (s : State) (k : Nat) (t : HTable) :
    (s.putTable k t).core = s.core := rfl
@[simp] theorem State.putTable_fault (s : State) (k : Nat) (t : HTable) :
    (s.putTable k t).fault = s.fault := rfl
@[simp] theorem State.putTable_faultCmd (s : State) (k : Nat) (t : HTable) :
    (s.putTable k t).faultCmd = s.faultCmd := rfl
@[simp] theorem State.putTable_result (s : State) (k : Nat) (t : HTable) :
    (s.putTable k t).result = s.result := rfl
@[simp] theorem State.putTable_oob (s : State) (k : Nat) (t : HTable) :
    (s.putTable k t).oob = s.oob := rfl
@[simp] theorem State.putTable_boundary (s : State) (k : Nat) (t : HTable) :
    (s.putTable k t).boundary = s.boundary := rfl
@[simp] theorem State.putTable_pause (s : State) (k : Nat) (t : HTable) :
    (s.putTable k t).pause = s.pause := rfl
@[simp] theorem State.putTable_srcLen (s : State) (k : Nat) (t : HTable) :
    (s.putTable k t).srcLen = s.srcLen := rfl
@[simp] theorem State.putTable_arg0 (s : State) (k : Nat) (t : HTable) :
    (s.putTable k t).arg0 = s.arg0 := rfl
@[simp] theorem State.putTable_arg1 (s : State) (k : Nat) (t : HTable) :
    (s.putTable k t).arg1 = s.arg1 := rfl
@[simp] theorem State.putTable_rect (s : State) (k : Nat) (t : HTable) :
    (s.putTable k t).rect = s.rect := rfl
@[simp] theorem State.putTable_cur (s : State) (k : Nat) (t : HTable) :
    (s.putTable k t).cur = s.cur := rfl
@[simp] theorem State.putTable_mq (s : State) (k : Nat) (t : HTable) :
    (s.putTable k t).mq = s.mq := rfl
@[simp] theorem State.putTable_gb (s : State) (k : Nat) (t : HTable) :
    (s.putTable k t).gb = s.gb := rfl
@[simp] theorem State.putTable_grd (s : State) (k : Nat) (t : HTable) :
    (s.putTable k t).grd = s.grd := rfl
@[simp] theorem State.putTable_gr (s : State) (k : Nat) (t : HTable) :
    (s.putTable k t).gr = s.gr := rfl
@[simp] theorem State.putTable_gbBank (s : State) (k : Nat) (t : HTable) :
    (s.putTable k t).gbBank = s.gbBank := rfl
@[simp] theorem State.putTable_grBank (s : State) (k : Nat) (t : HTable) :
    (s.putTable k t).grBank = s.grBank := rfl
@[simp] theorem State.putTable_tables (s : State) (k : Nat) (t : HTable) :
    (s.putTable k t).tables = Store.set s.tables k t := rfl
@[simp] theorem State.putTable_bitmaps (s : State) (k : Nat) (t : HTable) :
    (s.putTable k t).bitmaps = s.bitmaps := rfl
@[simp] theorem State.putTable_src (s : State) (k : Nat) (t : HTable) :
    (s.putTable k t).src = s.src := rfl
@[simp] theorem State.putTable_host (s : State) (k : Nat) (t : HTable) :
    (s.putTable k t).host = s.host := rfl
@[simp] theorem State.putTable_len (s : State) (k : Nat) (t : HTable) : (s.putTable k t).len = s.len := rfl
@[simp] theorem State.putTable_span (s : State) (k : Nat) (t : HTable) : (s.putTable k t).span = s.span := rfl
@[simp] theorem State.putTable_bank (s : State) (k : Nat) (t : HTable) (bk : Bank) : (s.putTable k t).bank bk = s.bank bk := by
  cases bk <;> simp [State.bank]
@[simp] theorem State.putTable_bitmap (s : State) (k : Nat) (t : HTable) (slot : Nat) : (s.putTable k t).bitmap slot = s.bitmap slot := by
  simp [State.bitmap]

/-! ### `dropTable` -/

@[simp] theorem State.dropTable_cfg (s : State) (k : Nat) :
    (s.dropTable k).cfg = s.cfg := rfl
@[simp] theorem State.dropTable_core (s : State) (k : Nat) :
    (s.dropTable k).core = s.core := rfl
@[simp] theorem State.dropTable_fault (s : State) (k : Nat) :
    (s.dropTable k).fault = s.fault := rfl
@[simp] theorem State.dropTable_faultCmd (s : State) (k : Nat) :
    (s.dropTable k).faultCmd = s.faultCmd := rfl
@[simp] theorem State.dropTable_result (s : State) (k : Nat) :
    (s.dropTable k).result = s.result := rfl
@[simp] theorem State.dropTable_oob (s : State) (k : Nat) :
    (s.dropTable k).oob = s.oob := rfl
@[simp] theorem State.dropTable_boundary (s : State) (k : Nat) :
    (s.dropTable k).boundary = s.boundary := rfl
@[simp] theorem State.dropTable_pause (s : State) (k : Nat) :
    (s.dropTable k).pause = s.pause := rfl
@[simp] theorem State.dropTable_srcLen (s : State) (k : Nat) :
    (s.dropTable k).srcLen = s.srcLen := rfl
@[simp] theorem State.dropTable_arg0 (s : State) (k : Nat) :
    (s.dropTable k).arg0 = s.arg0 := rfl
@[simp] theorem State.dropTable_arg1 (s : State) (k : Nat) :
    (s.dropTable k).arg1 = s.arg1 := rfl
@[simp] theorem State.dropTable_rect (s : State) (k : Nat) :
    (s.dropTable k).rect = s.rect := rfl
@[simp] theorem State.dropTable_cur (s : State) (k : Nat) :
    (s.dropTable k).cur = s.cur := rfl
@[simp] theorem State.dropTable_mq (s : State) (k : Nat) :
    (s.dropTable k).mq = s.mq := rfl
@[simp] theorem State.dropTable_gb (s : State) (k : Nat) :
    (s.dropTable k).gb = s.gb := rfl
@[simp] theorem State.dropTable_grd (s : State) (k : Nat) :
    (s.dropTable k).grd = s.grd := rfl
@[simp] theorem State.dropTable_gr (s : State) (k : Nat) :
    (s.dropTable k).gr = s.gr := rfl
@[simp] theorem State.dropTable_gbBank (s : State) (k : Nat) :
    (s.dropTable k).gbBank = s.gbBank := rfl
@[simp] theorem State.dropTable_grBank (s : State) (k : Nat) :
    (s.dropTable k).grBank = s.grBank := rfl
@[simp] theorem State.dropTable_tables (s : State) (k : Nat) :
    (s.dropTable k).tables = Store.erase s.tables k := rfl
@[simp] theorem State.dropTable_bitmaps (s : State) (k : Nat) :
    (s.dropTable k).bitmaps = s.bitmaps := rfl
@[simp] theorem State.dropTable_src (s : State) (k : Nat) :
    (s.dropTable k).src = s.src := rfl
@[simp] theorem State.dropTable_host (s : State) (k : Nat) :
    (s.dropTable k).host = s.host := rfl
@[simp] theorem State.dropTable_len (s : State) (k : Nat) : (s.dropTable k).len = s.len := rfl
@[simp] theorem State.dropTable_span (s : State) (k : Nat) : (s.dropTable k).span = s.span := rfl
@[simp] theorem State.dropTable_bank (s : State) (k : Nat) (bk : Bank) : (s.dropTable k).bank bk = s.bank bk := by
  cases bk <;> simp [State.bank]
@[simp] theorem State.dropTable_bitmap (s : State) (k : Nat) (slot : Nat) : (s.dropTable k).bitmap slot = s.bitmap slot := by
  simp [State.bitmap]

/-! ### `takeFault` -/

@[simp] theorem State.takeFault_cfg (s : State) (f : FaultCode) (w : Word) :
    (s.takeFault f w).cfg = s.cfg := rfl
@[simp] theorem State.takeFault_core (s : State) (f : FaultCode) (w : Word) :
    (s.takeFault f w).core = .faulted := rfl
@[simp] theorem State.takeFault_fault (s : State) (f : FaultCode) (w : Word) :
    (s.takeFault f w).fault = some f := rfl
@[simp] theorem State.takeFault_faultCmd (s : State) (f : FaultCode) (w : Word) :
    (s.takeFault f w).faultCmd = w := rfl
@[simp] theorem State.takeFault_result (s : State) (f : FaultCode) (w : Word) :
    (s.takeFault f w).result = s.result := rfl
@[simp] theorem State.takeFault_oob (s : State) (f : FaultCode) (w : Word) :
    (s.takeFault f w).oob = s.oob := rfl
@[simp] theorem State.takeFault_boundary (s : State) (f : FaultCode) (w : Word) :
    (s.takeFault f w).boundary = s.boundary := rfl
@[simp] theorem State.takeFault_pause (s : State) (f : FaultCode) (w : Word) :
    (s.takeFault f w).pause = s.pause := rfl
@[simp] theorem State.takeFault_srcLen (s : State) (f : FaultCode) (w : Word) :
    (s.takeFault f w).srcLen = s.srcLen := rfl
@[simp] theorem State.takeFault_arg0 (s : State) (f : FaultCode) (w : Word) :
    (s.takeFault f w).arg0 = s.arg0 := rfl
@[simp] theorem State.takeFault_arg1 (s : State) (f : FaultCode) (w : Word) :
    (s.takeFault f w).arg1 = s.arg1 := rfl
@[simp] theorem State.takeFault_rect (s : State) (f : FaultCode) (w : Word) :
    (s.takeFault f w).rect = s.rect := rfl
@[simp] theorem State.takeFault_cur (s : State) (f : FaultCode) (w : Word) :
    (s.takeFault f w).cur = s.cur := rfl
@[simp] theorem State.takeFault_mq (s : State) (f : FaultCode) (w : Word) :
    (s.takeFault f w).mq = s.mq := rfl
@[simp] theorem State.takeFault_gb (s : State) (f : FaultCode) (w : Word) :
    (s.takeFault f w).gb = s.gb := rfl
@[simp] theorem State.takeFault_grd (s : State) (f : FaultCode) (w : Word) :
    (s.takeFault f w).grd = s.grd := rfl
@[simp] theorem State.takeFault_gr (s : State) (f : FaultCode) (w : Word) :
    (s.takeFault f w).gr = s.gr := rfl
@[simp] theorem State.takeFault_gbBank (s : State) (f : FaultCode) (w : Word) :
    (s.takeFault f w).gbBank = s.gbBank := rfl
@[simp] theorem State.takeFault_grBank (s : State) (f : FaultCode) (w : Word) :
    (s.takeFault f w).grBank = s.grBank := rfl
@[simp] theorem State.takeFault_tables (s : State) (f : FaultCode) (w : Word) :
    (s.takeFault f w).tables = s.tables := rfl
@[simp] theorem State.takeFault_bitmaps (s : State) (f : FaultCode) (w : Word) :
    (s.takeFault f w).bitmaps = s.bitmaps := rfl
@[simp] theorem State.takeFault_src (s : State) (f : FaultCode) (w : Word) :
    (s.takeFault f w).src = s.src := rfl
@[simp] theorem State.takeFault_host (s : State) (f : FaultCode) (w : Word) :
    (s.takeFault f w).host = s.host := rfl
@[simp] theorem State.takeFault_len (s : State) (f : FaultCode) (w : Word) : (s.takeFault f w).len = s.len := rfl
@[simp] theorem State.takeFault_span (s : State) (f : FaultCode) (w : Word) : (s.takeFault f w).span = s.span := rfl
@[simp] theorem State.takeFault_bank (s : State) (f : FaultCode) (w : Word) (bk : Bank) : (s.takeFault f w).bank bk = s.bank bk := by
  cases bk <;> simp [State.bank]
@[simp] theorem State.takeFault_bitmap (s : State) (f : FaultCode) (w : Word) (slot : Nat) : (s.takeFault f w).bitmap slot = s.bitmap slot := by
  simp [State.bitmap]
@[simp] theorem State.takeFault_table (s : State) (f : FaultCode) (w : Word) (id : Nat) : (s.takeFault f w).table id = s.table id := by
  simp [State.table]

/-! ### `clearFault` -/

@[simp] theorem State.clearFault_cfg (s : State) :
    s.clearFault.cfg = s.cfg := rfl
@[simp] theorem State.clearFault_core (s : State) :
    s.clearFault.core = .idle := rfl
@[simp] theorem State.clearFault_fault (s : State) :
    s.clearFault.fault = none := rfl
@[simp] theorem State.clearFault_faultCmd (s : State) :
    s.clearFault.faultCmd = 0 := rfl
@[simp] theorem State.clearFault_result (s : State) :
    s.clearFault.result = s.result := rfl
@[simp] theorem State.clearFault_oob (s : State) :
    s.clearFault.oob = s.oob := rfl
@[simp] theorem State.clearFault_boundary (s : State) :
    s.clearFault.boundary = s.boundary := rfl
@[simp] theorem State.clearFault_pause (s : State) :
    s.clearFault.pause = s.pause := rfl
@[simp] theorem State.clearFault_srcLen (s : State) :
    s.clearFault.srcLen = s.srcLen := rfl
@[simp] theorem State.clearFault_arg0 (s : State) :
    s.clearFault.arg0 = s.arg0 := rfl
@[simp] theorem State.clearFault_arg1 (s : State) :
    s.clearFault.arg1 = s.arg1 := rfl
@[simp] theorem State.clearFault_rect (s : State) :
    s.clearFault.rect = s.rect := rfl
@[simp] theorem State.clearFault_cur (s : State) :
    s.clearFault.cur = s.cur := rfl
@[simp] theorem State.clearFault_mq (s : State) :
    s.clearFault.mq = s.mq := rfl
@[simp] theorem State.clearFault_gb (s : State) :
    s.clearFault.gb = s.gb := rfl
@[simp] theorem State.clearFault_grd (s : State) :
    s.clearFault.grd = s.grd := rfl
@[simp] theorem State.clearFault_gr (s : State) :
    s.clearFault.gr = s.gr := rfl
@[simp] theorem State.clearFault_gbBank (s : State) :
    s.clearFault.gbBank = s.gbBank := rfl
@[simp] theorem State.clearFault_grBank (s : State) :
    s.clearFault.grBank = s.grBank := rfl
@[simp] theorem State.clearFault_tables (s : State) :
    s.clearFault.tables = s.tables := rfl
@[simp] theorem State.clearFault_bitmaps (s : State) :
    s.clearFault.bitmaps = s.bitmaps := rfl
@[simp] theorem State.clearFault_src (s : State) :
    s.clearFault.src = s.src := rfl
@[simp] theorem State.clearFault_host (s : State) :
    s.clearFault.host = s.host := rfl
@[simp] theorem State.clearFault_len (s : State) : s.clearFault.len = s.len := rfl
@[simp] theorem State.clearFault_span (s : State) : s.clearFault.span = s.span := rfl
@[simp] theorem State.clearFault_bank (s : State) (bk : Bank) : s.clearFault.bank bk = s.bank bk := by
  cases bk <;> simp [State.bank]
@[simp] theorem State.clearFault_bitmap (s : State) (slot : Nat) : s.clearFault.bitmap slot = s.bitmap slot := by
  simp [State.bitmap]
@[simp] theorem State.clearFault_table (s : State) (id : Nat) : s.clearFault.table id = s.table id := by
  simp [State.table]

/-! ### `setResult` -/

@[simp] theorem State.setResult_cfg (s : State) (v : Word) (o b : Bool) :
    (s.setResult v o b).cfg = s.cfg := rfl
@[simp] theorem State.setResult_core (s : State) (v : Word) (o b : Bool) :
    (s.setResult v o b).core = s.core := rfl
@[simp] theorem State.setResult_fault (s : State) (v : Word) (o b : Bool) :
    (s.setResult v o b).fault = s.fault := rfl
@[simp] theorem State.setResult_faultCmd (s : State) (v : Word) (o b : Bool) :
    (s.setResult v o b).faultCmd = s.faultCmd := rfl
@[simp] theorem State.setResult_result (s : State) (v : Word) (o b : Bool) :
    (s.setResult v o b).result = v := rfl
@[simp] theorem State.setResult_oob (s : State) (v : Word) (o b : Bool) :
    (s.setResult v o b).oob = o := rfl
@[simp] theorem State.setResult_boundary (s : State) (v : Word) (o b : Bool) :
    (s.setResult v o b).boundary = b := rfl
@[simp] theorem State.setResult_pause (s : State) (v : Word) (o b : Bool) :
    (s.setResult v o b).pause = s.pause := rfl
@[simp] theorem State.setResult_srcLen (s : State) (v : Word) (o b : Bool) :
    (s.setResult v o b).srcLen = s.srcLen := rfl
@[simp] theorem State.setResult_arg0 (s : State) (v : Word) (o b : Bool) :
    (s.setResult v o b).arg0 = s.arg0 := rfl
@[simp] theorem State.setResult_arg1 (s : State) (v : Word) (o b : Bool) :
    (s.setResult v o b).arg1 = s.arg1 := rfl
@[simp] theorem State.setResult_rect (s : State) (v : Word) (o b : Bool) :
    (s.setResult v o b).rect = s.rect := rfl
@[simp] theorem State.setResult_cur (s : State) (v : Word) (o b : Bool) :
    (s.setResult v o b).cur = s.cur := rfl
@[simp] theorem State.setResult_mq (s : State) (v : Word) (o b : Bool) :
    (s.setResult v o b).mq = s.mq := rfl
@[simp] theorem State.setResult_gb (s : State) (v : Word) (o b : Bool) :
    (s.setResult v o b).gb = s.gb := rfl
@[simp] theorem State.setResult_grd (s : State) (v : Word) (o b : Bool) :
    (s.setResult v o b).grd = s.grd := rfl
@[simp] theorem State.setResult_gr (s : State) (v : Word) (o b : Bool) :
    (s.setResult v o b).gr = s.gr := rfl
@[simp] theorem State.setResult_gbBank (s : State) (v : Word) (o b : Bool) :
    (s.setResult v o b).gbBank = s.gbBank := rfl
@[simp] theorem State.setResult_grBank (s : State) (v : Word) (o b : Bool) :
    (s.setResult v o b).grBank = s.grBank := rfl
@[simp] theorem State.setResult_tables (s : State) (v : Word) (o b : Bool) :
    (s.setResult v o b).tables = s.tables := rfl
@[simp] theorem State.setResult_bitmaps (s : State) (v : Word) (o b : Bool) :
    (s.setResult v o b).bitmaps = s.bitmaps := rfl
@[simp] theorem State.setResult_src (s : State) (v : Word) (o b : Bool) :
    (s.setResult v o b).src = s.src := rfl
@[simp] theorem State.setResult_host (s : State) (v : Word) (o b : Bool) :
    (s.setResult v o b).host = s.host := rfl
@[simp] theorem State.setResult_len (s : State) (v : Word) (o b : Bool) : (s.setResult v o b).len = s.len := rfl
@[simp] theorem State.setResult_span (s : State) (v : Word) (o b : Bool) : (s.setResult v o b).span = s.span := rfl
@[simp] theorem State.setResult_bank (s : State) (v : Word) (o b : Bool) (bk : Bank) : (s.setResult v o b).bank bk = s.bank bk := by
  cases bk <;> simp [State.bank]
@[simp] theorem State.setResult_bitmap (s : State) (v : Word) (o b : Bool) (slot : Nat) : (s.setResult v o b).bitmap slot = s.bitmap slot := by
  simp [State.bitmap]
@[simp] theorem State.setResult_table (s : State) (v : Word) (o b : Bool) (id : Nat) : (s.setResult v o b).table id = s.table id := by
  simp [State.table]

/-! ### `giveResult` -/

@[simp] theorem State.giveResult_cfg (s : State) (v : Word) :
    (s.giveResult v).cfg = s.cfg := rfl
@[simp] theorem State.giveResult_core (s : State) (v : Word) :
    (s.giveResult v).core = s.core := rfl
@[simp] theorem State.giveResult_fault (s : State) (v : Word) :
    (s.giveResult v).fault = s.fault := rfl
@[simp] theorem State.giveResult_faultCmd (s : State) (v : Word) :
    (s.giveResult v).faultCmd = s.faultCmd := rfl
@[simp] theorem State.giveResult_result (s : State) (v : Word) :
    (s.giveResult v).result = v := rfl
@[simp] theorem State.giveResult_oob (s : State) (v : Word) :
    (s.giveResult v).oob = false := rfl
@[simp] theorem State.giveResult_boundary (s : State) (v : Word) :
    (s.giveResult v).boundary = false := rfl
@[simp] theorem State.giveResult_pause (s : State) (v : Word) :
    (s.giveResult v).pause = s.pause := rfl
@[simp] theorem State.giveResult_srcLen (s : State) (v : Word) :
    (s.giveResult v).srcLen = s.srcLen := rfl
@[simp] theorem State.giveResult_arg0 (s : State) (v : Word) :
    (s.giveResult v).arg0 = s.arg0 := rfl
@[simp] theorem State.giveResult_arg1 (s : State) (v : Word) :
    (s.giveResult v).arg1 = s.arg1 := rfl
@[simp] theorem State.giveResult_rect (s : State) (v : Word) :
    (s.giveResult v).rect = s.rect := rfl
@[simp] theorem State.giveResult_cur (s : State) (v : Word) :
    (s.giveResult v).cur = s.cur := rfl
@[simp] theorem State.giveResult_mq (s : State) (v : Word) :
    (s.giveResult v).mq = s.mq := rfl
@[simp] theorem State.giveResult_gb (s : State) (v : Word) :
    (s.giveResult v).gb = s.gb := rfl
@[simp] theorem State.giveResult_grd (s : State) (v : Word) :
    (s.giveResult v).grd = s.grd := rfl
@[simp] theorem State.giveResult_gr (s : State) (v : Word) :
    (s.giveResult v).gr = s.gr := rfl
@[simp] theorem State.giveResult_gbBank (s : State) (v : Word) :
    (s.giveResult v).gbBank = s.gbBank := rfl
@[simp] theorem State.giveResult_grBank (s : State) (v : Word) :
    (s.giveResult v).grBank = s.grBank := rfl
@[simp] theorem State.giveResult_tables (s : State) (v : Word) :
    (s.giveResult v).tables = s.tables := rfl
@[simp] theorem State.giveResult_bitmaps (s : State) (v : Word) :
    (s.giveResult v).bitmaps = s.bitmaps := rfl
@[simp] theorem State.giveResult_src (s : State) (v : Word) :
    (s.giveResult v).src = s.src := rfl
@[simp] theorem State.giveResult_host (s : State) (v : Word) :
    (s.giveResult v).host = s.host := rfl
@[simp] theorem State.giveResult_len (s : State) (v : Word) : (s.giveResult v).len = s.len := rfl
@[simp] theorem State.giveResult_span (s : State) (v : Word) : (s.giveResult v).span = s.span := rfl
@[simp] theorem State.giveResult_bank (s : State) (v : Word) (bk : Bank) : (s.giveResult v).bank bk = s.bank bk := by
  cases bk <;> simp [State.bank]
@[simp] theorem State.giveResult_bitmap (s : State) (v : Word) (slot : Nat) : (s.giveResult v).bitmap slot = s.bitmap slot := by
  simp [State.bitmap]
@[simp] theorem State.giveResult_table (s : State) (v : Word) (id : Nat) : (s.giveResult v).table id = s.table id := by
  simp [State.table]

/-! ### `putCoder` -/

@[simp] theorem State.putCoder_cfg (s : State) (k : Coder) :
    (s.putCoder k).cfg = s.cfg := rfl
@[simp] theorem State.putCoder_core (s : State) (k : Coder) :
    (s.putCoder k).core = s.core := rfl
@[simp] theorem State.putCoder_fault (s : State) (k : Coder) :
    (s.putCoder k).fault = s.fault := rfl
@[simp] theorem State.putCoder_faultCmd (s : State) (k : Coder) :
    (s.putCoder k).faultCmd = s.faultCmd := rfl
@[simp] theorem State.putCoder_result (s : State) (k : Coder) :
    (s.putCoder k).result = s.result := rfl
@[simp] theorem State.putCoder_oob (s : State) (k : Coder) :
    (s.putCoder k).oob = s.oob := rfl
@[simp] theorem State.putCoder_boundary (s : State) (k : Coder) :
    (s.putCoder k).boundary = s.boundary := rfl
@[simp] theorem State.putCoder_pause (s : State) (k : Coder) :
    (s.putCoder k).pause = s.pause := rfl
@[simp] theorem State.putCoder_srcLen (s : State) (k : Coder) :
    (s.putCoder k).srcLen = s.srcLen := rfl
@[simp] theorem State.putCoder_arg0 (s : State) (k : Coder) :
    (s.putCoder k).arg0 = s.arg0 := rfl
@[simp] theorem State.putCoder_arg1 (s : State) (k : Coder) :
    (s.putCoder k).arg1 = s.arg1 := rfl
@[simp] theorem State.putCoder_rect (s : State) (k : Coder) :
    (s.putCoder k).rect = s.rect := rfl
@[simp] theorem State.putCoder_cur (s : State) (k : Coder) :
    (s.putCoder k).cur = ⟨k.ptr, s.cur.bitIdx⟩ := rfl
@[simp] theorem State.putCoder_mq (s : State) (k : Coder) :
    (s.putCoder k).mq = ⟨k.a, k.c, k.ct, k.b, k.st, k.complete, s.mq.valid⟩ := rfl
@[simp] theorem State.putCoder_gb (s : State) (k : Coder) :
    (s.putCoder k).gb = s.gb := rfl
@[simp] theorem State.putCoder_grd (s : State) (k : Coder) :
    (s.putCoder k).grd = s.grd := rfl
@[simp] theorem State.putCoder_gr (s : State) (k : Coder) :
    (s.putCoder k).gr = s.gr := rfl
@[simp] theorem State.putCoder_gbBank (s : State) (k : Coder) :
    (s.putCoder k).gbBank = s.gbBank := rfl
@[simp] theorem State.putCoder_grBank (s : State) (k : Coder) :
    (s.putCoder k).grBank = s.grBank := rfl
@[simp] theorem State.putCoder_tables (s : State) (k : Coder) :
    (s.putCoder k).tables = s.tables := rfl
@[simp] theorem State.putCoder_bitmaps (s : State) (k : Coder) :
    (s.putCoder k).bitmaps = s.bitmaps := rfl
@[simp] theorem State.putCoder_src (s : State) (k : Coder) :
    (s.putCoder k).src = s.src := rfl
@[simp] theorem State.putCoder_host (s : State) (k : Coder) :
    (s.putCoder k).host = s.host := rfl
@[simp] theorem State.putCoder_len (s : State) (k : Coder) : (s.putCoder k).len = s.len := rfl
@[simp] theorem State.putCoder_span (s : State) (k : Coder) : (s.putCoder k).span = s.span := rfl
@[simp] theorem State.putCoder_bank (s : State) (k : Coder) (bk : Bank) : (s.putCoder k).bank bk = s.bank bk := by
  cases bk <;> simp [State.bank]
@[simp] theorem State.putCoder_bitmap (s : State) (k : Coder) (slot : Nat) : (s.putCoder k).bitmap slot = s.bitmap slot := by
  simp [State.bitmap]
@[simp] theorem State.putCoder_table (s : State) (k : Coder) (id : Nat) : (s.putCoder k).table id = s.table id := by
  simp [State.table]

/-! ### `putBank` -/

@[simp] theorem State.putBank_cfg (s : State) (k : Bank) (b : ContextBank) :
    (s.putBank k b).cfg = s.cfg := by cases k <;> rfl
@[simp] theorem State.putBank_core (s : State) (k : Bank) (b : ContextBank) :
    (s.putBank k b).core = s.core := by cases k <;> rfl
@[simp] theorem State.putBank_fault (s : State) (k : Bank) (b : ContextBank) :
    (s.putBank k b).fault = s.fault := by cases k <;> rfl
@[simp] theorem State.putBank_faultCmd (s : State) (k : Bank) (b : ContextBank) :
    (s.putBank k b).faultCmd = s.faultCmd := by cases k <;> rfl
@[simp] theorem State.putBank_result (s : State) (k : Bank) (b : ContextBank) :
    (s.putBank k b).result = s.result := by cases k <;> rfl
@[simp] theorem State.putBank_oob (s : State) (k : Bank) (b : ContextBank) :
    (s.putBank k b).oob = s.oob := by cases k <;> rfl
@[simp] theorem State.putBank_boundary (s : State) (k : Bank) (b : ContextBank) :
    (s.putBank k b).boundary = s.boundary := by cases k <;> rfl
@[simp] theorem State.putBank_pause (s : State) (k : Bank) (b : ContextBank) :
    (s.putBank k b).pause = s.pause := by cases k <;> rfl
@[simp] theorem State.putBank_srcLen (s : State) (k : Bank) (b : ContextBank) :
    (s.putBank k b).srcLen = s.srcLen := by cases k <;> rfl
@[simp] theorem State.putBank_arg0 (s : State) (k : Bank) (b : ContextBank) :
    (s.putBank k b).arg0 = s.arg0 := by cases k <;> rfl
@[simp] theorem State.putBank_arg1 (s : State) (k : Bank) (b : ContextBank) :
    (s.putBank k b).arg1 = s.arg1 := by cases k <;> rfl
@[simp] theorem State.putBank_rect (s : State) (k : Bank) (b : ContextBank) :
    (s.putBank k b).rect = s.rect := by cases k <;> rfl
@[simp] theorem State.putBank_cur (s : State) (k : Bank) (b : ContextBank) :
    (s.putBank k b).cur = s.cur := by cases k <;> rfl
@[simp] theorem State.putBank_mq (s : State) (k : Bank) (b : ContextBank) :
    (s.putBank k b).mq = s.mq := by cases k <;> rfl
@[simp] theorem State.putBank_gb (s : State) (k : Bank) (b : ContextBank) :
    (s.putBank k b).gb = s.gb := by cases k <;> rfl
@[simp] theorem State.putBank_grd (s : State) (k : Bank) (b : ContextBank) :
    (s.putBank k b).grd = s.grd := by cases k <;> rfl
@[simp] theorem State.putBank_gr (s : State) (k : Bank) (b : ContextBank) :
    (s.putBank k b).gr = s.gr := by cases k <;> rfl
@[simp] theorem State.putBank_tables (s : State) (k : Bank) (b : ContextBank) :
    (s.putBank k b).tables = s.tables := by cases k <;> rfl
@[simp] theorem State.putBank_bitmaps (s : State) (k : Bank) (b : ContextBank) :
    (s.putBank k b).bitmaps = s.bitmaps := by cases k <;> rfl
@[simp] theorem State.putBank_src (s : State) (k : Bank) (b : ContextBank) :
    (s.putBank k b).src = s.src := by cases k <;> rfl
@[simp] theorem State.putBank_host (s : State) (k : Bank) (b : ContextBank) :
    (s.putBank k b).host = s.host := by cases k <;> rfl
@[simp] theorem State.putBank_gb_gbBank (s : State) (b : ContextBank) : (s.putBank .gb b).gbBank = b := rfl
@[simp] theorem State.putBank_gb_grBank (s : State) (b : ContextBank) : (s.putBank .gb b).grBank = s.grBank := rfl
@[simp] theorem State.putBank_gr_grBank (s : State) (b : ContextBank) : (s.putBank .gr b).grBank = b := rfl
@[simp] theorem State.putBank_gr_gbBank (s : State) (b : ContextBank) : (s.putBank .gr b).gbBank = s.gbBank := rfl
@[simp] theorem State.bank_putBank (s : State) (k : Bank) (b : ContextBank) : (s.putBank k b).bank k = b := by
  cases k <;> rfl
@[simp] theorem State.putBank_len (s : State) (k : Bank) (b : ContextBank) : (s.putBank k b).len = s.len := by cases k <;> rfl
@[simp] theorem State.putBank_span (s : State) (k : Bank) (b : ContextBank) : (s.putBank k b).span = s.span := by cases k <;> rfl
@[simp] theorem State.putBank_bitmap (s : State) (k : Bank) (b : ContextBank) (slot : Nat) : (s.putBank k b).bitmap slot = s.bitmap slot := by
  simp [State.bitmap]
@[simp] theorem State.putBank_table (s : State) (k : Bank) (b : ContextBank) (id : Nat) : (s.putBank k b).table id = s.table id := by
  simp [State.table]

/-! ### `loseGrd` -/

@[simp] theorem State.loseGrd_cfg (s : State) :
    s.loseGrd.cfg = s.cfg := by unfold State.loseGrd; split <;> rfl
@[simp] theorem State.loseGrd_core (s : State) :
    s.loseGrd.core = s.core := by unfold State.loseGrd; split <;> rfl
@[simp] theorem State.loseGrd_fault (s : State) :
    s.loseGrd.fault = s.fault := by unfold State.loseGrd; split <;> rfl
@[simp] theorem State.loseGrd_faultCmd (s : State) :
    s.loseGrd.faultCmd = s.faultCmd := by unfold State.loseGrd; split <;> rfl
@[simp] theorem State.loseGrd_result (s : State) :
    s.loseGrd.result = s.result := by unfold State.loseGrd; split <;> rfl
@[simp] theorem State.loseGrd_oob (s : State) :
    s.loseGrd.oob = s.oob := by unfold State.loseGrd; split <;> rfl
@[simp] theorem State.loseGrd_boundary (s : State) :
    s.loseGrd.boundary = s.boundary := by unfold State.loseGrd; split <;> rfl
@[simp] theorem State.loseGrd_pause (s : State) :
    s.loseGrd.pause = s.pause := by unfold State.loseGrd; split <;> rfl
@[simp] theorem State.loseGrd_srcLen (s : State) :
    s.loseGrd.srcLen = s.srcLen := by unfold State.loseGrd; split <;> rfl
@[simp] theorem State.loseGrd_arg0 (s : State) :
    s.loseGrd.arg0 = s.arg0 := by unfold State.loseGrd; split <;> rfl
@[simp] theorem State.loseGrd_arg1 (s : State) :
    s.loseGrd.arg1 = s.arg1 := by unfold State.loseGrd; split <;> rfl
@[simp] theorem State.loseGrd_rect (s : State) :
    s.loseGrd.rect = s.rect := by unfold State.loseGrd; split <;> rfl
@[simp] theorem State.loseGrd_cur (s : State) :
    s.loseGrd.cur = s.cur := by unfold State.loseGrd; split <;> rfl
@[simp] theorem State.loseGrd_mq (s : State) :
    s.loseGrd.mq = s.mq := by unfold State.loseGrd; split <;> rfl
@[simp] theorem State.loseGrd_gb (s : State) :
    s.loseGrd.gb = s.gb := by unfold State.loseGrd; split <;> rfl
@[simp] theorem State.loseGrd_gr (s : State) :
    s.loseGrd.gr = s.gr := by unfold State.loseGrd; split <;> rfl
@[simp] theorem State.loseGrd_gbBank (s : State) :
    s.loseGrd.gbBank = s.gbBank := by unfold State.loseGrd; split <;> rfl
@[simp] theorem State.loseGrd_grBank (s : State) :
    s.loseGrd.grBank = s.grBank := by unfold State.loseGrd; split <;> rfl
@[simp] theorem State.loseGrd_tables (s : State) :
    s.loseGrd.tables = s.tables := by unfold State.loseGrd; split <;> rfl
@[simp] theorem State.loseGrd_bitmaps (s : State) :
    s.loseGrd.bitmaps = s.bitmaps := by unfold State.loseGrd; split <;> rfl
@[simp] theorem State.loseGrd_src (s : State) :
    s.loseGrd.src = s.src := by unfold State.loseGrd; split <;> rfl
@[simp] theorem State.loseGrd_host (s : State) :
    s.loseGrd.host = s.host := by unfold State.loseGrd; split <;> rfl
theorem State.loseGrd_grd (s : State) :
    s.loseGrd.grd = if s.grd.st = .decoding then { s.grd with st := .error } else s.grd := by
  unfold State.loseGrd; split <;> rfl
@[simp] theorem State.loseGrd_len (s : State) : s.loseGrd.len = s.len := by unfold State.loseGrd; split <;> rfl
@[simp] theorem State.loseGrd_span (s : State) : s.loseGrd.span = s.span := by unfold State.loseGrd; split <;> rfl
@[simp] theorem State.loseGrd_bank (s : State) (bk : Bank) : s.loseGrd.bank bk = s.bank bk := by
  cases bk <;> simp [State.bank]
@[simp] theorem State.loseGrd_bitmap (s : State) (slot : Nat) : s.loseGrd.bitmap slot = s.bitmap slot := by
  simp [State.bitmap]
@[simp] theorem State.loseGrd_table (s : State) (id : Nat) : s.loseGrd.table id = s.table id := by
  simp [State.table]

/-! ### `writeGb` -/

@[simp] theorem State.writeGb_cfg (s : State) (g : GbRegs) :
    (s.writeGb g).cfg = s.cfg := by unfold State.writeGb; split <;> rfl
@[simp] theorem State.writeGb_core (s : State) (g : GbRegs) :
    (s.writeGb g).core = s.core := by unfold State.writeGb; split <;> rfl
@[simp] theorem State.writeGb_fault (s : State) (g : GbRegs) :
    (s.writeGb g).fault = s.fault := by unfold State.writeGb; split <;> rfl
@[simp] theorem State.writeGb_faultCmd (s : State) (g : GbRegs) :
    (s.writeGb g).faultCmd = s.faultCmd := by unfold State.writeGb; split <;> rfl
@[simp] theorem State.writeGb_result (s : State) (g : GbRegs) :
    (s.writeGb g).result = s.result := by unfold State.writeGb; split <;> rfl
@[simp] theorem State.writeGb_oob (s : State) (g : GbRegs) :
    (s.writeGb g).oob = s.oob := by unfold State.writeGb; split <;> rfl
@[simp] theorem State.writeGb_boundary (s : State) (g : GbRegs) :
    (s.writeGb g).boundary = s.boundary := by unfold State.writeGb; split <;> rfl
@[simp] theorem State.writeGb_pause (s : State) (g : GbRegs) :
    (s.writeGb g).pause = s.pause := by unfold State.writeGb; split <;> rfl
@[simp] theorem State.writeGb_srcLen (s : State) (g : GbRegs) :
    (s.writeGb g).srcLen = s.srcLen := by unfold State.writeGb; split <;> rfl
@[simp] theorem State.writeGb_arg0 (s : State) (g : GbRegs) :
    (s.writeGb g).arg0 = s.arg0 := by unfold State.writeGb; split <;> rfl
@[simp] theorem State.writeGb_arg1 (s : State) (g : GbRegs) :
    (s.writeGb g).arg1 = s.arg1 := by unfold State.writeGb; split <;> rfl
@[simp] theorem State.writeGb_rect (s : State) (g : GbRegs) :
    (s.writeGb g).rect = s.rect := by unfold State.writeGb; split <;> rfl
@[simp] theorem State.writeGb_cur (s : State) (g : GbRegs) :
    (s.writeGb g).cur = s.cur := by unfold State.writeGb; split <;> rfl
@[simp] theorem State.writeGb_mq (s : State) (g : GbRegs) :
    (s.writeGb g).mq = s.mq := by unfold State.writeGb; split <;> rfl
@[simp] theorem State.writeGb_grd (s : State) (g : GbRegs) :
    (s.writeGb g).grd = s.grd := by unfold State.writeGb; split <;> rfl
@[simp] theorem State.writeGb_gr (s : State) (g : GbRegs) :
    (s.writeGb g).gr = s.gr := by unfold State.writeGb; split <;> rfl
@[simp] theorem State.writeGb_gbBank (s : State) (g : GbRegs) :
    (s.writeGb g).gbBank = s.gbBank := by unfold State.writeGb; split <;> rfl
@[simp] theorem State.writeGb_grBank (s : State) (g : GbRegs) :
    (s.writeGb g).grBank = s.grBank := by unfold State.writeGb; split <;> rfl
@[simp] theorem State.writeGb_tables (s : State) (g : GbRegs) :
    (s.writeGb g).tables = s.tables := by unfold State.writeGb; split <;> rfl
@[simp] theorem State.writeGb_bitmaps (s : State) (g : GbRegs) :
    (s.writeGb g).bitmaps = s.bitmaps := by unfold State.writeGb; split <;> rfl
@[simp] theorem State.writeGb_src (s : State) (g : GbRegs) :
    (s.writeGb g).src = s.src := by unfold State.writeGb; split <;> rfl
@[simp] theorem State.writeGb_host (s : State) (g : GbRegs) :
    (s.writeGb g).host = s.host := by unfold State.writeGb; split <;> rfl
theorem State.writeGb_gb (s : State) (g : GbRegs) :
    (s.writeGb g).gb = if s.grd.st = .decoding then s.gb else g := by
  unfold State.writeGb; split <;> rfl
@[simp] theorem State.writeGb_len (s : State) (g : GbRegs) : (s.writeGb g).len = s.len := by unfold State.writeGb; split <;> rfl
@[simp] theorem State.writeGb_span (s : State) (g : GbRegs) : (s.writeGb g).span = s.span := by unfold State.writeGb; split <;> rfl
@[simp] theorem State.writeGb_bank (s : State) (g : GbRegs) (bk : Bank) : (s.writeGb g).bank bk = s.bank bk := by
  cases bk <;> simp [State.bank]
@[simp] theorem State.writeGb_bitmap (s : State) (g : GbRegs) (slot : Nat) : (s.writeGb g).bitmap slot = s.bitmap slot := by
  simp [State.bitmap]
@[simp] theorem State.writeGb_table (s : State) (g : GbRegs) (id : Nat) : (s.writeGb g).table id = s.table id := by
  simp [State.table]

/-! ### `setBusyWindow` -/

@[simp] theorem State.setBusyWindow_cfg (s : State) (v : Bool) :
    (s.setBusyWindow v).cfg = s.cfg := rfl
@[simp] theorem State.setBusyWindow_core (s : State) (v : Bool) :
    (s.setBusyWindow v).core = s.core := rfl
@[simp] theorem State.setBusyWindow_fault (s : State) (v : Bool) :
    (s.setBusyWindow v).fault = s.fault := rfl
@[simp] theorem State.setBusyWindow_faultCmd (s : State) (v : Bool) :
    (s.setBusyWindow v).faultCmd = s.faultCmd := rfl
@[simp] theorem State.setBusyWindow_result (s : State) (v : Bool) :
    (s.setBusyWindow v).result = s.result := rfl
@[simp] theorem State.setBusyWindow_oob (s : State) (v : Bool) :
    (s.setBusyWindow v).oob = s.oob := rfl
@[simp] theorem State.setBusyWindow_boundary (s : State) (v : Bool) :
    (s.setBusyWindow v).boundary = s.boundary := rfl
@[simp] theorem State.setBusyWindow_pause (s : State) (v : Bool) :
    (s.setBusyWindow v).pause = s.pause := rfl
@[simp] theorem State.setBusyWindow_srcLen (s : State) (v : Bool) :
    (s.setBusyWindow v).srcLen = s.srcLen := rfl
@[simp] theorem State.setBusyWindow_arg0 (s : State) (v : Bool) :
    (s.setBusyWindow v).arg0 = s.arg0 := rfl
@[simp] theorem State.setBusyWindow_arg1 (s : State) (v : Bool) :
    (s.setBusyWindow v).arg1 = s.arg1 := rfl
@[simp] theorem State.setBusyWindow_rect (s : State) (v : Bool) :
    (s.setBusyWindow v).rect = s.rect := rfl
@[simp] theorem State.setBusyWindow_cur (s : State) (v : Bool) :
    (s.setBusyWindow v).cur = s.cur := rfl
@[simp] theorem State.setBusyWindow_mq (s : State) (v : Bool) :
    (s.setBusyWindow v).mq = s.mq := rfl
@[simp] theorem State.setBusyWindow_gb (s : State) (v : Bool) :
    (s.setBusyWindow v).gb = s.gb := rfl
@[simp] theorem State.setBusyWindow_grd (s : State) (v : Bool) :
    (s.setBusyWindow v).grd = s.grd := rfl
@[simp] theorem State.setBusyWindow_gr (s : State) (v : Bool) :
    (s.setBusyWindow v).gr = s.gr := rfl
@[simp] theorem State.setBusyWindow_gbBank (s : State) (v : Bool) :
    (s.setBusyWindow v).gbBank = s.gbBank := rfl
@[simp] theorem State.setBusyWindow_grBank (s : State) (v : Bool) :
    (s.setBusyWindow v).grBank = s.grBank := rfl
@[simp] theorem State.setBusyWindow_tables (s : State) (v : Bool) :
    (s.setBusyWindow v).tables = s.tables := rfl
@[simp] theorem State.setBusyWindow_bitmaps (s : State) (v : Bool) :
    (s.setBusyWindow v).bitmaps = s.bitmaps := rfl
@[simp] theorem State.setBusyWindow_src (s : State) (v : Bool) :
    (s.setBusyWindow v).src = s.src := rfl
@[simp] theorem State.setBusyWindow_host (s : State) (v : Bool) :
    (s.setBusyWindow v).host = { s.host with busyWindow := v } := rfl
@[simp] theorem State.setBusyWindow_len (s : State) (v : Bool) : (s.setBusyWindow v).len = s.len := rfl
@[simp] theorem State.setBusyWindow_span (s : State) (v : Bool) : (s.setBusyWindow v).span = s.span := rfl
@[simp] theorem State.setBusyWindow_bank (s : State) (v : Bool) (bk : Bank) : (s.setBusyWindow v).bank bk = s.bank bk := by
  cases bk <;> simp [State.bank]
@[simp] theorem State.setBusyWindow_bitmap (s : State) (v : Bool) (slot : Nat) : (s.setBusyWindow v).bitmap slot = s.bitmap slot := by
  simp [State.bitmap]
@[simp] theorem State.setBusyWindow_table (s : State) (v : Bool) (id : Nat) : (s.setBusyWindow v).table id = s.table id := by
  simp [State.table]

/-! ### `returnData` -/

@[simp] theorem State.returnData_cfg (s : State) (v : Word) :
    (s.returnData v).cfg = s.cfg := rfl
@[simp] theorem State.returnData_core (s : State) (v : Word) :
    (s.returnData v).core = s.core := rfl
@[simp] theorem State.returnData_fault (s : State) (v : Word) :
    (s.returnData v).fault = s.fault := rfl
@[simp] theorem State.returnData_faultCmd (s : State) (v : Word) :
    (s.returnData v).faultCmd = s.faultCmd := rfl
@[simp] theorem State.returnData_result (s : State) (v : Word) :
    (s.returnData v).result = s.result := rfl
@[simp] theorem State.returnData_oob (s : State) (v : Word) :
    (s.returnData v).oob = s.oob := rfl
@[simp] theorem State.returnData_boundary (s : State) (v : Word) :
    (s.returnData v).boundary = s.boundary := rfl
@[simp] theorem State.returnData_pause (s : State) (v : Word) :
    (s.returnData v).pause = s.pause := rfl
@[simp] theorem State.returnData_srcLen (s : State) (v : Word) :
    (s.returnData v).srcLen = s.srcLen := rfl
@[simp] theorem State.returnData_arg0 (s : State) (v : Word) :
    (s.returnData v).arg0 = s.arg0 := rfl
@[simp] theorem State.returnData_arg1 (s : State) (v : Word) :
    (s.returnData v).arg1 = s.arg1 := rfl
@[simp] theorem State.returnData_rect (s : State) (v : Word) :
    (s.returnData v).rect = s.rect := rfl
@[simp] theorem State.returnData_cur (s : State) (v : Word) :
    (s.returnData v).cur = s.cur := rfl
@[simp] theorem State.returnData_mq (s : State) (v : Word) :
    (s.returnData v).mq = s.mq := rfl
@[simp] theorem State.returnData_gb (s : State) (v : Word) :
    (s.returnData v).gb = s.gb := rfl
@[simp] theorem State.returnData_grd (s : State) (v : Word) :
    (s.returnData v).grd = s.grd := rfl
@[simp] theorem State.returnData_gr (s : State) (v : Word) :
    (s.returnData v).gr = s.gr := rfl
@[simp] theorem State.returnData_gbBank (s : State) (v : Word) :
    (s.returnData v).gbBank = s.gbBank := rfl
@[simp] theorem State.returnData_grBank (s : State) (v : Word) :
    (s.returnData v).grBank = s.grBank := rfl
@[simp] theorem State.returnData_tables (s : State) (v : Word) :
    (s.returnData v).tables = s.tables := rfl
@[simp] theorem State.returnData_bitmaps (s : State) (v : Word) :
    (s.returnData v).bitmaps = s.bitmaps := rfl
@[simp] theorem State.returnData_src (s : State) (v : Word) :
    (s.returnData v).src = s.src := rfl
@[simp] theorem State.returnData_host (s : State) (v : Word) :
    (s.returnData v).host = { s.host with readData := v } := rfl
@[simp] theorem State.returnData_len (s : State) (v : Word) : (s.returnData v).len = s.len := rfl
@[simp] theorem State.returnData_span (s : State) (v : Word) : (s.returnData v).span = s.span := rfl
@[simp] theorem State.returnData_bank (s : State) (v : Word) (bk : Bank) : (s.returnData v).bank bk = s.bank bk := by
  cases bk <;> simp [State.bank]
@[simp] theorem State.returnData_bitmap (s : State) (v : Word) (slot : Nat) : (s.returnData v).bitmap slot = s.bitmap slot := by
  simp [State.bitmap]
@[simp] theorem State.returnData_table (s : State) (v : Word) (id : Nat) : (s.returnData v).table id = s.table id := by
  simp [State.table]

/-! ### `spendDraw` -/

@[simp] theorem State.spendDraw_cfg (s : State) :
    s.spendDraw.cfg = s.cfg := rfl
@[simp] theorem State.spendDraw_core (s : State) :
    s.spendDraw.core = s.core := rfl
@[simp] theorem State.spendDraw_fault (s : State) :
    s.spendDraw.fault = s.fault := rfl
@[simp] theorem State.spendDraw_faultCmd (s : State) :
    s.spendDraw.faultCmd = s.faultCmd := rfl
@[simp] theorem State.spendDraw_result (s : State) :
    s.spendDraw.result = s.result := rfl
@[simp] theorem State.spendDraw_oob (s : State) :
    s.spendDraw.oob = s.oob := rfl
@[simp] theorem State.spendDraw_boundary (s : State) :
    s.spendDraw.boundary = s.boundary := rfl
@[simp] theorem State.spendDraw_pause (s : State) :
    s.spendDraw.pause = s.pause := rfl
@[simp] theorem State.spendDraw_srcLen (s : State) :
    s.spendDraw.srcLen = s.srcLen := rfl
@[simp] theorem State.spendDraw_arg0 (s : State) :
    s.spendDraw.arg0 = s.arg0 := rfl
@[simp] theorem State.spendDraw_arg1 (s : State) :
    s.spendDraw.arg1 = s.arg1 := rfl
@[simp] theorem State.spendDraw_rect (s : State) :
    s.spendDraw.rect = s.rect := rfl
@[simp] theorem State.spendDraw_cur (s : State) :
    s.spendDraw.cur = s.cur := rfl
@[simp] theorem State.spendDraw_mq (s : State) :
    s.spendDraw.mq = s.mq := rfl
@[simp] theorem State.spendDraw_gb (s : State) :
    s.spendDraw.gb = s.gb := rfl
@[simp] theorem State.spendDraw_grd (s : State) :
    s.spendDraw.grd = s.grd := rfl
@[simp] theorem State.spendDraw_gr (s : State) :
    s.spendDraw.gr = s.gr := rfl
@[simp] theorem State.spendDraw_gbBank (s : State) :
    s.spendDraw.gbBank = s.gbBank := rfl
@[simp] theorem State.spendDraw_grBank (s : State) :
    s.spendDraw.grBank = s.grBank := rfl
@[simp] theorem State.spendDraw_tables (s : State) :
    s.spendDraw.tables = s.tables := rfl
@[simp] theorem State.spendDraw_bitmaps (s : State) :
    s.spendDraw.bitmaps = s.bitmaps := rfl
@[simp] theorem State.spendDraw_src (s : State) :
    s.spendDraw.src = s.src := rfl
@[simp] theorem State.spendDraw_host (s : State) :
    s.spendDraw.host = { s.host with draws := s.host.draws + 1 } := rfl
@[simp] theorem State.spendDraw_len (s : State) : s.spendDraw.len = s.len := rfl
@[simp] theorem State.spendDraw_span (s : State) : s.spendDraw.span = s.span := rfl
@[simp] theorem State.spendDraw_bank (s : State) (bk : Bank) : s.spendDraw.bank bk = s.bank bk := by
  cases bk <;> simp [State.bank]
@[simp] theorem State.spendDraw_bitmap (s : State) (slot : Nat) : s.spendDraw.bitmap slot = s.bitmap slot := by
  simp [State.bitmap]
@[simp] theorem State.spendDraw_table (s : State) (id : Nat) : s.spendDraw.table id = s.table id := by
  simp [State.table]

/-! ### `popOp` -/

@[simp] theorem State.popOp_cfg (s : State) (rest : List HostOp) :
    (s.popOp rest).cfg = s.cfg := rfl
@[simp] theorem State.popOp_core (s : State) (rest : List HostOp) :
    (s.popOp rest).core = s.core := rfl
@[simp] theorem State.popOp_fault (s : State) (rest : List HostOp) :
    (s.popOp rest).fault = s.fault := rfl
@[simp] theorem State.popOp_faultCmd (s : State) (rest : List HostOp) :
    (s.popOp rest).faultCmd = s.faultCmd := rfl
@[simp] theorem State.popOp_result (s : State) (rest : List HostOp) :
    (s.popOp rest).result = s.result := rfl
@[simp] theorem State.popOp_oob (s : State) (rest : List HostOp) :
    (s.popOp rest).oob = s.oob := rfl
@[simp] theorem State.popOp_boundary (s : State) (rest : List HostOp) :
    (s.popOp rest).boundary = s.boundary := rfl
@[simp] theorem State.popOp_pause (s : State) (rest : List HostOp) :
    (s.popOp rest).pause = s.pause := rfl
@[simp] theorem State.popOp_srcLen (s : State) (rest : List HostOp) :
    (s.popOp rest).srcLen = s.srcLen := rfl
@[simp] theorem State.popOp_arg0 (s : State) (rest : List HostOp) :
    (s.popOp rest).arg0 = s.arg0 := rfl
@[simp] theorem State.popOp_arg1 (s : State) (rest : List HostOp) :
    (s.popOp rest).arg1 = s.arg1 := rfl
@[simp] theorem State.popOp_rect (s : State) (rest : List HostOp) :
    (s.popOp rest).rect = s.rect := rfl
@[simp] theorem State.popOp_cur (s : State) (rest : List HostOp) :
    (s.popOp rest).cur = s.cur := rfl
@[simp] theorem State.popOp_mq (s : State) (rest : List HostOp) :
    (s.popOp rest).mq = s.mq := rfl
@[simp] theorem State.popOp_gb (s : State) (rest : List HostOp) :
    (s.popOp rest).gb = s.gb := rfl
@[simp] theorem State.popOp_grd (s : State) (rest : List HostOp) :
    (s.popOp rest).grd = s.grd := rfl
@[simp] theorem State.popOp_gr (s : State) (rest : List HostOp) :
    (s.popOp rest).gr = s.gr := rfl
@[simp] theorem State.popOp_gbBank (s : State) (rest : List HostOp) :
    (s.popOp rest).gbBank = s.gbBank := rfl
@[simp] theorem State.popOp_grBank (s : State) (rest : List HostOp) :
    (s.popOp rest).grBank = s.grBank := rfl
@[simp] theorem State.popOp_tables (s : State) (rest : List HostOp) :
    (s.popOp rest).tables = s.tables := rfl
@[simp] theorem State.popOp_bitmaps (s : State) (rest : List HostOp) :
    (s.popOp rest).bitmaps = s.bitmaps := rfl
@[simp] theorem State.popOp_src (s : State) (rest : List HostOp) :
    (s.popOp rest).src = s.src := rfl
@[simp] theorem State.popOp_host (s : State) (rest : List HostOp) :
    (s.popOp rest).host = { s.host with ops := rest } := rfl
@[simp] theorem State.popOp_len (s : State) (rest : List HostOp) : (s.popOp rest).len = s.len := rfl
@[simp] theorem State.popOp_span (s : State) (rest : List HostOp) : (s.popOp rest).span = s.span := rfl
@[simp] theorem State.popOp_bank (s : State) (rest : List HostOp) (bk : Bank) : (s.popOp rest).bank bk = s.bank bk := by
  cases bk <;> simp [State.bank]
@[simp] theorem State.popOp_bitmap (s : State) (rest : List HostOp) (slot : Nat) : (s.popOp rest).bitmap slot = s.bitmap slot := by
  simp [State.bitmap]
@[simp] theorem State.popOp_table (s : State) (rest : List HostOp) (id : Nat) : (s.popOp rest).table id = s.table id := by
  simp [State.table]

/-! ### `pushOp` -/

@[simp] theorem State.pushOp_cfg (s : State) (op : HostOp) :
    (s.pushOp op).cfg = s.cfg := rfl
@[simp] theorem State.pushOp_core (s : State) (op : HostOp) :
    (s.pushOp op).core = s.core := rfl
@[simp] theorem State.pushOp_fault (s : State) (op : HostOp) :
    (s.pushOp op).fault = s.fault := rfl
@[simp] theorem State.pushOp_faultCmd (s : State) (op : HostOp) :
    (s.pushOp op).faultCmd = s.faultCmd := rfl
@[simp] theorem State.pushOp_result (s : State) (op : HostOp) :
    (s.pushOp op).result = s.result := rfl
@[simp] theorem State.pushOp_oob (s : State) (op : HostOp) :
    (s.pushOp op).oob = s.oob := rfl
@[simp] theorem State.pushOp_boundary (s : State) (op : HostOp) :
    (s.pushOp op).boundary = s.boundary := rfl
@[simp] theorem State.pushOp_pause (s : State) (op : HostOp) :
    (s.pushOp op).pause = s.pause := rfl
@[simp] theorem State.pushOp_srcLen (s : State) (op : HostOp) :
    (s.pushOp op).srcLen = s.srcLen := rfl
@[simp] theorem State.pushOp_arg0 (s : State) (op : HostOp) :
    (s.pushOp op).arg0 = s.arg0 := rfl
@[simp] theorem State.pushOp_arg1 (s : State) (op : HostOp) :
    (s.pushOp op).arg1 = s.arg1 := rfl
@[simp] theorem State.pushOp_rect (s : State) (op : HostOp) :
    (s.pushOp op).rect = s.rect := rfl
@[simp] theorem State.pushOp_cur (s : State) (op : HostOp) :
    (s.pushOp op).cur = s.cur := rfl
@[simp] theorem State.pushOp_mq (s : State) (op : HostOp) :
    (s.pushOp op).mq = s.mq := rfl
@[simp] theorem State.pushOp_gb (s : State) (op : HostOp) :
    (s.pushOp op).gb = s.gb := rfl
@[simp] theorem State.pushOp_grd (s : State) (op : HostOp) :
    (s.pushOp op).grd = s.grd := rfl
@[simp] theorem State.pushOp_gr (s : State) (op : HostOp) :
    (s.pushOp op).gr = s.gr := rfl
@[simp] theorem State.pushOp_gbBank (s : State) (op : HostOp) :
    (s.pushOp op).gbBank = s.gbBank := rfl
@[simp] theorem State.pushOp_grBank (s : State) (op : HostOp) :
    (s.pushOp op).grBank = s.grBank := rfl
@[simp] theorem State.pushOp_tables (s : State) (op : HostOp) :
    (s.pushOp op).tables = s.tables := rfl
@[simp] theorem State.pushOp_bitmaps (s : State) (op : HostOp) :
    (s.pushOp op).bitmaps = s.bitmaps := rfl
@[simp] theorem State.pushOp_src (s : State) (op : HostOp) :
    (s.pushOp op).src = s.src := rfl
@[simp] theorem State.pushOp_host (s : State) (op : HostOp) :
    (s.pushOp op).host = { s.host with ops := op :: s.host.ops } := rfl
@[simp] theorem State.pushOp_len (s : State) (op : HostOp) : (s.pushOp op).len = s.len := rfl
@[simp] theorem State.pushOp_span (s : State) (op : HostOp) : (s.pushOp op).span = s.span := rfl
@[simp] theorem State.pushOp_bank (s : State) (op : HostOp) (bk : Bank) : (s.pushOp op).bank bk = s.bank bk := by
  cases bk <;> simp [State.bank]
@[simp] theorem State.pushOp_bitmap (s : State) (op : HostOp) (slot : Nat) : (s.pushOp op).bitmap slot = s.bitmap slot := by
  simp [State.bitmap]
@[simp] theorem State.pushOp_table (s : State) (op : HostOp) (id : Nat) : (s.pushOp op).table id = s.table id := by
  simp [State.table]

end Sys2Proof.Machine
end

