-- ==== Sys2Proof/Laws/BitReader.lean ====
section
/-! SUPPORT. The bit reader by positions: what a cursor names, what `readBits` yields (R122), big-endian bytes (R62). -/

namespace Sys2Proof.Machine

/-! ### Cursors and positions -/

theorem cursorAt_pos (c : Cursor) : cursorAt c.pos = c := by
  obtain ⟨b, k⟩ := c
  have := k.isLt; have := b.isLt
  simp only [cursorAt, Cursor.pos, Cursor.mk.injEq]
  constructor
  · apply BitVec.eq_of_toNat_eq; rw [BitVec.toNat_ofNat]; omega
  · apply BitVec.eq_of_toNat_eq; rw [BitVec.toNat_ofNat]; omega

theorem pos_cursorAt {p : Nat} (h : p < 2 ^ 35) : (cursorAt p).pos = p := by
  simp only [cursorAt, Cursor.pos, BitVec.toNat_ofNat]; omega

theorem Cursor.pos_lt (c : Cursor) : c.pos < 2 ^ 35 := by
  have := c.byteIdx.isLt; have := c.bitIdx.isLt
  unfold Cursor.pos; omega

theorem Cursor.advance_eq (c : Cursor) : c.advance = cursorAt (c.pos + 1) := by
  obtain ⟨b, k⟩ := c
  have hk := k.isLt; have hb := b.isLt
  have e7 : (7 : BitVec 3).toNat = 7 := rfl
  have e1 : (1 : BitVec 3).toNat = 1 := rfl
  have e0 : (0 : BitVec 3).toNat = 0 := rfl
  have f1 : (1 : Word).toNat = 1 := rfl
  unfold Cursor.advance cursorAt Cursor.pos
  split
  · rename_i h
    simp only at h
    subst h
    simp only [Cursor.mk.injEq]
    constructor
    · apply BitVec.eq_of_toNat_eq; simp only [BitVec.toNat_add, BitVec.toNat_ofNat]; omega
    · apply BitVec.eq_of_toNat_eq; simp only [BitVec.toNat_ofNat]; omega
  · rename_i h
    have h7 : k.toNat ≠ 7 := fun e => h (BitVec.eq_of_toNat_eq e)
    simp only [Cursor.mk.injEq]
    constructor
    · apply BitVec.eq_of_toNat_eq; simp only [BitVec.toNat_ofNat]; omega
    · apply BitVec.eq_of_toNat_eq; simp only [BitVec.toNat_add, BitVec.toNat_ofNat]; omega

theorem bitAt_eq (sp : Span) (c : Cursor) : bitAt sp c = sp.bit c.pos := by
  have := c.bitIdx.isLt
  have h1 : c.pos / 8 = c.byteIdx.toNat := by unfold Cursor.pos; omega
  have h2 : c.pos % 8 = c.bitIdx.toNat := by unfold Cursor.pos; omega
  rw [bitAt, Span.bit, h1, h2]

/-! ### Numbers read from the stream -/

theorem Span.number_lt (sp : Span) (p n : Nat) : sp.number p n < 2 ^ n := by
  induction n with
  | zero => simp [Span.number]
  | succ n ih =>
    have := (sp.bit (p + n)).toNat_le
    rw [Span.number, Nat.pow_succ]; omega

theorem Span.number_add (sp : Span) (p m n : Nat) :
    sp.number p (m + n) = sp.number p m * 2 ^ n + sp.number (p + m) n := by
  induction n with
  | zero => simp [Span.number]
  | succ n ih =>
    rw [← Nat.add_assoc, Span.number, Span.number, ih, Nat.pow_succ, Nat.add_assoc p m n]
    ring

theorem Span.Agree.bit {a b : Span} (h : a.Agree b) {p : Nat} (hp : p < 8 * a.len) : a.bit p = b.bit p := by
  unfold Span.bit; rw [h.2 _ (by omega)]

theorem Span.Agree.number {a b : Span} (h : a.Agree b) {p n : Nat} (hp : p + n ≤ 8 * a.len) :
    a.number p n = b.number p n := by
  induction n with
  | zero => rfl
  | succ n ih => rw [Span.number, Span.number, ih (by omega), h.bit (by omega)]

/-- The eight bits of a byte, first bit most significant. -/
theorem Span.number_byte (sp : Span) (i : Nat) : sp.number (8 * i) 8 = (sp.byte i).toNat := by
  have h : ∀ k, k < 8 → sp.bit (8 * i + k) = (sp.byte i).getMsbD k := by
    intro k hk
    have h1 : (8 * i + k) / 8 = i := by omega
    have h2 : (8 * i + k) % 8 = k := by omega
    rw [Span.bit, h1, h2]
  simp only [Span.number, Nat.add_zero, h 1 (by omega), h 2 (by omega), h 3 (by omega), h 4 (by omega), h 5 (by omega),
    h 6 (by omega), h 7 (by omega)]
  have h0 := h 0 (by omega)
  rw [Nat.add_zero] at h0
  rw [h0]
  generalize sp.byte i = b
  revert b
  decide +kernel

/-- `bigEndian` is the number of its `8 n` bits (R62). -/
theorem bigEndian_eq (sp : Span) (i n : Nat) : bigEndian sp i n = sp.number (8 * i) (8 * n) := by
  induction n with
  | zero => rfl
  | succ n ih =>
    rw [bigEndian, ih, Nat.mul_succ 8 n, Span.number_add, ← Nat.mul_add, Span.number_byte]
    norm_num

/-! ### `readBits` (R122) -/

theorem takeBits_eq (sp : Span) (k v : Nat) (c : Cursor) (h : c.pos + k < 2 ^ 35) :
    takeBits sp k v c = (v * 2 ^ k + sp.number c.pos k, cursorAt (c.pos + k)) := by
  induction k generalizing v c with
  | zero => simp [takeBits, Span.number, cursorAt_pos]
  | succ k ih =>
    have hp : (cursorAt (c.pos + 1)).pos = c.pos + 1 := pos_cursorAt (by omega)
    rw [takeBits, Cursor.advance_eq, ih _ _ (by rw [hp]; omega), hp, bitAt_eq]
    have h1 : sp.number c.pos (k + 1) = (sp.bit c.pos).toNat * 2 ^ k + sp.number (c.pos + 1) k := by
      rw [Nat.add_comm k 1, Span.number_add]; simp [Span.number]
    rw [h1, Nat.pow_succ]
    simp only [Prod.mk.injEq]
    constructor
    · ring
    · congr 1; omega

theorem State.len_le (s : State) : s.len ≤ Config.srcCap := by
  unfold State.len; split <;> omega

theorem availBits_le (len : Nat) (c : Cursor) : availBits len c ≠ 0 → c.pos + availBits len c = 8 * len := by
  unfold availBits Cursor.pos; omega

/-- The bits left from a position inside the span. -/
theorem availBits_cursorAt {len p : Nat} (hp : p ≤ 8 * len) (hl : len ≤ Config.srcCap) :
    availBits len (cursorAt p) = 8 * len - p := by
  unfold Config.srcCap at hl
  unfold availBits cursorAt
  simp only [BitVec.toNat_ofNat]
  omega

/-- `readBits`, once: it takes `min n AVAIL` bits from the position of the cursor (R122). -/
theorem readBits_eq (sp : Span) (hl : sp.len ≤ Config.srcCap) (c : Cursor) (n : Nat) :
    readBits sp c n =
      ⟨sp.number c.pos (min n (availBits sp.len c)), decide (min n (availBits sp.len c) < n),
        cursorAt (c.pos + min n (availBits sp.len c))⟩ := by
  have h : c.pos + min n (availBits sp.len c) < 2 ^ 35 := by
    have := availBits_le sp.len c
    have := c.pos_lt
    unfold Config.srcCap at hl
    by_cases h0 : availBits sp.len c = 0
    · rw [h0]; omega
    · omega
  rw [readBits]
  simp only [takeBits_eq sp _ 0 c h, Nat.zero_mul, Nat.zero_add]

theorem readBits_complete (sp : Span) (hl : sp.len ≤ Config.srcCap) (c : Cursor) (n : Nat) (h : n ≤ availBits sp.len c) :
    readBits sp c n = ⟨sp.number c.pos n, false, cursorAt (c.pos + n)⟩ := by
  rw [readBits_eq sp hl, Nat.min_eq_left h]; simp

/-- A read depends on no byte at or beyond the end of the span (R120). -/
theorem readBits_agree {a b : Span} (h : a.Agree b) (hl : a.len ≤ Config.srcCap) (c : Cursor) (n : Nat) :
    readBits a c n = readBits b c n := by
  rw [readBits_eq a hl, readBits_eq b (h.1 ▸ hl), ← h.1]
  congr 1
  by_cases h0 : availBits a.len c = 0
  · rw [h0]; simp [Span.number]
  · exact h.number (by have := availBits_le a.len c h0; omega)

/-- What the cursor after a read is: inside the span if it was, not before where it was (R27). -/
theorem readBits_pos (sp : Span) (hl : sp.len ≤ Config.srcCap) (c : Cursor) (n : Nat) :
    (readBits sp c n).cur.pos = c.pos + min n (availBits sp.len c) := by
  rw [readBits_eq sp hl]
  refine pos_cursorAt ?_
  have := availBits_le sp.len c
  have := c.pos_lt
  unfold Config.srcCap at hl
  by_cases h0 : availBits sp.len c = 0
  · rw [h0]; omega
  · omega

/-- The cursor invariant of R27 in positions. -/
theorem cursorOk_iff (c : Cursor) (len : Nat) :
    (c.byteIdx.toNat ≤ len ∧ (c.byteIdx.toNat = len → c.bitIdx = 0)) ↔ c.pos ≤ 8 * len := by
  have hk := c.bitIdx.isLt
  unfold Cursor.pos
  constructor
  · rintro ⟨h1, h2⟩
    by_cases h : c.byteIdx.toNat = len
    · rw [h2 h]; simp; omega
    · omega
  · intro h
    refine ⟨by omega, fun e => BitVec.eq_of_toNat_eq ?_⟩
    simp; omega

theorem readBits_le (sp : Span) (hl : sp.len ≤ Config.srcCap) (c : Cursor) (n : Nat) (h : c.pos ≤ 8 * sp.len) :
    (readBits sp c n).cur.pos ≤ 8 * sp.len := by
  rw [readBits_pos sp hl]
  by_cases h0 : availBits sp.len c = 0
  · rw [h0]; simpa
  · have := availBits_le sp.len c h0; omega

end Sys2Proof.Machine
end

