-- ==== Sys2Proof/Laws/Store.lean ====
section
/-! SUPPORT. The laws of the sparse stores: a read after a write, and that every operation keeps the canonical form. -/

namespace Sys2Proof.Machine

variable {α : Type}

@[simp] theorem Store.get_nil (a : Nat) : Store.get ([] : List (Nat × α)) a = none := rfl

@[simp] theorem Store.get_cons (k : Nat) (v : α) (t : List (Nat × α)) (a : Nat) :
    Store.get ((k, v) :: t) a = if a = k then some v else Store.get t a := rfl

theorem Store.get_set (l : List (Nat × α)) (k : Nat) (v : α) (a : Nat) :
    Store.get (Store.set l k v) a = if a = k then some v else Store.get l a := by
  induction l with
  | nil => simp [Store.set]
  | cons p t ih =>
    obtain ⟨k', v'⟩ := p
    unfold Store.set
    split
    · simp
    · split
      · rename_i h; subst h; simp only [Store.get_cons]; split <;> rfl
      · rename_i h1 h2
        simp only [Store.get_cons, ih]
        by_cases h : a = k'
        · subst h
          simp [show a ≠ k by omega]
        · simp [h]

@[simp] theorem Store.get_set_same (l : List (Nat × α)) (k : Nat) (v : α) :
    Store.get (Store.set l k v) k = some v := by simp [Store.get_set]

theorem Store.get_set_other {l : List (Nat × α)} {k a : Nat} {v : α} (h : a ≠ k) :
    Store.get (Store.set l k v) a = Store.get l a := by simp [Store.get_set, h]

theorem Store.set_set (l : List (Nat × α)) (k : Nat) (v w : α) : Store.set (Store.set l k v) k w = Store.set l k w := by
  induction l with
  | nil => simp [Store.set]
  | cons p t ih =>
    obtain ⟨k', v'⟩ := p
    by_cases h1 : k < k'
    · simp [Store.set, h1]
    · by_cases h2 : k = k'
      · subst h2; simp [Store.set]
      · simp [Store.set, h1, h2, ih]

theorem Store.get_erase (l : List (Nat × α)) (k a : Nat) :
    Store.get (Store.erase l k) a = if a = k then none else Store.get l a := by
  induction l with
  | nil => simp [Store.erase]
  | cons p t ih =>
    obtain ⟨k', v'⟩ := p
    simp only [Store.erase] at ih ⊢
    by_cases hk : k' = k
    · subst hk
      simp only [List.filter_cons, bne_self_eq_false, Bool.false_eq_true, if_false, ih, Store.get_cons]
      by_cases ha : a = k' <;> simp [ha]
    · have : (k' != k) = true := by simpa using hk
      simp only [List.filter_cons, this, if_true, Store.get_cons, ih]
      by_cases ha : a = k
      · subst ha; simp [Ne.symm hk]
      · simp [ha]

@[simp] theorem Store.get_erase_same (l : List (Nat × α)) (k : Nat) : Store.get (Store.erase l k) k = none := by
  simp [Store.get_erase]

theorem Store.get_erase_other {l : List (Nat × α)} {k a : Nat} (h : a ≠ k) :
    Store.get (Store.erase l k) a = Store.get l a := by simp [Store.get_erase, h]

theorem Store.read_write [DecidableEq α] (d : α) (l : List (Nat × α)) (k : Nat) (v : α) (a : Nat) :
    Store.read d (Store.write d l k v) a = if a = k then v else Store.read d l a := by
  unfold Store.read Store.write
  split
  · rename_i h
    simp only [Store.get_erase]
    split <;> simp [h]
  · simp only [Store.get_set]
    split <;> simp

@[simp] theorem Store.read_write_same [DecidableEq α] (d : α) (l : List (Nat × α)) (k : Nat) (v : α) :
    Store.read d (Store.write d l k v) k = v := by simp [Store.read_write]

theorem Store.read_write_other [DecidableEq α] {d : α} {l : List (Nat × α)} {k a : Nat} {v : α} (h : a ≠ k) :
    Store.read d (Store.write d l k v) a = Store.read d l a := by simp [Store.read_write, h]

@[simp] theorem Store.read_nil (d : α) (a : Nat) : Store.read d [] a = d := rfl

/-! ### Members -/

theorem Store.mem_set {l : List (Nat × α)} {k : Nat} {v : α} {p : Nat × α} (h : p ∈ Store.set l k v) :
    p = (k, v) ∨ p ∈ l := by
  induction l with
  | nil => simpa [Store.set] using h
  | cons q t ih =>
    obtain ⟨k', v'⟩ := q
    unfold Store.set at h
    split at h
    · simpa using h
    · split at h
      · rcases List.mem_cons.1 h with h | h
        · exact .inl h
        · exact .inr (List.mem_cons_of_mem _ h)
      · rcases List.mem_cons.1 h with h | h
        · exact .inr (by simp [h])
        · exact (ih h).imp_right (List.mem_cons_of_mem _)

theorem Store.mem_erase {l : List (Nat × α)} {k : Nat} {p : Nat × α} (h : p ∈ Store.erase l k) : p ∈ l :=
  List.mem_of_mem_filter h

theorem Store.mem_write [DecidableEq α] {d : α} {l : List (Nat × α)} {k : Nat} {v : α} {p : Nat × α}
    (h : p ∈ Store.write d l k v) : (p = (k, v) ∧ v ≠ d) ∨ p ∈ l := by
  unfold Store.write at h
  split at h
  · exact .inr (Store.mem_erase h)
  · rename_i hv
    exact (Store.mem_set h).imp_left fun e => ⟨e, hv⟩

theorem Store.mem_of_get {l : List (Nat × α)} {k : Nat} {v : α} (h : Store.get l k = some v) : (k, v) ∈ l := by
  induction l with
  | nil => simp at h
  | cons q t ih =>
    obtain ⟨k', v'⟩ := q
    simp only [Store.get_cons] at h
    split at h
    · simp_all
    · exact List.mem_cons_of_mem _ (ih h)

/-! ### The canonical form is kept -/

theorem Store.sorted_set {l : List (Nat × α)} (h : Store.Sorted l) (k : Nat) (v : α) :
    Store.Sorted (Store.set l k v) := by
  induction l with
  | nil => simp [Store.set]
  | cons q t ih =>
    obtain ⟨k', v'⟩ := q
    obtain ⟨hq, ht⟩ := List.pairwise_cons.1 h
    unfold Store.set
    split
    · rename_i hk
      refine List.pairwise_cons.2 ⟨fun p hp => ?_, h⟩
      rcases List.mem_cons.1 hp with rfl | hp
      · exact hk
      · exact lt_trans hk (hq p hp)
    · split
      · rename_i hk
        subst hk
        exact List.pairwise_cons.2 ⟨fun p hp => hq p hp, ht⟩
      · refine List.pairwise_cons.2 ⟨fun p hp => ?_, ih ht⟩
        rcases Store.mem_set hp with rfl | hp
        · simp only; omega
        · exact hq p hp

theorem Store.sorted_erase {l : List (Nat × α)} (h : Store.Sorted l) (k : Nat) : Store.Sorted (Store.erase l k) :=
  h.filter _

theorem Store.canonical_write [DecidableEq α] {d : α} {l : List (Nat × α)} (h : Store.Canonical d l) (k : Nat) (v : α) :
    Store.Canonical d (Store.write d l k v) := by
  refine ⟨?_, fun p hp => ?_⟩
  · unfold Store.write
    split
    · exact Store.sorted_erase h.1 k
    · exact Store.sorted_set h.1 k v
  · rcases Store.mem_write hp with ⟨rfl, hv⟩ | hp
    · exact hv
    · exact h.2 p hp

/-- A write to the source memory inside the window keeps its canonical form. -/
theorem Memory.wf_set {m : Memory} (h : Memory.wf m) {i : Nat} (hi : i < Config.srcCap) (b : Byte) :
    Memory.wf (Store.set m i b) := by
  refine ⟨Store.sorted_set h.1 i b, fun p hp => ?_⟩
  rcases Store.mem_set hp with rfl | hp
  · exact hi
  · exact h.2 p hp

/-! ### Equal stores are equal data -/

theorem Store.get_eq_none_of_lt {l : List (Nat × α)} {a : Nat} (h : ∀ p ∈ l, a < p.1) : Store.get l a = none := by
  induction l with
  | nil => rfl
  | cons q t ih =>
    obtain ⟨k, v⟩ := q
    have := h (k, v) (by simp)
    simp only at this
    simp [show a ≠ k by omega, ih fun p hp => h p (List.mem_cons_of_mem _ hp)]

/-- Two stores with rising keys that list the same values are the same list. -/
theorem Store.ext_of_get {l m : List (Nat × α)} (hl : Store.Sorted l) (hm : Store.Sorted m)
    (h : ∀ a, Store.get l a = Store.get m a) : l = m := by
  induction l generalizing m with
  | nil =>
    cases m with
    | nil => rfl
    | cons q t =>
      obtain ⟨k, v⟩ := q
      simpa using h k
  | cons p l ih =>
    obtain ⟨k, v⟩ := p
    cases m with
    | nil => simpa using h k
    | cons q m =>
      obtain ⟨k', v'⟩ := q
      obtain ⟨hp, hl'⟩ := List.pairwise_cons.1 hl
      obtain ⟨hq, hm'⟩ := List.pairwise_cons.1 hm
      have hkk : k = k' := by
        rcases lt_trichotomy k k' with hlt | heq | hgt
        · have hn : Store.get m k = none := Store.get_eq_none_of_lt fun r hr => lt_trans hlt (hq r hr)
          have := h k
          simp [show k ≠ k' by omega, hn] at this
        · exact heq
        · have hn : Store.get l k' = none := Store.get_eq_none_of_lt fun r hr => lt_trans hgt (hp r hr)
          have := h k'
          simp [show k' ≠ k by omega, hn] at this
      subst hkk
      have hv : v = v' := by simpa using h k
      subst hv
      rw [ih hl' hm' fun a => ?_]
      by_cases ha : a = k
      · subst ha
        rw [Store.get_eq_none_of_lt hp, Store.get_eq_none_of_lt hq]
      · simpa [ha] using h a

end Sys2Proof.Machine
end

