-- ==== Sys2Proof/Laws/Bitmap.lean ====
section
/-! SUPPORT. Bitmaps by pixels: what every operation of the store makes each pixel (R252, R253, R260, R263, R265), the bytes
of a window (R63, R64), and that the canonical form is kept. -/

namespace Sys2Proof.Machine

/-! ### Bytes by bits -/

theorem packByte_bits (b0 b1 b2 b3 b4 b5 b6 b7 : Bool) (k : Fin 8) :
    (BitVec.ofBool b0 ++ BitVec.ofBool b1 ++ BitVec.ofBool b2 ++ BitVec.ofBool b3 ++ BitVec.ofBool b4 ++ BitVec.ofBool b5
      ++ BitVec.ofBool b6 ++ BitVec.ofBool b7 : Byte).getMsbD k = [b0, b1, b2, b3, b4, b5, b6, b7][k.val] := by
  revert b0 b1 b2 b3 b4 b5 b6 b7 k
  decide +kernel

theorem getMsbD_packByte (f : Nat → Bool) {k : Nat} (h : k < 8) : (packByte f).getMsbD k = f k := by
  have e := packByte_bits (f 0) (f 1) (f 2) (f 3) (f 4) (f 5) (f 6) (f 7) ⟨k, h⟩
  refine e.trans ?_
  have h0 : k = 0 ∨ k = 1 ∨ k = 2 ∨ k = 3 ∨ k = 4 ∨ k = 5 ∨ k = 6 ∨ k = 7 := by omega
  rcases h0 with rfl | rfl | rfl | rfl | rfl | rfl | rfl | rfl <;> rfl

theorem byte_ext {a b : Byte} (h : ∀ k, k < 8 → a.getMsbD k = b.getMsbD k) : a = b :=
  BitVec.eq_of_getMsbD_eq fun k hk => h k hk

theorem and_not_and (b m : Byte) : b &&& ~~~m &&& m = 0 := by
  rw [BitVec.and_assoc]
  simp

theorem getMsbD_putBit (b : Byte) (k : Nat) (v : Bool) {j : Nat} (h : j < 8) :
    (putBit b k v).getMsbD j = if j = k then v else b.getMsbD j := by
  rw [putBit, getMsbD_packByte _ h]

/-! ### Strides and addresses -/

theorem width_le_stride (w : Nat) : w ≤ 8 * strideOf w := by unfold strideOf; omega

theorem col_lt_stride {x w : Nat} (h : x < w) : x / 8 < strideOf w := by unfold strideOf; omega

theorem row_address {x y w h : Nat} (hx : x < w) (hy : y < h) : y * strideOf w + x / 8 < strideOf w * h := by
  have h1 := col_lt_stride hx
  have h2 : (y + 1) * strideOf w ≤ h * strideOf w := Nat.mul_le_mul_right _ hy
  rw [Nat.mul_comm (strideOf w) h]
  have h3 : (y + 1) * strideOf w = y * strideOf w + strideOf w := by ring
  omega

theorem address_mod {x y w : Nat} (hx : x < w) : (y * strideOf w + x / 8) % strideOf w = x / 8 := by
  rw [Nat.mul_comm, Nat.mul_add_mod, Nat.mod_eq_of_lt (col_lt_stride hx)]

theorem address_div {x y w : Nat} (hx : x < w) : (y * strideOf w + x / 8) / strideOf w = y := by
  have h := col_lt_stride hx
  rw [Nat.mul_comm, Nat.mul_add_div (by omega), Nat.div_eq_of_lt h, Nat.add_zero]

/-- Two pixels have one byte address only if they are in one row and one group of eight. -/
theorem address_inj {x y x' y' w : Nat} (hx : x < w) (hx' : x' < w)
    (h : y * strideOf w + x / 8 = y' * strideOf w + x' / 8) : x / 8 = x' / 8 ∧ y = y' :=
  ⟨by rw [← address_mod (y := y) hx, h, address_mod hx'], by rw [← address_div (y := y) hx, h, address_div hx']⟩

/-! ### Layout -/

theorem layoutCells_get (w : Nat) (f : Nat → Nat → Bool) (n a k : Nat) :
    Store.get (layoutCells w f a n) k
      = if a ≤ k ∧ k < a + n ∧ layoutByte w f k ≠ 0 then some (layoutByte w f k) else none := by
  induction n generalizing a with
  | zero => rw [layoutCells, if_neg (by omega)]; rfl
  | succ n ih =>
    rw [layoutCells]
    split
    · rename_i h0
      rw [ih]
      by_cases hk : k = a
      · subst hk; rw [if_neg (by omega), if_neg (by simp [h0])]
      · have e : (a + 1 ≤ k ∧ k < a + 1 + n ∧ layoutByte w f k ≠ 0) ↔ (a ≤ k ∧ k < a + (n + 1) ∧ layoutByte w f k ≠ 0) := by
          constructor <;> (rintro ⟨h1, h2, h3⟩; exact ⟨by omega, by omega, h3⟩)
        simp only [e]
    · rename_i h0
      rw [Store.get_cons]
      by_cases hk : k = a
      · subst hk; rw [if_pos rfl, if_pos ⟨by omega, by omega, h0⟩]
      · rw [if_neg hk, ih]
        have e : (a + 1 ≤ k ∧ k < a + 1 + n ∧ layoutByte w f k ≠ 0) ↔ (a ≤ k ∧ k < a + (n + 1) ∧ layoutByte w f k ≠ 0) := by
          constructor <;> (rintro ⟨h1, h2, h3⟩; exact ⟨by omega, by omega, h3⟩)
        simp only [e]

theorem layoutCells_mem {w : Nat} {f : Nat → Nat → Bool} {n a : Nat} {p : Nat × Byte} (h : p ∈ layoutCells w f a n) :
    a ≤ p.1 ∧ p.1 < a + n ∧ p.2 = layoutByte w f p.1 ∧ p.2 ≠ 0 := by
  induction n generalizing a with
  | zero => simp [layoutCells] at h
  | succ n ih =>
    rw [layoutCells] at h
    split at h
    · have := ih h; exact ⟨by omega, by omega, this.2.2⟩
    · rename_i h0
      rcases List.mem_cons.mp h with rfl | h
      · exact ⟨Nat.le_refl _, by simp, rfl, h0⟩
      · have := ih h; exact ⟨by omega, by omega, this.2.2⟩

theorem layoutCells_sorted (w : Nat) (f : Nat → Nat → Bool) (n a : Nat) : Store.Sorted (layoutCells w f a n) := by
  induction n generalizing a with
  | zero => exact List.Pairwise.nil
  | succ n ih =>
    rw [layoutCells]
    split
    · exact ih _
    · refine List.Pairwise.cons (fun q hq => ?_) (ih _)
      have := layoutCells_mem hq; simp only; omega

theorem byte_tabulate (w h : Nat) (f : Nat → Nat → Bool) (a : Nat) :
    (Bitmap.tabulate w h f).byte a = if a < strideOf w * h then layoutByte w f a else 0 := by
  unfold Bitmap.byte Bitmap.tabulate Store.read
  simp only [layoutCells_get, Nat.zero_le, true_and, Nat.zero_add]
  by_cases h1 : a < strideOf w * h
  · rw [if_pos h1]
    by_cases h2 : layoutByte w f a = 0
    · rw [if_neg (fun h => h.2 h2), h2]; rfl
    · rw [if_pos ⟨h1, h2⟩]; rfl
  · simp [h1]

theorem getMsbD_layoutByte (w : Nat) (f : Nat → Nat → Bool) (a : Nat) {k : Nat} (h : k < 8) :
    (layoutByte w f a).getMsbD k
      = (decide (a % strideOf w * 8 + k < w) && f (a % strideOf w * 8 + k) (a / strideOf w)) := by
  rw [layoutByte, getMsbD_packByte _ h]

/-- Pixel `(x, y)` of a tabulated bitmap. -/
theorem pixel_tabulate {w h x y : Nat} (f : Nat → Nat → Bool) (hx : x < w) (hy : y < h) :
    (Bitmap.tabulate w h f).pixel x y = f x y := by
  unfold Bitmap.pixel Bitmap.stride
  rw [byte_tabulate]
  have e : (Bitmap.tabulate w h f).w = w := rfl
  rw [e, if_pos (row_address hx hy), getMsbD_layoutByte _ _ _ (by omega), address_mod hx, address_div hx]
  have e2 : x / 8 * 8 + x % 8 = x := by omega
  rw [e2]; simp [hx]

/-! ### `Get` (R252) -/

theorem inside_iff (bm : Bitmap) (x y : Int) : bm.inside x y = true ↔ 0 ≤ x ∧ x < bm.w ∧ 0 ≤ y ∧ y < bm.h := by
  simp [Bitmap.inside, and_assoc]

theorem get_outside {bm : Bitmap} {x y : Int} (h : ¬ (0 ≤ x ∧ x < bm.w ∧ 0 ≤ y ∧ y < bm.h)) : bm.get x y = false := by
  unfold Bitmap.get
  rw [← inside_iff] at h
  simp [h]

theorem get_inside {bm : Bitmap} {x y : Nat} (hx : x < bm.w) (hy : y < bm.h) : bm.get x y = bm.pixel x y := by
  unfold Bitmap.get
  have h : bm.inside (x : Int) (y : Int) = true := by rw [inside_iff]; omega
  simp [h]

theorem get_natural (bm : Bitmap) (x y : Nat) : bm.get x y = (decide (x < bm.w) && decide (y < bm.h) && bm.pixel x y) := by
  by_cases hx : x < bm.w
  · by_cases hy : y < bm.h
    · rw [get_inside hx hy]; simp [hx, hy]
    · rw [get_outside (by omega)]; simp [hy]
  · rw [get_outside (by omega)]; simp [hx]

/-- Pixel `(x, y)` of a tabulated bitmap, outside included (R252). -/
theorem get_tabulate (w h : Nat) (f : Nat → Nat → Bool) (x y : Int) :
    (Bitmap.tabulate w h f).get x y
      = (decide (0 ≤ x ∧ x < w ∧ 0 ≤ y ∧ y < h) && f x.toNat y.toNat) := by
  by_cases hi : 0 ≤ x ∧ x < w ∧ 0 ≤ y ∧ y < h
  · obtain ⟨x', rfl⟩ := Int.eq_ofNat_of_zero_le hi.1
    obtain ⟨y', rfl⟩ := Int.eq_ofNat_of_zero_le hi.2.2.1
    have hx : x' < w := by omega
    have hy : y' < h := by omega
    refine (get_inside (bm := Bitmap.tabulate w h f) hx hy).trans ?_
    rw [pixel_tabulate f hx hy]; simp [hx, hy]
  · rw [get_outside (bm := Bitmap.tabulate w h f) hi]; simp [hi]

theorem get_blank (w h : Nat) (x y : Int) : (Bitmap.blank w h).get x y = false := by
  unfold Bitmap.get Bitmap.pixel Bitmap.byte Bitmap.blank
  simp

/-! ### `Set` (R253) -/

@[simp] theorem Bitmap.set_w (bm : Bitmap) (x y : Int) (v : Bool) : (bm.set x y v).w = bm.w := by
  unfold Bitmap.set; split <;> rfl

@[simp] theorem Bitmap.set_h (bm : Bitmap) (x y : Int) (v : Bool) : (bm.set x y v).h = bm.h := by
  unfold Bitmap.set; split <;> rfl

theorem set_outside {bm : Bitmap} {x y : Int} (h : ¬ (0 ≤ x ∧ x < bm.w ∧ 0 ≤ y ∧ y < bm.h)) (v : Bool) :
    bm.set x y v = bm := by
  unfold Bitmap.set
  rw [← inside_iff] at h
  simp [h]

theorem byte_set {bm : Bitmap} {x y : Nat} (hx : x < bm.w) (hy : y < bm.h) (v : Bool) (a : Nat) :
    (bm.set x y v).byte a
      = if a = y * strideOf bm.w + x / 8 then putBit (bm.byte a) (x % 8) v else bm.byte a := by
  have h : bm.inside (x : Int) (y : Int) = true := by rw [inside_iff]; omega
  unfold Bitmap.set
  rw [if_pos h]
  simp only [Bitmap.byte, Bitmap.stride, Int.toNat_natCast]
  rw [Store.read_write]
  split
  · rename_i e; rw [e]
  · rfl

/-- `Set` changes exactly its pixel, or none (R253). -/
theorem get_set (bm : Bitmap) (x y : Int) (v : Bool) (x' y' : Int) :
    (bm.set x y v).get x' y'
      = if x' = x ∧ y' = y ∧ 0 ≤ x ∧ x < bm.w ∧ 0 ≤ y ∧ y < bm.h then v else bm.get x' y' := by
  by_cases hi : 0 ≤ x ∧ x < bm.w ∧ 0 ≤ y ∧ y < bm.h
  · obtain ⟨a, rfl⟩ := Int.eq_ofNat_of_zero_le hi.1
    obtain ⟨b, rfl⟩ := Int.eq_ofNat_of_zero_le hi.2.2.1
    have hx : a < bm.w := by omega
    have hy : b < bm.h := by omega
    by_cases hi' : 0 ≤ x' ∧ x' < bm.w ∧ 0 ≤ y' ∧ y' < bm.h
    · obtain ⟨a', rfl⟩ := Int.eq_ofNat_of_zero_le hi'.1
      obtain ⟨b', rfl⟩ := Int.eq_ofNat_of_zero_le hi'.2.2.1
      have hx' : a' < bm.w := by omega
      have hy' : b' < bm.h := by omega
      rw [get_inside (bm := bm.set a b v) (by simpa using hx') (by simpa using hy'), get_inside hx' hy']
      unfold Bitmap.pixel Bitmap.stride
      rw [Bitmap.set_w, byte_set hx hy]
      by_cases ha : b' * strideOf bm.w + a' / 8 = b * strideOf bm.w + a / 8
      · rw [if_pos ha, getMsbD_putBit _ _ _ (by omega)]
        have e := address_inj hx' hx ha
        by_cases hk : a' % 8 = a % 8
        · rw [if_pos hk, if_pos]
          have : a' = a := by omega
          subst this
          refine ⟨rfl, by rw [e.2], hi⟩
        · rw [if_neg hk, if_neg]
          rintro ⟨h1, -⟩
          apply hk
          have : a' = a := by omega
          rw [this]
      · rw [if_neg ha, if_neg]
        rintro ⟨h1, h2, -⟩
        apply ha
        have e1 : a' = a := by omega
        have e2 : b' = b := by omega
        rw [e1, e2]
    · rw [get_outside (bm := bm.set a b v) (by simpa using hi'), get_outside hi', if_neg]
      rintro ⟨rfl, rfl, h⟩
      exact hi' h
  · rw [set_outside hi, if_neg]
    rintro ⟨-, -, h⟩
    exact hi h

/-! ### The other pixel operations -/

theorem get_copyLine (bm : Bitmap) (d r x y : Int) :
    (bm.copyLine d r).get x y = if y = d ∧ 0 ≤ x ∧ x < bm.w ∧ 0 ≤ d ∧ d < bm.h then bm.get x r else bm.get x y := by
  unfold Bitmap.copyLine
  split
  · rename_i hd
    rw [get_tabulate]
    by_cases hi : 0 ≤ x ∧ x < bm.w ∧ 0 ≤ y ∧ y < bm.h
    · obtain ⟨a, rfl⟩ := Int.eq_ofNat_of_zero_le hi.1
      obtain ⟨b, rfl⟩ := Int.eq_ofNat_of_zero_le hi.2.2.1
      have hb : b < bm.h := by omega
      have ha : a < bm.w := by omega
      rw [decide_eq_true hi, Bool.true_and]
      simp only [Int.toNat_natCast]
      by_cases e : (b : Int) = d
      · rw [if_pos e, if_pos ⟨e, hi.1, hi.2.1, hd⟩]
      · rw [if_neg e, if_neg (fun h => e h.1), get_inside ha hb]
    · rw [decide_eq_false hi, Bool.false_and, get_outside hi, if_neg]
      rintro ⟨rfl, h1, h2, h3⟩
      exact hi ⟨h1, h2, h3⟩
  · rename_i hd
    rw [if_neg]
    rintro ⟨-, -, -, h⟩
    exact hd h

@[simp] theorem Bitmap.copyLine_w (bm : Bitmap) (d r : Int) : (bm.copyLine d r).w = bm.w := by
  unfold Bitmap.copyLine; split <;> rfl

@[simp] theorem Bitmap.copyLine_h (bm : Bitmap) (d r : Int) : (bm.copyLine d r).h = bm.h := by
  unfold Bitmap.copyLine; split <;> rfl

theorem get_compose (dst src : Bitmap) (x y : Int) (q : Clip) (cop : CombOp) (dx dy : Int) :
    (dst.compose src x y q cop).get dx dy
      = (decide (0 ≤ dx ∧ dx < dst.w ∧ 0 ≤ dy ∧ dy < dst.h) &&
          if q.covers (dx - x + q.rx) (dy - y + q.ry) then
            combine cop (dst.get dx dy) (src.get (dx - x + q.rx) (dy - y + q.ry))
          else dst.get dx dy) := by
  unfold Bitmap.compose
  rw [get_tabulate]
  by_cases hi : 0 ≤ dx ∧ dx < dst.w ∧ 0 ≤ dy ∧ dy < dst.h
  · obtain ⟨a, rfl⟩ := Int.eq_ofNat_of_zero_le hi.1
    obtain ⟨b, rfl⟩ := Int.eq_ofNat_of_zero_le hi.2.2.1
    rw [decide_eq_true hi, Bool.true_and, Bool.true_and]
    simp only [Int.toNat_natCast]
    rw [get_inside (bm := dst) (x := a) (y := b) (by omega) (by omega)]
  · rw [decide_eq_false hi, Bool.false_and, Bool.false_and]

theorem covers_iff (q : Clip) (sx sy : Int) :
    q.covers sx sy = true ↔ q.sx0 ≤ sx ∧ sx < q.sx1 ∧ q.sy0 ≤ sy ∧ sy < q.sy1 := by
  simp [Clip.covers, and_assoc]

/-! ### The host's access (R64, R65) -/

theorem getMsbD_padMask (bm : Bitmap) (a : Nat) {k : Nat} (h : k < 8) :
    (bm.padMask a).getMsbD k = decide (bm.w ≤ a % strideOf bm.w * 8 + k) := by
  rw [Bitmap.padMask, getMsbD_packByte _ h]; rfl

theorem byte_hostWrite {bm : Bitmap} {a : Nat} (h : a < bm.size) (b : Byte) (a' : Nat) :
    (bm.hostWrite a b).byte a' = if a' = a then b &&& ~~~bm.padMask a else bm.byte a' := by
  unfold Bitmap.hostWrite
  rw [if_pos h]
  simp only [Bitmap.byte]
  rw [Store.read_write]

@[simp] theorem Bitmap.hostWrite_w (bm : Bitmap) (a : Nat) (b : Byte) : (bm.hostWrite a b).w = bm.w := by
  unfold Bitmap.hostWrite; split <;> rfl

@[simp] theorem Bitmap.hostWrite_h (bm : Bitmap) (a : Nat) (b : Byte) : (bm.hostWrite a b).h = bm.h := by
  unfold Bitmap.hostWrite; split <;> rfl

theorem pixel_hostWrite {bm : Bitmap} {a : Nat} (h : a < bm.size) (b : Byte) {x y : Nat} (hx : x < bm.w) :
    (bm.hostWrite a b).pixel x y
      = if y * strideOf bm.w + x / 8 = a then b.getMsbD (x % 8) else bm.pixel x y := by
  unfold Bitmap.pixel Bitmap.stride
  rw [Bitmap.hostWrite_w, byte_hostWrite h]
  split
  · rename_i e
    rw [BitVec.getMsbD_and, BitVec.getMsbD_not, getMsbD_padMask _ _ (by omega), ← e, address_mod hx]
    have e2 : x / 8 * 8 + x % 8 = x := by omega
    rw [e2]
    have h8 : x % 8 < 8 := by omega
    have hn : ¬ bm.w ≤ x := by omega
    simp [h8, hn]
  · rfl

/-! ### The canonical form -/

theorem wf_blank (w h : Nat) : (Bitmap.blank w h).wf := by
  refine ⟨⟨List.Pairwise.nil, ?_⟩, ?_⟩ <;> simp [Bitmap.blank]

theorem layoutByte_pad (w h : Nat) (f : Nat → Nat → Bool) (a : Nat) :
    layoutByte w f a &&& (Bitmap.tabulate w h f).padMask a = 0 := by
  apply byte_ext
  intro k hk
  rw [BitVec.getMsbD_and, getMsbD_layoutByte _ _ _ hk, getMsbD_padMask _ _ hk]
  have e : (Bitmap.tabulate w h f).w = w := rfl
  rw [e]
  by_cases hw : a % strideOf w * 8 + k < w
  · have : ¬ w ≤ a % strideOf w * 8 + k := by omega
    simp [this]
  · simp [hw]

theorem wf_tabulate (w h : Nat) (f : Nat → Nat → Bool) : (Bitmap.tabulate w h f).wf := by
  refine ⟨⟨layoutCells_sorted _ _ _ _, fun p hp => (layoutCells_mem hp).2.2.2⟩, fun p hp => ?_⟩
  have := layoutCells_mem hp
  refine ⟨by simpa [Bitmap.size, Bitmap.stride, Bitmap.tabulate] using this.2.1, ?_⟩
  rw [this.2.2.1]
  exact layoutByte_pad w h f p.1

theorem wf_hostWrite {bm : Bitmap} (hw : bm.wf) (a : Nat) (b : Byte) : (bm.hostWrite a b).wf := by
  unfold Bitmap.hostWrite
  split
  · rename_i h
    refine ⟨Store.canonical_write hw.1 _ _, fun p hp => ?_⟩
    rcases Store.mem_write hp with ⟨rfl, -⟩ | hp
    · refine ⟨h, ?_⟩
      exact and_not_and b (bm.padMask a)
    · exact hw.2 p hp
  · exact hw

/-- A listed byte of a bitmap in canonical form has no padding bit set, and so has every other. -/
theorem byte_pad {bm : Bitmap} (hw : bm.wf) (a : Nat) : bm.byte a &&& bm.padMask a = 0 := by
  unfold Bitmap.byte Store.read
  cases hg : Store.get bm.cells a with
  | none => simp
  | some v => exact (hw.2 _ (Store.mem_of_get hg)).2

theorem wf_set {bm : Bitmap} (hw : bm.wf) (x y : Int) (v : Bool) : (bm.set x y v).wf := by
  by_cases hi : 0 ≤ x ∧ x < bm.w ∧ 0 ≤ y ∧ y < bm.h
  · obtain ⟨a, rfl⟩ := Int.eq_ofNat_of_zero_le hi.1
    obtain ⟨b, rfl⟩ := Int.eq_ofNat_of_zero_le hi.2.2.1
    have hx : a < bm.w := by omega
    have hy : b < bm.h := by omega
    have h : bm.inside (a : Int) (b : Int) = true := by rw [inside_iff]; exact hi
    unfold Bitmap.set
    rw [if_pos h]
    simp only [Int.toNat_natCast]
    refine ⟨Store.canonical_write hw.1 _ _, fun p hp => ?_⟩
    rcases Store.mem_write hp with ⟨rfl, -⟩ | hp
    · refine ⟨row_address hx hy, ?_⟩
      apply byte_ext
      intro k hk
      have hb := congrArg (fun z => BitVec.getMsbD z k) (byte_pad hw (b * bm.stride + a / 8))
      simp only [BitVec.getMsbD_and] at hb
      rw [getMsbD_padMask _ _ hk] at hb
      rw [BitVec.getMsbD_and]
      refine Eq.trans (b := ((if k = a % 8 then v else (bm.byte (b * bm.stride + a / 8)).getMsbD k)
        && decide (bm.w ≤ (b * strideOf bm.w + a / 8) % strideOf bm.w * 8 + k))) ?_ ?_
      · rw [getMsbD_putBit _ _ _ hk]
        congr 1
        exact getMsbD_padMask _ _ hk
      · split
        · rename_i e
          rw [address_mod hx, e]
          have e2 : a / 8 * 8 + a % 8 = a := by omega
          have hn : ¬ bm.w ≤ a := by omega
          simp [e2, hn]
        · exact hb
    · exact hw.2 p hp
  · rw [set_outside hi]; exact hw

theorem wf_copyLine {bm : Bitmap} (hw : bm.wf) (d r : Int) : (bm.copyLine d r).wf := by
  unfold Bitmap.copyLine
  split
  · exact wf_tabulate _ _ _
  · exact hw

end Sys2Proof.Machine
end

