-- ==== Sys2Proof/Laws/Command.lean ====
section
/-! SUPPORT. What `command` can do, once (R14, R394): it is cited instead of unfolding it. -/

namespace Sys2Proof.Machine

theorem command_faulted {i : Instr} {s : State} (b : Result) (h : s.core = .faulted) : command i s b = .next s := by
  simp [command, h]

theorem command_ready {i : Instr} {s : State} (b : Result) (h : s.Ready i) : command i s b = b.finish (encode i) := by
  simp [command, h.1, h.2]

theorem command_done {i : Instr} {s : State} (t : State) (h : s.Ready i) : command i s (.done t) = .next t := by
  rw [command_ready _ h]; rfl

theorem command_raise {i : Instr} {s : State} (f : FaultCode) (t : State) (h : s.Ready i) :
    command i s (.raise f t) = .next (t.takeFault f (encode i)) := by
  rw [command_ready _ h]; rfl

theorem command_illegal {i : Instr} {s : State} (b : Result) (h : s.core = .idle) (hw : wellFormed s.cfg i = false) :
    command i s b = .next (s.takeFault .illegalCommand (encode i)) := by
  simp [command, h, hw]

theorem Result.finish_next (w : Word) (b : Result) : ∃ t, b.finish w = .next t := by
  cases b <;> exact ⟨_, rfl⟩

theorem command_next (i : Instr) (s : State) (b : Result) : ∃ t, command i s b = .next t := by
  unfold command
  split
  · exact ⟨_, rfl⟩
  · split
    · exact b.finish_next _
    · exact ⟨_, rfl⟩

/-- Everything a command can end in: nothing while Faulted, IllegalCommand, its operation's end, or the raise of its body. -/
theorem command_cases {i : Instr} {s t : State} {b : Result} (h : command i s b = .next t) :
    (s.core = .faulted ∧ t = s)
      ∨ (s.core = .idle ∧ wellFormed s.cfg i = false ∧ t = s.takeFault .illegalCommand (encode i))
      ∨ (s.Ready i ∧ b = .done t)
      ∨ (s.Ready i ∧ ∃ f u, b = .raise f u ∧ t = u.takeFault f (encode i)) := by
  unfold command at h
  split at h
  · rename_i hc; exact .inl ⟨hc, by cases h; rfl⟩
  · rename_i hc
    split at h
    · rename_i hw
      cases b with
      | done u => cases h; exact .inr (.inr (.inl ⟨⟨hc, hw⟩, rfl⟩))
      | raise f u => cases h; exact .inr (.inr (.inr ⟨⟨hc, hw⟩, f, u, rfl, rfl⟩))
    · rename_i hw
      cases h
      exact .inr (.inl ⟨hc, by simpa using hw, rfl⟩)

end Sys2Proof.Machine
end

