-- ==== Sys2Proof/Laws/Decode.lean ====
section
/-! SUPPORT. The four fields of a word as numbers, and what a field of an assembled word reads as. -/

namespace Sys2Proof

/-- Concatenation as a number. -/
theorem toNat_concat {n m : Nat} (x : BitVec n) (y : BitVec m) : (x ++ y).toNat = x.toNat * 2 ^ m + y.toNat := by
  rw [BitVec.toNat_append, Nat.shiftLeft_eq, Nat.mul_comm, ← Nat.two_pow_add_eq_or_of_lt y.isLt]

/-- An extracted field as a number. -/
theorem toNat_field {n : Nat} (x : BitVec n) (lo len : Nat) : (x.extractLsb' lo len).toNat = x.toNat / 2 ^ lo % 2 ^ len := by
  rw [BitVec.extractLsb'_toNat, Nat.shiftRight_eq_div_pow]

theorem toNat_fieldOp (w : Word) : (fieldOp w).toNat = w.toNat / 2 ^ 24 := by
  have := w.isLt
  rw [fieldOp, toNat_field]; omega

theorem toNat_fieldA (w : Word) : (fieldA w).toNat = w.toNat / 2 ^ 16 % 256 := toNat_field w 16 8

theorem toNat_fieldB (w : Word) : (fieldB w).toNat = w.toNat / 2 ^ 8 % 256 := toNat_field w 8 8

theorem toNat_fieldC (w : Word) : (fieldC w).toNat = w.toNat % 256 := by
  rw [fieldC, toNat_field]; simp

theorem toNat_assemble (op a b c : Byte) :
    (assemble op a b c).toNat = op.toNat * 2 ^ 24 + a.toNat * 2 ^ 16 + b.toNat * 2 ^ 8 + c.toNat := by
  rw [assemble, toNat_concat, toNat_concat, toNat_concat]
  ring

@[simp] theorem fieldOp_assemble (op a b c : Byte) : fieldOp (assemble op a b c) = op := by
  have := op.isLt; have := a.isLt; have := b.isLt; have := c.isLt
  apply BitVec.eq_of_toNat_eq; rw [toNat_fieldOp, toNat_assemble]; omega

@[simp] theorem fieldA_assemble (op a b c : Byte) : fieldA (assemble op a b c) = a := by
  have := op.isLt; have := a.isLt; have := b.isLt; have := c.isLt
  apply BitVec.eq_of_toNat_eq; rw [toNat_fieldA, toNat_assemble]; omega

@[simp] theorem fieldB_assemble (op a b c : Byte) : fieldB (assemble op a b c) = b := by
  have := op.isLt; have := a.isLt; have := b.isLt; have := c.isLt
  apply BitVec.eq_of_toNat_eq; rw [toNat_fieldB, toNat_assemble]; omega

@[simp] theorem fieldC_assemble (op a b c : Byte) : fieldC (assemble op a b c) = c := by
  have := op.isLt; have := a.isLt; have := b.isLt; have := c.isLt
  apply BitVec.eq_of_toNat_eq; rw [toNat_fieldC, toNat_assemble]; omega

/-- A word is its four fields. -/
theorem assemble_fields (w : Word) : assemble (fieldOp w) (fieldA w) (fieldB w) (fieldC w) = w := by
  have := w.isLt
  apply BitVec.eq_of_toNat_eq
  rw [toNat_assemble, toNat_fieldOp, toNat_fieldA, toNat_fieldB, toNat_fieldC]; omega

end Sys2Proof
end

