-- ==== Sys2Proof/Laws/Exec.lean ====
section
/-! SUPPORT. What every command can do, once: `exec_cases` lists the ways `exec` answers a next state, so that no later proof
unfolds a meaning. `Completes` gives the state a command completes in, `Fails` the state a fault during its operation finds. -/

namespace Sys2Proof.Machine

/-- The state a row loop that ended as `l` leaves (R307). -/
def grdAfter (s : State) (l : GrdLoop) : State :=
  { ((s.putCoder l.region.coder).putBank .gb ⟨s.gbBank.valid, l.region.entries⟩).putBitmap s.gb.dst l.region.bm with
    grd := ⟨l.st, BitVec.ofNat 32 l.row, l.region.ltp⟩
    pause := l.pause
    host := { s.host with pauseFeed := l.feed } }

theorem finishGrd_eq (s : State) (l : GrdLoop) :
    finishGrd s l = if l.st = .error then .raise .arithmeticStreamComplete (grdAfter s l) else .done (grdAfter s l) := rfl

/-- The row loop a generic-region command runs (R307). -/
def grdRun (s : State) (skip : SkipSource) (bm : Bitmap) (row : Nat) (ltp : Bool) : GrdLoop :=
  rowLoop (grdEnv s skip) (s.gb.h.toNat - row)
    ⟨⟨s.coder, s.gbBank.entries, bm, ltp⟩, row, .decoding, s.pause, s.host.pauseFeed⟩

theorem runGrd_eq (s : State) (skip : SkipSource) (bm : Bitmap) (row : Nat) (ltp : Bool) :
    runGrd s skip bm row ltp = finishGrd s (grdRun s skip bm row ltp) := rfl

/-- What `GRD.START` has checked, with the skip source it reads (R304). -/
structure StartChecked (s : State) (skip : SkipSource) : Prop where
  state : s.grd.st ≠ .decoding
  mq : s.mq.valid = true
  bank : s.gbBank.valid = true
  width : s.gb.w ≠ 0
  height : s.gb.h ≠ 0
  dst : s.gb.dst < s.cfg.nbm
  fits : tooLarge s.cfg s.gb.w.toNat s.gb.h.toNat = false
  skip : (s.gb.useSkip = false ∧ skip = .unused)
    ∨ (s.gb.useSkip = true ∧ s.gb.skip < s.cfg.nbm ∧ s.gb.skip ≠ s.gb.dst ∧ ∃ k, s.bitmap s.gb.skip = some k ∧ skip = .slot k)

/-- What `GRD.CONT` has checked, with the destination and the skip source (R305). -/
structure ContChecked (s : State) (bm : Bitmap) (skip : SkipSource) : Prop where
  state : s.grd.st = .decoding
  mq : s.mq.valid = true
  bank : s.gbBank.valid = true
  dst : s.bitmap s.gb.dst = some bm
  width : bm.w = s.gb.w.toNat
  height : bm.h = s.gb.h.toNat
  skip : (s.gb.useSkip = false ∧ skip = .unused)
    ∨ (s.gb.useSkip = true ∧ ∃ k, s.bitmap s.gb.skip = some k
      ∧ skip = if s.gb.skip = s.gb.dst then .destination else .slot k)

/-- What `GRR.DECODE` has checked, with the reference (R353). -/
structure RefineChecked (s : State) (ref : Bitmap) : Prop where
  mq : s.mq.valid = true
  bank : s.grBank.valid = true
  width : s.gr.w ≠ 0
  height : s.gr.h ≠ 0
  dst : s.gr.dst < s.cfg.nbm
  refSlot : s.gr.ref < s.cfg.nbm
  differ : s.gr.ref ≠ s.gr.dst
  valid : s.bitmap s.gr.ref = some ref
  fits : tooLarge s.cfg s.gr.w.toNat s.gr.h.toNat = false

/-- The region a refinement decode starts from (R353). -/
def grrStart (s : State) : Region := ⟨s.coder, s.grBank.entries, Bitmap.blank s.gr.w.toNat s.gr.h.toNat, false⟩

/-- The state a byte-granular read of `n` bytes at a byte boundary completes in (R124 to R126). -/
def wholeRead (s : State) (n : Nat) : State :=
  if n ≤ s.bytesLeft then
    ((s.setCursor ⟨s.cur.byteIdx + BitVec.ofNat 32 n, 0⟩).dropMq).giveResult
      (BitVec.ofNat 32 (bigEndian s.span s.cur.byteIdx.toNat n))
  else s.dropMq.setResult 0 false true

/-- `t` is where the command completes, started in `s`. -/
inductive Completes (s : State) : Instr → State → Prop where
  | sysNop : Completes s .sysNop s
  | sysClrf : Completes s .sysClrf s.clearFault
  | sysReset : Completes s .sysReset s.softReset
  | brSeek (h : s.cur.bitIdx = 0) :
    Completes s .brSeek (s.setCursor ⟨BitVec.ofNat 32 (min s.arg0.toNat s.len), 0⟩).dropMq
  | brSkip (h : s.cur.bitIdx = 0) :
    Completes s .brSkip (s.setCursor ⟨BitVec.ofNat 32 (min (s.cur.byteIdx.toNat + s.arg0.toNat) s.len), 0⟩).dropMq
  | brAlign : Completes s .brAlign (if s.cur.bitIdx ≠ 0 then s.setCursor ⟨s.cur.byteIdx + 1, 0⟩ else s).dropMq
  | brReadBits (n : Byte) :
    Completes s (.brReadBits n) ((s.setCursor (readBits s.span s.cur n.toNat).cur).dropMq.setResult
      (BitVec.ofNat 32 (readBits s.span s.cur n.toNat).value) false (readBits s.span s.cur n.toNat).boundary)
  | brReadByte (h : s.cur.bitIdx = 0) : Completes s .brReadByte (wholeRead s 1)
  | brReadU16 (h : s.cur.bitIdx = 0) : Completes s .brReadU16 (wholeRead s 2)
  | brReadU32 (h : s.cur.bitIdx = 0) : Completes s .brReadU32 (wholeRead s 4)
  | brRemain : Completes s .brRemain (s.giveResult (BitVec.ofNat 32 s.bytesLeft))
  | mqInit (h : s.cur.bitIdx = 0) :
    Completes s .mqInit { s.putCoder (initDec s.span s.coder) with
      mq := { (s.putCoder (initDec s.span s.coder)).mq with valid := true } }
  | mqDecode (k : Bank) (hv : s.mq.valid = true) (hb : (s.bank k).valid = true) (hi : s.arg0.toNat < bankSize k)
    (hc : s.mq.complete = false) (d : Decision)
    (hd : d = decodeBit s.span (readCtx (s.bank k).entries s.arg0.toNat) s.coder) :
    Completes s (.mqDecode k) (((s.putCoder d.coder).putBank k
      ⟨(s.bank k).valid, writeCtx (s.bank k).entries s.arg0.toNat d.ctx⟩).giveResult (bitWord d.bit))
  | cxClear (k : Bank) : Completes s (.cxClear k) (s.putBank k ⟨true, []⟩)
  | cxRd (k : Bank) (hb : (s.bank k).valid = true) (hi : s.arg0.toNat < bankSize k) :
    Completes s (.cxRd k) (s.giveResult (readCtx (s.bank k).entries s.arg0.toNat).packed)
  | cxWr (k : Bank) (hb : (s.bank k).valid = true) (hi : s.arg0.toNat < bankSize k) (x : Ctx)
    (hx : unpackCtx s.arg1 = some x) :
    Completes s (.cxWr k) (s.putBank k ⟨(s.bank k).valid, writeCtx (s.bank k).entries s.arg0.toNat x⟩)
  | htParse (id : Byte) (h : s.cur.bitIdx = 0) (table : HTable) (c : Cursor)
    (hp : parseTable s.span s.cfg.htMaxRows s.cur = .ok table c) :
    Completes s (.htParse id) ((((s.dropTable id.toNat).dropMq).setCursor c).putTable id.toNat table)
  | htValue (id : Byte) (table : HTable) (ht : s.table id.toNat = some table) (v : Word) (c : Cursor)
    (hd : decodeValue s.span table s.cur = .ok (some v) c) :
    Completes s (.htDecode id) ((s.setCursor c).dropMq.giveResult v)
  | htOob (id : Byte) (table : HTable) (ht : s.table id.toNat = some table) (c : Cursor)
    (hd : decodeValue s.span table s.cur = .ok none c) :
    Completes s (.htDecode id) ((s.setCursor c).dropMq.setResult 0 true false)
  | htInfo (id : Byte) (v : Word)
    (hv : v = match s.table id.toNat with
      | none => 0
      | some t => BitVec.ofNat 32 (t.rows.length + t.oob.toNat * 2 ^ 16 + 2 ^ 31)) : Completes s (.htInfo id) (s.giveResult v)
  | htRow (id : Byte) (sel : RowSel) (t : HTable) (ht : s.table id.toNat = some t) (r : HtRow)
    (hr : t.rows[s.arg0.toNat]? = some r) : Completes s (.htRow id sel) (s.giveResult (rowField sel r))
  | bmAlloc (slot : Byte) (hw : s.arg0 ≠ 0) (hh : s.arg1 ≠ 0) (hf : tooLarge s.cfg s.arg0.toNat s.arg1.toNat = false) :
    Completes s (.bmAlloc slot) (s.putBitmap slot.toNat (Bitmap.blank s.arg0.toNat s.arg1.toNat))
  | bmFree (slot : Byte) : Completes s (.bmFree slot) (s.freeBitmap slot.toNat)
  | bmFill (slot : Byte) (v : Bool) (bm : Bitmap) (hb : s.bitmap slot.toNat = some bm) :
    Completes s (.bmFill slot v) (s.putBitmap slot.toNat (Bitmap.tabulate bm.w bm.h fun _ _ => v))
  | bmGet (slot : Byte) (bm : Bitmap) (hb : s.bitmap slot.toNat = some bm) :
    Completes s (.bmGet slot) (s.giveResult (bitWord (bm.get s.arg0.toInt s.arg1.toInt)))
  | bmSet (slot : Byte) (v : Bool) (bm : Bitmap) (hb : s.bitmap slot.toNat = some bm) :
    Completes s (.bmSet slot v) (s.putBitmap slot.toNat (bm.set s.arg0.toInt s.arg1.toInt v))
  | bmCopyLine (slot : Byte) (bm : Bitmap) (hb : s.bitmap slot.toNat = some bm) :
    Completes s (.bmCopyLine slot) (s.putBitmap slot.toNat (bm.copyLine s.arg0.toInt s.arg1.toInt))
  | bmCompose (dst src : Byte) (cop : CombOp) (clip : Bool) (d b : Bitmap) (hd : s.bitmap dst.toNat = some d)
    (hb : s.bitmap src.toNat = some b) :
    Completes s (.bmCompose dst src cop clip) (s.putBitmap dst.toNat
      (d.compose b s.arg0.toInt s.arg1.toInt (composeRect clip s.rect b.w b.h) cop))
  | bmKeep (slot : Byte) (v : Bool) (bm : Bitmap) (hb : s.bitmap slot.toNat = some bm) (hh : s.arg0.toNat ≤ bm.h) :
    Completes s (.bmExpand slot v) s
  | bmGrow (slot : Byte) (v : Bool) (bm : Bitmap) (hb : s.bitmap slot.toNat = some bm) (hh : bm.h < s.arg0.toNat)
    (h1 : s.arg0.toNat ≤ s.cfg.bmMaxH) (h2 : bm.stride * s.arg0.toNat ≤ s.cfg.bmMaxBytes) :
    Completes s (.bmExpand slot v) (s.putBitmap slot.toNat
      (Bitmap.tabulate bm.w s.arg0.toNat fun x y => if y < bm.h then bm.pixel x y else v))
  | bmSubImage (dst src : Byte) (b : Bitmap) (hb : s.bitmap src.toNat = some b) (hw : s.rect.w ≠ 0) (hh : s.rect.h ≠ 0)
    (hf : tooLarge s.cfg s.rect.w.toNat s.rect.h.toNat = false) :
    Completes s (.bmSubImage dst src) (s.putBitmap dst.toNat
      (Bitmap.tabulate s.rect.w.toNat s.rect.h.toNat fun i j => b.get (s.rect.x.toInt + i) (s.rect.y.toInt + j)))
  | bmInfo (slot : Byte) (sel : InfoSel) : Completes s (.bmInfo slot sel) (s.giveResult (slotField sel (s.bitmap slot.toNat)))
  | grdStart (skip : SkipSource) (hc : StartChecked s skip) (l : GrdLoop)
    (hl : l = grdRun s skip (Bitmap.blank s.gb.w.toNat s.gb.h.toNat) 0 false) (he : l.st ≠ .error) :
    Completes s .grdStart (grdAfter s l)
  | grdCont (bm : Bitmap) (skip : SkipSource) (hc : ContChecked s bm skip) (l : GrdLoop)
    (hl : l = grdRun s skip bm s.grd.row.toNat s.grd.ltp) (he : l.st ≠ .error) : Completes s .grdCont (grdAfter s l)
  | grdAbort : Completes s .grdAbort (s.setGrd ⟨.ready, 0, false⟩)
  | grrDecode (ref : Bitmap) (hc : RefineChecked s ref) (r : Region) (hr : grrRows (grrEnv s ref) (grrStart s) = .ok r) :
    Completes s .grrDecode (putGrr s r)

/-- The operation of the command, started in `s`, raises `f`, having made `u` up to there (R393). -/
inductive Fails (s : State) : Instr → FaultCode → State → Prop where
  | htParse (id : Byte) (h : s.cur.bitIdx = 0) (f : FaultCode) (c : Cursor)
    (hp : parseTable s.span s.cfg.htMaxRows s.cur = .raise f c) :
    Fails s (.htParse id) f (((s.dropTable id.toNat).dropMq).setCursor c)
  | htDecode (id : Byte) (table : HTable) (ht : s.table id.toNat = some table) (f : FaultCode) (c : Cursor)
    (hd : decodeValue s.span table s.cur = .raise f c) : Fails s (.htDecode id) f (s.setCursor c).dropMq
  | grdStart (skip : SkipSource) (hc : StartChecked s skip) (l : GrdLoop)
    (hl : l = grdRun s skip (Bitmap.blank s.gb.w.toNat s.gb.h.toNat) 0 false) (he : l.st = .error) :
    Fails s .grdStart .arithmeticStreamComplete (grdAfter s l)
  | grdCont (bm : Bitmap) (skip : SkipSource) (hc : ContChecked s bm skip) (l : GrdLoop)
    (hl : l = grdRun s skip bm s.grd.row.toNat s.grd.ltp) (he : l.st = .error) :
    Fails s .grdCont .arithmeticStreamComplete (grdAfter s l)
  | grrDecode (ref : Bitmap) (hc : RefineChecked s ref) (r : Region) (hr : grrRows (grrEnv s ref) (grrStart s) = .error r) :
    Fails s .grrDecode .arithmeticStreamComplete (putGrr s r)

/-- How the body of a command can end. -/
def Result.OneOf (s : State) (i : Instr) (checks : List FaultCode) : Result → Prop
  | .done t => Completes s i t
  | .raise f u => (f ∈ checks ∧ u = s) ∨ Fails s i f u

variable {s : State} {i : Instr} {checks : List FaultCode}

theorem Result.oneOf_check {f : FaultCode} (h : f ∈ checks) : Result.OneOf s i checks (.raise f s) := .inl ⟨h, rfl⟩

theorem withBitmap_oneOf {slot : Nat} {g : Bitmap → Result} (hc : FaultCode.badState ∈ checks)
    (hg : ∀ bm, s.bitmap slot = some bm → (g bm).OneOf s i checks) : (withBitmap s slot g).OneOf s i checks := by
  unfold withBitmap
  split
  · exact Result.oneOf_check hc
  · exact hg _ ‹_›

theorem withSkip_oneOf {g : SkipSource → Result} (hc : FaultCode.badState ∈ checks)
    (h0 : s.gb.useSkip = false → (g .unused).OneOf s i checks)
    (h1 : ∀ k, s.gb.useSkip = true → s.bitmap s.gb.skip = some k →
      (g (if s.gb.skip = s.gb.dst then .destination else .slot k)).OneOf s i checks) : (withSkip s g).OneOf s i checks := by
  unfold withSkip
  split
  · split
    · exact Result.oneOf_check hc
    · exact h1 _ ‹_› ‹_›
  · exact h0 (by simpa using ‹¬ s.gb.useSkip = true›)

theorem readWhole_oneOf (n : Nat) (hc : FaultCode.misaligned ∈ checks)
    (h : s.cur.bitIdx = 0 → Completes s i (wholeRead s n)) : (readWhole n s).OneOf s i checks := by
  unfold readWhole
  split
  · exact Result.oneOf_check hc
  · have := h (by simpa using ‹¬ s.cur.bitIdx ≠ 0›)
    unfold wholeRead at this
    split
    · rwa [if_pos ‹_›] at this
    · rwa [if_neg ‹_›] at this

theorem word_ne_zero {w : Word} (h : w.toNat ≠ 0) : w ≠ 0 := fun e => h (by simp [e])

/-- The body of a command, taken apart by its checks. -/
theorem command_oneOf {s t : State} {i : Instr} {checks : List FaultCode} {b : Result} (h : command i s b = .next t)
    (hb : b.OneOf s i checks) :
    (s.core = .faulted ∧ t = s)
      ∨ (s.core = .idle ∧ ∃ f, (f = .illegalCommand ∨ f ∈ checks) ∧ t = s.takeFault f (encode i))
      ∨ (s.Ready i ∧ Completes s i t)
      ∨ (s.Ready i ∧ ∃ f u, Fails s i f u ∧ t = u.takeFault f (encode i)) := by
  rcases command_cases h with h | ⟨h1, -, h2⟩ | ⟨h1, rfl⟩ | ⟨h1, f, u, rfl, rfl⟩
  · exact .inl h
  · exact .inr (.inl ⟨h1, _, .inl rfl, h2⟩)
  · exact .inr (.inr (.inl ⟨h1, hb⟩))
  · rcases hb with ⟨hf, rfl⟩ | hf
    · exact .inr (.inl ⟨h1.1, _, .inr hf, rfl⟩)
    · exact .inr (.inr (.inr ⟨h1, f, u, hf, rfl⟩))

/-! ### The bodies, family by family -/

theorem seekTo_oneOf (n : Nat) (hc : FaultCode.misaligned ∈ checks)
    (h : s.cur.bitIdx = 0 → Completes s i (s.setCursor ⟨BitVec.ofNat 32 (min n s.len), 0⟩).dropMq) :
    (seekTo n s).OneOf s i checks := by
  unfold seekTo
  split
  · exact Result.oneOf_check hc
  · exact h (by simpa using ‹¬ s.cur.bitIdx ≠ 0›)

theorem finishGrd_oneOf {l : GrdLoop} (h0 : l.st ≠ .error → Completes s i (grdAfter s l))
    (h1 : l.st = .error → Fails s i .arithmeticStreamComplete (grdAfter s l)) : (finishGrd s l).OneOf s i checks := by
  rw [finishGrd_eq]
  split
  · exact .inr (h1 ‹_›)
  · exact h0 ‹_›

theorem grdStart_cases {s t : State} (h : execGrdStart s = .next t) :
    (s.core = .faulted ∧ t = s)
      ∨ (s.core = .idle ∧ ∃ f, (f = .illegalCommand ∨ f ∈ [FaultCode.badState, .operandRange, .resourceLimitExceeded])
        ∧ t = s.takeFault f (encode .grdStart))
      ∨ (s.Ready .grdStart ∧ Completes s .grdStart t)
      ∨ (s.Ready .grdStart ∧ ∃ f u, Fails s .grdStart f u ∧ t = u.takeFault f (encode .grdStart)) := by
  refine command_oneOf h ?_
  split
  · exact Result.oneOf_check (by simp)
  · rename_i h1
    simp only [not_or, Bool.not_eq_false] at h1
    split
    · exact Result.oneOf_check (by simp)
    · rename_i h2
      simp only [not_or, not_and, Nat.not_le] at h2
      obtain ⟨h1a, h1b, h1c⟩ := h1
      obtain ⟨h2a, h2b, h2c, h2d⟩ := h2
      have go : ∀ skip, (tooLarge s.cfg s.gb.w.toNat s.gb.h.toNat = false → StartChecked s skip) →
          (if tooLarge s.cfg s.gb.w.toNat s.gb.h.toNat then Result.raise .resourceLimitExceeded s
            else runGrd s skip (Bitmap.blank s.gb.w.toNat s.gb.h.toNat) 0 false).OneOf s .grdStart
              [.badState, .operandRange, .resourceLimitExceeded] := by
        intro skip hs
        split
        · exact Result.oneOf_check (by simp)
        · have hs' := hs (by simpa using ‹¬ tooLarge _ _ _ = true›)
          rw [runGrd_eq]
          exact finishGrd_oneOf (fun he => .grdStart skip hs' _ rfl he) (fun he => .grdStart skip hs' _ rfl he)
      refine withSkip_oneOf (by simp) (fun hu => go _ fun hf => ⟨h1a, h1b, h1c, h2a, h2b, h2c, hf, .inl ⟨hu, rfl⟩⟩)
        (fun k hu hk => ?_)
      have hd := h2d hu
      rw [if_neg hd.2]
      exact go _ fun hf => ⟨h1a, h1b, h1c, h2a, h2b, h2c, hf, .inr ⟨hu, hd.1, hd.2, k, hk, rfl⟩⟩

theorem grdCont_cases {s t : State} (h : execGrdCont s = .next t) :
    (s.core = .faulted ∧ t = s)
      ∨ (s.core = .idle ∧ ∃ f, (f = .illegalCommand ∨ f ∈ [FaultCode.badState]) ∧ t = s.takeFault f (encode .grdCont))
      ∨ (s.Ready .grdCont ∧ Completes s .grdCont t)
      ∨ (s.Ready .grdCont ∧ ∃ f u, Fails s .grdCont f u ∧ t = u.takeFault f (encode .grdCont)) := by
  refine command_oneOf h ?_
  split
  · exact Result.oneOf_check (by simp)
  · rename_i h1
    simp only [not_or, not_not, Bool.not_eq_false] at h1
    obtain ⟨h1a, h1b, h1c⟩ := h1
    refine withBitmap_oneOf (by simp) fun bm hb => ?_
    split
    · exact Result.oneOf_check (by simp)
    · rename_i h2
      simp only [not_or, not_not] at h2
      have go : ∀ skip, ContChecked s bm skip →
          (runGrd s skip bm s.grd.row.toNat s.grd.ltp).OneOf s .grdCont [.badState] := by
        intro skip hs
        rw [runGrd_eq]
        exact finishGrd_oneOf (fun he => .grdCont bm skip hs _ rfl he) (fun he => .grdCont bm skip hs _ rfl he)
      exact withSkip_oneOf (by simp) (fun hu => go _ ⟨h1a, h1b, h1c, hb, h2.1, h2.2, .inl ⟨hu, rfl⟩⟩)
        (fun k hu hk => go _ ⟨h1a, h1b, h1c, hb, h2.1, h2.2, .inr ⟨hu, k, hk, rfl⟩⟩)

theorem grrDecode_cases {s t : State} (h : execGrrDecode s = .next t) :
    (s.core = .faulted ∧ t = s)
      ∨ (s.core = .idle ∧ ∃ f, (f = .illegalCommand ∨ f ∈ [FaultCode.badState, .operandRange, .resourceLimitExceeded])
        ∧ t = s.takeFault f (encode .grrDecode))
      ∨ (s.Ready .grrDecode ∧ Completes s .grrDecode t)
      ∨ (s.Ready .grrDecode ∧ ∃ f u, Fails s .grrDecode f u ∧ t = u.takeFault f (encode .grrDecode)) := by
  refine command_oneOf h ?_
  split
  · exact Result.oneOf_check (by simp)
  · rename_i h1
    simp only [not_or, Bool.not_eq_false] at h1
    split
    · exact Result.oneOf_check (by simp)
    · rename_i h2
      simp only [not_or, Nat.not_le] at h2
      refine withBitmap_oneOf (by simp) fun ref hr => ?_
      split
      · exact Result.oneOf_check (by simp)
      · rename_i h3
        have hc : RefineChecked s ref :=
          ⟨h1.1, h1.2, h2.1, h2.2.1, h2.2.2.1, h2.2.2.2.1, h2.2.2.2.2, hr, by simpa using h3⟩
        split
        · exact .grrDecode ref hc _ ‹_›
        · exact .inr (.grrDecode ref hc _ ‹_›)

/-- Everything a command can do: nothing while Faulted; a check faults, changing nothing else; it completes; its operation
faults. -/
theorem exec_cases {i : Instr} {s t : State} (h : exec i s = .next t) :
    ((i ≠ .sysClrf ∧ i ≠ .sysReset) ∧ s.core = .faulted ∧ t = s)
      ∨ ((i ≠ .sysClrf ∧ i ≠ .sysReset) ∧ s.core = .idle ∧ ∃ f ∈ checkFaults i, t = s.takeFault f (encode i))
      ∨ ((i = .sysClrf ∨ i = .sysReset ∨ s.Ready i) ∧ Completes s i t)
      ∨ (s.Ready i ∧ ∃ f u, Fails s i f u ∧ t = u.takeFault f (encode i)) := by
  have widen : ∀ {checks : List FaultCode}, i ≠ .sysClrf ∧ i ≠ .sysReset → (∀ f, f = .illegalCommand ∨ f ∈ checks → f ∈ checkFaults i) →
      (s.core = .faulted ∧ t = s)
        ∨ (s.core = .idle ∧ ∃ f, (f = .illegalCommand ∨ f ∈ checks) ∧ t = s.takeFault f (encode i))
        ∨ (s.Ready i ∧ Completes s i t)
        ∨ (s.Ready i ∧ ∃ f u, Fails s i f u ∧ t = u.takeFault f (encode i)) →
      ((i ≠ .sysClrf ∧ i ≠ .sysReset) ∧ s.core = .faulted ∧ t = s)
        ∨ ((i ≠ .sysClrf ∧ i ≠ .sysReset) ∧ s.core = .idle ∧ ∃ f ∈ checkFaults i, t = s.takeFault f (encode i))
        ∨ ((i = .sysClrf ∨ i = .sysReset ∨ s.Ready i) ∧ Completes s i t)
        ∨ (s.Ready i ∧ ∃ f u, Fails s i f u ∧ t = u.takeFault f (encode i)) := by
    rintro checks hi hw (h | ⟨h, f, hf, e⟩ | ⟨h, hc⟩ | h)
    · exact .inl ⟨hi, h⟩
    · exact .inr (.inl ⟨hi, h, f, hw f hf, e⟩)
    · exact .inr (.inr (.inl ⟨.inr (.inr h), hc⟩))
    · exact .inr (.inr (.inr h))
  cases i with
  | sysNop => exact widen (checks := []) (by simp) (by simp [checkFaults]) (command_oneOf h .sysNop)
  | sysClrf => cases h; exact .inr (.inr (.inl ⟨.inl rfl, .sysClrf⟩))
  | sysReset => cases h; exact .inr (.inr (.inl ⟨.inr (.inl rfl), .sysReset⟩))
  | brSeek => exact widen (checks := [.misaligned]) (by simp) (by simp [checkFaults]) (command_oneOf h (seekTo_oneOf _ (by simp) .brSeek))
  | brSkip => exact widen (checks := [.misaligned]) (by simp) (by simp [checkFaults]) (command_oneOf h (seekTo_oneOf _ (by simp) .brSkip))
  | brAlign => exact widen (checks := []) (by simp) (by simp [checkFaults]) (command_oneOf h .brAlign)
  | brReadBits n => exact widen (checks := []) (by simp) (by simp [checkFaults]) (command_oneOf h (.brReadBits n))
  | brReadByte =>
    exact widen (checks := [.misaligned]) (by simp) (by simp [checkFaults]) (command_oneOf h (readWhole_oneOf 1 (by simp) .brReadByte))
  | brReadU16 =>
    exact widen (checks := [.misaligned]) (by simp) (by simp [checkFaults]) (command_oneOf h (readWhole_oneOf 2 (by simp) .brReadU16))
  | brReadU32 =>
    exact widen (checks := [.misaligned]) (by simp) (by simp [checkFaults]) (command_oneOf h (readWhole_oneOf 4 (by simp) .brReadU32))
  | brRemain => exact widen (checks := []) (by simp) (by simp [checkFaults]) (command_oneOf h .brRemain)
  | mqInit =>
    refine widen (checks := [.misaligned]) (by simp) (by simp [checkFaults]) (command_oneOf h ?_)
    split
    · exact Result.oneOf_check (by simp)
    · exact .mqInit (by simpa using ‹¬ s.cur.bitIdx ≠ 0›)
  | mqDecode k =>
    refine widen (checks := [.badState, .operandRange, .arithmeticStreamComplete]) (by simp) (by simp [checkFaults]) (command_oneOf h ?_)
    split
    · exact Result.oneOf_check (by simp)
    · rename_i h1
      simp only [Bool.or_eq_true, Bool.not_eq_true', not_or, Bool.not_eq_false] at h1
      split
      · exact Result.oneOf_check (by simp)
      · split
        · exact Result.oneOf_check (by simp)
        · exact .mqDecode k h1.1 h1.2 (by omega) (by simpa using ‹¬ s.mq.complete = true›) _ rfl
  | cxClear k => exact widen (checks := []) (by simp) (by simp [checkFaults]) (command_oneOf h (.cxClear k))
  | cxRd k =>
    refine widen (checks := [.badState, .operandRange]) (by simp) (by simp [checkFaults]) (command_oneOf h ?_)
    split
    · exact Result.oneOf_check (by simp)
    · split
      · exact Result.oneOf_check (by simp)
      · exact .cxRd k (by simpa using ‹¬ (!(s.bank k).valid) = true›) (by omega)
  | cxWr k =>
    refine widen (checks := [.badState, .operandRange]) (by simp) (by simp [checkFaults]) (command_oneOf h ?_)
    split
    · exact Result.oneOf_check (by simp)
    · split
      · exact Result.oneOf_check (by simp)
      · split
        · exact Result.oneOf_check (by simp)
        · exact .cxWr k (by simpa using ‹¬ (!(s.bank k).valid) = true›) (by omega) _ ‹_›
  | htParse id =>
    refine widen (checks := [.misaligned]) (by simp) (by simp [checkFaults]) (command_oneOf h ?_)
    split
    · exact Result.oneOf_check (by simp)
    · have hb : s.cur.bitIdx = 0 := by simpa using ‹¬ s.cur.bitIdx ≠ 0›
      simp only
      split
      · exact .htParse id hb _ _ ‹_›
      · exact .inr (.htParse id hb _ _ ‹_›)
  | htDecode id =>
    refine widen (checks := [.badState]) (by simp) (by simp [checkFaults]) (command_oneOf h ?_)
    split
    · exact Result.oneOf_check (by simp)
    · split
      · exact .htValue id _ ‹_› _ _ ‹_›
      · exact .htOob id _ ‹_› _ ‹_›
      · exact .inr (.htDecode id _ ‹_› _ _ ‹_›)
  | htInfo id => exact widen (checks := []) (by simp) (by simp [checkFaults]) (command_oneOf h (.htInfo id _ rfl))
  | htRow id sel =>
    refine widen (checks := [.badState, .operandRange]) (by simp) (by simp [checkFaults]) (command_oneOf h ?_)
    split
    · exact Result.oneOf_check (by simp)
    · split
      · exact Result.oneOf_check (by simp)
      · exact .htRow id sel _ ‹_› _ ‹_›
  | bmAlloc slot =>
    refine widen (checks := [.operandRange, .resourceLimitExceeded]) (by simp) (by simp [checkFaults]) (command_oneOf h ?_)
    simp only
    split
    · exact Result.oneOf_check (by simp)
    · rename_i h1
      split
      · exact Result.oneOf_check (by simp)
      · exact .bmAlloc slot (word_ne_zero fun e => h1 (.inl e)) (word_ne_zero fun e => h1 (.inr e))
          (by simpa using ‹¬ tooLarge _ _ _ = true›)
  | bmFree slot => exact widen (checks := []) (by simp) (by simp [checkFaults]) (command_oneOf h (.bmFree slot))
  | bmFill slot v =>
    exact widen (checks := [.badState]) (by simp) (by simp [checkFaults])
      (command_oneOf h (withBitmap_oneOf (by simp) fun bm hb => .bmFill slot v bm hb))
  | bmGet slot =>
    exact widen (checks := [.badState]) (by simp) (by simp [checkFaults])
      (command_oneOf h (withBitmap_oneOf (by simp) fun bm hb => .bmGet slot bm hb))
  | bmSet slot v =>
    exact widen (checks := [.badState]) (by simp) (by simp [checkFaults])
      (command_oneOf h (withBitmap_oneOf (by simp) fun bm hb => .bmSet slot v bm hb))
  | bmCopyLine slot =>
    exact widen (checks := [.badState]) (by simp) (by simp [checkFaults])
      (command_oneOf h (withBitmap_oneOf (by simp) fun bm hb => .bmCopyLine slot bm hb))
  | bmCompose dst src cop clip =>
    exact widen (checks := [.badState]) (by simp) (by simp [checkFaults])
      (command_oneOf h (withBitmap_oneOf (by simp) fun d hd =>
        withBitmap_oneOf (by simp) fun b hb => .bmCompose dst src cop clip d b hd hb))
  | bmExpand slot v =>
    refine widen (checks := [.badState, .resourceLimitExceeded]) (by simp) (by simp [checkFaults])
      (command_oneOf h (withBitmap_oneOf (by simp) fun bm hb => ?_))
    simp only
    split
    · exact .bmKeep slot v bm hb ‹_›
    · split
      · exact Result.oneOf_check (by simp)
      · rename_i h2
        exact .bmGrow slot v bm hb (by omega) (by omega) (by omega)
  | bmSubImage dst src =>
    refine widen (checks := [.badState, .operandRange, .resourceLimitExceeded]) (by simp) (by simp [checkFaults])
      (command_oneOf h (withBitmap_oneOf (by simp) fun bm hb => ?_))
    simp only
    split
    · exact Result.oneOf_check (by simp)
    · rename_i h1
      split
      · exact Result.oneOf_check (by simp)
      · exact .bmSubImage dst src bm hb (word_ne_zero fun e => h1 (.inl e)) (word_ne_zero fun e => h1 (.inr e))
          (by simpa using ‹¬ tooLarge _ _ _ = true›)
  | bmInfo slot sel => exact widen (checks := []) (by simp) (by simp [checkFaults]) (command_oneOf h (.bmInfo slot sel))
  | grdStart => exact widen (by simp) (by simp [checkFaults]) (grdStart_cases h)
  | grdCont => exact widen (by simp) (by simp [checkFaults]) (grdCont_cases h)
  | grdAbort => exact widen (checks := []) (by simp) (by simp [checkFaults]) (command_oneOf h .grdAbort)
  | grrDecode => exact widen (by simp) (by simp [checkFaults]) (grrDecode_cases h)

/-! ### The region commands after their checks -/

theorem finishGrd_finish (s : State) (l : GrdLoop) (w : Word) :
    (finishGrd s l).finish w
      = .next (if l.st = .error then (grdAfter s l).takeFault .arithmeticStreamComplete w else grdAfter s l) := by
  rw [finishGrd_eq]; split <;> rfl

theorem exec_grdStart {s : State} {k : SkipSource} (hc : StartChecked s k) (hi : s.core = .idle) :
    exec .grdStart s
      = (finishGrd s (grdRun s k (Bitmap.blank s.gb.w.toNat s.gb.h.toNat) 0 false)).finish (encode .grdStart) := by
  refine (command_ready _ ⟨hi, rfl⟩).trans ?_
  rw [if_neg (by simp [hc.state, hc.mq, hc.bank])]
  have := hc.width; have := hc.height; have := hc.dst
  rw [if_neg (by 
    rintro (h | h | h | ⟨h1, h2⟩)
    · contradiction
    · contradiction
    · omega
    · rcases hc.skip with ⟨h3, -⟩ | ⟨-, h4, h5, -⟩
      · rw [h3] at h1; cases h1
      · rcases h2 with h2 | h2; omega; contradiction)]
  rw [← runGrd_eq]
  unfold withSkip
  have hf := hc.fits
  rcases hc.skip with ⟨h1, h2⟩ | ⟨h1, -, h4, k', h2, h3⟩
  · rw [h1, h2, if_neg (by simp), hf]; rfl
  · rw [h1, h2, if_pos rfl]; simp only; rw [if_neg h4, h3, hf]; rfl

theorem exec_grdCont {s : State} {bm : Bitmap} {k : SkipSource} (hc : ContChecked s bm k) (hi : s.core = .idle) :
    exec .grdCont s = (finishGrd s (grdRun s k bm s.grd.row.toNat s.grd.ltp)).finish (encode .grdCont) := by
  refine (command_ready _ ⟨hi, rfl⟩).trans ?_
  rw [if_neg (by simp [hc.state, hc.mq, hc.bank])]
  unfold withBitmap
  rw [hc.dst]
  simp only
  rw [if_neg (by simp [hc.width, hc.height])]
  rw [← runGrd_eq]
  unfold withSkip
  rcases hc.skip with ⟨h1, h2⟩ | ⟨h1, k', h2, h3⟩
  · rw [h1, h2]; rfl
  · rw [h1, h2, if_pos rfl]; simp only; rw [h3]

theorem exec_grrDecode {s : State} {ref : Bitmap} (hc : RefineChecked s ref) (hi : s.core = .idle) :
    exec .grrDecode s = (match grrRows (grrEnv s ref) (grrStart s) with
      | .ok r => Result.done (putGrr s r)
      | .error r => Result.raise .arithmeticStreamComplete (putGrr s r)).finish (encode .grrDecode) := by
  refine (command_ready _ ⟨hi, rfl⟩).trans ?_
  have := hc.width; have := hc.height; have := hc.dst; have := hc.refSlot; have := hc.differ
  rw [if_neg (by simp [hc.mq, hc.bank]), if_neg (by rintro (h | h | h | h | h) <;> first | contradiction | omega)]
  unfold withBitmap
  rw [hc.valid]
  simp only
  rw [hc.fits]
  rfl

end Sys2Proof.Machine
end

