-- ==== Sys2Proof/Laws/Huffman.lean ====
section
/-! SUPPORT. The Huffman unit, once each: codes do not change rows (R206), the procedures that read the stream only move the
cursor forward and inside the span (R216), they read no byte beyond it, and a parsed table fits the store (R46 (7)). -/

namespace Sys2Proof.Machine

/-! ### Code assignment (R206) -/

theorem assignFrom_length (rows before rest : List RawRow) : (assignFrom rows before rest).length = rest.length := by
  induction rest generalizing before with
  | nil => rfl
  | cons r t ih => simp [assignFrom, ih]

theorem assignCodes_length (rows : List RawRow) : (assignCodes rows).length = rows.length := assignFrom_length _ _ _

/-- Row `k` of an assigned table is row `k` as given, with its code. -/
theorem assignFrom_getElem? (rows before rest : List RawRow) (k : Nat) :
    (assignFrom rows before rest)[k]? = rest[k]?.map fun r => assignRow rows (before ++ rest.take k) r := by
  induction rest generalizing before k with
  | nil => simp [assignFrom]
  | cons r t ih =>
    cases k with
    | zero => simp [assignFrom]
    | succ k =>
      simp only [assignFrom, List.getElem?_cons_succ, ih, List.take_succ_cons, List.append_assoc, List.singleton_append]

theorem assignCodes_getElem? (rows : List RawRow) (k : Nat) :
    (assignCodes rows)[k]? = rows[k]?.map fun r => assignRow rows (rows.take k) r := by
  unfold assignCodes
  rw [assignFrom_getElem?, List.nil_append]

theorem assignFrom_mem {rows before rest : List RawRow} {h : HtRow} (hm : h ∈ assignFrom rows before rest) :
    ∃ r ∈ rest, h.kind = r.kind ∧ h.preflen = r.preflen ∧ h.rangelen = r.rangelen ∧ h.rangelow = r.rangelow := by
  induction rest generalizing before with
  | nil => simp [assignFrom] at hm
  | cons r t ih =>
    rcases List.mem_cons.mp hm with rfl | hm
    · exact ⟨r, List.mem_cons_self, rfl, rfl, rfl, rfl⟩
    · obtain ⟨q, hq, e⟩ := ih hm
      exact ⟨q, List.mem_cons_of_mem _ hq, e⟩

/-! ### How a procedure that reads the stream ends -/

/-- Where the cursor stands at the end, whichever way. -/
def Parse.cur {α : Type} : Parse α → Cursor
  | .ok _ c => c
  | .raise _ c => c

/-- The cursor is not before `c0`, and inside a span of `len` bytes if `c0` is (R27, R216). -/
def Forward (len : Nat) (c0 c : Cursor) : Prop := c0.pos ≤ c.pos ∧ (c0.pos ≤ 8 * len → c.pos ≤ 8 * len)

theorem Forward.refl (len : Nat) (c : Cursor) : Forward len c c := ⟨Nat.le_refl _, id⟩

theorem Forward.trans {len : Nat} {a b c : Cursor} (h1 : Forward len a b) (h2 : Forward len b c) : Forward len a c :=
  ⟨Nat.le_trans h1.1 h2.1, fun h => h2.2 (h1.2 h)⟩

theorem readBits_forward (sp : Span) (hl : sp.len ≤ Config.srcCap) (c : Cursor) (n : Nat) :
    Forward sp.len c (readBits sp c n).cur :=
  ⟨by rw [readBits_pos sp hl]; omega, readBits_le sp hl c n⟩

theorem need_eq (sp : Span) (c : Cursor) (n : Nat) :
    need sp c n = if (readBits sp c n).boundary then .raise .streamExhausted (readBits sp c n).cur
      else .ok (readBits sp c n).value (readBits sp c n).cur := rfl

/-- A read that has its bits. -/
theorem need_complete (sp : Span) (hl : sp.len ≤ Config.srcCap) (c : Cursor) (n : Nat) (h : n ≤ availBits sp.len c) :
    need sp c n = .ok (sp.number c.pos n) (cursorAt (c.pos + n)) := by
  rw [need_eq, readBits_complete sp hl c n h]; rfl

/-- A read that has not: it stands at the end of what there was (R210). -/
theorem need_short (sp : Span) (hl : sp.len ≤ Config.srcCap) (c : Cursor) (n : Nat) (h : availBits sp.len c < n) :
    need sp c n = .raise .streamExhausted (cursorAt (c.pos + availBits sp.len c)) := by
  rw [need_eq, readBits_eq sp hl, Nat.min_eq_right (by omega)]; simp [h]

/-- A read from a position, with its bits inside the span. -/
theorem need_cursorAt (sp : Span) (hl : sp.len ≤ Config.srcCap) (p n : Nat) (h : p + n ≤ 8 * sp.len) :
    need sp (cursorAt p) n = .ok (sp.number p n) (cursorAt (p + n)) := by
  have h0 : (cursorAt p).pos = p := pos_cursorAt (by unfold Config.srcCap at hl; omega)
  rw [need_complete sp hl _ _ (by rw [availBits_cursorAt (by omega) hl]; omega), h0]

@[simp] theorem Parse.cur_ok {α : Type} (v : α) (c : Cursor) : (Parse.ok v c).cur = c := rfl
@[simp] theorem Parse.cur_raise {α : Type} (f : FaultCode) (c : Cursor) : (Parse.raise f c : Parse α).cur = c := rfl

theorem need_forward (sp : Span) (hl : sp.len ≤ Config.srcCap) (c : Cursor) (n : Nat) :
    Forward sp.len c (need sp c n).cur := by
  rw [need_eq]; split <;> exact readBits_forward sp hl c n

theorem andThen_forward {α β : Type} {len : Nat} {c0 : Cursor} {p : Parse α} {f : α → Cursor → Parse β}
    (hp : Forward len c0 p.cur) (hf : ∀ v c, p = .ok v c → Forward len c (f v c).cur) :
    Forward len c0 (p.andThen f).cur := by
  cases p with
  | ok v c => exact hp.trans (hf v c rfl)
  | raise e c => exact hp

theorem parseHeader_forward (sp : Span) (hl : sp.len ≤ Config.srcCap) (c : Cursor) :
    Forward sp.len c (parseHeader sp c).cur := by
  refine andThen_forward (need_forward sp hl _ _) fun f c _ => ?_
  split
  · exact Forward.refl _ _
  · refine andThen_forward (need_forward sp hl _ _) fun lo c _ => ?_
    refine andThen_forward (need_forward sp hl _ _) fun hi c _ => ?_
    simp only
    split <;> exact Forward.refl _ _

theorem parseNormal_forward (sp : Span) (hl : sp.len ≤ Config.srcCap) (m : Nat) (hd : HtHeader) (fuel : Nat) (cur : Int)
    (rows : List RawRow) (c : Cursor) : Forward sp.len c (parseNormal sp m hd fuel cur rows c).cur := by
  induction fuel generalizing cur rows c with
  | zero => exact Forward.refl _ _
  | succ n ih =>
    refine andThen_forward (need_forward sp hl _ _) fun p c _ => ?_
    refine andThen_forward (need_forward sp hl _ _) fun r c _ => ?_
    simp only
    split
    · exact Forward.refl _ _
    · split
      · exact Forward.refl _ _
      · split
        · exact Forward.refl _ _
        · split
          · exact Forward.refl _ _
          · exact ih _ _ _

theorem parseEscapes_forward (sp : Span) (hl : sp.len ≤ Config.srcCap) (hd : HtHeader) (rows : List RawRow) (c : Cursor) :
    Forward sp.len c (parseEscapes sp hd rows c).cur := by
  unfold parseEscapes
  split
  · exact Forward.refl _ _
  · refine andThen_forward (need_forward sp hl _ _) fun pl c _ => ?_
    refine andThen_forward (need_forward sp hl _ _) fun pu c _ => ?_
    simp only
    split
    · exact andThen_forward (need_forward sp hl _ _) fun po c _ => Forward.refl _ _
    · exact Forward.refl _ _

theorem parseTable_forward (sp : Span) (hl : sp.len ≤ Config.srcCap) (m : Nat) (c : Cursor) :
    Forward sp.len c (parseTable sp m c).cur := by
  refine andThen_forward (parseHeader_forward sp hl c) fun hd c _ => ?_
  refine andThen_forward (parseNormal_forward sp hl _ _ _ _ _ _) fun rows c _ => ?_
  refine andThen_forward (parseEscapes_forward sp hl _ _ _) fun rows c _ => ?_
  split <;> exact Forward.refl _ _

theorem rowValue_forward (sp : Span) (hl : sp.len ≤ Config.srcCap) (r : HtRow) (c : Cursor) :
    Forward sp.len c (rowValue sp r c).cur := by
  unfold rowValue
  split
  · exact Forward.refl _ _
  all_goals exact andThen_forward (need_forward sp hl _ _) fun off c _ => Forward.refl _ _

theorem decodeFrom_forward (sp : Span) (hl : sp.len ≤ Config.srcCap) (rows : List HtRow) (fuel n cand : Nat) (c : Cursor) :
    Forward sp.len c (decodeFrom sp rows fuel n cand c).cur := by
  induction fuel generalizing n cand c with
  | zero => exact Forward.refl _ _
  | succ m ih =>
    refine andThen_forward (need_forward sp hl _ _) fun b c _ => ?_
    split
    · exact rowValue_forward sp hl _ _
    · exact ih _ _ _

/-! ### What the parsing procedures do, from a position inside the span (R210) -/

@[simp] theorem Parse.andThen_ok {α β : Type} (v : α) (c : Cursor) (f : α → Cursor → Parse β) :
    (Parse.ok v c).andThen f = f v c := rfl

/-- A read from a position: its number, or StreamExhausted at the end of the span. -/
theorem need_at (sp : Span) (hl : sp.len ≤ Config.srcCap) (q n : Nat) (h : q ≤ 8 * sp.len) :
    need sp (cursorAt q) n
      = if q + n ≤ 8 * sp.len then .ok (sp.number q n) (cursorAt (q + n)) else .raise .streamExhausted (cursorAt (8 * sp.len)) := by
  split
  · exact need_cursorAt sp hl q n ‹_›
  · have ha := availBits_cursorAt h hl
    rw [need_short sp hl _ _ (by rw [ha]; omega), pos_cursorAt (by unfold Config.srcCap at hl; omega), ha]
    congr 2; omega

/-- One turn of the loop over the normal rows. -/
theorem parseNormal_step (sp : Span) (hl : sp.len ≤ Config.srcCap) (hd : HtHeader) (M fuel : Nat) (cur : Int)
    (rows : List RawRow) (q : Nat) (hq : q ≤ 8 * sp.len) :
    parseNormal sp M hd (fuel+1) cur rows (cursorAt q) =
     if q + hd.ps + hd.rs ≤ 8 * sp.len then
       let r := sp.number (q + hd.ps) hd.rs
       let c := cursorAt (q + hd.ps + hd.rs)
       let rows := rows ++ [⟨.normal, sp.number q hd.ps, r, BitVec.ofInt 32 cur⟩]
       if 31 < r then .raise .structuralError c
       else if 2 ^ 31 - 1 < cur + 2 ^ r then .raise .structuralError c
       else if M < rows.length + 2 + hd.oob.toNat then .raise .resourceLimitExceeded c
       else if hd.high ≤ cur + 2 ^ r then .ok rows c
       else parseNormal sp M hd fuel (cur + 2 ^ r) rows c
     else .raise .streamExhausted (cursorAt (8*sp.len)) := by
  rw [parseNormal, need_at sp hl _ _ hq]
  by_cases h1 : q + hd.ps ≤ 8 * sp.len
  · rw [if_pos h1]
    rw [Parse.andThen_ok, need_at sp hl _ _ h1]
    by_cases h2 : q + hd.ps + hd.rs ≤ 8 * sp.len
    · rw [if_pos h2, if_pos h2]; rfl
    · rw [if_neg h2, if_neg h2]; rfl
  · rw [if_neg h1, if_neg (by omega)]; rfl

/-- The escape rows. -/
theorem parseEscapes_at (sp : Span) (hl : sp.len ≤ Config.srcCap) (hd : HtHeader) (rows : List RawRow) (q : Nat)
    (hq : q ≤ 8 * sp.len) :
    parseEscapes sp hd rows (cursorAt q) =
     if hd.low = -2 ^ 31 then .raise .structuralError (cursorAt q)
     else if q + (2 + hd.oob.toNat) * hd.ps ≤ 8 * sp.len then
       .ok (rows ++ [⟨.lower, sp.number q hd.ps, 32, BitVec.ofInt 32 (hd.low - 1)⟩,
           ⟨.upper, sp.number (q + hd.ps) hd.ps, 32, BitVec.ofInt 32 hd.high⟩] ++
         if hd.oob then [⟨.oob, sp.number (q + hd.ps + hd.ps) hd.ps, 0, 0⟩] else []) (cursorAt (q + (2 + hd.oob.toNat) * hd.ps))
     else .raise .streamExhausted (cursorAt (8*sp.len)) := by
  unfold parseEscapes
  split
  · rfl
  · rw [need_at sp hl _ _ hq]
    by_cases h1 : q + hd.ps ≤ 8 * sp.len
    · rw [if_pos h1, Parse.andThen_ok, need_at sp hl _ _ h1]
      by_cases h2 : q + hd.ps + hd.ps ≤ 8 * sp.len
      · rw [if_pos h2]; show (if _ then _ else _) = _
        cases ho : hd.oob
        · simp only [Bool.toNat_false, Bool.false_eq_true, if_false, Nat.add_zero, List.append_nil]
          rw [if_pos (by omega), show q + 2 * hd.ps = q + hd.ps + hd.ps by omega]
        · simp only [Bool.toNat_true, if_true]
          rw [need_at sp hl _ _ h2]
          by_cases h3 : q + hd.ps + hd.ps + hd.ps ≤ 8 * sp.len
          · rw [if_pos h3, if_pos (by omega), show q + (2+1) * hd.ps = q + hd.ps + hd.ps + hd.ps by omega]; rfl
          · rw [if_neg h3, if_neg (by omega)]; rfl
      · rw [if_neg h2, if_neg ?_]; rfl
        have := Nat.zero_le (hd.oob.toNat * hd.ps); rw [Nat.add_mul]; omega
    · rw [if_neg h1, if_neg ?_]; rfl
      have := Nat.zero_le (hd.oob.toNat * hd.ps); rw [Nat.add_mul]; omega

/-- A header that passes its tests. -/
theorem parseHeader_at (sp : Span) (hl : sp.len ≤ Config.srcCap) (p : Nat) (h72 : p + 72 ≤ 8 * sp.len)
    (hf : sp.number p 8 < 128)
    (hb : (BitVec.ofNat 32 (sp.number (p+8) 32)).toInt ≤ (BitVec.ofNat 32 (sp.number (p+40) 32)).toInt) :
   parseHeader sp (cursorAt p) = .ok ⟨(sp.number p 8).testBit 0, sp.number p 8 / 2 % 8 + 1, sp.number p 8 / 16 % 8 + 1,
     (BitVec.ofNat 32 (sp.number (p+8) 32)).toInt, (BitVec.ofNat 32 (sp.number (p+40) 32)).toInt⟩ (cursorAt (p+72)) := by
  unfold parseHeader
  rw [need_at sp hl _ _ (by omega), if_pos (by omega)]
  show (if _ then _ else _) = _
  rw [if_neg (by rw [Nat.testBit_eq_decide_div_mod_eq]; simp; omega)]
  rw [need_at sp hl _ _ (by omega), if_pos (by omega)]
  rw [Parse.andThen_ok, need_at sp hl _ _ (by omega), if_pos (by omega)]
  show (if _ then _ else _) = _
  rw [if_neg (show ¬ _ < _ from not_lt.mpr hb)]

/-! ### A parsed table fits the store (R46 (7)) -/

theorem andThen_ok {α β : Type} {p : Parse α} {f : α → Cursor → Parse β} {v : β} {c : Cursor} (h : p.andThen f = .ok v c) :
    ∃ u c', p = .ok u c' ∧ f u c' = .ok v c := by
  cases p with
  | ok u c' => exact ⟨u, c', rfl, h⟩
  | raise e c' => simp [Parse.andThen] at h

theorem parseNormal_ok {sp : Span} {m : Nat} {hd : HtHeader} {fuel : Nat} {cur : Int} {rows out : List RawRow} {c c' : Cursor}
    (h : parseNormal sp m hd fuel cur rows c = .ok out c') :
    rows.length < out.length ∧ out.length + 2 + hd.oob.toNat ≤ m
      ∧ ((∀ r ∈ rows, r.rangelen ≤ 32) → ∀ r ∈ out, r.rangelen ≤ 32) := by
  induction fuel generalizing cur rows c with
  | zero => simp [parseNormal] at h
  | succ n ih =>
    obtain ⟨p, c1, -, h⟩ := andThen_ok h
    obtain ⟨r, c2, -, h⟩ := andThen_ok h
    simp only at h
    split at h
    · simp at h
    · rename_i hr
      split at h
      · simp at h
      · split at h
        · simp at h
        · rename_i hm
          have hrows : (∀ q ∈ rows, q.rangelen ≤ 32) →
              ∀ q ∈ rows ++ [(⟨.normal, p, r, BitVec.ofInt 32 cur⟩ : RawRow)], q.rangelen ≤ 32 := by
            intro hq q hm
            rcases List.mem_append.mp hm with hm | hm
            · exact hq q hm
            · rw [List.mem_singleton.mp hm]; simp only; omega
          split at h
          · simp only [Parse.ok.injEq] at h
            rw [← h.1]
            refine ⟨by simp, by omega, hrows⟩
          · have := ih h
            refine ⟨by have h1 := this.1; rw [List.length_append] at h1; simp at h1; omega, this.2.1, fun hq => this.2.2 (hrows hq)⟩

theorem parseEscapes_ok {sp : Span} {hd : HtHeader} {rows out : List RawRow} {c c' : Cursor}
    (h : parseEscapes sp hd rows c = .ok out c') :
    out.length = rows.length + 2 + hd.oob.toNat ∧ ((∀ r ∈ rows, r.rangelen ≤ 32) → ∀ r ∈ out, r.rangelen ≤ 32) := by
  unfold parseEscapes at h
  split at h
  · simp at h
  · obtain ⟨pl, c1, -, h⟩ := andThen_ok h
    obtain ⟨pu, c2, -, h⟩ := andThen_ok h
    simp only at h
    split at h
    · rename_i ho
      obtain ⟨po, c3, -, h⟩ := andThen_ok h
      simp only [Parse.ok.injEq] at h
      rw [← h.1, ho]
      refine ⟨by simp, fun hq q hm => ?_⟩
      simp only [List.mem_append, List.mem_cons, List.mem_nil_iff, or_false] at hm
      rcases hm with (hm | rfl | rfl) | rfl
      · exact hq q hm
      all_goals simp
    · rename_i ho
      simp only [Parse.ok.injEq] at h
      rw [← h.1]
      have ho' : hd.oob = false := by simpa using ho
      rw [ho']
      refine ⟨by simp, fun hq q hm => ?_⟩
      simp only [List.mem_append, List.mem_cons, List.mem_nil_iff, or_false] at hm
      rcases hm with hm | rfl | rfl
      · exact hq q hm
      all_goals simp

theorem parseTable_fits {sp : Span} {p : Params} {t : HTable} {c c' : Cursor} (h : parseTable sp p.htMaxRows c = .ok t c') :
    t.Fits p := by
  obtain ⟨hd, c1, -, h⟩ := andThen_ok h
  obtain ⟨rows, c2, hn, h⟩ := andThen_ok h
  obtain ⟨out, c3, he, h⟩ := andThen_ok h
  have h1 := parseNormal_ok hn
  have h2 := parseEscapes_ok he
  split at h
  · simp at h
  · rename_i hp
    simp only [Parse.ok.injEq] at h
    rw [← h.1]
    refine ⟨?_, ?_, fun r hr => ?_⟩
    · simp only [assignCodes_length]; have := h1.1; rw [List.length_nil] at this; omega
    · simp only [assignCodes_length]; omega
    · obtain ⟨q, hq, -, e2, e3, -⟩ := assignFrom_mem hr
      rw [e2, e3]
      refine ⟨?_, h2.2 (h1.2.2 (by simp)) q hq⟩
      simp only [List.any_eq_true, decide_eq_true_eq, not_exists, not_and] at hp
      have := hp q hq
      omega

/-! ### No byte beyond the span is read (R216) -/

theorem need_agree {a b : Span} (h : a.Agree b) (hl : a.len ≤ Config.srcCap) (c : Cursor) (n : Nat) : need a c n = need b c n := by
  rw [need_eq, need_eq, readBits_agree h hl]

theorem parseNormal_agree {a b : Span} (h : a.Agree b) (hl : a.len ≤ Config.srcCap) (m : Nat) (hd : HtHeader) (fuel : Nat)
    (cur : Int) (rows : List RawRow) (c : Cursor) : parseNormal a m hd fuel cur rows c = parseNormal b m hd fuel cur rows c := by
  induction fuel generalizing cur rows c with
  | zero => rfl
  | succ n ih => unfold parseNormal; simp only [need_agree h hl, ih]

theorem parseTable_agree {a b : Span} (h : a.Agree b) (hl : a.len ≤ Config.srcCap) (m : Nat) (c : Cursor) :
    parseTable a m c = parseTable b m c := by
  unfold parseTable parseHeader parseEscapes
  simp only [need_agree h hl, parseNormal_agree h hl]

theorem decodeValue_agree {a b : Span} (h : a.Agree b) (hl : a.len ≤ Config.srcCap) (t : HTable) (c : Cursor) :
    decodeValue a t c = decodeValue b t c := by
  have hr : ∀ r c, rowValue a r c = rowValue b r c := by
    intro r c; unfold rowValue; simp only [need_agree h hl]
  have hf : ∀ fuel n cand c, decodeFrom a t.rows fuel n cand c = decodeFrom b t.rows fuel n cand c := by
    intro fuel
    induction fuel with
    | zero => intro n cand c; rfl
    | succ m ih => intro n cand c; unfold decodeFrom; simp only [need_agree h hl, hr, ih]
  exact hf _ _ _ _

end Sys2Proof.Machine
end

