-- ==== Sys2Proof/Laws/MqDecoder.lean ====
section
/-! SUPPORT. The MQ decoder's procedures, once each: what a byte-in, a renormalization and a decision do to the registers
(R155, R156, R158), that they keep the bounds of R165 (2), (4), and that they read no byte beyond the span (R165 (3)). -/

namespace Sys2Proof.Machine

/-! ### The table (R153) -/

theorem qeRow_bounds (i : Fin 47) : 1 ≤ (qeRow i).qe.toNat ∧ (qeRow i).qe.toNat ≤ 0x5601 := by
  revert i; decide +kernel

/-! ### What every procedure keeps -/

/-- `CT ≤ 8`, Looping is complete, and the pointer is inside the span (R46 (4), R165). -/
structure Coder.Sound (len : Nat) (k : Coder) : Prop where
  ct : k.ct.toNat ≤ 8
  st : k.st = .looping → k.complete = true
  ptr : k.ptr.toNat ≤ len

/-- The decoder's bounds between commands (R28, R165 (2)). -/
structure Coder.Live (len : Nat) (k : Coder) : Prop where
  low : 0x8000 ≤ k.a.toNat
  high : k.a.toNat ≤ 0xFFFF
  sound : k.Sound len

theorem incPtr_toNat (sp : Span) (p : Word) (hl : sp.len ≤ Config.srcCap) :
    (incPtr sp p).toNat = if p.toNat < sp.len then p.toNat + 1 else p.toNat := by
  unfold incPtr Config.srcCap at *
  split
  · have e : (1 : Word).toNat = 1 := rfl
    rw [BitVec.toNat_add]; omega
  · rfl

/-! ### `BYTEIN` (R155) -/

@[simp] theorem markerHit_a (k : Coder) : (markerHit k).a = k.a := by unfold markerHit; split <;> rfl
@[simp] theorem markerHit_c (k : Coder) : (markerHit k).c = k.c := by unfold markerHit; split <;> rfl
@[simp] theorem markerHit_b (k : Coder) : (markerHit k).b = k.b := by unfold markerHit; split <;> rfl
@[simp] theorem markerHit_ct (k : Coder) : (markerHit k).ct = 8 := by unfold markerHit; split <;> rfl
@[simp] theorem markerHit_ptr (k : Coder) : (markerHit k).ptr = k.ptr := by unfold markerHit; split <;> rfl

theorem markerHit_st (k : Coder) : (markerHit k).st = .looping → (markerHit k).complete = true := by
  unfold markerHit; split <;> simp

theorem markerHit_complete (k : Coder) : k.complete = true → (markerHit k).complete = true := by
  unfold markerHit; split <;> simp

@[simp] theorem byteInFetch_a (sp : Span) (k : Coder) : (byteInFetch sp k).a = k.a := by
  unfold byteInFetch; simp only; split <;> (try split) <;> simp

/-- The three ways a byte-in fetches (R155): a marker or the end of the span; a stuffed byte; a plain byte. -/
theorem byteInFetch_marker (sp : Span) {k : Coder} (hb : k.b = 0xFF) (h : 0x8F < (byteAt sp (k.ptr.toNat + 1)).toNat) :
    byteInFetch sp k = markerHit k := by
  have h' : byteAt sp (k.ptr.toNat + 1) > 0x8F := by rw [gt_iff_lt, BitVec.lt_def]; exact h
  simp only [byteInFetch, hb, h', if_true]

theorem byteInFetch_stuffed (sp : Span) {k : Coder} (hb : k.b = 0xFF) (h : (byteAt sp (k.ptr.toNat + 1)).toNat ≤ 0x8F) :
    byteInFetch sp k = { k with
      ptr := incPtr sp k.ptr
      b := byteAt sp (k.ptr.toNat + 1)
      c := k.c + 0xFE00 - ((byteAt sp (k.ptr.toNat + 1)).setWidth 32 <<< 9)
      ct := 7 } := by
  have h' : ¬ byteAt sp (k.ptr.toNat + 1) > 0x8F := by
    rw [gt_iff_lt, BitVec.lt_def]; change ¬ 0x8F < _; omega
  simp only [byteInFetch, hb, h', if_true, if_false]

theorem byteInFetch_plain (sp : Span) {k : Coder} (hb : k.b ≠ 0xFF) :
    byteInFetch sp k = { k with
      ptr := incPtr sp k.ptr
      b := byteAt sp (incPtr sp k.ptr).toNat
      c := k.c + 0xFF00 - ((byteAt sp (incPtr sp k.ptr).toNat).setWidth 32 <<< 8)
      ct := 8 } := by
  simp only [byteInFetch, hb, if_false]

theorem byteInFetch_ct (sp : Span) (k : Coder) : (byteInFetch sp k).ct = 7 ∨ (byteInFetch sp k).ct = 8 := by
  unfold byteInFetch; simp only; split <;> (try split) <;> simp

theorem byteInFetch_ptr (sp : Span) (k : Coder) : (byteInFetch sp k).ptr = k.ptr ∨ (byteInFetch sp k).ptr = incPtr sp k.ptr := by
  unfold byteInFetch; simp only; split <;> (try split) <;> simp

theorem byteInFetch_complete (sp : Span) (k : Coder) : k.complete = true → (byteInFetch sp k).complete = true := by
  unfold byteInFetch
  simp only
  split
  · split
    · exact markerHit_complete k
    · exact id
  · exact id

theorem byteInFetch_st (sp : Span) (k : Coder) (h : k.st = .looping → k.complete = true) :
    (byteInFetch sp k).st = .looping → (byteInFetch sp k).complete = true := by
  unfold byteInFetch
  simp only
  split
  · split
    · exact markerHit_st k
    · exact h
  · exact h

theorem byteIn_eq (sp : Span) (k : Coder) :
    byteIn sp k = { byteInFetch sp k with
      complete := (byteInFetch sp k).complete || decide (sp.len ≤ (byteInFetch sp k).ptr.toNat) } := by
  unfold byteIn
  simp only
  split
  · rename_i h; simp [h]
  · rename_i h
    rw [decide_eq_false h, Bool.or_false]

@[simp] theorem byteIn_a (sp : Span) (k : Coder) : (byteIn sp k).a = k.a := by simp [byteIn_eq]

theorem byteIn_ct (sp : Span) (k : Coder) : (byteIn sp k).ct = 7 ∨ (byteIn sp k).ct = 8 := by
  simpa [byteIn_eq] using byteInFetch_ct sp k

theorem byteIn_complete (sp : Span) (k : Coder) (h : k.complete = true) : (byteIn sp k).complete = true := by
  simp [byteIn_eq, byteInFetch_complete sp k h]

theorem byteIn_ptr (sp : Span) (hl : sp.len ≤ Config.srcCap) (k : Coder) :
    k.ptr.toNat ≤ (byteIn sp k).ptr.toNat ∧ (k.ptr.toNat ≤ sp.len → (byteIn sp k).ptr.toNat ≤ sp.len) := by
  rw [byteIn_eq]
  rcases byteInFetch_ptr sp k with h | h
  · simp [h]
  · simp only [h, incPtr_toNat sp _ hl]; split <;> omega

theorem byteIn_sound {sp : Span} (hl : sp.len ≤ Config.srcCap) {k : Coder} (h : k.Sound sp.len) : (byteIn sp k).Sound sp.len where
  ct := by rcases byteIn_ct sp k with e | e <;> rw [e] <;> decide
  st := by
    rw [byteIn_eq]
    intro e
    simp [byteInFetch_st sp k h.st e]
  ptr := (byteIn_ptr sp hl k).2 h.ptr

/-! ### `RENORMD` (R156) -/

theorem renormStep_sound {sp : Span} (hl : sp.len ≤ Config.srcCap) {k : Coder} (h : k.Sound sp.len) :
    (renormStep sp k).Sound sp.len := by
  have h1 : (1 : Word).toNat = 1 := rfl
  unfold renormStep
  split
  · have hb := byteIn_sound hl h
    refine ⟨?_, hb.st, hb.ptr⟩
    rcases byteIn_ct sp k with e | e <;> simp only [e] <;> decide
  · rename_i h0
    refine ⟨?_, h.st, h.ptr⟩
    have hne : k.ct.toNat ≠ 0 := fun e => h0 (BitVec.eq_of_toNat_eq e)
    have := h.ct
    simp only [BitVec.toNat_sub]
    omega

theorem renormStep_a (sp : Span) (k : Coder) : (renormStep sp k).a = k.a <<< 1 := by
  unfold renormStep; split <;> simp

theorem renormStep_mono {sp : Span} (hl : sp.len ≤ Config.srcCap) (k : Coder) :
    k.ptr.toNat ≤ (renormStep sp k).ptr.toNat ∧ (k.complete = true → (renormStep sp k).complete = true) := by
  unfold renormStep
  split
  · exact ⟨(byteIn_ptr sp hl k).1, byteIn_complete sp k⟩
  · exact ⟨Nat.le_refl _, id⟩

theorem bit15_iff {a : Word} (h : a.toNat < 0x10000) : a.getLsbD 15 = true ↔ 0x8000 ≤ a.toNat := by
  rw [BitVec.getLsbD, Nat.testBit_eq_decide_div_mod_eq]
  simp only [decide_eq_true_eq]
  omega

theorem double_toNat {a : Word} (h : a.toNat < 0x8000) : (a <<< 1).toNat = 2 * a.toNat := by
  rw [BitVec.toNat_shiftLeft, Nat.shiftLeft_eq]; omega

/-- `RENORMD`, once: from `1 ≤ A < 0x8000` it doubles `A` until bit 15 is set, at most 15 times (R156). -/
theorem renormLoop_spec {sp : Span} (hl : sp.len ≤ Config.srcCap) (n : Nat) (k : Coder) (hs : k.Sound sp.len)
    (h1 : k.a.toNat < 0x8000) (h2 : 0x8000 ≤ 2 ^ n * k.a.toNat) :
    ∃ m, 1 ≤ m ∧ m ≤ n ∧ (renormLoop sp n k).a.toNat = 2 ^ m * k.a.toNat
      ∧ 0x8000 ≤ (renormLoop sp n k).a.toNat ∧ (renormLoop sp n k).a.toNat ≤ 0xFFFE
      ∧ (renormLoop sp n k).Sound sp.len ∧ k.ptr.toNat ≤ (renormLoop sp n k).ptr.toNat
      ∧ (k.complete = true → (renormLoop sp n k).complete = true) := by
  induction n generalizing k with
  | zero => rw [Nat.pow_zero] at h2; omega
  | succ n ih =>
    have ha : (renormStep sp k).a.toNat = 2 * k.a.toNat := by rw [renormStep_a, double_toNat h1]
    have hs' := renormStep_sound hl hs
    have hm := renormStep_mono hl k
    rw [renormLoop]
    by_cases hb : (renormStep sp k).a.getLsbD 15 = true
    · rw [if_pos hb]
      have hb' := (bit15_iff (by omega)).mp hb
      exact ⟨1, by omega, by omega, by omega, hb', by omega, hs', hm.1, hm.2⟩
    · rw [if_neg hb]
      have hb' : ¬ 0x8000 ≤ (renormStep sp k).a.toNat := fun e => hb ((bit15_iff (by omega)).mpr e)
      obtain ⟨m, m1, m2, e, l, u, s, p, c⟩ := ih (renormStep sp k) hs' (by omega)
        (by rw [ha, ← Nat.mul_assoc, ← Nat.pow_succ]; exact h2)
      exact ⟨m + 1, by omega, by omega, by rw [e, ha, Nat.pow_succ]; ring, l, u, s, by omega, fun h => c (hm.2 h)⟩

theorem renorm_spec {sp : Span} (hl : sp.len ≤ Config.srcCap) (k : Coder) (hs : k.Sound sp.len)
    (h0 : 1 ≤ k.a.toNat) (h1 : k.a.toNat < 0x8000) :
    ∃ m, 1 ≤ m ∧ m ≤ 15 ∧ (renorm sp k).a.toNat = 2 ^ m * k.a.toNat
      ∧ 0x8000 ≤ (renorm sp k).a.toNat ∧ (renorm sp k).a.toNat ≤ 0xFFFE
      ∧ (renorm sp k).Sound sp.len ∧ k.ptr.toNat ≤ (renorm sp k).ptr.toNat
      ∧ (k.complete = true → (renorm sp k).complete = true) :=
  renormLoop_spec hl 15 k hs h1 (by omega)

theorem renorm_live {sp : Span} (hl : sp.len ≤ Config.srcCap) {k : Coder} (hs : k.Sound sp.len)
    (h0 : 1 ≤ k.a.toNat) (h1 : k.a.toNat < 0x8000) :
    (renorm sp k).Live sp.len ∧ k.ptr.toNat ≤ (renorm sp k).ptr.toNat := by
  obtain ⟨m, -, -, -, l, u, s, p, -⟩ := renorm_spec hl k hs h0 h1
  exact ⟨⟨l, by omega, s⟩, p⟩

/-! ### `DECODE` (R158) -/

/-- One decision keeps the decoder's bounds and never moves the pointer back (R165 (2), (4)). -/
theorem decodeBit_live {sp : Span} (hl : sp.len ≤ Config.srcCap) (x : Ctx) {k : Coder} (h : k.Live sp.len) :
    (decodeBit sp x k).coder.Live sp.len ∧ k.ptr.toNat ≤ (decodeBit sp x k).coder.ptr.toNat := by
  have hq := qeRow_bounds x.idx
  have hlow := h.low; have hhigh := h.high
  have ha : (k.a - (qeRow x.idx).qe).toNat = k.a.toNat - (qeRow x.idx).qe.toNat := by
    rw [BitVec.toNat_sub]; omega
  unfold decodeBit
  simp only
  generalize (qeRow x.idx).qe = qe at *
  split
  · split
    · rename_i hb
      rw [bit15_iff (by omega)] at hb
      exact ⟨⟨hb, by simp only; omega, h.sound.ct, h.sound.st, h.sound.ptr⟩, Nat.le_refl _⟩
    · rename_i hb
      rw [bit15_iff (by omega)] at hb
      have hr : ∀ k' : Coder, k' = { k with a := k.a - qe } →
          (renorm sp k').Live sp.len ∧ k.ptr.toNat ≤ (renorm sp k').ptr.toNat := by
        rintro k' rfl
        exact renorm_live (k := { k with a := k.a - qe }) hl ⟨h.sound.ct, h.sound.st, h.sound.ptr⟩
          (by simp only; omega) (by simp only; omega)
      split
      · exact hr _ rfl
      · exact hr _ rfl
  · have hr : ∀ k' : Coder, k' = { k with c := k.c - ((k.a - qe) <<< 16), a := qe } →
        (renorm sp k').Live sp.len ∧ k.ptr.toNat ≤ (renorm sp k').ptr.toNat := by
      rintro k' rfl
      exact renorm_live (k := { k with c := k.c - ((k.a - qe) <<< 16), a := qe }) hl
        ⟨h.sound.ct, h.sound.st, h.sound.ptr⟩ (by simp only; omega) (by simp only; omega)
    split
    · exact hr _ rfl
    · exact hr _ rfl

/-! ### `INITDEC` (R157) -/

/-- The registers as `INITDEC` has set them before its byte-in (R157). -/
def seed (sp : Span) (k : Coder) : Coder :=
  { k with
    st := .dataAvailable
    complete := false
    b := byteAt sp k.ptr.toNat
    c := (byteAt sp k.ptr.toNat ^^^ 0xFF).setWidth 32 <<< 16 }

theorem initDec_eq (sp : Span) (k : Coder) :
    initDec sp k = { byteIn sp (seed sp k) with
      c := (byteIn sp (seed sp k)).c <<< 7
      ct := (byteIn sp (seed sp k)).ct - 7
      a := 0x8000 } := by
  unfold initDec seed
  rfl

theorem initDec_live {sp : Span} (hl : sp.len ≤ Config.srcCap) {k : Coder} (h : k.ptr.toNat ≤ sp.len) :
    (initDec sp k).Live sp.len ∧ k.ptr.toNat ≤ (initDec sp k).ptr.toNat := by
  have key : ∀ k1 : Coder, k1.ptr = k.ptr → k1.st = .dataAvailable → ∀ c : Word,
      ({ byteIn sp k1 with c := c, ct := (byteIn sp k1).ct - 7, a := 0x8000 } : Coder).Live sp.len
        ∧ k.ptr.toNat ≤ (byteIn sp k1).ptr.toNat := by
    intro k1 hp hst c
    have h1 := byteIn_ptr sp hl k1
    rw [hp] at h1
    refine ⟨⟨?_, ?_, ?_, ?_, h1.2 h⟩, h1.1⟩
    · simp
    · simp
    · rcases byteIn_ct sp k1 with e | e <;> simp only [e] <;> decide
    · simp only
      intro e
      rw [byteIn_eq] at e ⊢
      have := byteInFetch_st sp k1 (by rw [hst]; simp) e
      simp [this]
  have h1 : (seed sp k).ptr = k.ptr := by simp only [seed]
  have h2 : (seed sp k).st = .dataAvailable := by simp only [seed]
  rw [initDec_eq]
  exact key _ h1 h2 _

/-! ### No byte beyond the span is read (R165 (3)) -/

theorem byteAt_agree {a b : Span} (h : a.Agree b) (i : Nat) : byteAt a i = byteAt b i := by
  unfold byteAt
  rw [← h.1]
  split
  · exact h.2 i ‹_›
  · rfl

theorem incPtr_agree {a b : Span} (h : a.Agree b) (p : Word) : incPtr a p = incPtr b p := by
  unfold incPtr; rw [h.1]

theorem byteIn_agree {a b : Span} (h : a.Agree b) (k : Coder) : byteIn a k = byteIn b k := by
  unfold byteIn byteInFetch
  simp only [byteAt_agree h, incPtr_agree h, h.1]

theorem renormLoop_agree {a b : Span} (h : a.Agree b) (n : Nat) (k : Coder) : renormLoop a n k = renormLoop b n k := by
  induction n generalizing k with
  | zero => rfl
  | succ n ih =>
    have e : renormStep a k = renormStep b k := by unfold renormStep; rw [byteIn_agree h]
    rw [renormLoop, renormLoop, e, ih]

theorem decodeBit_agree {a b : Span} (h : a.Agree b) (x : Ctx) (k : Coder) : decodeBit a x k = decodeBit b x k := by
  unfold decodeBit renorm
  simp only [renormLoop_agree h]

theorem initDec_agree {a b : Span} (h : a.Agree b) (k : Coder) : initDec a k = initDec b k := by
  unfold initDec
  simp only [byteAt_agree h, byteIn_agree h]

end Sys2Proof.Machine
end

