-- ==== Sys2Proof/Laws/PerInstr.lean ====
section
/-! SUPPORT. Per-instruction laws: the opcode field of every command's word, against the opcode map of R93. -/

namespace Sys2Proof.Laws.EncodeOpcode

open Sys2Proof

/-- The opcode of a command, as R93 lists it. -/
def opcode : Instr → Byte
  | .sysNop => 0x00
  | .sysClrf => 0x01
  | .sysReset => 0x02
  | .brSeek => 0x10
  | .brSkip => 0x11
  | .brAlign => 0x12
  | .brReadBits _ => 0x13
  | .brReadByte => 0x14
  | .brReadU16 => 0x15
  | .brReadU32 => 0x16
  | .brRemain => 0x17
  | .mqInit => 0x20
  | .mqDecode _ => 0x21
  | .cxClear _ => 0x22
  | .cxRd _ => 0x23
  | .cxWr _ => 0x24
  | .htParse _ => 0x30
  | .htDecode _ => 0x31
  | .htInfo _ => 0x32
  | .htRow _ _ => 0x33
  | .bmAlloc _ => 0x40
  | .bmFree _ => 0x41
  | .bmFill _ _ => 0x42
  | .bmGet _ => 0x43
  | .bmSet _ _ => 0x44
  | .bmCopyLine _ => 0x45
  | .bmCompose _ _ _ _ => 0x46
  | .bmExpand _ _ => 0x47
  | .bmSubImage _ _ => 0x48
  | .bmInfo _ _ => 0x49
  | .grdStart => 0x50
  | .grdCont => 0x51
  | .grdAbort => 0x52
  | .grrDecode => 0x60

/-- The opcode field of the word a command assembles to is its opcode (R90, R93). -/
def Statement (i : Instr) : Prop := fieldOp (encode i) = opcode i

theorem sysNop : Statement .sysNop := fieldOp_assemble _ _ _ _
theorem sysClrf : Statement .sysClrf := fieldOp_assemble _ _ _ _
theorem sysReset : Statement .sysReset := fieldOp_assemble _ _ _ _
theorem brSeek : Statement .brSeek := fieldOp_assemble _ _ _ _
theorem brSkip : Statement .brSkip := fieldOp_assemble _ _ _ _
theorem brAlign : Statement .brAlign := fieldOp_assemble _ _ _ _
theorem brReadBits (n : Byte) : Statement (.brReadBits n) := fieldOp_assemble _ _ _ _
theorem brReadByte : Statement .brReadByte := fieldOp_assemble _ _ _ _
theorem brReadU16 : Statement .brReadU16 := fieldOp_assemble _ _ _ _
theorem brReadU32 : Statement .brReadU32 := fieldOp_assemble _ _ _ _
theorem brRemain : Statement .brRemain := fieldOp_assemble _ _ _ _
theorem mqInit : Statement .mqInit := fieldOp_assemble _ _ _ _
theorem mqDecode (bank : Bank) : Statement (.mqDecode bank) := fieldOp_assemble _ _ _ _
theorem cxClear (bank : Bank) : Statement (.cxClear bank) := fieldOp_assemble _ _ _ _
theorem cxRd (bank : Bank) : Statement (.cxRd bank) := fieldOp_assemble _ _ _ _
theorem cxWr (bank : Bank) : Statement (.cxWr bank) := fieldOp_assemble _ _ _ _
theorem htParse (id : Byte) : Statement (.htParse id) := fieldOp_assemble _ _ _ _
theorem htDecode (id : Byte) : Statement (.htDecode id) := fieldOp_assemble _ _ _ _
theorem htInfo (id : Byte) : Statement (.htInfo id) := fieldOp_assemble _ _ _ _
theorem htRow (id : Byte) (sel : RowSel) : Statement (.htRow id sel) := fieldOp_assemble _ _ _ _
theorem bmAlloc (slot : Byte) : Statement (.bmAlloc slot) := fieldOp_assemble _ _ _ _
theorem bmFree (slot : Byte) : Statement (.bmFree slot) := fieldOp_assemble _ _ _ _
theorem bmFill (slot : Byte) (v : Bool) : Statement (.bmFill slot v) := fieldOp_assemble _ _ _ _
theorem bmGet (slot : Byte) : Statement (.bmGet slot) := fieldOp_assemble _ _ _ _
theorem bmSet (slot : Byte) (v : Bool) : Statement (.bmSet slot v) := fieldOp_assemble _ _ _ _
theorem bmCopyLine (slot : Byte) : Statement (.bmCopyLine slot) := fieldOp_assemble _ _ _ _
theorem bmCompose (dst src : Byte) (cop : CombOp) (clip : Bool) : Statement (.bmCompose dst src cop clip) := fieldOp_assemble _ _ _ _
theorem bmExpand (slot : Byte) (v : Bool) : Statement (.bmExpand slot v) := fieldOp_assemble _ _ _ _
theorem bmSubImage (dst src : Byte) : Statement (.bmSubImage dst src) := fieldOp_assemble _ _ _ _
theorem bmInfo (slot : Byte) (sel : InfoSel) : Statement (.bmInfo slot sel) := fieldOp_assemble _ _ _ _
theorem grdStart : Statement .grdStart := fieldOp_assemble _ _ _ _
theorem grdCont : Statement .grdCont := fieldOp_assemble _ _ _ _
theorem grdAbort : Statement .grdAbort := fieldOp_assemble _ _ _ _
theorem grrDecode : Statement .grrDecode := fieldOp_assemble _ _ _ _

end Sys2Proof.Laws.EncodeOpcode
end

