-- ==== Sys2Proof/Laws/Region.lean ====
section
/-! SUPPORT. Region decodes, once: what every piece of a generic or refinement decode keeps (the decoder's bounds, the form and
the untouched part of the bank, the destination's dimensions and form), which rows it writes, and how the row loop ends. -/

namespace Sys2Proof.Machine

/-! ### A property of a region, whichever way a piece of a decode ends -/

/-- The region a piece of a decode ends with has `P`, whether it goes on or fails. -/
def RegionStep.Ends (P : Region → Prop) : RegionStep → Prop
  | .ok r => P r
  | .error r => P r

theorem RegionStep.ends_andThen {P : Region → Prop} {p : RegionStep} {f : Region → RegionStep} (hp : p.Ends P)
    (hf : ∀ r, P r → (f r).Ends P) : (RegionStep.andThen p f).Ends P := by
  cases p with
  | ok r => exact hf r hp
  | error r => exact hp

theorem RegionStep.ends_each {P : Region → Prop} {f : Nat → Region → RegionStep} (hf : ∀ i r, P r → (f i r).Ends P)
    (n i : Nat) (r : Region) (h : P r) : (RegionStep.each f i n r).Ends P := by
  induction n generalizing i r with
  | zero => exact h
  | succ n ih => exact ends_andThen (hf i r h) fun r' h' => ih _ _ h'

theorem RegionStep.ends_each_range {P : Region → Prop} {f : Nat → Region → RegionStep} {lo hi : Nat}
    (hf : ∀ i r, lo ≤ i → i < hi → P r → (f i r).Ends P) (n i : Nat) (r : Region) (h1 : lo ≤ i) (h2 : i + n ≤ hi)
    (h : P r) : (RegionStep.each f i n r).Ends P := by
  induction n generalizing i r with
  | zero => exact h
  | succ n ih => exact ends_andThen (hf i r h1 (by omega) h) fun r' h' => ih _ _ (by omega) (by omega) h'

theorem RegionStep.ends_mono {P Q : Region → Prop} {p : RegionStep} (h : p.Ends P) (hpq : ∀ r, P r → Q r) : p.Ends Q := by
  cases p <;> exact hpq _ h

/-- The two halves of a decode over consecutive columns or rows (R318). -/
theorem RegionStep.each_add (f : Nat → Region → RegionStep) (m n i : Nat) (r : Region) :
    RegionStep.each f i (m + n) r = RegionStep.andThen (RegionStep.each f i m r) (RegionStep.each f (i + m) n) := by
  induction m generalizing i r with
  | zero => simp [RegionStep.each, RegionStep.andThen]
  | succ m ih =>
    rw [Nat.succ_add, RegionStep.each, RegionStep.each]
    cases hf : f i r with
    | error e => rfl
    | ok r' =>
      simp only [RegionStep.andThen]
      rw [ih]
      have e : i + 1 + m = i + (m + 1) := by omega
      rw [e]
      rfl

/-! ### Context numbers (R33) -/

theorem bitsNumber_lt (l : List Bool) : bitsNumber l < 2 ^ l.length := by
  induction l with
  | nil => simp [bitsNumber]
  | cons b t ih =>
    have := b.toNat_le
    rw [bitsNumber, List.length_cons, Nat.pow_succ]; omega

theorem gbTemplate_length (t : BitVec 2) (p : AtPixels) :
    (gbTemplate t p).length = if t = 0 then 16 else if t = 1 then 13 else 10 := by
  unfold gbTemplate
  split
  · rfl
  · split
    · rfl
    · split <;> rfl

theorem gbPrefix_le (t : BitVec 2) : gbPrefix t ≤ Config.gbSize := by
  unfold gbPrefix Config.gbSize; split <;> (try split) <;> omega

theorem grPrefix_le (t : BitVec 1) : grPrefix t ≤ Config.grSize := by
  unfold grPrefix Config.grSize; split <;> omega

theorem grTemplate_length (t : BitVec 1) (a1 a2 : Int × Int) :
    (grTemplate t a1 a2).length = if t = 0 then 13 else 10 := by
  unfold grTemplate; split <;> rfl

/-- A pixel context lies in its template's part of bank 0 (R33). -/
theorem gbContext_lt (t : BitVec 2) (p : AtPixels) (bm : Bitmap) (x y : Nat) : gbContext t p bm x y < gbPrefix t := by
  refine Nat.lt_of_lt_of_le (bitsNumber_lt _) ?_
  rw [List.length_map, gbTemplate_length]
  unfold gbPrefix
  split
  · exact Nat.le_refl _
  · split <;> exact Nat.le_refl _

/-- So does the typical-prediction context (R310). -/
theorem sltpContext_lt (t : BitVec 2) : sltpContext t < gbPrefix t := by
  revert t; decide

theorem grContext_lt (e : GrrEnv) (bm : Bitmap) (x y : Nat) : grContext e bm x y < grPrefix e.t := by
  refine Nat.lt_of_lt_of_le (bitsNumber_lt _) ?_
  rw [List.length_map, grTemplate_length]
  unfold grPrefix
  split <;> exact Nat.le_refl _

theorem sltpRefContext_lt (t : BitVec 1) : sltpRefContext t < grPrefix t := by
  revert t; decide

/-! ### What every piece of a region decode keeps -/

/-- The region `r` made from `r0` by decisions against entries below `pre` of a bank of `size` entries, on a destination of
`w × h` pixels, over a span of `len` bytes. -/
structure Region.From (len size pre w h : Nat) (r0 r : Region) : Prop where
  coder : r.coder.Live len
  ptr : r0.coder.ptr.toNat ≤ r.coder.ptr.toNat
  form : Store.Canonical Ctx.initial r.entries
  bound : ∀ q ∈ r.entries, q.1 < size
  other : ∀ i, pre ≤ i → readCtx r.entries i = readCtx r0.entries i
  wd : r.bm.w = w
  ht : r.bm.h = h
  wf : r.bm.wf

theorem Region.From.setPixel {len size pre w h : Nat} {r0 r : Region} (hr : Region.From len size pre w h r0 r)
    (x y : Nat) (v : Bool) : Region.From len size pre w h r0 (r.setPixel x y v) :=
  ⟨hr.coder, hr.ptr, hr.form, hr.bound, hr.other, by simp [Region.setPixel, hr.wd], by simp [Region.setPixel, hr.ht],
    wf_set hr.wf _ _ _⟩

theorem Region.From.toggleLtp {len size pre w h : Nat} {r0 r : Region} (hr : Region.From len size pre w h r0 r) (v : Bool) :
    Region.From len size pre w h r0 (r.toggleLtp v) :=
  ⟨hr.coder, hr.ptr, hr.form, hr.bound, hr.other, hr.wd, hr.ht, hr.wf⟩

theorem Region.From.copyLine {len size pre w h : Nat} {r0 r : Region} (hr : Region.From len size pre w h r0 r) (d s : Int) :
    Region.From len size pre w h r0 { r with bm := r.bm.copyLine d s } :=
  ⟨hr.coder, hr.ptr, hr.form, hr.bound, hr.other, by simp [hr.wd], by simp [hr.ht], wf_copyLine hr.wf _ _⟩

theorem Region.From.decision {size pre w h : Nat} {sp : Span} (hl : sp.len ≤ Config.srcCap) {r0 r : Region}
    (hr : Region.From sp.len size pre w h r0 r) (hp : pre ≤ size) {i : Nat} (hi : i < pre) :
    Region.From sp.len size pre w h r0 (r.decision sp i).2 := by
  have hd := decodeBit_live hl (readCtx r.entries i) hr.coder
  refine ⟨hd.1, Nat.le_trans hr.ptr hd.2, Store.canonical_write hr.form _ _, fun q hq => ?_, fun j hj => ?_, hr.wd, hr.ht, hr.wf⟩
  · rcases Store.mem_write hq with ⟨rfl, -⟩ | hq
    · simp only; omega
    · exact hr.bound q hq
  · have e : readCtx (r.decision sp i).2.entries j = readCtx r.entries j :=
      Store.read_write_other (by omega)
    rw [e, hr.other j hj]

theorem Region.From.checked {size pre w h : Nat} {sp : Span} (hl : sp.len ≤ Config.srcCap) {r0 r : Region}
    (hr : Region.From sp.len size pre w h r0 r) (hp : pre ≤ size) {i : Nat} (hi : i < pre) {use : Bool → Region → Region}
    (hu : ∀ v r, Region.From sp.len size pre w h r0 r → Region.From sp.len size pre w h r0 (use v r)) :
    (r.checked sp i use).Ends (Region.From sp.len size pre w h r0) := by
  unfold Region.checked
  split
  · exact hr
  · exact hu _ _ (hr.decision hl hp hi)

theorem Region.From.refl {len size pre : Nat} {r : Region} (hc : r.coder.Live len) (hf : Store.Canonical Ctx.initial r.entries)
    (hb : ∀ q ∈ r.entries, q.1 < size) (hw : r.bm.wf) : Region.From len size pre r.bm.w r.bm.h r r :=
  ⟨hc, Nat.le_refl _, hf, hb, fun _ _ => rfl, rfl, rfl, hw⟩

/-! ### The generic decode (R307, R308) -/

/-- A row keeps all of it. -/
theorem decodeRow_from {e : GrdEnv} (hl : e.sp.len ≤ Config.srcCap) {r0 r : Region} {w h : Nat}
    (hr : Region.From e.sp.len Config.gbSize (gbPrefix e.t) w h r0 r) (y : Nat) :
    (decodeRow e y r).Ends (Region.From e.sp.len Config.gbSize (gbPrefix e.t) w h r0) := by
  refine RegionStep.ends_andThen ?_ fun r1 h1 => ?_
  · unfold grdSltp
    split
    · exact hr.checked hl (gbPrefix_le _) (sltpContext_lt _) fun v r h => h.toggleLtp v
    · exact hr
  · split
    · exact h1.copyLine _ _
    · refine RegionStep.ends_each (fun x r2 h2 => ?_) _ _ _ h1
      unfold grdPixel
      split
      · exact h2.setPixel _ _ _
      · exact h2.checked hl (gbPrefix_le _) (gbContext_lt _ _ _ _ _) fun v r h => h.setPixel _ _ _

/-- The rows a region differs in from another: none but row `y`. -/
def Region.OnlyRow (y : Nat) (b : Bitmap) (r : Region) : Prop :=
  r.bm.w = b.w ∧ r.bm.h = b.h ∧ ∀ x y' : Int, y' ≠ y → r.bm.get x y' = b.get x y'

theorem Region.OnlyRow.setPixel {y : Nat} {b : Bitmap} {r : Region} (h : r.OnlyRow y b) (x : Nat) (v : Bool) :
    (r.setPixel x y v).OnlyRow y b := by
  refine ⟨by simp [Region.setPixel, h.1], by simp [Region.setPixel, h.2.1], fun x' y' hy => ?_⟩
  rw [Region.setPixel, get_set, if_neg (fun e => hy e.2.1), h.2.2 _ _ hy]

/-- `DecodeRow(y)` writes row `y` and no other (R308, R319). -/
theorem decodeRow_onlyRow (e : GrdEnv) (y : Nat) (r : Region) : (decodeRow e y r).Ends fun r' => r'.OnlyRow y r.bm := by
  have h0 : r.OnlyRow y r.bm := ⟨rfl, rfl, fun _ _ _ => rfl⟩
  refine RegionStep.ends_andThen (P := fun r' => r'.OnlyRow y r.bm) ?_ fun r1 h1 => ?_
  · unfold grdSltp
    split
    · unfold Region.checked; split <;> exact h0
    · exact h0
  · split
    · refine ⟨by simp [h1.1], by simp [h1.2.1], fun x' y' hy => ?_⟩
      rw [get_copyLine, if_neg (fun e => hy e.1), h1.2.2 _ _ hy]
    · refine RegionStep.ends_each (fun x r2 h2 => ?_) _ _ _ h1
      unfold grdPixel
      split
      · exact h2.setPixel _ _
      · unfold Region.checked
        split
        · exact h2
        · exact Region.OnlyRow.setPixel (r := (r2.decision e.sp _).2) h2 _ _

/-! ### The row loop (R307) -/

/-- How the row loop ends, entered with a row to go: finished with row `H`, failed in a row, or paused between rows. -/
theorem rowLoop_ends (e : GrdEnv) (n : Nat) (l : GrdLoop) (hn : l.row + n = e.h) (h0 : 0 < n) (hd : l.st = .decoding) :
    ((rowLoop e n l).st = .finished ∧ (rowLoop e n l).row = e.h)
      ∨ ((rowLoop e n l).st = .error ∧ l.row ≤ (rowLoop e n l).row ∧ (rowLoop e n l).row < e.h)
      ∨ ((rowLoop e n l).st = .decoding ∧ (rowLoop e n l).pause = true ∧ l.row < (rowLoop e n l).row
        ∧ (rowLoop e n l).row < e.h) := by
  induction n generalizing l with
  | zero => omega
  | succ n ih =>
    rw [rowLoop]
    cases hr : decodeRow e l.row l.region with
    | error r => exact .inr (.inl ⟨rfl, Nat.le_refl _, by simp only; omega⟩)
    | ok r =>
      simp only
      by_cases hf : l.row + 1 = e.h
      · rw [if_pos hf]; exact .inl ⟨rfl, hf⟩
      · rw [if_neg hf]
        by_cases hp : (pauseAt l.pause l.feed).1 = true
        · rw [if_pos hp]
          exact .inr (.inr ⟨hd, hp, by simp only; omega, by simp only; omega⟩)
        · rw [if_neg hp]
          have := ih { l with region := r, row := l.row + 1, pause := (pauseAt l.pause l.feed).1, feed := (pauseAt l.pause l.feed).2 }
            (by simp only; omega) (by omega) hd
          simp only at this
          rcases this with h | ⟨h1, h2, h3⟩ | ⟨h1, h2, h3, h4⟩
          · exact .inl h
          · exact .inr (.inl ⟨h1, by omega, h3⟩)
          · exact .inr (.inr ⟨h1, h2, by omega, h4⟩)

/-- What every row keeps, the row loop keeps. -/
theorem rowLoop_keeps {e : GrdEnv} {P : Region → Prop} (hP : ∀ y r, P r → (decodeRow e y r).Ends P) (n : Nat) (l : GrdLoop)
    (h : P l.region) : P (rowLoop e n l).region := by
  induction n generalizing l with
  | zero => exact h
  | succ n ih =>
    rw [rowLoop]
    have hr := hP l.row l.region h
    cases hd : decodeRow e l.row l.region with
    | error r => rw [hd] at hr; exact hr
    | ok r =>
      rw [hd] at hr
      simp only
      split
      · exact hr
      · split
        · exact hr
        · exact ih _ hr

/-! ### Pause samples (R311) -/

theorem pauseAt_eq (p : Bool) (f : List (Option Bool)) : pauseAt p f = (pauseSample p f 1, f.drop 1) := by
  cases f with
  | nil => simp [pauseAt, pauseSample]
  | cons w f => cases w <;> simp [pauseAt, pauseSample]

theorem pauseSample_succ (p : Bool) (f : List (Option Bool)) (k : Nat) :
    pauseSample p f (k + 1) = pauseSample (pauseSample p f 1) (f.drop 1) k := by
  cases f with
  | nil => cases k <;> simp [pauseSample]
  | cons w f => simp [pauseSample]

/-- `n` rows without a failure and without a sample that reads 1, with rows still to go (R307). -/
theorem rowLoop_rows (e : GrdEnv) (n m : Nat) (r0 r : Region) (row : Nat) (p : Bool) (f : List (Option Bool))
    (h : RegionStep.each (decodeRow e) row n r0 = .ok r) (hm : row + n + m = e.h) (hm1 : 1 ≤ m)
    (hs : ∀ j, 1 ≤ j → j ≤ n → pauseSample p f j = false) :
    rowLoop e (n + m) ⟨r0, row, .decoding, p, f⟩ = rowLoop e m ⟨r, row + n, .decoding, pauseSample p f n, f.drop n⟩ := by
  induction n generalizing row r0 p f with
  | zero => cases h; simp [pauseSample]
  | succ n ih =>
    rw [RegionStep.each] at h
    rw [show n + 1 + m = (n + m) + 1 by omega, rowLoop]
    simp only
    cases hd : decodeRow e row r0 with
    | error q => rw [hd] at h; cases h
    | ok q =>
      rw [hd] at h
      simp only
      rw [if_neg (by omega), pauseAt_eq]
      simp only
      rw [hs 1 (by omega) (by omega), if_neg (by simp)]
      rw [ih q (row + 1) false (f.drop 1) h (by omega) ?_]
      · rw [pauseSample_succ, hs 1 (by omega) (by omega), List.drop_drop]
        congr 2; omega
        congr 1; omega
      · intro j h1 h2
        have := hs (j+1) (by omega) (by omega)
        rwa [pauseSample_succ, hs 1 (by omega) (by omega)] at this

/-! ### The refinement decode (R353) -/

theorem grrRow_from {e : GrrEnv} (hl : e.sp.len ≤ Config.srcCap) {r0 r : Region} {w h : Nat}
    (hr : Region.From e.sp.len Config.grSize (grPrefix e.t) w h r0 r) (y : Nat) :
    (grrRow e y r).Ends (Region.From e.sp.len Config.grSize (grPrefix e.t) w h r0) := by
  refine RegionStep.ends_andThen ?_ fun r1 h1 => ?_
  · unfold grrSltp
    split
    · exact hr.checked hl (grPrefix_le _) (sltpRefContext_lt _) fun v r h => h.toggleLtp v
    · exact hr
  · refine RegionStep.ends_each (fun x r2 h2 => ?_) _ _ _ h1
    unfold grrPixel
    split
    · exact h2.setPixel _ _ _
    · exact h2.checked hl (grPrefix_le _) (grContext_lt _ _ _ _) fun v r h => h.setPixel _ _ _

theorem grrRows_from {e : GrrEnv} (hl : e.sp.len ≤ Config.srcCap) {r0 r : Region} {w h : Nat}
    (hr : Region.From e.sp.len Config.grSize (grPrefix e.t) w h r0 r) :
    (grrRows e r).Ends (Region.From e.sp.len Config.grSize (grPrefix e.t) w h r0) :=
  RegionStep.ends_each (fun y _ h => grrRow_from hl h y) _ _ _ hr

/-! ### No byte beyond the span is read (R320, R362) -/

theorem checked_agree {a b : Span} (h : a.Agree b) (i : Nat) (r : Region) (use : Bool → Region → Region) :
    r.checked a i use = r.checked b i use := by
  unfold Region.checked Region.decision
  rw [decodeBit_agree h]

theorem decodeRow_agree {a b : Span} (h : a.Agree b) (e : GrdEnv) (y : Nat) (r : Region) :
    decodeRow { e with sp := a } y r = decodeRow { e with sp := b } y r := by
  have h1 : ∀ r, grdSltp { e with sp := a } r = grdSltp { e with sp := b } r := by
    intro r; unfold grdSltp; simp only [checked_agree h]
  have h2 : grdPixel { e with sp := a } y = grdPixel { e with sp := b } y := by
    funext x r; unfold grdPixel GrdEnv.skips; simp only [checked_agree h]
  unfold decodeRow
  rw [h1, h2]

theorem rowLoop_agree {a b : Span} (h : a.Agree b) (e : GrdEnv) (n : Nat) (l : GrdLoop) :
    rowLoop { e with sp := a } n l = rowLoop { e with sp := b } n l := by
  induction n generalizing l with
  | zero => rfl
  | succ n ih => rw [rowLoop, rowLoop, decodeRow_agree h]; simp only [ih]

theorem grrRows_agree {a b : Span} (h : a.Agree b) (e : GrrEnv) (r : Region) :
    grrRows { e with sp := a } r = grrRows { e with sp := b } r := by
  have h1 : ∀ r, grrSltp { e with sp := a } r = grrSltp { e with sp := b } r := by
    intro r; unfold grrSltp; simp only [checked_agree h]
  have h2 : grrPixel { e with sp := a } = grrPixel { e with sp := b } := by
    funext y x r
    unfold grrPixel
    simp only [checked_agree h]
    rfl
  have h3 : grrRow { e with sp := a } = grrRow { e with sp := b } := by
    funext y r; unfold grrRow; rw [h1, h2]
  unfold grrRows
  rw [h3]

/-! ### Sequences of pixels and rows -/

/-- Steps that all succeed, one after the other. -/
theorem RegionStep.each_ok (f : Nat → Region → RegionStep) (n i : Nat) (px : Nat → Region)
    (h : ∀ x, x < n → f (i + x) (px x) = .ok (px (x + 1))) : RegionStep.each f i n (px 0) = .ok (px n) := by
  induction n generalizing i px with
  | zero => rfl
  | succ n ih =>
    have h0 : f i (px 0) = .ok (px 1) := h 0 (by omega)
    rw [RegionStep.each, h0]
    exact ih (i + 1) (fun x => px (x + 1)) fun x hx => by
      rw [Nat.add_assoc, Nat.add_comm 1]; exact h (x + 1) (by omega)

/-- Steps that succeed up to the one that fails. -/
theorem RegionStep.each_error (f : Nat → Region → RegionStep) (q : Region) (w n i : Nat) (px : Nat → Region) (hn : n < w)
    (h : ∀ x, x < n → f (i + x) (px x) = .ok (px (x + 1))) (he : f (i + n) (px n) = .error q) :
    RegionStep.each f i w (px 0) = .error q := by
  obtain ⟨w, rfl⟩ : ∃ v, w = v + 1 := ⟨w - 1, by omega⟩
  induction n generalizing i px w with
  | zero =>
    have h0 : f i (px 0) = .error q := he
    rw [RegionStep.each, h0]; rfl
  | succ n ih =>
    obtain ⟨w, rfl⟩ : ∃ v, w = v + 1 := ⟨w - 1, by omega⟩
    have h0 : f i (px 0) = .ok (px 1) := h 0 (by omega)
    rw [RegionStep.each, h0]
    refine ih (i + 1) (fun x => px (x + 1)) (fun x hx => ?_) ?_ w (by omega)
    · rw [Nat.add_assoc, Nat.add_comm 1]; exact h (x + 1) (by omega)
    · rw [Nat.add_assoc, Nat.add_comm 1]; exact he

end Sys2Proof.Machine
end

