-- ==== Sys2Proof/Tests/Slice0.lean ====
section
/-! SUPPORT. The model's own tests. Expected results are the spec's (`95_test_vectors.md` and the worked examples of the rules),
or worked by hand from the rule a comment names. `test_witness_<Name>` shows states and operands that meet the hypotheses of
`Obligations.<Name>`, clause by clause. -/

namespace Sys2Proof.Tests

open Sys2Proof Sys2Proof.Machine

-- one theorem at a time: many kernel evaluations at once ask for more threads than the memory limit allows
set_option Elab.async false

/-! ### Well-formedness: an ill-formed command for each check -/

theorem test_wellFormed_bit_count : wellFormed defaultParams (.brReadBits 33) = false := by decide
theorem test_wellFormed_parse_id :
    wellFormed defaultParams (.htParse 15) = false ∧ wellFormed defaultParams (.htParse 20) = false := by decide
theorem test_wellFormed_table_id :
    wellFormed defaultParams (.htDecode 0) = false ∧ wellFormed defaultParams (.htDecode 20) = false
      ∧ wellFormed defaultParams (.htInfo 0) = false ∧ wellFormed defaultParams (.htInfo 20) = false
      ∧ wellFormed defaultParams (.htRow 0 .kind) = false ∧ wellFormed defaultParams (.htRow 20 .kind) = false := by decide
theorem test_wellFormed_slot :
    wellFormed defaultParams (.bmAlloc 8) = false ∧ wellFormed defaultParams (.bmFree 8) = false
      ∧ wellFormed defaultParams (.bmFill 8 true) = false ∧ wellFormed defaultParams (.bmGet 8) = false
      ∧ wellFormed defaultParams (.bmSet 8 true) = false ∧ wellFormed defaultParams (.bmCopyLine 8) = false
      ∧ wellFormed defaultParams (.bmExpand 8 true) = false ∧ wellFormed defaultParams (.bmInfo 8 .valid) = false := by decide
theorem test_wellFormed_two_slots :
    wellFormed defaultParams (.bmCompose 8 0 .or false) = false ∧ wellFormed defaultParams (.bmCompose 0 8 .or false) = false
      ∧ wellFormed defaultParams (.bmSubImage 8 0) = false ∧ wellFormed defaultParams (.bmSubImage 0 8) = false := by decide

/-! ### Decoding: a word written out from R90, R93, R94 for every constructor -/

theorem test_decode_sys :
    decodeTableWord 32 0x00000000 = some .sysNop ∧ decodeTableWord 32 0x01000000 = some .sysClrf
      ∧ decodeTableWord 32 0x02000000 = some .sysReset := by decide
theorem test_decode_br :
    decodeTableWord 32 0x10000000 = some .brSeek ∧ decodeTableWord 32 0x11000000 = some .brSkip
      ∧ decodeTableWord 32 0x12000000 = some .brAlign ∧ decodeTableWord 32 0x1300000A = some (.brReadBits 10)
      ∧ decodeTableWord 32 0x13000020 = some (.brReadBits 32) ∧ decodeTableWord 32 0x14000000 = some .brReadByte
      ∧ decodeTableWord 32 0x15000000 = some .brReadU16 ∧ decodeTableWord 32 0x16000000 = some .brReadU32
      ∧ decodeTableWord 32 0x17000000 = some .brRemain := by decide
theorem test_decode_mq :
    decodeTableWord 32 0x20000000 = some .mqInit ∧ decodeTableWord 32 0x21000000 = some (.mqDecode .gb)
      ∧ decodeTableWord 32 0x21010000 = some (.mqDecode .gr) ∧ decodeTableWord 32 0x22010000 = some (.cxClear .gr)
      ∧ decodeTableWord 32 0x23000000 = some (.cxRd .gb) ∧ decodeTableWord 32 0x24010000 = some (.cxWr .gr) := by decide
theorem test_decode_ht :
    decodeTableWord 32 0x30100000 = some (.htParse 16) ∧ decodeTableWord 32 0x310F0000 = some (.htDecode 15)
      ∧ decodeTableWord 32 0x32130000 = some (.htInfo 19) ∧ decodeTableWord 32 0x33100003 = some (.htRow 16 .code)
      ∧ decodeTableWord 32 0x33010004 = some (.htRow 1 .kind) := by decide
theorem test_decode_bm_one_slot :
    decodeTableWord 32 0x40070000 = some (.bmAlloc 7) ∧ decodeTableWord 32 0x41030000 = some (.bmFree 3)
      ∧ decodeTableWord 32 0x42030001 = some (.bmFill 3 true) ∧ decodeTableWord 32 0x43020000 = some (.bmGet 2)
      ∧ decodeTableWord 32 0x44070001 = some (.bmSet 7 true) ∧ decodeTableWord 32 0x45010000 = some (.bmCopyLine 1)
      ∧ decodeTableWord 32 0x47050000 = some (.bmExpand 5 false)
      ∧ decodeTableWord 32 0x49060003 = some (.bmInfo 6 .stride) := by decide
theorem test_decode_bm_two_slots :
    decodeTableWord 32 0x4602050B = some (.bmCompose 2 5 .xnor true)
      ∧ decodeTableWord 32 0x46000104 = some (.bmCompose 0 1 .replace false)
      ∧ decodeTableWord 32 0x46010209 = some (.bmCompose 1 2 .and true)
      ∧ decodeTableWord 32 0x48050400 = some (.bmSubImage 5 4) := by decide
theorem test_decode_region :
    decodeTableWord 32 0x50000000 = some .grdStart ∧ decodeTableWord 32 0x51000000 = some .grdCont
      ∧ decodeTableWord 32 0x52000000 = some .grdAbort ∧ decodeTableWord 32 0x60000000 = some .grrDecode := by decide

/-- The illegal words of `95_test_vectors.md` section 2. -/
theorem test_decode_illegal :
    ([0x13000021, 0x13010000, 0x21020000, 0x300F0000, 0x31000000, 0x31140000, 0x33100005, 0x46020505, 0x46020510, 0x40080000,
      0x42030002, 0x50000001, 0x03000000, 0x18000000, 0x7F000000, 0xFFFFFFFF] : List Nat).all
        (fun w => decodeTableWord 32 w == none) = true := by decide +kernel

/-! ### Helpers: one command on a small state -/

/-- What `f` reads in the next state an outcome gives. -/
def look {α : Type} (r : Host.Outcome State Fault Refusal) (f : State → α) : Option α :=
  match r with
  | .next t => some (f t)
  | _ => none

/-- The outcome is a next state. -/
def answers (r : Host.Outcome State Fault Refusal) : Bool := (look r fun _ => ()).isSome

/-- The next state of a command. -/
def after (i : Instr) (s : State) : State := (look (exec i s) id).getD s

/-- The next state of a step. -/
def stepped (s : State) : State := (look (step s) id).getD s

theorem exec_after {i : Instr} {s : State} (h : answers (exec i s) = true) : exec i s = .next (after i s) := by
  unfold after
  cases he : exec i s with
  | next t => rfl
  | fault r => rw [he] at h; cases h
  | refused r => rw [he] at h; cases h

theorem step_stepped {s : State} (h : answers (step s) = true) : step s = .next (stepped s) := by
  unfold stepped
  cases he : step s with
  | next t => rfl
  | fault r => rw [he] at h; cases h
  | refused r => rw [he] at h; cases h

/-- `LOAD bytes` after reset, with the cursor at a position. -/
def at' (bytes : List Byte) (i : Word) (b : BitVec 3) : State :=
  { State.reset with
    src := (List.range bytes.length).zip bytes, srcLen := BitVec.ofNat 32 bytes.length, cur := ⟨i, b⟩ }

/-- The five-byte span of `95_test_vectors.md` section 1. -/
def span5 : Word → BitVec 3 → State := at' [0x12, 0x34, 0x56, 0x78, 0x9A]

/-- `SRC2` of `95_test_vectors.md`. -/
def src2 : List Byte := (List.range 48).map fun i => BitVec.ofNat 8 ((73 * i + 41) % 251)

/-- `LOAD SRC2`, both banks cleared, `MQ.INIT` (the last line of the `MQ.INIT` table). -/
def mqReady : State :=
  { at' src2 1 0 with
    mq := ⟨0x8000, 0x6B468000, 1, 0x72, .dataAvailable, false, true⟩, gbBank := ⟨true, []⟩, grBank := ⟨true, []⟩ }

/-- `LOAD FF`, both banks cleared, `MQ.INIT`. -/
def mqEnded : State :=
  { at' [0xFF] 0 0 with
    mq := ⟨0x8000, 0, 1, 0xFF, .decodingFinished, false, true⟩, gbBank := ⟨true, []⟩, grBank := ⟨true, []⟩ }

/-- The same after its first decision, which completed the stream. -/
def mqComplete : State :=
  { mqEnded with mq := ⟨0xA7FC, 0, 7, 0xFF, .looping, true, true⟩, gbBank := ⟨true, [(0, ⟨1, true⟩)]⟩ }

/-- `D0` and `S0` of `95_test_vectors.md` section 5 in slots 0 and 1, with two operands. -/
def pics (a0 a1 : Word) : State :=
  { State.reset with
    bitmaps := [(0, ⟨6, 3, [(0, 0xC8), (4, 0x34), (8, 0xA8)]⟩), (1, ⟨4, 2, [(0, 0xA0), (4, 0x50)]⟩)], arg0 := a0, arg1 := a1 }

/-- The first byte of every row of a slot's bitmap. -/
def rows (slot : Nat) (s : State) : Option (List Byte) :=
  (s.bitmap slot).map fun b => (List.range b.h).map fun y => b.byte (y * b.stride)

/-- The block is Faulted with `MQ.DECODE bank=GB` recorded (R407 (1)). -/
def faulted : State := State.reset.takeFault .badState 0x21000000

/-- The generic-region registers for a 4×2 region with template 2 and typical prediction, nominal offsets, into slot 0. -/
def gb42 : GbRegs := ⟨4, 2, 0x00000006, 0x0000FF02, 0⟩

/-- Ready for the worked example R321. -/
def grdReady : State := { mqReady with gb := gb42 }

/-- The same decode, paused after its first row. -/
def grdPaused : State := after .grdStart { grdReady with pause := true }

/-- The same with the pause indicator cleared. -/
def grdResumed : State := { grdPaused with pause := false }

/-- Ready to refine `REF0` (slot 1) into slot 0, template 0, no typical prediction (the first line of R363). -/
def grrReady : State :=
  { mqReady with
    gr := ⟨8, 6, 0x00010000, 0, 0, 0xFFFFFFFF⟩
    bitmaps := [(1, ⟨8, 6, [(4, 0x7C), (8, 0x7C), (12, 0x7C), (16, 0x03), (20, 0x03)]⟩)] }

/-- The description of `95_test_vectors.md` section 4, followed by the bits program P3 decodes. -/
def table15 : List Byte :=
  [0x15, 0xFF, 0xFF, 0xFF, 0xFE, 0x00, 0x00, 0x00, 0x06, 0x49, 0x9B, 0x6C, 0x77, 0x3B, 0xC0, 0x00, 0x00, 0x00, 0x5F, 0x00,
   0x00, 0x00, 0x07]

/-- The table it stands for, as that section lists it. -/
def parsed15 : HTable :=
  ⟨true, [⟨.normal, 2, 1, 0xFFFFFFFE, 0b10, false⟩, ⟨.normal, 1, 2, 0, 0b0, false⟩, ⟨.normal, 3, 1, 4, 0b110, false⟩,
    ⟨.lower, 5, 32, 0xFFFFFFFD, 0b11110, false⟩, ⟨.upper, 5, 32, 6, 0b11111, false⟩, ⟨.oob, 4, 0, 0, 0b1110, false⟩]⟩

/-- Program P3 after `HT.PARSE`, with the cursor at a position. -/
def withTable (i : Word) (b : BitVec 3) : State := { at' table15 i b with tables := [(16, parsed15)] }

/-- What a read command reports: `RESULT`, `FLAGS`, and the cursor after it. -/
def report (s : State) : Word × Word × Cursor := (s.result, s.flagsWord, s.cur)

/-! ### System commands -/

/-- R405. -/
theorem test_sysNop : exec .sysNop (span5 0 0) = .next (span5 0 0) := rfl
/-- P5: `SYS.CLRF` after a fault leaves Idle, `FAULT = 0`, `FAULT_CMD = 0`. -/
theorem test_sysClrf :
    look (exec .sysClrf faulted) (fun t => (t.statusWord, t.faultWord, t.faultCmd)) = some (0, 0, 0) := by decide +kernel
/-- P5: after `SYS.RESET` every register reads 0, but the source byte stays and `LEN = 0`. -/
theorem test_sysReset :
    look (exec .sysReset { mqComplete with core := .faulted, fault := some .badState })
      (fun t => (t.statusWord, t.faultWord, t.mq.a, t.len, t.span.byte 0)) = some (0, 0, 0, 0, 0xFF) := by decide +kernel

/-! ### Bit reader (section 1) -/

theorem test_brSeek :
    look (exec .brSeek { span5 4 0 with arg0 := 1 }) State.cur = some ⟨1, 0⟩
      ∧ look (exec .brSeek { span5 0 0 with arg0 := 9 }) State.cur = some ⟨5, 0⟩ := by decide +kernel
theorem test_brSkip :
    look (exec .brSkip { span5 1 0 with arg0 := 2 }) State.cur = some ⟨3, 0⟩
      ∧ look (exec .brSkip { span5 1 0 with arg0 := 0xFFFFFFFF }) State.cur = some ⟨5, 0⟩ := by decide +kernel
theorem test_brAlign :
    look (exec .brAlign (span5 3 5)) State.cur = some ⟨4, 0⟩ ∧ look (exec .brAlign (span5 3 0)) State.cur = some ⟨3, 0⟩ := by
  decide +kernel
theorem test_brReadBits :
    look (exec (.brReadBits 12) (span5 0 4)) report = some (0x234, 0, ⟨2, 0⟩)
      ∧ look (exec (.brReadBits 32) (span5 0 0)) report = some (0x12345678, 0, ⟨4, 0⟩)
      ∧ look (exec (.brReadBits 8) (span5 4 4)) report = some (0xA, 2, ⟨5, 0⟩) := by decide +kernel
/-- The source's own example: ten bits of `[0xB1]` are the eight there are. -/
theorem test_brReadBits_source : look (exec (.brReadBits 10) (at' [0xB1] 0 0)) report = some (0xB1, 2, ⟨1, 0⟩) := by
  decide +kernel
theorem test_brReadByte :
    look (exec .brReadByte (span5 2 0)) report = some (0x56, 0, ⟨3, 0⟩)
      ∧ look (exec .brReadByte (span5 5 0)) report = some (0, 2, ⟨5, 0⟩) := by decide +kernel
theorem test_brReadU16 :
    look (exec .brReadU16 (span5 0 0)) report = some (0x1234, 0, ⟨2, 0⟩)
      ∧ look (exec .brReadU16 (span5 4 0)) report = some (0, 2, ⟨4, 0⟩) := by decide +kernel
theorem test_brReadU32 :
    look (exec .brReadU32 (span5 1 0)) report = some (0x3456789A, 0, ⟨5, 0⟩)
      ∧ look (exec .brReadU32 (span5 2 0)) report = some (0, 2, ⟨2, 0⟩) := by decide +kernel
theorem test_brRemain :
    look (exec .brRemain (span5 4 4)) report = some (1, 0, ⟨4, 4⟩)
      ∧ look (exec .brRemain (span5 5 0)) report = some (0, 0, ⟨5, 0⟩) := by decide +kernel
/-- R26: the longest span, and one byte more. -/
theorem test_srcLen :
    ({ State.reset with srcLen := 0x10000000 }).len = 2 ^ 28 ∧ ({ State.reset with srcLen := 0x10000001 }).len = 0 := by
  decide +kernel

/-! ### MQ decoder and contexts (section 3) -/

/-- Lines of the `MQ.INIT` table: the empty span, `FF`, `FF 8F`, `SRC2`. -/
theorem test_mqInit :
    look (exec .mqInit (at' [] 0 0)) (fun t => (t.mq, t.cur)) = some (⟨0x8000, 0, 1, 0xFF, .decodingFinished, true, true⟩, ⟨0, 0⟩)
      ∧ look (exec .mqInit (at' [0xFF] 0 0)) (fun t => (t.mq, t.cur))
        = some (⟨0x8000, 0, 1, 0xFF, .decodingFinished, false, true⟩, ⟨0, 0⟩)
      ∧ look (exec .mqInit (at' [0xFF, 0x8F] 0 0)) (fun t => (t.mq, t.cur))
        = some (⟨0x8000, 0xFFF00000, 0, 0x8F, .dataAvailable, false, true⟩, ⟨1, 0⟩)
      ∧ look (exec .mqInit (at' src2 0 0)) (fun t => (t.mq, t.cur))
        = some (⟨0x8000, 0x6B468000, 1, 0x72, .dataAvailable, false, true⟩, ⟨1, 0⟩) := by decide +kernel
/-- The `[FF]` sequence: the first decision. -/
theorem test_mqDecode :
    look (exec (.mqDecode .gb) mqEnded) (fun t => (t.result, t.mq, t.gbBank.entries, t.statusWord))
      = some (1, ⟨0xA7FC, 0, 7, 0xFF, .looping, true, true⟩, [(0, ⟨1, true⟩)], 0x000003B0) := by decide +kernel
/-- The `[FF]` sequence: the second decision faults with nothing changed. -/
theorem test_mqDecode_complete :
    look (exec (.mqDecode .gb) mqComplete) (fun t => (t.faultWord, t.faultCmd, t.mq)) = some (8, 0x21000000, mqComplete.mq) := by
  decide +kernel
theorem test_cxClear :
    look (exec (.cxClear .gr) { mqComplete with grBank := ⟨false, [(5, ⟨3, true⟩)]⟩ }) (fun t => (t.grBank, t.gbBank))
      = some (⟨true, []⟩, mqComplete.gbBank) := by decide +kernel
/-- P5: entry `(1, 1)` reads `0x81`. -/
theorem test_cxRd : look (exec (.cxRd .gb) mqComplete) State.result = some 0x81 := by decide +kernel
/-- R162: a legal packed entry, and one with `I = 47`. -/
theorem test_cxWr :
    look (exec (.cxWr .gr) { mqReady with arg0 := 8191, arg1 := 0xAE }) (fun t => readCtx t.grBank.entries 8191) = some ⟨46, true⟩
      ∧ look (exec (.cxWr .gr) { mqReady with arg0 := 8191, arg1 := 0x2F }) State.faultWord = some 4 := by decide +kernel

/-! ### Huffman decoder (section 4, program P3) -/

theorem test_htParse :
    look (exec (.htParse 16) (at' table15 0 0)) (fun t => (t.table 16, t.cur)) = some (some parsed15, ⟨12, 0⟩) := by decide +kernel
/-- The three failing descriptions: StructuralError twice, then StreamExhausted at the end of the span. -/
theorem test_htParse_fails :
    look (exec (.htParse 16) (at' [0x80] 0 0)) State.faultWord = some 6
      ∧ look (exec (.htParse 16) (at' [0, 0, 0, 0, 5, 0, 0, 0, 1] 0 0)) State.faultWord = some 6
      ∧ look (exec (.htParse 16) (at' [0, 0, 0] 0 0)) (fun t => (t.faultWord, t.cur, t.table 16)) = some (7, ⟨3, 0⟩, none) := by
  decide +kernel
/-- P3: the out-of-band row, the Lower row, and the end of the span. -/
theorem test_htDecode_custom :
    look (exec (.htDecode 16) (withTable 13 2)) report = some (0, 1, ⟨13, 6⟩)
      ∧ look (exec (.htDecode 16) (withTable 13 6)) report = some (0xFFFFFFFB, 0, ⟨18, 3⟩)
      ∧ look (exec (.htDecode 16) (withTable 23 0)) (fun t => (t.faultWord, t.faultCmd, t.cur))
        = some (7, 0x31100000, ⟨23, 0⟩) := by decide +kernel
/-- Standard tables: 1, 2 and 3, and table 6 with no code for 32 ones. -/
theorem test_htDecode_standard :
    look (exec (.htDecode 1) (at' [0xA5, 0xC0] 0 0)) report = some (167, 0, ⟨1, 2⟩)
      ∧ look (exec (.htDecode 2) (at' [0xFC] 0 0)) report = some (0, 1, ⟨0, 6⟩)
      ∧ look (exec (.htDecode 3) (at' [0xFF, 0, 0, 0, 3] 0 0)) report = some (0xFFFFFEFC, 0, ⟨5, 0⟩)
      ∧ look (exec (.htDecode 6) (at' [0xFF, 0xFF, 0xFF, 0xFF, 0xFF] 0 0)) (fun t => (t.faultWord, t.cur))
        = some (9, ⟨4, 0⟩) := by decide +kernel
theorem test_htInfo :
    look (exec (.htInfo 16) (withTable 12 0)) State.result = some 0x80010006
      ∧ look (exec (.htInfo 3) State.reset) State.result = some 0x80010009
      ∧ look (exec (.htInfo 16) State.reset) State.result = some 0 := by decide +kernel
theorem test_htRow :
    look (exec (.htRow 16 .code) { withTable 12 0 with arg0 := 3 }) State.result = some 0b11110
      ∧ look (exec (.htRow 16 .rangelow) { withTable 12 0 with arg0 := 0 }) State.result = some 0xFFFFFFFE
      ∧ look (exec (.htRow 16 .kind) { withTable 12 0 with arg0 := 5 }) State.result = some 3
      ∧ look (exec (.htRow 16 .preflen) { withTable 12 0 with arg0 := 6 }) State.faultWord = some 4 := by decide +kernel
/-- The three worked code assignments: an over-full set has a dead row, a row of length 0 has no code. -/
theorem test_assignCodes :
    (assignCodes ([2, 1, 3, 5, 5, 4].map fun l => ⟨.normal, l, 0, 0⟩)).map HtRow.code = [0b10, 0, 0b110, 0b11110, 0b11111, 0b1110]
      ∧ (assignCodes ([1, 1, 1].map fun l => ⟨.normal, l, 0, 0⟩)).map (fun r => (r.code, r.dead))
        = [(0, false), (1, false), (2, true)]
      ∧ (assignCodes ([0, 2, 2].map fun l => ⟨.normal, l, 0, 0⟩)).map (fun r => (r.code, r.dead, r.isDead))
        = [(0, false, true), (0, false, false), (1, false, false)] := by decide +kernel
/-- R46 (7) on the ROM: a table with an OOB row has 4 rows or more, and at most `HT_MAXROWS` of them. -/
theorem test_legal_rom :
    defaultParams.legal = true
      ∧ Params.legal { defaultParams with stdRom := List.replicate 15 ⟨true, List.replicate 3 ⟨.normal, 1, 0, 0⟩⟩ } = false
      ∧ Params.legal { defaultParams with stdRom := List.replicate 15 ⟨true, List.replicate 4 ⟨.normal, 1, 0, 0⟩⟩ } = true
      ∧ Params.legal { defaultParams with stdRom := List.replicate 15 ⟨false, List.replicate 3 ⟨.normal, 1, 0, 0⟩⟩ } = true
      ∧ Params.legal { defaultParams with
          htMaxRows := 4, stdRom := List.replicate 15 ⟨true, List.replicate 5 ⟨.normal, 1, 0, 0⟩⟩ } = false := by
  decide +kernel

/-! ### Bitmap unit (section 5) -/

theorem test_bmAlloc :
    look (exec (.bmAlloc 2) (pics 33 1)) (fun t => t.bitmap 2) = some (some (Bitmap.blank 33 1))
      ∧ look (exec (.bmAlloc 2) (pics 0 3)) State.faultWord = some 4
      ∧ look (exec (.bmAlloc 2) (pics 0xFFFFFFFF 3)) State.faultWord = some 5 := by decide +kernel
theorem test_bmFree :
    look (exec (.bmFree 0) (pics 0 0)) (fun t => (t.bitmap 0, rows 1 t)) = some (none, some [0xA0, 0x50]) := by decide +kernel
theorem test_bmFill : look (exec (.bmFill 0 true) (pics 0 0)) (rows 0) = some (some [0xFC, 0xFC, 0xFC]) := by decide +kernel
theorem test_bmGet :
    look (exec (.bmGet 0) (pics 2 1)) State.result = some 1 ∧ look (exec (.bmGet 0) (pics 5 2)) State.result = some 0
      ∧ look (exec (.bmGet 0) (pics 6 0)) State.result = some 0
      ∧ look (exec (.bmGet 0) (pics 0xFFFFFFFF 0)) State.result = some 0 := by decide +kernel
/-- R253: a pixel inside, and one outside. -/
theorem test_bmSet :
    look (exec (.bmSet 0 true) (pics 1 1)) (rows 0) = some (some [0xC8, 0x74, 0xA8])
      ∧ look (exec (.bmSet 0 true) (pics 6 1)) (rows 0) = some (some [0xC8, 0x34, 0xA8]) := by decide +kernel
theorem test_bmCopyLine :
    look (exec (.bmCopyLine 0) (pics 0 2)) (rows 0) = some (some [0xA8, 0x34, 0xA8])
      ∧ look (exec (.bmCopyLine 0) (pics 1 0xFFFFFFFF)) (rows 0) = some (some [0xC8, 0, 0xA8])
      ∧ look (exec (.bmCopyLine 0) (pics 3 0)) (rows 0) = some (some [0xC8, 0x34, 0xA8]) := by decide +kernel
theorem test_bmCompose :
    look (exec (.bmCompose 0 1 .or false) (pics 1 1)) (rows 0) = some (some [0xC8, 0x74, 0xA8])
      ∧ look (exec (.bmCompose 0 1 .and false) (pics 1 1)) (rows 0) = some (some [0xC8, 0x14, 0xA8])
      ∧ look (exec (.bmCompose 0 1 .xor false) (pics 1 1)) (rows 0) = some (some [0xC8, 0x64, 0x80])
      ∧ look (exec (.bmCompose 0 1 .xnor false) (pics 1 1)) (rows 0) = some (some [0xC8, 0x1C, 0xF8])
      ∧ look (exec (.bmCompose 0 1 .replace false) (pics 0xFFFFFFFE 0xFFFFFFFF)) (rows 0) = some (some [0x48, 0x34, 0xA8])
      ∧ look (exec (.bmCompose 0 1 .xor false) (pics 4 2)) (rows 0) = some (some [0xC8, 0x34, 0xA0]) := by decide +kernel
/-- Clipped onto zeros: the rectangles `(2, 1, 4, 3)` and `(−1, 0, 3, 2)`. -/
theorem test_bmCompose_clip :
    look (exec (.bmCompose 2 1 .replace true)
        { pics 0 0 with rect := ⟨2, 1, 4, 3⟩, bitmaps := Store.set (pics 0 0).bitmaps 2 (Bitmap.blank 6 3) }) (rows 2)
      = some (some [0x40, 0, 0])
      ∧ look (exec (.bmCompose 2 1 .or true)
        { pics 1 0 with rect := ⟨0xFFFFFFFF, 0, 3, 2⟩, bitmaps := Store.set (pics 0 0).bitmaps 2 (Bitmap.blank 6 3) }) (rows 2)
      = some (some [0x20, 0x10, 0]) := by decide +kernel
theorem test_bmExpand :
    look (exec (.bmExpand 0 true) (pics 5 0)) (rows 0) = some (some [0xC8, 0x34, 0xA8, 0xFC, 0xFC])
      ∧ look (exec (.bmExpand 0 true) (pics 2 0)) (rows 0) = some (some [0xC8, 0x34, 0xA8]) := by decide +kernel
theorem test_bmSubImage :
    look (exec (.bmSubImage 5 0) { pics 0 0 with rect := ⟨4, 1, 4, 3⟩ }) (rows 5) = some (some [0x40, 0x80, 0]) := by
  decide +kernel
theorem test_bmInfo :
    look (exec (.bmInfo 0 .valid) (pics 0 0)) State.result = some 1
      ∧ look (exec (.bmInfo 0 .width) (pics 0 0)) State.result = some 6
      ∧ look (exec (.bmInfo 0 .height) (pics 0 0)) State.result = some 3
      ∧ look (exec (.bmInfo 0 .stride) (pics 0 0)) State.result = some 4
      ∧ look (exec (.bmInfo 7 .width) (pics 0 0)) State.result = some 0 := by decide +kernel

/-! ### Region decoders (sections 6 and 7) -/

/-- R321: `1100 / 0101`, Finished. -/
theorem test_grdStart :
    look (exec .grdStart grdReady) (fun t => (rows 0 t, t.grd.st, t.mq.a, t.mq.c, t.mq.ct))
      = some (some [0xC0, 0x50], .finished, 0xAC02, 0x19C60000, 0) := by decide +kernel
/-- P5: a complete decoder fails before the first decision, the destination being made all the same. -/
theorem test_grdStart_complete :
    look (exec .grdStart { mqComplete with gb := ⟨8, 4, 0, 0xFFFDFF03, 0xFEFEFE02⟩ })
      (fun t => (t.statusWord, t.faultWord, t.faultCmd, rows 0 t))
      = some (0x000003BE, 8, 0x50000000, some [0, 0, 0, 0]) := by decide +kernel
/-- R318, R321: paused after row 0 and resumed, the decode ends as the unpaused one; the trace gives the state at the pause. -/
theorem test_grdCont :
    (rows 0 grdPaused, grdPaused.grd, grdPaused.mq.c, grdPaused.mq.ct)
        = (some [0xC0, 0], ⟨.decoding, 1, false⟩, 0x18DC4000, 4)
      ∧ look (exec .grdCont grdResumed) (fun t => (rows 0 t, t.grd.st, t.mq.a, t.mq.c, t.mq.ct))
        = some (some [0xC0, 0x50], .finished, 0xAC02, 0x19C60000, 0) := by decide +kernel
theorem test_grdAbort : look (exec .grdAbort grdPaused) State.grd = some ⟨.ready, 0, false⟩ := by decide +kernel
/-- R363, first line and the last but one. -/
theorem test_grrDecode :
    look (exec .grrDecode grrReady) (fun t => (rows 0 t, t.mq.c, t.mq.ct, t.mq.b, t.cur))
        = some (some [0x7A, 0x80, 0xF9, 0xCF, 0x4A, 0x0B], 0x68C86800, 5, 0x32, ⟨7, 0⟩)
      ∧ look (exec .grrDecode { grrReady with gr := ⟨8, 6, 0x00010003, 1, 0xFFFFFFFF, 0xFFFFFFFF⟩ })
        (fun t => (rows 0 t, t.mq.a, t.mq.c, t.mq.ct))
        = some (some [0xC0, 0x71, 0xE5, 0x9F, 0xA6, 0xC5], 0xF002, 0x28630800, 7) := by decide +kernel
/-- R363: the span cut to three bytes. -/
theorem test_grrDecode_cut :
    look (exec .grrDecode { grrReady with srcLen := 3 }) (fun t => (t.faultWord, t.mq.c, t.mq.ct, t.mq.b, t.cur))
      = some (8, 0x2BE00000, 7, 0xFF, ⟨3, 0⟩) := by decide +kernel

/-! ### The port -/

/-- R61, R25: a byte of the live span is overwritten: the decoder is no longer valid and a paused decode is lost. -/
theorem test_srcWrite :
    look (step { grdPaused with host := ⟨[.srcWrite 47 0], [], 0, false, 0, 0⟩ }) (fun t => (t.mq.valid, t.grd.st, t.span.byte 47))
      = some (false, .error, 0) := by decide +kernel
/-- R63, R64: a written byte's padding bits have no effect. -/
theorem test_bmWrite :
    look (step { pics 0 0 with host := ⟨[.bmWrite 0 4 0xFF], [], 0, false, 0, 0⟩ }) (rows 0) = some (some [0xC8, 0xFC, 0xA8]) := by
  decide +kernel
/-- R36: reserved bits of `GB_CFG` read 0. -/
theorem test_gbCfg :
    look (step { State.reset with host := ⟨[.regWrite 0x58 0xFFFFFFFF], [], 0, false, 0, 0⟩ }) (fun t => t.regView 0x58)
      = some 0x00FFFF0F := by decide +kernel
/-- P4: `STATUS = 0x00000114` at a pause, here with both banks valid (R25). -/
theorem test_status :
    look (step { grdPaused with host := ⟨[.regRead 0x04], [], 0, false, 0, 0⟩ }) (fun t => t.host.readData)
      = some 0x00000314 := by decide +kernel

/-- The word a host writes to `CMD` runs as the next step's command. -/
theorem test_withFetchWord : look (step ((span5 3 5).withFetchWord 32 0x12000000)) State.cur = some ⟨4, 0⟩ := by decide +kernel

/-! ### Witnesses: command words, the port and the step -/

/-- The state with one host operation pending. -/
def asked (op : HostOp) (s : State) : State := { s with host := { s.host with ops := [op] } }

theorem test_witness_DecodeOfEncode :
    wellFormed defaultParams (.brReadBits 32) = true ∧ wellFormed defaultParams (.htParse 19) = true
      ∧ wellFormed defaultParams (.htRow 1 .kind) = true ∧ wellFormed defaultParams (.bmCompose 7 0 .xnor true) = true := by decide
theorem test_witness_EncodeOfDecode :
    decode defaultParams 0x4602050B = .ok (.bmCompose 2 5 .xnor true) ∧ decode defaultParams 0x13000020 = .ok (.brReadBits 32) := by
  decide
/-- Both sides hold of the longest read and neither of one bit more. -/
theorem test_witness_LegalWords_legal : LegalWord defaultParams 0x13 0 0 32 ∧ LegalWord defaultParams 0x46 7 7 12 := by
  constructor <;> simp [LegalWord, defaultParams]
theorem test_witness_LegalWords_illegal : ¬ LegalWord defaultParams 0x13 0 0 33 ∧ ¬ LegalWord defaultParams 0x46 7 7 13 := by
  constructor <;> simp [LegalWord, defaultParams]
theorem test_witness_StepRunsDecoded :
    let s := asked (.regWrite 0x00 0x12000000) (span5 3 5)
    decode s.cfg 0x12000000 = .ok .brAlign ∧ s.host.ops = .regWrite 0x00 0x12000000 :: [] := ⟨by decide, rfl⟩
theorem test_witness_IssueRule_illegal :
    let s := asked (.regWrite 0x00 0x7F000000) State.reset
    s.host.ops = .regWrite 0x00 0x7F000000 :: [] ∧ s.core = .idle ∧ decode s.cfg 0x7F000000 = .error .opcode :=
  ⟨rfl, rfl, by decide⟩
theorem test_witness_IssueRule_faulted :
    (asked (.regWrite 0x00 0x20000000) faulted).host.ops = .regWrite 0x00 0x20000000 :: []
      ∧ (asked (.regWrite 0x00 0x01000000) faulted).host.ops = .regWrite 0x00 0x01000000 :: []
      ∧ (asked (.regWrite 0x00 0x02000000) faulted).host.ops = .regWrite 0x00 0x02000000 :: []
      ∧ ∀ w, (asked (.regWrite 0x00 w) faulted).core = .faulted := ⟨rfl, rfl, rfl, fun _ => rfl⟩
theorem test_witness_FaultGate : faulted.core = .faulted ∧ Instr.brAlign ≠ .sysClrf ∧ Instr.brAlign ≠ .sysReset := by decide
theorem test_witness_ResetValues : (asked .hardReset mqComplete).host.ops = .hardReset :: [] := rfl

/-- A paused decode with a custom table in place, the host about to continue it. -/
def rich : State := asked (.regWrite 0x00 0x51000000) { grdPaused with tables := [(16, parsed15)] }

theorem test_witness_StepKeepsInv : rich.Inv ∧ step rich = .next (stepped rich) where
  left := {
    cursor := by unfold State.CursorOk; decide +kernel
    mq := by unfold State.MqOk; decide +kernel
    fault := by unfold State.FaultOk; decide +kernel
    grd := by unfold State.GrdOk; decide +kernel
    reserved := by unfold State.ReservedOk; decide +kernel
    bitmaps := by unfold State.BitmapsOk Bitmap.Fits Bitmap.wf; decide +kernel
    tables := by unfold State.TablesOk HTable.Fits; decide +kernel
    banks := by unfold State.BanksOk BankOk; decide +kernel
    source := by unfold State.SourceOk; decide +kernel }
  right := step_stepped (by decide +kernel)

/-! ### Witnesses: faults and what commands leave alone -/

theorem test_witness_FaultMatrix :
    ((span5 0 3).core = .idle ∧ exec .brSeek (span5 0 3) = .next (after .brSeek (span5 0 3))
      ∧ (after .brSeek (span5 0 3)).core = .faulted)
    ∧ (withTable 23 0).core = .idle ∧ exec (.htDecode 16) (withTable 23 0) = .next (after (.htDecode 16) (withTable 23 0))
      ∧ (after (.htDecode 16) (withTable 23 0)).core = .faulted :=
  ⟨⟨rfl, exec_after (by decide +kernel), by decide +kernel⟩, rfl, exec_after (by decide +kernel), by decide +kernel⟩
theorem test_witness_ResultAndFlags_kept :
    exec .brAlign (span5 3 5) = .next (after .brAlign (span5 3 5)) ∧ writesResult .brAlign = false
      ∧ exec .brReadByte (span5 0 3) = .next (after .brReadByte (span5 0 3)) ∧ writesResult .brReadByte = true
      ∧ (after .brReadByte (span5 0 3)).core = .faulted :=
  ⟨exec_after (by decide +kernel), rfl, exec_after (by decide +kernel), rfl, by decide +kernel⟩
theorem test_witness_ResultAndFlags_written :
    exec (.htDecode 16) (withTable 13 2) = .next (after (.htDecode 16) (withTable 13 2))
      ∧ (after (.htDecode 16) (withTable 13 2)).core = .idle ∧ (after (.htDecode 16) (withTable 13 2)).oob = true
      ∧ exec .brReadByte (span5 5 0) = .next (after .brReadByte (span5 5 0))
      ∧ (after .brReadByte (span5 5 0)).core = .idle ∧ (after .brReadByte (span5 5 0)).boundary = true :=
  ⟨exec_after (by decide +kernel), by decide +kernel, by decide +kernel, exec_after (by decide +kernel), by decide +kernel,
    by decide +kernel⟩
theorem test_witness_OperandRegistersKept :
    exec .brAlign (span5 3 5) = .next (after .brAlign (span5 3 5)) ∧ Instr.brAlign ≠ .sysReset :=
  ⟨exec_after (by decide +kernel), by decide⟩
theorem test_witness_MqValidRule_kept :
    exec (.cxRd .gb) mqReady = .next (after (.cxRd .gb) mqReady) ∧ clearsMqValid (.cxRd .gb) = false
      ∧ Instr.cxRd .gb ≠ .mqInit ∧ Instr.cxRd .gb ≠ .sysReset ∧ mqReady.mq.valid = true :=
  ⟨exec_after (by decide +kernel), rfl, by decide, by decide, rfl⟩
theorem test_witness_MqValidRule_changed :
    exec .brAlign mqReady = .next (after .brAlign mqReady) ∧ mqReady.core = .idle ∧ clearsMqValid .brAlign = true
      ∧ exec .mqInit (at' src2 0 0) = .next (after .mqInit (at' src2 0 0)) ∧ (at' src2 0 0).core = .idle
      ∧ exec .sysReset mqReady = .next (after .sysReset mqReady) :=
  ⟨exec_after (by decide +kernel), rfl, rfl, exec_after (by decide +kernel), rfl, exec_after (by decide +kernel)⟩
theorem test_witness_GrdStateRule_start :
    exec .grdStart grdReady = .next (after .grdStart grdReady) ∧ (after .grdStart grdReady).grd ≠ grdReady.grd
      ∧ (after .grdStart grdReady).grd.st = .finished
      ∧ exec .grdStart { grdReady with pause := true } = .next grdPaused ∧ grdPaused.grd.st = .decoding :=
  ⟨exec_after (by decide +kernel), by decide +kernel, by decide +kernel, exec_after (by decide +kernel), by decide +kernel⟩
theorem test_witness_GrdStateRule_cont :
    exec .grdCont grdResumed = .next (after .grdCont grdResumed) ∧ (after .grdCont grdResumed).grd ≠ grdResumed.grd
      ∧ exec .grdStart { mqComplete with gb := gb42 } = .next (after .grdStart { mqComplete with gb := gb42 })
      ∧ (after .grdStart { mqComplete with gb := gb42 }).grd.st = .error
      ∧ exec .grdAbort grdPaused = .next (after .grdAbort grdPaused) ∧ grdPaused.core = .idle :=
  ⟨exec_after (by decide +kernel), by decide +kernel, exec_after (by decide +kernel), by decide +kernel,
    exec_after (by decide +kernel), by decide +kernel⟩
theorem test_witness_MemoryFrame :
    exec (.bmFill 0 true) (pics 0 0) = .next (after (.bmFill 0 true) (pics 0 0)) ∧ Instr.bmFill 0 true ≠ .sysReset
      ∧ (pics 0 0).target (.bmFill 0 true) ≠ some 1 ∧ (pics 0 0).bitmap 1 ≠ none :=
  ⟨exec_after (by decide +kernel), by decide, by decide, by decide⟩
theorem test_witness_TableAndContextFrame :
    exec (.htParse 16) (at' table15 0 0) = .next (after (.htParse 16) (at' table15 0 0)) ∧ tableTarget (.htParse 16) ≠ some 17
      ∧ exec (.mqDecode .gb) mqReady = .next (after (.mqDecode .gb) mqReady) ∧ bankTarget (.mqDecode .gb) ≠ some .gr
      ∧ Instr.mqDecode .gb ≠ .cxClear .gb ∧ 1 ≠ mqReady.arg0.toNat :=
  ⟨exec_after (by decide +kernel), by decide, exec_after (by decide +kernel), by decide, by decide, by decide⟩
theorem test_witness_TableAndContextFrame_region :
    exec .grdStart grdReady = .next (after .grdStart grdReady) ∧ gbPrefix grdReady.gb.template ≤ 1024
      ∧ exec .grrDecode grrReady = .next (after .grrDecode grrReady) ∧ grPrefix grrReady.gr.template ≤ 8192 :=
  ⟨exec_after (by decide +kernel), by decide, exec_after (by decide +kernel), by decide⟩
theorem test_witness_CursorForward :
    (span5 4 4).CursorOk ∧ (span5 4 4).MqOk ∧ exec (.brReadBits 8) (span5 4 4) = .next (after (.brReadBits 8) (span5 4 4))
      ∧ exec .brRemain (span5 4 4) = .next (after .brRemain (span5 4 4)) ∧ movesCursor .brRemain = false :=
  ⟨by unfold State.CursorOk; decide, by unfold State.MqOk; decide, exec_after (by decide +kernel), exec_after (by decide +kernel), rfl⟩
/-- The last byte beyond the span differs. -/
theorem test_witness_BeyondSpanUnread :
    let s := { span5 3 0 with srcLen := 4 }
    let m := Store.set s.src 4 0
    (∀ a, a < s.len → (State.span { s with src := m }).byte a = s.span.byte a) ∧ m ≠ s.src
      ∧ exec (.brReadBits 16) s = .next (after (.brReadBits 16) s) :=
  ⟨by decide +kernel, by decide, exec_after (by decide +kernel)⟩
theorem test_witness_SystemCommands : grdPaused.core = .idle := by decide +kernel

/-! ### Witnesses: bit reader -/

theorem test_witness_ReadBitsResult :
    (span5 0 0).Ready (.brReadBits 0) ∧ (span5 0 0).Ready (.brReadBits 32) ∧ (span5 4 4).Ready (.brReadBits 8)
      ∧ (span5 4 4).CursorOk ∧ 8 * ((span5 4 4).len - (span5 4 4).cur.byteIdx.toNat) - (span5 4 4).cur.bitIdx.toNat < 8 :=
  ⟨⟨rfl, by decide⟩, ⟨rfl, by decide⟩, ⟨rfl, by decide⟩, by unfold State.CursorOk; decide, by decide⟩
/-- Exactly enough bytes for each read, and one too few. -/
theorem test_witness_WholeByteReads :
    (∀ i, (span5 i 0).core = .idle ∧ (span5 i 0).cur.bitIdx = 0) ∧ (span5 4 0).len - (span5 4 0).cur.byteIdx.toNat = 1
      ∧ (span5 5 0).len - (span5 5 0).cur.byteIdx.toNat = 0 ∧ (span5 3 0).len - (span5 3 0).cur.byteIdx.toNat = 2
      ∧ (span5 1 0).len - (span5 1 0).cur.byteIdx.toNat = 4 ∧ (span5 2 0).len - (span5 2 0).cur.byteIdx.toNat = 3 :=
  ⟨fun _ => ⟨rfl, rfl⟩, by decide, by decide, by decide, by decide, by decide⟩
theorem test_witness_CursorCommands :
    (span5 4 4).core = .idle ∧ (span5 4 4).cur.bitIdx ≠ 0 ∧ (span5 5 0).core = .idle ∧ (span5 5 0).cur.bitIdx = 0 := by decide
theorem test_witness_MisalignedCommands :
    (span5 0 3).cur.bitIdx ≠ 0 ∧ (span5 0 3).Ready (.htParse 16)
      ∧ ∀ i ∈ [Instr.brSeek, .brSkip, .brReadByte, .brReadU16, .brReadU32, .mqInit], (span5 0 3).Ready i :=
  ⟨by decide, ⟨rfl, by decide⟩, by unfold State.Ready; decide⟩
theorem test_witness_ReadBitsLaws :
    let s := span5 0 4
    let t1 := after (.brReadBits 20) s
    s.core = .idle ∧ (20 : Byte).toNat + (12 : Byte).toNat ≤ 32 ∧ (32 : Byte).toNat = (20 : Byte).toNat + (12 : Byte).toNat
      ∧ (32 : Byte).toNat ≤ 8 * (s.len - s.cur.byteIdx.toNat) - s.cur.bitIdx.toNat ∧ exec (.brReadBits 20) s = .next t1
      ∧ exec (.brReadBits 12) t1 = .next (after (.brReadBits 12) t1) ∧ exec (.brReadBits 32) s = .next (after (.brReadBits 32) s) :=
  ⟨rfl, by decide, by decide, by decide, exec_after (by decide +kernel), exec_after (by decide +kernel), exec_after (by decide +kernel)⟩
theorem test_witness_ReadBitsLaws_word :
    (span5 1 0).core = .idle ∧ (span5 1 0).cur.bitIdx = 0 ∧ 4 ≤ (span5 1 0).len - (span5 1 0).cur.byteIdx.toNat := by decide

/-! ### Witnesses: MQ decoder and contexts -/

/-- A byte of a span, `0xFF` beyond it. -/
def byteOr (s : State) (i : Nat) : Nat := if i < s.len then (s.span.byte i).toNat else 0xFF

theorem test_witness_MqInitResult :
    (∀ b ∈ ([[], [0x12], [0xFF], [0xFF, 0x90], [0xFF, 0x8F]] : List (List Byte)),
      (at' b 0 0).core = .idle ∧ (at' b 0 0).cur.bitIdx = 0 ∧ (at' b 0 0).cur.byteIdx.toNat ≤ (at' b 0 0).len)
    ∧ byteOr (at' [0x12] 0 0) 0 ≠ 0xFF
    ∧ byteOr (at' [] 0 0) 0 = 0xFF ∧ 0x8F < byteOr (at' [] 0 0) 1
    ∧ byteOr (at' [0xFF, 0x90] 0 0) 0 = 0xFF ∧ 0x8F < byteOr (at' [0xFF, 0x90] 0 0) 1
    ∧ byteOr (at' [0xFF, 0x8F] 0 0) 0 = 0xFF ∧ byteOr (at' [0xFF, 0x8F] 0 0) 1 ≤ 0x8F := by decide +kernel
theorem test_witness_MarkerByteIns :
    let sp := (at' [0xFF, 0xAC] 0 0).span
    let k : Coder := ⟨0x8000, 0, 0, 0xFF, .dataAvailable, false, 0⟩
    k.b = 0xFF ∧ 0x8F < (byteAt sp (k.ptr.toNat + 1)).toNat ∧ k.st = .dataAvailable := by decide +kernel
/-- The two paths that consume a byte: after a plain byte, and after `0xFF` before a stuffed one (`0x8F` at most). -/
theorem test_witness_MarkerByteIns_consumes :
    let k : Coder := ⟨0x8000, 0, 0, 0xFF, .dataAvailable, false, 0⟩
    ({ k with b := 0xFE }).b ≠ 0xFF ∧ k.b = 0xFF
      ∧ (if k.ptr.toNat + 1 < 2 then (at' [0xFF, 0x8F] 0 0).span.byte (k.ptr.toNat + 1) else 0xFF).toNat ≤ 0x8F := by
  decide +kernel

/-- A decoder with these two registers. -/
def coderOf (a c : Word) : Coder := ⟨a, c, 8, 0, .dataAvailable, false, 0⟩

/-- Against the entry `(0, 0)`, whose `Qe` is `0x5601`: the three branches below `A − Qe` with `C = 0`. -/
theorem test_witness_DecisionFlow_low :
    (qeRow 0).qe = 0x5601 ∧ (coderOf 0xFFFF 0).c.toNat / 2 ^ 16 = 0
      ∧ (0 < 0xFFFF - 0x5601 ∧ 0x8000 ≤ 0xFFFF - 0x5601)
      ∧ (0 < 0x8000 - 0x5601 ∧ 0x8000 - 0x5601 < 0x8000 ∧ 0x8000 - 0x5601 < 0x5601)
      ∧ (0 < 0xC000 - 0x5601 ∧ 0xC000 - 0x5601 < 0x8000 ∧ 0x5601 ≤ 0xC000 - 0x5601) :=
  ⟨by decide +kernel, by decide, by norm_num, by norm_num, by norm_num⟩
/-- The two branches from `A − Qe` on. -/
theorem test_witness_DecisionFlow_high :
    (0x8000 - 0x5601 ≤ (coderOf 0x8000 0x29FF0000).c.toNat / 2 ^ 16 ∧ 0x8000 - 0x5601 < 0x5601)
      ∧ (0xC000 - 0x5601 ≤ (coderOf 0xC000 0x69FF0000).c.toNat / 2 ^ 16 ∧ 0x5601 ≤ 0xC000 - 0x5601) :=
  ⟨⟨by decide, by norm_num⟩, by decide, by norm_num⟩
/-- The ends of the range a renormalization is entered from. -/
theorem test_witness_DecisionFlow_renorm :
    (1 ≤ (coderOf 1 0).a.toNat ∧ (coderOf 1 0).a.toNat < 0x8000)
      ∧ (1 ≤ (coderOf 0x7FFF 0).a.toNat ∧ (coderOf 0x7FFF 0).a.toNat < 0x8000) := by decide
theorem test_witness_MqDecodeResult :
    mqReady.core = .idle ∧ mqReady.mq.valid = true ∧ (∀ k, (mqReady.bank k).valid = true) ∧ mqReady.mq.complete = false
      ∧ (65535 : Word).toNat < bankSize .gb ∧ (8191 : Word).toNat < bankSize .gr :=
  ⟨rfl, rfl, fun k => by cases k <;> rfl, rfl, by decide, by decide⟩
theorem test_witness_ContextChecks :
    State.reset.core = .idle ∧ (State.reset.bank .gb).valid = false ∧ State.reset.mq.valid = false
      ∧ mqComplete.core = .idle ∧ mqComplete.mq.valid = true ∧ ¬ (mqComplete.bank .gb).valid = false
      ∧ mqComplete.mq.complete = true ∧ ¬ bankSize .gb ≤ mqComplete.arg0.toNat ∧ bankSize .gb ≤ (65536 : Word).toNat
      ∧ 256 ≤ (0x100 : Word).toNat ∧ (0x40 : Word).toNat / 64 % 2 = 1 ∧ 46 < (0xAF : Word).toNat % 64 := by decide
theorem test_witness_ContextCommands :
    let s := { mqReady with arg0 := 65535, arg1 := 0xAE }
    s.core = .idle ∧ (s.bank .gb).valid = true ∧ s.arg0.toNat < bankSize .gb ∧ s.arg1.toNat < 256
      ∧ s.arg1.toNat / 64 % 2 = 0 ∧ s.arg1.toNat % 64 ≤ 46 := by decide

/-! ### Witnesses: Huffman decoder -/

/-- The description `table15` begins with. -/
def description15 : Description := ⟨true, 3, 2, -2, 6, [(2, 1), (1, 2), (3, 1)], 5, 5, 4⟩

theorem description15_legal : description15.Legal defaultParams where
  widths := by decide
  bounds := by decide
  nonempty := by decide
  ranges := by decide
  short := by decide +kernel
  covers := by decide +kernel
  top := by decide +kernel
  count := by decide
  lengths := by decide +kernel

theorem description15_at : description15.At (at' table15 0 0).span 0 where
  flags := by decide +kernel
  low := by decide +kernel
  high := by decide +kernel
  normal := by decide +kernel
  lower := by decide +kernel
  upper := by decide +kernel
  oob := by decide +kernel

theorem test_witness_HtParseReads :
    let s := at' table15 0 0
    s.Ready (.htParse 16) ∧ s.cur.bitIdx = 0 ∧ description15.Legal s.cfg ∧ description15.At s.span s.cur.pos
      ∧ description15.size ≤ 8 * (s.len - s.cur.byteIdx.toNat) :=
  ⟨⟨rfl, by decide⟩, rfl, description15_legal, description15_at, by decide⟩
theorem test_witness_HtParseFaults :
    (∀ b ∈ ([[], [0x80], [0, 0, 0], [0, 0, 0, 0, 5, 0, 0, 0, 4]] : List (List Byte)),
      ((at' b 0 0).core = .idle ∧ wellFormed (at' b 0 0).cfg (.htParse 16) = true) ∧ (at' b 0 0).cur.bitIdx = 0)
    ∧ (8 * (at' [0, 0, 0] 0 0).len < 72 ∧ 8 ≤ 8 * (at' [0, 0, 0] 0 0).len ∧ (at' [0, 0, 0] 0 0).span.number 0 8 < 128)
    ∧ (8 ≤ 8 * (at' [0x80] 0 0).len ∧ 128 ≤ (at' [0x80] 0 0).span.number 0 8)
    ∧ (let s := at' [0, 0, 0, 0, 5, 0, 0, 0, 4] 0 0
      72 ≤ 8 * s.len ∧ s.span.number 0 8 < 128
        ∧ (BitVec.ofNat 32 (s.span.number 40 32)).toInt < (BitVec.ofNat 32 (s.span.number 8 32)).toInt) := by decide +kernel

/-- The numbers `HtParseFaults` speaks of, for a description at the start of the span. -/
abbrev htFlags (s : State) : Nat := s.span.number 0 8
abbrev htPs (s : State) : Nat := htFlags s / 2 % 8 + 1
abbrev htRs (s : State) : Nat := htFlags s / 16 % 8 + 1
abbrev htBound (s : State) (q : Nat) : Int := (BitVec.ofNat 32 (s.span.number q 32)).toInt
abbrev htRow (s : State) (k : Nat) : Nat := 72 + k * (htPs s + htRs s)
abbrev htRange (s : State) (k : Nat) : Nat := s.span.number (htRow s k + htPs s) (htRs s)
abbrev htReach (s : State) (k : Nat) : Int := htBound s 8 + ∑ j ∈ Finset.range k, (2 : Int) ^ htRange s j

/-- The header is read, and the loop goes on past `k` rows. -/
def htAtRow (s : State) (k : Nat) : Bool :=
  decide (s.core = .idle) && wellFormed s.cfg (.htParse 16) && decide (s.cur = ⟨0, 0⟩)
    && decide (72 ≤ 8 * s.len) && decide (htFlags s < 128) && decide (htBound s 8 ≤ htBound s 40)
    && decide (htRow s k ≤ 8 * s.len)
    && (List.range k).all fun j => decide (htRange s j ≤ 31) && decide (htReach s (j + 1) ≤ 2 ^ 31 - 1)
      && decide (j + 3 + htFlags s % 2 ≤ s.cfg.htMaxRows) && decide (htReach s (j + 1) < htBound s 40)

/-- Row `k` is the last one, and passes its tests. -/
def htLastRow (s : State) (k : Nat) : Bool :=
  htAtRow s k && decide (htRow s (k + 1) ≤ 8 * s.len) && decide (htRange s k ≤ 31)
    && decide (htReach s (k + 1) ≤ 2 ^ 31 - 1) && decide (k + 3 + htFlags s % 2 ≤ s.cfg.htMaxRows)
    && decide (htBound s 40 ≤ htReach s (k + 1))

/-- Row 0 is the last one, and the escape rows after it are there to be read. -/
def htEscapes (s : State) : Bool :=
  htLastRow s 0 && decide (htBound s 8 ≠ -2 ^ 31) && decide (htRow s 1 + (2 + htFlags s % 2) * htPs s ≤ 8 * s.len)

def htCut : State := at' [0, 0, 0, 0, 0, 0, 0, 0, 1] 0 0
def htLongRange : State := at' [0x70, 0, 0, 0, 0, 0, 0, 0, 1, 0xFF, 0xFF] 0 0
def htPastTop : State := at' [0, 0x7F, 0xFF, 0xFF, 0xFF, 0x7F, 0xFF, 0xFF, 0xFF, 0] 0 0
def htManyRows : State :=
  { at' [1, 0, 0, 0, 0, 0, 0, 0, 10, 0] 0 0 with cfg := { defaultParams with htMaxRows := 4 } }
def htLowest : State := at' [0, 0x80, 0, 0, 0, 0x80, 0, 0, 0, 0] 0 0
def htCutEscapes : State := at' [0x0E, 0, 0, 0, 0, 0, 0, 0, 0, 0, 0] 0 0
def htLongRow : State := at' [0x0E, 0, 0, 0, 0, 0, 0, 0, 0, 0xFF, 0, 0, 0] 0 0
def htLongEscape : State := at' [0x0E, 0, 0, 0, 0, 0, 0, 0, 0, 0, 0x7F, 0x80, 0] 0 0

/-- The span ends before row 0; a range length of 255; a row up to `2^31`; a second row where `HT_MAXROWS = 4` leaves one. -/
theorem test_witness_HtParseFaults_rows :
    (htAtRow htCut 0 = true ∧ 8 * htCut.len < htRow htCut 1)
    ∧ (htAtRow htLongRange 0 = true ∧ htRow htLongRange 1 ≤ 8 * htLongRange.len ∧ 31 < htRange htLongRange 0)
    ∧ (htAtRow htPastTop 0 = true ∧ htRow htPastTop 1 ≤ 8 * htPastTop.len ∧ htRange htPastTop 0 ≤ 31
      ∧ 2 ^ 31 - 1 < htReach htPastTop 1)
    ∧ (htAtRow htManyRows 1 = true ∧ htRow htManyRows 2 ≤ 8 * htManyRows.len ∧ htRange htManyRows 1 ≤ 31
      ∧ htReach htManyRows 2 ≤ 2 ^ 31 - 1 ∧ htManyRows.cfg.htMaxRows < 1 + 3 + htFlags htManyRows % 2) := by
  decide +kernel
/-- After the last row: `HTLOW = −2^31`; a span that ends inside the escapes; a long prefix of the row, or of an escape. -/
theorem test_witness_HtParseFaults_escapes :
    (htLastRow htLowest 0 = true ∧ htBound htLowest 8 = -2 ^ 31)
    ∧ (htLastRow htCutEscapes 0 = true ∧ htBound htCutEscapes 8 ≠ -2 ^ 31
      ∧ 8 * htCutEscapes.len < htRow htCutEscapes 1 + (2 + htFlags htCutEscapes % 2) * htPs htCutEscapes)
    ∧ (htEscapes htLongRow = true ∧ 32 < htLongRow.span.number (htRow htLongRow 0) (htPs htLongRow))
    ∧ (htEscapes htLongEscape = true
      ∧ 32 < htLongEscape.span.number (htRow htLongEscape 1 + 0 * htPs htLongEscape) (htPs htLongEscape)) := by
  decide +kernel
/-- What `HT.PARSE` raises on them. -/
theorem test_htParse_faults :
    ([htCut, htLongRange, htPastTop, htManyRows, htLowest, htCutEscapes, htLongRow, htLongEscape].map fun s =>
        look (exec (.htParse 16) s) fun t => (t.faultWord, t.cur.pos))
      = [some (7, 72), some (6, 81), some (6, 74), some (5, 76), some (6, 74), some (7, 88), some (6, 97), some (6, 97)] := by
  decide +kernel

/-- The hypotheses of `HtDecodeValue` for the row `r` of `parsed15` at the cursor of `s`. -/
def Begins (s : State) (r : HtRow) : Prop :=
  r ∈ parsed15.rows ∧ r.dead = false ∧ 1 ≤ r.preflen ∧ r.preflen ≤ 32 ∧ s.span.number s.cur.pos r.preflen = r.code.toNat
    ∧ ∀ q ∈ parsed15.rows, q.dead = false → 1 ≤ q.preflen → q.preflen ≤ r.preflen →
      s.span.number s.cur.pos q.preflen = q.code.toNat → q = r

theorem test_witness_HtDecodeValue_table :
    ∀ i b, (withTable i b).Ready (.htDecode 16) ∧ (withTable i b).table 16 = some parsed15 :=
  fun _ _ => ⟨⟨rfl, show wellFormed defaultParams (.htDecode 16) = true by decide⟩, rfl⟩
/-- P3: the Oob row with its bits there, and the Normal row 1. -/
theorem test_witness_HtDecodeValue_rows :
    Begins (withTable 13 2) ⟨.oob, 4, 0, 0, 0b1110, false⟩ ∧ 4 ≤ 8 * ((withTable 13 2).len - 13) - 2
      ∧ Begins (withTable 12 0) ⟨.normal, 1, 2, 0, 0, false⟩ ∧ 1 + 2 ≤ 8 * ((withTable 12 0).len - 12) := by
  unfold Begins; decide +kernel
/-- P3: the Lower row, which subtracts; and the same with the span cut inside its literal bits. -/
theorem test_witness_HtDecodeValue_escape :
    Begins (withTable 13 6) ⟨.lower, 5, 32, 0xFFFFFFFD, 0b11110, false⟩ ∧ 5 + 32 ≤ 8 * ((withTable 13 6).len - 13) - 6
      ∧ (let s := { withTable 13 6 with srcLen := 15 }
        Begins s ⟨.lower, 5, 32, 0xFFFFFFFD, 0b11110, false⟩ ∧ 5 ≤ 8 * (s.len - 13) - 6 ∧ 8 * (s.len - 13) - 6 < 5 + 32) := by
  unfold Begins; decide +kernel
theorem test_witness_HtDecodeFaults_invalid : State.reset.Ready (.htDecode 16) ∧ State.reset.table 16 = none :=
  ⟨⟨rfl, by decide⟩, rfl⟩

/-- No row of standard table 6 matches in the first `min avail 32` bits. -/
def NoMatch (s : State) (tb : HTable) : Prop :=
  s.table 6 = some tb ∧ ∀ q ∈ tb.rows, q.dead = false → 1 ≤ q.preflen →
    q.preflen ≤ min (8 * (s.len - s.cur.byteIdx.toNat) - s.cur.bitIdx.toNat) 32 →
    s.span.number s.cur.pos q.preflen ≠ q.code.toNat

/-- Standard table 6. -/
def standard6 : HTable := (romTable defaultParams 6).getD ⟨false, []⟩

/-- `FF` ends before a row of table 6 matches; 32 ones match none. -/
theorem test_witness_HtDecodeFaults :
    NoMatch (at' [0xFF] 0 0) standard6 ∧ 8 * (at' [0xFF] 0 0).len < 32
      ∧ NoMatch (at' [0xFF, 0xFF, 0xFF, 0xFF] 0 0) standard6 ∧ 32 ≤ 8 * (at' [0xFF, 0xFF, 0xFF, 0xFF] 0 0).len
      ∧ wellFormed State.reset.cfg (.htDecode 6) = true := by unfold NoMatch; decide +kernel

/-- Rows of the prefix lengths of section 4's first example, after one of length 0. -/
def sevenRows : List RawRow := [0, 2, 1, 3, 5, 5, 4].map fun l => ⟨.normal, l, 0, 0⟩

theorem test_witness_CanonicalCodes :
    sevenRows[5]? = some ⟨.normal, 5, 0, 0⟩ ∧ sevenRows[0]? = some ⟨.normal, 0, 0, 0⟩ := by decide
theorem test_witness_KraftPrefixFree :
    (∀ r ∈ sevenRows, r.preflen ≤ 32)
      ∧ ((sevenRows.filter fun r => decide (1 ≤ r.preflen)).map fun r => 2 ^ (32 - r.preflen)).sum ≤ 2 ^ 32
      ∧ (assignCodes sevenRows)[2]? = some ⟨.normal, 1, 0, 0, 0, false⟩
      ∧ (assignCodes sevenRows)[4]? = some ⟨.normal, 5, 0, 0, 0b11110, false⟩ := by decide +kernel
theorem test_witness_TableInspection :
    State.reset.Ready (.htRow 16 .code) ∧ State.reset.table 16 = none ∧ (withTable 0 0).Ready (.htRow 16 .code)
      ∧ (withTable 0 0).table 16 = some parsed15 ∧ parsed15.rows.length ≤ (6 : Word).toNat
      ∧ parsed15.rows[(5 : Word).toNat]? = some ⟨.oob, 4, 0, 0, 0b1110, false⟩ :=
  ⟨⟨rfl, by decide⟩, rfl, ⟨rfl, by decide⟩, rfl, by decide, by decide⟩

/-! ### Witnesses: bitmap store -/

theorem pics_ready (i : Instr) (h : wellFormed defaultParams i = true) (a0 a1 : Word) : (pics a0 a1).Ready i := ⟨rfl, h⟩

theorem test_witness_BmSlotCommands :
    (pics 6 3).Ready (.bmFree 7) ∧ (pics 6 3).bitmap 7 = none ∧ (pics 6 3).bitmap 0 ≠ none
      ∧ tooLarge defaultParams 6 3 = false ∧ defaultParams.bmMaxW < (0xFFFFFFFF : Word).toNat :=
  ⟨pics_ready _ (by decide) _ _, by decide, by decide, by decide, by decide⟩
/-- A corner of `D0`, and the pixel right of it. -/
theorem test_witness_BmPixelCommands :
    (pics 5 2).Ready (.bmSet 0 true) ∧ (pics 5 2).bitmap 0 = some ⟨6, 3, [(0, 0xC8), (4, 0x34), (8, 0xA8)]⟩
      ∧ (0 ≤ (5 : Word).toInt ∧ (5 : Word).toInt < 6 ∧ 0 ≤ (2 : Word).toInt ∧ (2 : Word).toInt < 3)
      ∧ ¬ (6 : Word).toInt < 6 ∧ ¬ 0 ≤ (0xFFFFFFFF : Word).toInt :=
  ⟨pics_ready _ (by decide) _ _, rfl, by decide, by decide, by decide⟩
/-- Heights 3 (kept), 4 (grown by a row) and one beyond the limit. -/
theorem test_witness_BmRowCommands :
    (pics 3 0).Ready (.bmExpand 0 true) ∧ (pics 3 0).bitmap 0 = some ⟨6, 3, [(0, 0xC8), (4, 0x34), (8, 0xA8)]⟩
      ∧ (3 : Word).toNat ≤ 3 ∧ 3 < (4 : Word).toNat ∧ (4 : Word).toNat ≤ defaultParams.bmMaxH
      ∧ 4 * ((6 + 31) / 32) * (4 : Word).toNat ≤ defaultParams.bmMaxBytes
      ∧ defaultParams.bmMaxH < (0xFFFFFFFF : Word).toNat :=
  ⟨pics_ready _ (by decide) _ _, rfl, by decide, by decide, by decide, by decide, by decide⟩
theorem test_witness_BmComposeResult :
    (pics 1 1).Ready (.bmCompose 0 1 .xnor true) ∧ (pics 1 1).Ready (.bmCompose 1 1 .or false)
      ∧ (pics 1 1).bitmap 0 = some ⟨6, 3, [(0, 0xC8), (4, 0x34), (8, 0xA8)]⟩
      ∧ (pics 1 1).bitmap 1 = some ⟨4, 2, [(0, 0xA0), (4, 0x50)]⟩ :=
  ⟨pics_ready _ (by decide) _ _, pics_ready _ (by decide) _ _, rfl, rfl⟩
theorem test_witness_BmSubImageResult :
    (pics 0 0).Ready (.bmSubImage 5 0) ∧ (pics 0 0).bitmap 0 = some ⟨6, 3, [(0, 0xC8), (4, 0x34), (8, 0xA8)]⟩
      ∧ (pics 0 0).rect.w.toNat = 0 ∧ tooLarge defaultParams 4 3 = false ∧ defaultParams.bmMaxW < (0xFFFFFFFF : Word).toNat :=
  ⟨pics_ready _ (by decide) _ _, rfl, rfl, by decide, by decide⟩

/-- `D0` and another 6×3 bitmap in slots 0 and 1. -/
def equalPics : State := { pics 0 0 with bitmaps := [(0, ⟨6, 3, [(0, 0xC8), (4, 0x34)]⟩), (1, ⟨6, 3, [(0, 0x50), (8, 0xFC)]⟩)] }

theorem test_witness_ComposeAlgebra :
    let i := Instr.bmCompose 0 1 .or true
    let s := { pics 1 1 with rect := ⟨1, 0, 2, 2⟩ }
    s.core = .idle ∧ (0 : Byte) ≠ 1 ∧ s.Ready i ∧ s.bitmap 0 ≠ none ∧ s.bitmap 1 ≠ none ∧ exec i s = .next (after i s)
      ∧ exec i (after i s) = .next (after i (after i s)) :=
  ⟨rfl, by decide, ⟨rfl, by decide⟩, by decide, by decide, exec_after (by decide +kernel), exec_after (by decide +kernel)⟩
theorem test_witness_ComposeAlgebra_equal :
    let i := Instr.bmCompose 0 1 .replace false
    let j := Instr.bmCompose 0 1 .xor false
    equalPics.bitmap 0 = some ⟨6, 3, [(0, 0xC8), (4, 0x34)]⟩ ∧ equalPics.bitmap 1 = some ⟨6, 3, [(0, 0x50), (8, 0xFC)]⟩
      ∧ equalPics.arg0 = 0 ∧ equalPics.arg1 = 0 ∧ exec i equalPics = .next (after i equalPics)
      ∧ exec j (after i equalPics) = .next (after j (after i equalPics)) :=
  ⟨rfl, rfl, rfl, rfl, exec_after (by decide +kernel), exec_after (by decide +kernel)⟩
theorem test_witness_InvalidSlots :
    (pics 0 0).bitmap (3 : Byte).toNat = none
      ∧ ∀ i ∈ [Instr.bmFill 3 true, .bmSet 3 true, .bmExpand 3 true, .bmGet 3, .bmCopyLine 3, .bmCompose 3 0 .or false,
        .bmCompose 0 3 .or false, .bmSubImage 0 3], (pics 0 0).Ready i :=
  ⟨rfl, by unfold State.Ready; decide⟩

/-! ### Witnesses: region decoders -/

/-- What `GRD.START` checks, as one decidable condition for a decode without a skip bitmap. -/
def startable (s : State) : Bool :=
  decide (s.core = .idle) && decide (s.grd.st ≠ .decoding) && s.mq.valid && s.gbBank.valid && decide (s.gb.w ≠ 0)
    && decide (s.gb.h ≠ 0) && decide (s.gb.dst < s.cfg.nbm) && !tooLarge s.cfg s.gb.w.toNat s.gb.h.toNat && !s.gb.useSkip

theorem canStart_of {s : State} (h : startable s = true) : s.CanStart := by
  simp only [startable, Bool.and_eq_true, decide_eq_true_eq, Bool.not_eq_true'] at h
  obtain ⟨⟨⟨⟨⟨⟨⟨⟨h1, h2⟩, h3⟩, h4⟩, h5⟩, h6⟩, h7⟩, h8⟩, h9⟩ := h
  exact ⟨h1, h2, h3, h4, h5, h6, h7, h8, fun hs => by rw [h9] at hs; cases hs⟩

/-- What `GRD.CONT` checks, likewise. -/
def continuable (s : State) (bm : Bitmap) : Bool :=
  decide (s.core = .idle) && decide (s.grd.st = .decoding) && s.mq.valid && s.gbBank.valid
    && decide (s.bitmap s.gb.dst = some bm) && decide (bm.w = s.gb.w.toNat) && decide (bm.h = s.gb.h.toNat) && !s.gb.useSkip

theorem canContinue_of {s : State} {bm : Bitmap} (h : continuable s bm = true) : s.CanContinue bm := by
  simp only [continuable, Bool.and_eq_true, decide_eq_true_eq, Bool.not_eq_true'] at h
  obtain ⟨⟨⟨⟨⟨⟨⟨h1, h2⟩, h3⟩, h4⟩, h5⟩, h6⟩, h7⟩, h8⟩ := h
  exact ⟨h1, h2, h3, h4, h5, h6, h7, fun hs => by rw [h8] at hs; cases hs⟩

/-- A 4×2 decode whose skip bitmap, slot 1, forces every pixel to zero. -/
def skipReady : State :=
  { mqReady with
    gb := ⟨4, 2, 0x0001000A, 0x0000FF02, 0⟩, bitmaps := [(0, ⟨4, 2, [(0, 0xC0)]⟩), (1, ⟨4, 2, [(0, 0xF0), (4, 0xF0)]⟩)] }

/-- The same decode paused after its first row. -/
def skipPaused : State := { skipReady with grd := ⟨.decoding, 1, false⟩ }

theorem test_witness_GrdAllSkipped_pixels :
    ∀ x y : Nat, x < skipReady.gb.w.toNat → y < skipReady.gb.h.toNat →
      (⟨4, 2, [(0, 0xF0), (4, 0xF0)]⟩ : Bitmap).get x y = true := by
  have h : ∀ x < 4, ∀ y < 2, (⟨4, 2, [(0, 0xF0), (4, 0xF0)]⟩ : Bitmap).get (x : Nat) (y : Nat) = true := by decide +kernel
  exact fun x y hx hy => h x hx y hy
theorem test_witness_GrdAllSkipped_registers :
    skipReady.gb.useSkip = true ∧ skipReady.gb.tpgdon = false ∧ skipReady.pause = false ∧ skipReady.host.pauseFeed = []
      ∧ skipReady.bitmap skipReady.gb.skip = some ⟨4, 2, [(0, 0xF0), (4, 0xF0)]⟩ := by decide
theorem test_witness_GrdAllSkipped_start : skipReady.CanStart :=
  ⟨rfl, by decide, rfl, rfl, by decide, by decide, by decide, by decide, fun _ => ⟨by decide, by decide, _, rfl⟩⟩
theorem test_witness_GrdAllSkipped_cont :
    skipPaused.CanContinue ⟨4, 2, [(0, 0xC0)]⟩ ∧ skipPaused.grd.row.toNat < skipPaused.gb.h.toNat :=
  ⟨⟨rfl, rfl, rfl, rfl, rfl, rfl, rfl, fun _ => ⟨by decide, _, rfl⟩⟩, by decide⟩

/-- The environment of the decode of R321. -/
def env42 : GrdEnv := grdEnv grdReady grdReady.skipSource

/-- Where `GRD.START` starts it from. -/
def start42 : Region := ⟨grdReady.coder, grdReady.gbBank.entries, Bitmap.blank env42.w env42.h, false⟩

/-- Where `GRD.CONT` resumes it from. -/
def cont42 : Region := ⟨grdResumed.coder, grdResumed.gbBank.entries, ⟨4, 2, [(0, 0xC0)]⟩, grdResumed.grd.ltp⟩

theorem ok_of {p : RegionStep} (h : p.isOk = true) : ∃ r, p = .ok r := by
  cases p with
  | ok r => exact ⟨r, rfl⟩
  | error r => cases h

theorem error_of {p : RegionStep} (h : p.isOk = false) : ∃ r, p = .error r := by
  cases p with
  | ok r => cases h
  | error r => exact ⟨r, rfl⟩

/-- Two rows to the end; one row and a sample that reads 1. -/
theorem test_witness_GrdRowLoop_start :
    grdReady.CanStart ∧ (∃ r, RegionStep.each (decodeRow env42) 0 2 start42 = .ok r) ∧ 0 + 2 = env42.h
      ∧ (∃ r, RegionStep.each (decodeRow env42) 0 1 start42 = .ok r) ∧ 0 + 1 < env42.h ∧ pauseSample true [] 1 = true :=
  ⟨canStart_of (by decide +kernel), ok_of (by decide +kernel), by decide, ok_of (by decide +kernel), by decide, rfl⟩
/-- The decode fails in its first row when the decoder is complete. -/
theorem test_witness_GrdRowLoop_start_fails :
    let s := { mqComplete with gb := gb42 }
    let e := grdEnv s s.skipSource
    let start : Region := ⟨s.coder, s.gbBank.entries, Bitmap.blank e.w e.h, false⟩
    s.CanStart ∧ RegionStep.each (decodeRow e) 0 0 start = .ok start ∧ 0 + 0 < e.h ∧ ∃ r', decodeRow e (0 + 0) start = .error r' :=
  ⟨canStart_of (by decide +kernel), rfl, by decide, error_of (by decide +kernel)⟩
theorem test_witness_GrdRowLoop_cont :
    grdResumed.CanContinue ⟨4, 2, [(0, 0xC0)]⟩ ∧ grdResumed.grd.row.toNat = 1
      ∧ (∃ r, RegionStep.each (decodeRow env42) 1 1 cont42 = .ok r) ∧ 1 + 1 = env42.h :=
  ⟨canContinue_of (by decide +kernel), by decide +kernel, ok_of (by decide +kernel), by decide⟩
/-- A third row to come and the indicator set; and a decoder that is complete. -/
theorem test_witness_GrdRowLoop_cont_stops :
    let s := { grdPaused with gb := ⟨4, 3, 0x00000006, 0x0000FF02, 0⟩, bitmaps := [(0, ⟨4, 3, [(0, 0xC0)]⟩)] }
    let c := { s with mq := { s.mq with complete := true } }
    let r0 : State → Region := fun s => ⟨s.coder, s.gbBank.entries, ⟨4, 3, [(0, 0xC0)]⟩, s.grd.ltp⟩
    s.CanContinue ⟨4, 3, [(0, 0xC0)]⟩ ∧ (∃ r, RegionStep.each (decodeRow (grdEnv s s.skipSource)) 1 1 (r0 s) = .ok r)
      ∧ pauseSample s.pause s.host.pauseFeed 1 = true
      ∧ c.CanContinue ⟨4, 3, [(0, 0xC0)]⟩ ∧ ∃ r', decodeRow (grdEnv c c.skipSource) (1 + 0) (r0 c) = .error r' :=
  ⟨canContinue_of (by decide +kernel), ok_of (by decide +kernel), by decide +kernel, canContinue_of (by decide +kernel),
    error_of (by decide +kernel)⟩
/-- What one decision in context `i` makes of a region (R158). -/
abbrev regionDec (sp : Span) (i : Nat) (q : Region) : Decision := decodeBit sp (readCtx q.entries i) q.coder
abbrev regionTook (sp : Span) (i : Nat) (q : Region) : Region :=
  { q with coder := (regionDec sp i q).coder, entries := writeCtx q.entries i (regionDec sp i q).ctx }

/-- The pixels of row `y` in template 2, one after the other. -/
def grdPx (s : State) (skipped : Nat → Bool) (y : Nat) (r : Region) : Nat → Region
  | 0 => r
  | x + 1 =>
    let q := grdPx s skipped y r x
    let cx := gbContext 2 s.gb.atPixels q.bm x y
    if skipped x then { q with bm := q.bm.set x y false }
    else { regionTook s.span cx q with bm := q.bm.set x y (regionDec s.span cx q).bit }

/-- Row 0 of the decode of R321, without typical prediction, its second pixel skipped. -/
theorem test_witness_GrdRowLoop_pixels :
    let s := { grdReady with
      gb := { gb42 with cfg := 0x0003000A }, bitmaps := [(3, (Bitmap.blank 4 2).set 1 0 true)] }
    let skipped : Nat → Bool := fun x =>
      s.gb.cfg.getLsbD 3 && (s.bitmap (s.gb.cfg.extractLsb' 16 8).toNat).any fun k => k.get x 0
    let px := grdPx s skipped 0 start42
    let cx : Nat → Nat := fun x => gbContext 2 s.gb.atPixels (px x).bm x 0
    s.gb.cfg.extractLsb' 0 2 = 2 ∧ s.gb.cfg.getLsbD 2 = false ∧ 4 = s.gb.w.toNat ∧ skipped 1 = true ∧ skipped 2 = false
      ∧ ∀ x, x < 4 →
        (skipped x = true → px (x + 1) = { px x with bm := (px x).bm.set x 0 false })
        ∧ (skipped x = false → (px x).coder.complete = false
          ∧ px (x + 1) = { regionTook s.span (cx x) (px x) with bm := (px x).bm.set x 0 (regionDec s.span (cx x) (px x)).bit }) := by
  decide +kernel
/-- With typical prediction, a flag that is 0 after its decision and one that is 1; and a decoder that is complete, with and
without it. -/
theorem test_witness_GrdRowLoop_typical :
    let bit := (regionDec grdReady.span 0x00E5 start42).bit
    grdReady.gb.cfg.getLsbD 2 = true ∧ start42.coder.complete = false
      ∧ ({ start42 with ltp := bit }).ltp ^^ bit = false ∧ ({ start42 with ltp := !bit }).ltp ^^ bit = true
      ∧ ({ start42 with coder := { start42.coder with complete := true } }).coder.complete = true
      ∧ (0 < mqReady.gb.w.toNat ∨ 0 < grdReady.gb.w.toNat) ∧ grdReady.gb.cfg.getLsbD 3 = false := by decide +kernel
theorem test_witness_GrdZeroBelow :
    State.CanStart { grdReady with pause := true } ∧ exec .grdStart { grdReady with pause := true } = .next grdPaused
      ∧ grdPaused.grd.st = .decoding ∧ grdPaused.grd.row.toNat ≤ 1 :=
  ⟨canStart_of (by decide +kernel), exec_after (by decide +kernel), by decide +kernel, by decide +kernel⟩
theorem test_witness_RowResumability :
    let s := { grdReady with pause := true }
    s.core = .idle ∧ exec .grdStart s = .next grdPaused ∧ grdPaused.core = .idle ∧ grdPaused.grd.st = .decoding
      ∧ exec .grdCont grdPaused.quiet = .next (after .grdCont grdPaused.quiet)
      ∧ exec .grdStart s.quiet = .next (after .grdStart s.quiet) :=
  ⟨rfl, exec_after (by decide +kernel), by decide +kernel, by decide +kernel, exec_after (by decide +kernel),
    exec_after (by decide +kernel)⟩

/-- The faults the checks raise, one state for each clause. -/
theorem test_witness_RegionChecks_start :
    grdPaused.grd.st = .decoding ∧ State.reset.mq.valid = false
      ∧ (mqReady.core = .idle ∧ mqReady.grd.st ≠ .decoding ∧ mqReady.mq.valid = true ∧ mqReady.gbBank.valid = true)
      ∧ mqReady.gb.w = 0
      ∧ (let s := { mqReady with gb := ⟨4, 2, 0x0003000A, 0, 0⟩ }
        ¬ (s.gb.w = 0 ∨ s.gb.h = 0 ∨ s.cfg.nbm ≤ s.gb.dst
            ∨ s.gb.useSkip = true ∧ (s.cfg.nbm ≤ s.gb.skip ∨ s.gb.skip = s.gb.dst))
          ∧ s.gb.useSkip = true ∧ s.bitmap s.gb.skip = none)
      ∧ (let s := { mqReady with gb := ⟨0xFFFFFFFF, 2, 0, 0, 0⟩ }
        ¬ (s.gb.w = 0 ∨ s.gb.h = 0 ∨ s.cfg.nbm ≤ s.gb.dst
            ∨ s.gb.useSkip = true ∧ (s.cfg.nbm ≤ s.gb.skip ∨ s.gb.skip = s.gb.dst))
          ∧ ¬ (s.gb.useSkip = true ∧ s.bitmap s.gb.skip = none) ∧ s.cfg.bmMaxW < s.gb.w.toNat) := by decide +kernel
theorem test_witness_RegionChecks_cont :
    State.reset.grd.st ≠ .decoding ∧ grdPaused.grd.st = .decoding ∧ grdPaused.bitmap 1 = none
      ∧ grdPaused.bitmap grdPaused.gb.dst = some ⟨4, 2, [(0, 0xC0)]⟩
      ∧ (4 : Nat) ≠ ({ grdPaused with gb := ⟨5, 2, 6, 0, 0⟩ }).gb.w.toNat := by decide +kernel
theorem test_witness_RegionChecks_refine :
    State.reset.grBank.valid = false ∧ (grrReady.mq.valid = true ∧ grrReady.grBank.valid = true)
      ∧ grrReady.gr.ref = ({ grrReady with gr := ⟨8, 6, 0x00010100, 0, 0, 0⟩ }).gr.dst
      ∧ ({ grrReady with gr := ⟨8, 6, 0x00020000, 0, 0, 0⟩ }).bitmap 2 = none
      ∧ grrReady.bitmap grrReady.gr.ref ≠ none ∧ grrReady.cfg.bmMaxH < (0xFFFFFFFF : Word).toNat := by decide +kernel

/-- The reference of `grrReady`. -/
def ref0 : Bitmap := ⟨8, 6, [(4, 0x7C), (8, 0x7C), (12, 0x7C), (16, 0x03), (20, 0x03)]⟩

/-- Where `GRR.DECODE` starts from. -/
def grrFrom (s : State) : Region := ⟨s.coder, s.grBank.entries, Bitmap.blank s.gr.w.toNat s.gr.h.toNat, false⟩

theorem test_witness_GrrResult :
    grrReady.CanRefine ref0 ∧ (∃ r, grrRows (grrEnv grrReady ref0) (grrFrom grrReady) = .ok r)
      ∧ (let s := { grrReady with srcLen := 3 }
        s.CanRefine ref0 ∧ ∃ r, grrRows (grrEnv s ref0) (grrFrom s) = .error r) :=
  ⟨⟨rfl, rfl, rfl, by decide, by decide, by decide, by decide, by decide, rfl, by decide⟩, ok_of (by decide +kernel),
    ⟨rfl, rfl, rfl, by decide, by decide, by decide, by decide, by decide, rfl, by decide⟩, error_of (by decide +kernel)⟩
theorem test_witness_GrrResult_pixel :
    let s := { grrReady with gr := ⟨1, 1, 0x00010000, 0, 0, 0xFFFFFFFF⟩ }
    s.CanRefine ref0 ∧ s.gr.w = 1 ∧ s.gr.h = 1 ∧ s.gr.tpgron = false ∧ s.mq.complete = false :=
  ⟨⟨rfl, rfl, rfl, by decide, by decide, by decide, by decide, by decide, rfl, by decide⟩, rfl, rfl, by decide, rfl⟩
/-- One row to the end; and a decoder that is complete before row 0. -/
theorem test_witness_GrrResult_rows :
    let s := { grrReady with gr := ⟨8, 1, 0x00010000, 0, 0, 0xFFFFFFFF⟩ }
    let e := grrEnv s ref0
    (∃ rw' : Nat → Region, ∀ y, y < 1 → grrRow e y (rw' y) = .ok (rw' (y + 1))) ∧ 1 = e.h
      ∧ ∃ q, grrRow e 0 { grrFrom s with coder := { s.coder with complete := true } } = .error q := by
  refine ⟨?_, rfl, error_of (by decide +kernel)⟩
  obtain ⟨r, h⟩ := ok_of (p := grrRow (grrEnv { grrReady with gr := ⟨8, 1, 0x00010000, 0, 0, 0xFFFFFFFF⟩ } ref0) 0
    (grrFrom { grrReady with gr := ⟨8, 1, 0x00010000, 0, 0, 0xFFFFFFFF⟩ })) (by decide +kernel)
  refine ⟨fun y => if y = 0 then grrFrom { grrReady with gr := ⟨8, 1, 0x00010000, 0, 0, 0xFFFFFFFF⟩ } else r, fun y hy => ?_⟩
  obtain rfl : y = 0 := by omega
  exact h

/-- The refinement of `REF0` with template 0 and typical prediction. -/
def grrTyped : GrrEnv := grrEnv { grrReady with gr := ⟨8, 6, 0x00010002, 0, 0, 0xFFFFFFFF⟩ } ref0

/-- The pixels of row `y`, one after the other. -/
def grrPx (y : Nat) (r : Region) : Nat → Region
  | 0 => r
  | x + 1 =>
    let q := grrPx y r x
    let cx := grContext grrTyped q.bm x y
    if q.ltp && ([-1, 0, 1] : List Int).all fun i => ([-1, 0, 1] : List Int).all fun j => ref0.get (x + i) (y + j) == ref0.get x y then
      { q with bm := q.bm.set x y (ref0.get x y) }
    else { regionTook grrTyped.sp cx q with bm := q.bm.set x y (regionDec grrTyped.sp cx q).bit }

/-- Row 2 with the flag 1: its pixel 3 has a uniform neighbourhood, its pixel 1 has not. -/
theorem test_witness_GrrResult_pixels :
    let e := grrTyped
    let px := grrPx 2 { grrFrom grrReady with ltp := true }
    let cx : Nat → Nat := fun x => grContext e (px x).bm x 2
    let near : Nat → Int → Int → Bool := fun x i j =>
      if e.centerDisplaced then e.ref.get (x - e.dx + i) (2 - e.dy + j) else e.ref.get (x + i) (2 + j)
    let short : Nat → Bool := fun x => e.tpgron && (px x).ltp
      && ([-1, 0, 1] : List Int).all fun i => ([-1, 0, 1] : List Int).all fun j => near x i j == near x 0 0
    e.tpgron = true ∧ 4 ≤ e.w ∧ short 3 = true ∧ short 1 = false
      ∧ ∀ x, x < 4 →
        (short x = true → px (x + 1) = { px x with bm := (px x).bm.set x 2 (near x 0 0) })
        ∧ (short x = false → (px x).coder.complete = false
          ∧ px (x + 1) = { regionTook e.sp (cx x) (px x) with bm := (px x).bm.set x 2 (regionDec e.sp (cx x) (px x)).bit }) := by
  decide +kernel

/-- Both templates; and the pixel `(3, 2)` of `REF0`, whose neighbourhood is uniform. -/
theorem test_witness_RefinementContexts :
    (grrEnv grrReady ref0).t = 0 ∧ (grrEnv { grrReady with gr := ⟨8, 6, 0x00010003, 0, 0, 0⟩ } ref0).t = 1
      ∧ (grrEnv { grrReady with gr := ⟨8, 6, 0x00010003, 0, 0, 0⟩ } ref0).tpgron = true
      ∧ ∀ i ∈ ([-1, 0, 1] : List Int), ∀ j ∈ ([-1, 0, 1] : List Int), ref0.get (3 + i) (2 + j) = ref0.get 3 2 := by decide +kernel

/-! ### Witnesses: the host's other operations -/

theorem test_witness_SrcLenWrite :
    (asked (.regWrite 0x1C 0x10000000) grdPaused).host.ops = .regWrite 0x1C 0x10000000 :: []
      ∧ (0x10000000 : Word).toNat ≤ 2 ^ 28 ∧ ¬ (0x10000001 : Word).toNat ≤ 2 ^ 28 ∧ grdPaused.grd.st = .decoding :=
  ⟨rfl, by decide, by decide, by decide +kernel⟩
theorem test_witness_SourceWindow :
    (asked (.srcWrite (2 ^ 28 - 1) 7) (span5 0 0)).host.ops = .srcWrite (2 ^ 28 - 1) 7 :: []
      ∧ (asked (.srcRead 4) (span5 0 0)).host.ops = .srcRead 4 :: [] ∧ 4 < (span5 0 0).len
      ∧ (asked (.srcRead (2 ^ 28)) (span5 0 0)).host.ops = .srcRead (2 ^ 28) :: [] := ⟨rfl, rfl, by decide, rfl⟩
theorem test_witness_GbRegistersLocked :
    (asked (.regWrite 0x58 5) grdPaused).host.ops = .regWrite 0x58 5 :: [] ∧ grdPaused.grd.st = .decoding
      ∧ (asked (.regWrite 0x60 5) grdReady).host.ops = .regWrite 0x60 5 :: [] ∧ grdReady.grd.st ≠ .decoding
      ∧ (0x58 : Byte) ≠ 0x60 := ⟨rfl, by decide +kernel, rfl, by decide, by decide⟩
theorem test_witness_RegisterWrites :
    (asked (.regWrite 0x70 5) grdPaused).host.ops = .regWrite 0x70 5 :: []
      ∧ (0x70 : Byte) ∈ ([0x18, 0x70, 0x7C] : List Byte)
      ∧ (asked (.regWrite 0x84 5) faulted).host.ops = .regWrite 0x84 5 :: [] ∧ 0x84 ≤ (0x84 : Byte).toNat
      ∧ (asked (.regWrite 0x80 5) faulted).host.ops = .regWrite 0x80 5 :: [] := ⟨rfl, by decide, rfl, by decide, rfl⟩
theorem test_witness_RegisterReads :
    (asked (.regRead 0x84) faulted).host.ops = .regRead 0x84 :: [] ∧ (0x84 : Byte).toNat % 4 = 0 ∧ (0x80 : Byte).toNat % 4 = 0
      ∧ faulted.fault = some .badState ∧ State.reset.fault = none := ⟨rfl, by decide, by decide, rfl, rfl⟩
/-- The last byte of `D0`, the byte after it, and an invalid slot. -/
theorem test_witness_BitmapWindow :
    (pics 0 0).bitmap 0 = some ⟨6, 3, [(0, 0xC8), (4, 0x34), (8, 0xA8)]⟩ ∧ 11 < 4 * ((6 + 31) / 32) * 3
      ∧ 4 * ((6 + 31) / 32) * 3 ≤ 12 ∧ (pics 0 0).bitmap 7 = none
      ∧ (asked (.bmWrite 0 11 1) (pics 0 0)).host.ops = .bmWrite 0 11 1 :: []
      ∧ (asked (.bmRead 0 8) (pics 0 0)).host.ops = .bmRead 0 8 :: [] ∧ 2 * (4 * ((6 + 31) / 32)) + 5 / 8 = 8 :=
  ⟨rfl, by decide, by decide, rfl, rfl, rfl, by decide⟩

end Sys2Proof.Tests
end

namespace Sys2Proof.Machine

/-- Only `SYS.CLRF` and `SYS.RESET` are accepted while Faulted (R397), so every other command has the shape of R394: the
checks that come before its own, then a body. -/
theorem exec_eq_command {i : Instr} (s : State) (hc : i ≠ .sysClrf) (hr : i ≠ .sysReset) :
    ∃ b : Result, exec i s = command i s b := by
  cases i with
  | sysClrf => exact absurd rfl hc
  | sysReset => exact absurd rfl hr
  | _ => exact ⟨_, rfl⟩

/-- Settles O11: the two commands accepted while Faulted answer their next state directly, and a `command` answers one
whatever its body does, a raise being fault entry (R393). -/
theorem execAnswersNext : Obligations.ExecAnswersNext := by
  intro i s
  by_cases hc : i = .sysClrf
  · subst hc
    exact ⟨s.clearFault, rfl⟩
  by_cases hr : i = .sysReset
  · subst hr
    exact ⟨s.softReset, rfl⟩
  obtain ⟨b, hb⟩ := exec_eq_command s hc hr
  rw [hb]
  exact command_next i s b

end Sys2Proof.Machine

namespace Sys2Proof.Machine

/-! ### What a region decode and a byte-granular read leave unchanged -/

section
variable (s : State) (l : GrdLoop)

@[simp] theorem grdAfter_cfg : (grdAfter s l).cfg = s.cfg := by simp [grdAfter]
@[simp] theorem grdAfter_fault : (grdAfter s l).fault = s.fault := by simp [grdAfter]
@[simp] theorem grdAfter_srcLen : (grdAfter s l).srcLen = s.srcLen := by simp [grdAfter]
@[simp] theorem grdAfter_arg0 : (grdAfter s l).arg0 = s.arg0 := by simp [grdAfter]
@[simp] theorem grdAfter_arg1 : (grdAfter s l).arg1 = s.arg1 := by simp [grdAfter]
@[simp] theorem grdAfter_rect : (grdAfter s l).rect = s.rect := by simp [grdAfter]
@[simp] theorem grdAfter_gb : (grdAfter s l).gb = s.gb := by simp [grdAfter]
@[simp] theorem grdAfter_gr : (grdAfter s l).gr = s.gr := by simp [grdAfter]
@[simp] theorem grdAfter_core : (grdAfter s l).core = s.core := by simp [grdAfter]
@[simp] theorem grdAfter_result : (grdAfter s l).result = s.result := by simp [grdAfter]
@[simp] theorem grdAfter_oob : (grdAfter s l).oob = s.oob := by simp [grdAfter]
@[simp] theorem grdAfter_boundary : (grdAfter s l).boundary = s.boundary := by simp [grdAfter]
@[simp] theorem grdAfter_len : (grdAfter s l).len = s.len := by simp [State.len]
@[simp] theorem grdAfter_cur : (grdAfter s l).cur = ⟨l.region.coder.ptr, s.cur.bitIdx⟩ := by simp [grdAfter]
@[simp] theorem grdAfter_mq_valid : (grdAfter s l).mq.valid = s.mq.valid := by simp [grdAfter]
@[simp] theorem grdAfter_gbBank : (grdAfter s l).gbBank = ⟨s.gbBank.valid, l.region.entries⟩ := by simp [grdAfter]
@[simp] theorem grdAfter_grBank : (grdAfter s l).grBank = s.grBank := by simp [grdAfter]
@[simp] theorem grdAfter_tables : (grdAfter s l).tables = s.tables := by simp [grdAfter]
@[simp] theorem grdAfter_src : (grdAfter s l).src = s.src := by simp [grdAfter]
@[simp] theorem grdAfter_ops : (grdAfter s l).host.ops = s.host.ops := by simp [grdAfter]

end

section
variable (s : State) (r : Region)

@[simp] theorem putGrr_cfg : (putGrr s r).cfg = s.cfg := by simp [putGrr]
@[simp] theorem putGrr_fault : (putGrr s r).fault = s.fault := by simp [putGrr]
@[simp] theorem putGrr_srcLen : (putGrr s r).srcLen = s.srcLen := by simp [putGrr]
@[simp] theorem putGrr_arg0 : (putGrr s r).arg0 = s.arg0 := by simp [putGrr]
@[simp] theorem putGrr_arg1 : (putGrr s r).arg1 = s.arg1 := by simp [putGrr]
@[simp] theorem putGrr_rect : (putGrr s r).rect = s.rect := by simp [putGrr]
@[simp] theorem putGrr_gb : (putGrr s r).gb = s.gb := by simp [putGrr]
@[simp] theorem putGrr_gr : (putGrr s r).gr = s.gr := by simp [putGrr]
@[simp] theorem putGrr_core : (putGrr s r).core = s.core := by simp [putGrr]
@[simp] theorem putGrr_result : (putGrr s r).result = s.result := by simp [putGrr]
@[simp] theorem putGrr_oob : (putGrr s r).oob = s.oob := by simp [putGrr]
@[simp] theorem putGrr_boundary : (putGrr s r).boundary = s.boundary := by simp [putGrr]
@[simp] theorem putGrr_len : (putGrr s r).len = s.len := by simp [State.len]
@[simp] theorem putGrr_cur : (putGrr s r).cur = ⟨r.coder.ptr, s.cur.bitIdx⟩ := by simp [putGrr]
@[simp] theorem putGrr_mq_valid : (putGrr s r).mq.valid = s.mq.valid := by simp [putGrr]
@[simp] theorem putGrr_gbBank : (putGrr s r).gbBank = s.gbBank := by simp [putGrr]
@[simp] theorem putGrr_grBank : (putGrr s r).grBank = ⟨s.grBank.valid, r.entries⟩ := by simp [putGrr]
@[simp] theorem putGrr_tables : (putGrr s r).tables = s.tables := by simp [putGrr]
@[simp] theorem putGrr_src : (putGrr s r).src = s.src := by simp [putGrr]
@[simp] theorem putGrr_host : (putGrr s r).host = s.host := by simp [putGrr]

end

@[simp] theorem wholeRead_eq_of_le {s : State} {n : Nat} (h : n ≤ s.bytesLeft) :
    wholeRead s n = ((s.setCursor ⟨s.cur.byteIdx + BitVec.ofNat 32 n, 0⟩).dropMq).giveResult
      (BitVec.ofNat 32 (bigEndian s.span s.cur.byteIdx.toNat n)) := if_pos h

@[simp] theorem wholeRead_eq_of_lt {s : State} {n : Nat} (h : s.bytesLeft < n) :
    wholeRead s n = s.dropMq.setResult 0 false true := if_neg (Nat.not_le.mpr h)

/-- Whichever way a byte-granular read ends, it moves the cursor, clears `MQ_VALID` and reports (R124 to R126). -/
theorem wholeRead_eq (s : State) (n : Nat) :
    wholeRead s n = ((s.setCursor (wholeRead s n).cur).dropMq).setResult (wholeRead s n).result false
      (wholeRead s n).boundary := by
  rcases Nat.lt_or_ge s.bytesLeft n with h | h
  · rw [wholeRead_eq_of_lt h]; rfl
  · rw [wholeRead_eq_of_le h]; rfl

/-- `BR.ALIGN` as a move of the cursor (R127). -/
theorem align_eq (s : State) :
    (if s.cur.bitIdx ≠ 0 then s.setCursor ⟨s.cur.byteIdx + 1, 0⟩ else s)
      = s.setCursor (if s.cur.bitIdx ≠ 0 then ⟨s.cur.byteIdx + 1, 0⟩ else s.cur) := by
  split <;> rfl

/-! ### What every command but `SYS.CLRF` and `SYS.RESET` leaves unchanged (R22, R393) -/

/-- `t` differs from `s` in no register only the host writes, no source byte, no pending host operation, and not in `CORE` and
`FAULT`. Each field is closed by the laws of the state's updates. -/
structure State.Kept (s t : State) : Prop where
  cfg : t.cfg = s.cfg := by simp
  srcLen : t.srcLen = s.srcLen := by simp
  arg0 : t.arg0 = s.arg0 := by simp
  arg1 : t.arg1 = s.arg1 := by simp
  rect : t.rect = s.rect := by simp
  gb : t.gb = s.gb := by simp
  gr : t.gr = s.gr := by simp
  src : t.src = s.src := by simp
  ops : t.host.ops = s.host.ops := by simp
  core : t.core = s.core := by simp
  fault : t.fault = s.fault := by simp

theorem State.Kept.hostSide {s t : State} (h : s.Kept t) : s.SameHostSide t :=
  ⟨h.cfg, h.srcLen, h.arg0, h.arg1, h.rect, h.gb, h.gr, h.src⟩

theorem State.SameHostSide.refl (s : State) : s.SameHostSide s := ⟨rfl, rfl, rfl, rfl, rfl, rfl, rfl, rfl⟩

theorem State.SameHostSide.takeFault {s t : State} (h : s.SameHostSide t) (f : FaultCode) (w : Word) :
    s.SameHostSide (t.takeFault f w) :=
  ⟨h.cfg, h.srcLen, h.arg0, h.arg1, h.rect, h.gb, h.gr, h.src⟩

theorem State.SameHostSide.clearFault (s : State) : s.SameHostSide s.clearFault := ⟨rfl, rfl, rfl, rfl, rfl, rfl, rfl, rfl⟩

theorem Completes.kept {s t : State} {i : Instr} (hc : Completes s i t) (h1 : i ≠ .sysClrf) (h2 : i ≠ .sysReset) :
    s.Kept t := by
  cases hc with
  | sysClrf => exact absurd rfl h1
  | sysReset => exact absurd rfl h2
  | brAlign => rw [align_eq]; exact {}
  | brReadByte | brReadU16 | brReadU32 => rw [wholeRead_eq]; exact {}
  | _ => exact {}

theorem Fails.kept {s u : State} {i : Instr} {f : FaultCode} (hf : Fails s i f u) : s.Kept u := by
  cases hf with
  | _ => exact {}

/-- What a command that faults during its operation leaves in `RESULT` and `FLAGS` (R393). -/
theorem Fails.result_kept {s u : State} {i : Instr} {f : FaultCode} (hf : Fails s i f u) :
    u.result = s.result ∧ u.oob = s.oob ∧ u.boundary = s.boundary := by
  cases hf <;> simp

/-- A command outside R23's list of twelve completes with `RESULT` and `FLAGS` as they were. -/
theorem Completes.result_kept {s t : State} {i : Instr} (hc : Completes s i t) (hw : writesResult i = false)
    (hi : i ≠ .sysReset) : t.result = s.result ∧ t.oob = s.oob ∧ t.boundary = s.boundary := by
  cases hc with
  | sysReset => exact absurd rfl hi
  | brAlign => rw [align_eq]; simp
  | sysNop | sysClrf | brSeek | brSkip | mqInit | cxClear | cxWr | htParse | bmAlloc | bmFree | bmFill | bmSet | bmCopyLine
  | bmCompose | bmKeep | bmGrow | bmSubImage | grdStart | grdCont | grdAbort | grrDecode => simp
  | _ => cases hw

/-- Of the twelve, only `HT.DECODE` completes with `OOB` set, and only a bit-reader read with `BOUNDARY` set (R43). -/
theorem Completes.flags {s t : State} {i : Instr} (hc : Completes s i t) (hw : writesResult i = true) :
    (t.oob = true → ∃ id, i = .htDecode id) ∧ (t.boundary = true → reportsBoundary i = true) := by
  cases hc with
  | brReadBits => simp [reportsBoundary]
  | brReadByte | brReadU16 | brReadU32 => rw [wholeRead_eq]; simp [reportsBoundary]
  | brRemain | mqDecode | cxRd | htValue | htOob | htInfo | htRow | bmGet | bmInfo => simp
  | _ => cases hw

/-- A command with `MQ_VALID` outside its Writes line keeps it (R29). -/
theorem Completes.mqValid_kept {s t : State} {i : Instr} (hc : Completes s i t) (h1 : clearsMqValid i = false)
    (h2 : i ≠ .mqInit) (h3 : i ≠ .sysReset) : t.mq.valid = s.mq.valid := by
  cases hc with
  | sysReset => exact absurd rfl h3
  | mqInit => exact absurd rfl h2
  | brSeek | brSkip | brAlign | brReadBits | brReadByte | brReadU16 | brReadU32 | htParse | htValue | htOob => cases h1
  | _ => simp

/-- The commands of R29 clear `MQ_VALID` when they complete. -/
theorem Completes.mqValid_cleared {s t : State} {i : Instr} (hc : Completes s i t) (h : clearsMqValid i = true) :
    t.mq.valid = false := by
  cases hc with
  | brReadByte | brReadU16 | brReadU32 => rw [wholeRead_eq]; simp
  | brSeek | brSkip | brAlign | brReadBits | htParse | htValue | htOob => simp
  | _ => cases h

/-- An operation that faults clears `MQ_VALID` when its command is one of R29's, and keeps it otherwise. -/
theorem Fails.mqValid {s u : State} {i : Instr} {f : FaultCode} (hf : Fails s i f u) :
    u.mq.valid = if clearsMqValid i then false else s.mq.valid := by
  cases hf <;> simp [clearsMqValid]

theorem Fails.ne_mqInit {s u : State} {i : Instr} {f : FaultCode} (hf : Fails s i f u) : i ≠ .mqInit ∧ i ≠ .sysReset := by
  cases hf <;> simp

/-- Settles O14: what completes keeps the host's side, `SYS.CLRF` clearing only the fault registers; a raise writes the fault
registers only, on top of what the operation had made. -/
theorem operandRegistersKept : Obligations.OperandRegistersKept := by
  intro i s t h
  have of_kept : s.SameHostSide t → t.host.ops = s.host.ops →
      (i ≠ .sysReset → s.SameHostSide t) ∧ t.cfg = s.cfg ∧ t.src = s.src ∧ t.host.ops = s.host.ops :=
    fun hk ho => ⟨fun _ => hk, hk.cfg, hk.src, ho⟩
  rcases exec_cases h with ⟨-, -, rfl⟩ | ⟨-, -, f, -, rfl⟩ | ⟨-, hc⟩ | ⟨-, f, u, hf, rfl⟩
  · exact of_kept (.refl _) rfl
  · exact of_kept (.takeFault (.refl _) _ _) rfl
  · by_cases h1 : i = .sysClrf
    · subst h1; cases hc; exact of_kept (.clearFault _) rfl
    · by_cases h2 : i = .sysReset
      · subst h2; cases hc; exact ⟨fun e => absurd rfl e, rfl, rfl, rfl⟩
      · exact of_kept (hc.kept h1 h2).hostSide (hc.kept h1 h2).ops
  · exact of_kept (hf.kept.hostSide.takeFault _ _) hf.kept.ops

/-- Settles O13: a command that does nothing or faults leaves `RESULT` and `FLAGS`, by its check or its operation; one that
completes is Idle, and is one of the twelve or leaves them. -/
theorem resultAndFlags : Obligations.ResultAndFlags := by
  intro i s t h hi
  have of_faulted : ∀ {u : State}, u.core = .faulted → u.result = s.result ∧ u.oob = s.oob ∧ u.boundary = s.boundary →
      (writesResult i = false ∨ u.core = .faulted → u.result = s.result ∧ u.oob = s.oob ∧ u.boundary = s.boundary)
      ∧ (writesResult i = true → u.core = .idle →
        (u.oob = true → ∃ id, i = .htDecode id) ∧ (u.boundary = true → reportsBoundary i = true)) :=
    fun hu hk => ⟨fun _ => hk, fun _ he => by rw [hu] at he; cases he⟩
  rcases exec_cases h with ⟨-, hs, rfl⟩ | ⟨-, -, f, -, rfl⟩ | ⟨hr, hc⟩ | ⟨-, f, u, hf, rfl⟩
  · exact of_faulted hs ⟨rfl, rfl, rfl⟩
  · exact of_faulted (by simp) (by simp)
  · refine ⟨fun hw => hc.result_kept ?_ hi, fun hw _ => hc.flags hw⟩
    rcases hr with rfl | rfl | hr
    · rfl
    · exact absurd rfl hi
    · refine hw.resolve_right fun hu => ?_
      by_cases h1 : i = .sysClrf
      · subst h1; cases hc; cases hu
      · rw [(hc.kept h1 hi).core, hr.1] at hu; cases hu
  · exact of_faulted (by simp) (by simpa using hf.result_kept)

/-- Settles O15: a check fault keeps `MQ_VALID`; past its checks a command of R29 clears it, whether it completes or faults. -/
theorem mqValidRule : Obligations.MqValidRule := by
  intro i s t h
  rcases exec_cases h with ⟨⟨-, hi⟩, hs, rfl⟩ | ⟨⟨-, hi⟩, -, f, -, rfl⟩ | ⟨-, hc⟩ | ⟨-, f, u, hf, rfl⟩
  · have hn : t.core ≠ .idle := by simp [hs]
    exact ⟨fun _ _ _ => rfl, fun e => absurd e hn, fun e => absurd e hn, fun e => absurd e hi⟩
  · exact ⟨fun _ _ _ => by simp, fun _ _ => .inr ⟨f, rfl⟩, fun _ _ => .inr ⟨f, rfl⟩, fun e => absurd e hi⟩
  · refine ⟨hc.mqValid_kept, fun _ hi => .inl (hc.mqValid_cleared hi), fun _ hi => .inl ?_, fun hi => ?_⟩
    · subst hi; cases hc; rfl
    · subst hi; cases hc; rfl
  · obtain ⟨h1, h2⟩ := hf.ne_mqInit
    have hv := hf.mqValid
    exact ⟨fun hi _ _ => by simpa [hi] using hv, fun _ hi => .inl (by simpa [hi] using hv), fun _ hi => absurd hi h1,
      fun hi => absurd hi h2⟩

end Sys2Proof.Machine

namespace Sys2Proof.Machine

/-! ### Properties of the decoder and the bank that every decision of a region decode keeps -/

/-- Every decision over `sp` in a context below `pre` keeps `P` of the decoder and the bank's entries. -/
def DecisionKeeps (sp : Span) (pre : Nat) (P : Coder → List (Nat × Ctx) → Prop) : Prop :=
  ∀ i k l, i < pre → P k l →
    P (decodeBit sp (readCtx l i) k).coder (writeCtx l i (decodeBit sp (readCtx l i) k).ctx)

section
variable {sp : Span} {pre : Nat} {P : Coder → List (Nat × Ctx) → Prop}

theorem DecisionKeeps.checked (hd : DecisionKeeps sp pre P) {i : Nat} (hi : i < pre) {r : Region} {use : Bool → Region → Region}
    (hu : ∀ v q, P q.coder q.entries → P (use v q).coder (use v q).entries) (h : P r.coder r.entries) :
    (r.checked sp i use).Ends fun q => P q.coder q.entries := by
  unfold Region.checked
  split
  · exact h
  · exact hu _ _ (hd i _ _ hi h)

/-- What every decision keeps, a row of a generic region keeps (R308). -/
theorem DecisionKeeps.decodeRow {e : GrdEnv} (hd : DecisionKeeps e.sp (gbPrefix e.t) P) (y : Nat) (r : Region)
    (h : P r.coder r.entries) : (decodeRow e y r).Ends fun q => P q.coder q.entries := by
  refine RegionStep.ends_andThen (P := fun q => P q.coder q.entries) ?_ fun r1 h1 => ?_
  · unfold grdSltp
    split
    · exact hd.checked (sltpContext_lt _) (fun _ _ h => h) h
    · exact h
  · split
    · exact h1
    · refine RegionStep.ends_each (P := fun q => P q.coder q.entries) (fun x r2 h2 => ?_) _ _ _ h1
      unfold grdPixel
      split
      · exact h2
      · exact hd.checked (gbContext_lt _ _ _ _ _) (fun _ _ h => h) h2

/-- And the whole row loop keeps it (R307). -/
theorem DecisionKeeps.grdRun {s : State} (hd : DecisionKeeps s.span (gbPrefix s.gb.template) P) (k : SkipSource) (bm : Bitmap)
    (row : Nat) (ltp : Bool) (h : P s.coder s.gbBank.entries) :
    P (grdRun s k bm row ltp).region.coder (grdRun s k bm row ltp).region.entries :=
  rowLoop_keeps (P := fun q => P q.coder q.entries) (fun y r h => DecisionKeeps.decodeRow (e := grdEnv s k) hd y r h) _ _ h

/-- So does a refinement decode (R353). -/
theorem DecisionKeeps.grrRows {e : GrrEnv} (hd : DecisionKeeps e.sp (grPrefix e.t) P) (r : Region) (h : P r.coder r.entries) :
    (grrRows e r).Ends fun q => P q.coder q.entries := by
  refine RegionStep.ends_each (P := fun q => P q.coder q.entries) (fun y r1 h1 => ?_) _ _ _ h
  refine RegionStep.ends_andThen (P := fun q => P q.coder q.entries) ?_ fun r2 h2 => ?_
  · unfold grrSltp
    split
    · exact hd.checked (sltpRefContext_lt _) (fun _ _ h => h) h1
    · exact h1
  · refine RegionStep.ends_each (P := fun q => P q.coder q.entries) (fun x r3 h3 => ?_) _ _ _ h2
    unfold grrPixel
    split
    · exact h3
    · exact hd.checked (grContext_lt _ _ _ _) (fun _ _ h => h) h3

end

/-- Entries at or beyond the prefix are kept (R33). -/
theorem decisionKeeps_above (sp : Span) (pre : Nat) (l0 : List (Nat × Ctx)) :
    DecisionKeeps sp pre fun _ l => ∀ j, pre ≤ j → readCtx l j = readCtx l0 j := by
  intro i k l hi h j hj
  have hne : j ≠ i := by omega
  exact (Store.read_write_other hne).trans (h j hj)

/-- The decoder's bounds are kept, and the pointer never moves back (R165 (2), (4)). -/
theorem decisionKeeps_live {sp : Span} (hl : sp.len ≤ Config.srcCap) (pre : Nat) (p : Word) :
    DecisionKeeps sp pre fun k _ => k.Live sp.len ∧ p.toNat ≤ k.ptr.toNat := by
  intro i k l _ h
  have hd := decodeBit_live hl (readCtx l i) h.1
  exact ⟨hd.1, Nat.le_trans h.2 hd.2⟩

/-! ### Tables, banks and contexts over all commands (R33) -/

theorem State.table_putTable_other {s : State} {k id : Nat} (t : HTable) (h : k ≠ id) :
    (s.putTable k t).table id = s.table id := by
  simp [State.table, Store.get_set_other h.symm]

theorem State.table_dropTable_other {s : State} {k id : Nat} (h : k ≠ id) : (s.dropTable k).table id = s.table id := by
  simp [State.table, Store.get_erase_other h.symm]

theorem State.bank_putBank_other {s : State} {k j : Bank} (b : ContextBank) (h : k ≠ j) :
    (s.putBank k b).bank j = s.bank j := by
  cases k with
  | gb => cases j with
    | gb => exact absurd rfl h
    | gr => rfl
  | gr => cases j with
    | gb => rfl
    | gr => exact absurd rfl h

end Sys2Proof.Machine

namespace Sys2Proof.Machine

@[simp] theorem grdAfter_table (s : State) (l : GrdLoop) (id : Nat) : (grdAfter s l).table id = s.table id := by
  simp [State.table]

@[simp] theorem putGrr_table (s : State) (r : Region) (id : Nat) : (putGrr s r).table id = s.table id := by
  simp [State.table]

@[simp] theorem grdAfter_bank_gr (s : State) (l : GrdLoop) : (grdAfter s l).bank .gr = s.bank .gr := by simp [State.bank]

@[simp] theorem putGrr_bank_gb (s : State) (r : Region) : (putGrr s r).bank .gb = s.bank .gb := by simp [State.bank]

@[simp] theorem grdAfter_bank_valid (s : State) (l : GrdLoop) (k : Bank) : ((grdAfter s l).bank k).valid = (s.bank k).valid := by
  cases k <;> simp [State.bank]

@[simp] theorem putGrr_bank_valid (s : State) (r : Region) (k : Bank) : ((putGrr s r).bank k).valid = (s.bank k).valid := by
  cases k <;> simp [State.bank]

theorem State.putBank_bank_valid {s : State} {k : Bank} {b : ContextBank} (h : b.valid = (s.bank k).valid) (j : Bank) :
    ((s.putBank k b).bank j).valid = (s.bank j).valid := by
  by_cases hj : k = j
  · subst hj; rw [State.bank_putBank, h]
  · rw [State.bank_putBank_other b hj]

theorem Completes.table_kept {s t : State} {i : Instr} (hc : Completes s i t) (hi : i ≠ .sysReset) {id : Nat}
    (h : tableTarget i ≠ some id) : t.table id = s.table id := by
  cases hc with
  | sysReset => exact absurd rfl hi
  | brAlign => rw [align_eq]; simp
  | brReadByte | brReadU16 | brReadU32 => rw [wholeRead_eq]; simp
  | htParse k =>
    have hk : k.toNat ≠ id := fun e => h (congrArg some e)
    rw [State.table_putTable_other _ hk, State.setCursor_table, State.dropMq_table, State.table_dropTable_other hk]
  | mqInit => rfl
  | _ => simp

theorem Fails.table_kept {s u : State} {i : Instr} {f : FaultCode} (hf : Fails s i f u) {id : Nat}
    (h : tableTarget i ≠ some id) : u.table id = s.table id := by
  cases hf with
  | htParse k =>
    have hk : k.toNat ≠ id := fun e => h (congrArg some e)
    rw [State.setCursor_table, State.dropMq_table, State.table_dropTable_other hk]
  | _ => simp

theorem Completes.bank_kept {s t : State} {i : Instr} (hc : Completes s i t) (hi : i ≠ .sysReset) {k : Bank}
    (h : bankTarget i ≠ some k) : t.bank k = s.bank k := by
  cases hc with
  | sysReset => exact absurd rfl hi
  | brAlign => rw [align_eq]; simp
  | brReadByte | brReadU16 | brReadU32 => rw [wholeRead_eq]; simp
  | mqDecode j | cxClear j | cxWr j =>
    have hj : j ≠ k := fun e => h (congrArg some e)
    simp [State.bank_putBank_other _ hj]
  | grdStart | grdCont =>
    cases k with
    | gb => exact absurd rfl h
    | gr => simp
  | grrDecode =>
    cases k with
    | gb => simp
    | gr => exact absurd rfl h
  | mqInit => cases k <;> rfl
  | _ => simp

theorem Fails.bank_kept {s u : State} {i : Instr} {f : FaultCode} (hf : Fails s i f u) {k : Bank}
    (h : bankTarget i ≠ some k) : u.bank k = s.bank k := by
  cases hf with
  | grdStart | grdCont =>
    cases k with
    | gb => exact absurd rfl h
    | gr => simp
  | grrDecode =>
    cases k with
    | gb => simp
    | gr => exact absurd rfl h
  | _ => simp

/-- Among the commands that change a bank, `CX.CLEAR` alone changes its valid flag. -/
theorem Completes.bankValid_kept {s t : State} {i : Instr} (hc : Completes s i t) (hi : i ≠ .sysReset) {k : Bank}
    (h : i ≠ .cxClear k) : (t.bank k).valid = (s.bank k).valid := by
  by_cases hk : bankTarget i = some k
  · cases hc with
    | cxClear j => cases hk; exact absurd rfl h
    | mqDecode j => rw [State.giveResult_bank, State.putBank_bank_valid (by simp), State.putCoder_bank]
    | cxWr j => rw [State.putBank_bank_valid (by simp)]
    | grdStart | grdCont | grrDecode => simp
    | _ => cases hk
  · rw [hc.bank_kept hi hk]

theorem Fails.bankValid_kept {s u : State} {i : Instr} {f : FaultCode} (hf : Fails s i f u) (k : Bank) :
    (u.bank k).valid = (s.bank k).valid := by
  cases hf <;> simp

/-- A row loop leaves the part of bank 0 outside its template's prefix (R33, R320). -/
theorem grdRun_above (s : State) (k : SkipSource) (bm : Bitmap) (row : Nat) (ltp : Bool) {j : Nat}
    (hj : gbPrefix s.gb.template ≤ j) :
    readCtx (grdRun s k bm row ltp).region.entries j = readCtx s.gbBank.entries j :=
  (decisionKeeps_above s.span _ s.gbBank.entries).grdRun k bm row ltp (fun _ _ => rfl) j hj

/-- So does a refinement decode in bank 1 (R33, R362). -/
theorem grrRows_above (s : State) (ref : Bitmap) {j : Nat} (hj : grPrefix s.gr.template ≤ j) :
    (grrRows (grrEnv s ref) (grrStart s)).Ends fun r => readCtx r.entries j = readCtx s.grBank.entries j :=
  RegionStep.ends_mono ((decisionKeeps_above s.span (grPrefix (grrEnv s ref).t) s.grBank.entries).grrRows
    (e := grrEnv s ref) (grrStart s) fun _ _ => rfl) fun _ h => h j hj

/-- `TableAndContextFrame`'s clauses on contexts, for the state `t` a command started in `s` ends in. -/
def ContextFrame (i : Instr) (s t : State) : Prop :=
  (i = .grdStart ∨ i = .grdCont → ∀ j, gbPrefix s.gb.template ≤ j → readCtx t.gbBank.entries j = readCtx s.gbBank.entries j)
    ∧ (i = .grrDecode → ∀ j, grPrefix s.gr.template ≤ j → readCtx t.grBank.entries j = readCtx s.grBank.entries j)
    ∧ (∀ k, i = .mqDecode k ∨ i = .cxWr k → ∀ j, j ≠ s.arg0.toNat →
      readCtx (t.bank k).entries j = readCtx (s.bank k).entries j)

theorem Completes.contextFrame {s t : State} {i : Instr} (hc : Completes s i t) : ContextFrame i s t := by
  refine ⟨fun hi j hj => ?_, fun hi j hj => ?_, fun k hi j hj => ?_⟩
  · rcases hi with rfl | rfl
    · cases hc with | grdStart _ _ _ hl => rw [grdAfter_gbBank, hl, grdRun_above _ _ _ _ _ hj]
    · cases hc with | grdCont _ _ _ _ hl => rw [grdAfter_gbBank, hl, grdRun_above _ _ _ _ _ hj]
  · subst hi
    cases hc with
    | grrDecode ref _ r hr =>
      have h := grrRows_above s ref hj
      rw [hr] at h
      rw [putGrr_grBank]
      exact h
  · rcases hi with rfl | rfl
    · cases hc with | mqDecode => rw [State.giveResult_bank, State.bank_putBank]; exact Store.read_write_other hj
    · cases hc with | cxWr => rw [State.bank_putBank]; exact Store.read_write_other hj

theorem Fails.contextFrame {s u : State} {i : Instr} {f : FaultCode} (hf : Fails s i f u) : ContextFrame i s u := by
  refine ⟨fun hi j hj => ?_, fun hi j hj => ?_, fun k hi => ?_⟩
  · rcases hi with rfl | rfl
    · cases hf with | grdStart _ _ _ hl => rw [grdAfter_gbBank, hl, grdRun_above _ _ _ _ _ hj]
    · cases hf with | grdCont _ _ _ _ hl => rw [grdAfter_gbBank, hl, grdRun_above _ _ _ _ _ hj]
  · subst hi
    cases hf with
    | grrDecode ref _ r hr =>
      have h := grrRows_above s ref hj
      rw [hr] at h
      rw [putGrr_grBank]
      exact h
  · rcases hi with rfl | rfl <;> cases hf

/-- A fault's entry touches no context. -/
theorem ContextFrame.takeFault {i : Instr} {s t : State} (h : ContextFrame i s t) (f : FaultCode) (w : Word) :
    ContextFrame i s (t.takeFault f w) := by
  obtain ⟨h1, h2, h3⟩ := h
  exact ⟨h1, h2, fun k hi j hj => by rw [State.takeFault_bank]; exact h3 k hi j hj⟩

/-- Settles O18: each way a command can end keeps the tables, banks and contexts it does not target. -/
theorem tableAndContextFrame : Obligations.TableAndContextFrame := by
  intro i s t h hi
  have same : ContextFrame i s s := ⟨fun _ _ _ => rfl, fun _ _ _ => rfl, fun _ _ _ _ => rfl⟩
  rcases exec_cases h with ⟨-, -, rfl⟩ | ⟨-, -, f, -, rfl⟩ | ⟨-, hc⟩ | ⟨-, f, u, hf, rfl⟩
  · exact ⟨fun _ _ => rfl, fun _ _ => rfl, fun _ _ => rfl, same⟩
  · exact ⟨fun _ _ => by simp, fun _ _ => by simp, fun _ _ => by simp, same.takeFault f _⟩
  · exact ⟨fun _ => hc.table_kept hi, fun _ => hc.bank_kept hi, fun _ => hc.bankValid_kept hi, hc.contextFrame⟩
  · exact ⟨fun _ h => by rw [State.takeFault_table, hf.table_kept h], fun _ h => by rw [State.takeFault_bank, hf.bank_kept h],
      fun k _ => by rw [State.takeFault_bank, hf.bankValid_kept k], hf.contextFrame.takeFault f _⟩

end Sys2Proof.Machine

namespace Sys2Proof.Machine

/-! ### Where the cursor can stand (R27) -/

theorem State.cursorOk_iff_pos (s : State) : s.CursorOk ↔ s.cur.pos ≤ 8 * s.len := cursorOk_iff s.cur s.len

theorem Cursor.pos_of_aligned {c : Cursor} (h : c.bitIdx = 0) : c.pos = 8 * c.byteIdx.toNat := by
  simp [Cursor.pos, h]

/-- A byte-aligned cursor as a position. -/
theorem pos_byteCursor {n : Nat} (h : n ≤ Config.srcCap) : (⟨BitVec.ofNat 32 n, 0⟩ : Cursor).pos = 8 * n := by
  unfold Config.srcCap at h
  rw [Cursor.pos_of_aligned rfl, BitVec.toNat_ofNat]
  omega

/-- `n` bytes on from the byte of a cursor, as a position. -/
theorem pos_bytesOn {c : Cursor} {n : Nat} (h : c.byteIdx.toNat + n ≤ Config.srcCap) :
    (⟨c.byteIdx + BitVec.ofNat 32 n, 0⟩ : Cursor).pos = 8 * (c.byteIdx.toNat + n) := by
  unfold Config.srcCap at h
  rw [Cursor.pos_of_aligned rfl, BitVec.toNat_add, BitVec.toNat_ofNat]
  omega

/-- From a position inside the span, forward and inside the span. -/
theorem forward_of_le {len : Nat} {c0 c : Cursor} (h1 : c0.pos ≤ c.pos) (h2 : c.pos ≤ 8 * len) : Forward len c0 c :=
  ⟨h1, fun _ => h2⟩

/-- The byte pointer of an aligned cursor moved forward inside the span. -/
theorem forward_ptr {len : Nat} {c : Cursor} {p : Word} (ha : c.bitIdx = 0) (h1 : c.byteIdx.toNat ≤ p.toNat)
    (h2 : p.toNat ≤ len) : Forward len c ⟨p, c.bitIdx⟩ := by
  rw [ha]
  have hp : (⟨p, 0⟩ : Cursor).pos = 8 * p.toNat := Cursor.pos_of_aligned rfl
  exact forward_of_le (by rw [hp, Cursor.pos_of_aligned ha]; omega) (by rw [hp]; omega)

/-- While the decoder is valid its registers are in range and the cursor is byte-aligned (R46 (4)). -/
theorem State.coder_live {s : State} (hc : s.CursorOk) (hm : s.MqOk) (hv : s.mq.valid = true) :
    s.coder.Live s.len ∧ s.cur.bitIdx = 0 := by
  obtain ⟨ha, ha', hct, hst, hb⟩ := hm hv
  exact ⟨⟨ha, ha', ⟨hct, hst, hc.1⟩⟩, hb⟩

/-- The decoder after a row loop (R320). -/
theorem grdRun_live {s : State} (hk : s.coder.Live s.len) (k : SkipSource) (bm : Bitmap) (row : Nat) (ltp : Bool) :
    (grdRun s k bm row ltp).region.coder.Live s.len
      ∧ s.cur.byteIdx.toNat ≤ (grdRun s k bm row ltp).region.coder.ptr.toNat :=
  (decisionKeeps_live (sp := s.span) s.len_le _ s.cur.byteIdx).grdRun k bm row ltp ⟨hk, Nat.le_refl _⟩

/-- The decoder after a refinement decode (R362). -/
theorem grrRows_live {s : State} (hk : s.coder.Live s.len) (ref : Bitmap) :
    (grrRows (grrEnv s ref) (grrStart s)).Ends fun r => r.coder.Live s.len ∧ s.cur.byteIdx.toNat ≤ r.coder.ptr.toNat :=
  (decisionKeeps_live (sp := s.span) s.len_le _ s.cur.byteIdx).grrRows (e := grrEnv s ref) (grrStart s) ⟨hk, Nat.le_refl _⟩

/-- So a generic decode moves the cursor forward and inside the span. -/
theorem grdRun_forward {s : State} (hcur : s.CursorOk) (hmq : s.MqOk) (hv : s.mq.valid = true) (k : SkipSource) (bm : Bitmap)
    (row : Nat) (ltp : Bool) : Forward s.len s.cur (grdAfter s (grdRun s k bm row ltp)).cur := by
  obtain ⟨hk, ha⟩ := State.coder_live hcur hmq hv
  obtain ⟨hlive, hptr⟩ := grdRun_live hk k bm row ltp
  exact forward_ptr ha hptr hlive.sound.ptr

/-- And so does a refinement decode. -/
theorem grrRows_forward {s : State} (hcur : s.CursorOk) (hmq : s.MqOk) (hv : s.mq.valid = true) (ref : Bitmap) :
    (grrRows (grrEnv s ref) (grrStart s)).Ends fun r => Forward s.len s.cur (putGrr s r).cur := by
  obtain ⟨hk, ha⟩ := State.coder_live hcur hmq hv
  exact RegionStep.ends_mono (grrRows_live hk ref) fun r ⟨hlive, hptr⟩ => forward_ptr ha hptr hlive.sound.ptr

theorem decodeValue_forward (sp : Span) (hl : sp.len ≤ Config.srcCap) (t : HTable) (c : Cursor) :
    Forward sp.len c (decodeValue sp t c).cur := decodeFrom_forward sp hl t.rows Config.htMaxLen 0 0 c

/-- A command that reads no stream leaves the cursor (R24, R436). -/
theorem Completes.cur_kept {s t : State} {i : Instr} (hc : Completes s i t) (hm : movesCursor i = false) (hi : i ≠ .sysReset) :
    t.cur = s.cur := by
  cases hc with
  | sysReset => exact absurd rfl hi
  | brSeek | brSkip | brAlign | brReadBits | brReadByte | brReadU16 | brReadU32 | mqInit | mqDecode | htParse | htValue | htOob
  | grdStart | grdCont | grrDecode => cases hm
  | _ => simp

theorem Fails.movesCursor {s u : State} {i : Instr} {f : FaultCode} (hf : Fails s i f u) : movesCursor i = true := by
  cases hf <;> rfl

theorem wholeRead_forward {s : State} (hc : s.CursorOk) (ha : s.cur.bitIdx = 0) (n : Nat) :
    Forward s.len s.cur (wholeRead s n).cur := by
  rcases Nat.lt_or_ge s.bytesLeft n with h | h
  · rw [wholeRead_eq_of_lt h]
    exact Forward.refl _ _
  · have hin : s.cur.byteIdx.toNat + n ≤ s.len := by
      have := hc.1
      unfold State.bytesLeft at h
      omega
    rw [wholeRead_eq_of_le h]
    have hp : _ = 8 * (s.cur.byteIdx.toNat + n) := pos_bytesOn (Nat.le_trans hin s.len_le)
    simp only [State.giveResult_cur, State.dropMq_cur, State.setCursor_cur]
    exact forward_of_le (by rw [hp, Cursor.pos_of_aligned ha]; omega) (by rw [hp]; omega)

/-- A command that completes moves the cursor forward and inside the span, but for `BR.SEEK` (R132, R165 (4), R216). -/
theorem Completes.forward {s t : State} {i : Instr} (hc : Completes s i t) (hcur : s.CursorOk) (hmq : s.MqOk)
    (hi : i ≠ .sysReset) (hs : i ≠ .brSeek) : Forward s.len s.cur t.cur := by
  have hl : s.len ≤ Config.srcCap := s.len_le
  by_cases hm : movesCursor i = false
  · rw [hc.cur_kept hm hi]
    exact Forward.refl _ _
  cases hc with
  | brSeek => exact absurd rfl hs
  | brSkip ha =>
    have hp : _ = 8 * min (s.cur.byteIdx.toNat + s.arg0.toNat) s.len := pos_byteCursor (by omega)
    have := hcur.1
    simp only [State.dropMq_cur, State.setCursor_cur]
    exact forward_of_le (by rw [hp, Cursor.pos_of_aligned ha]; omega) (by rw [hp]; omega)
  | brAlign =>
    rw [align_eq]
    simp only [State.dropMq_cur, State.setCursor_cur]
    split
    · rename_i hb
      have hlt : s.cur.byteIdx.toNat < s.len := lt_of_le_of_ne hcur.1 fun e => hb (hcur.2 e)
      have hp : (⟨s.cur.byteIdx + 1, 0⟩ : Cursor).pos = 8 * (s.cur.byteIdx.toNat + 1) :=
        pos_bytesOn (n := 1) (by omega)
      refine forward_of_le ?_ (by rw [hp]; omega)
      have := s.cur.bitIdx.isLt
      rw [hp, Cursor.pos]; omega
    · exact Forward.refl _ _
  | brReadBits n => exact readBits_forward s.span hl s.cur n.toNat
  | brReadByte ha | brReadU16 ha | brReadU32 ha => exact wholeRead_forward hcur ha _
  | mqInit ha =>
    have hk := initDec_live (sp := s.span) hl (k := s.coder) hcur.1
    exact forward_ptr ha hk.2 hk.1.sound.ptr
  | mqDecode k hv _ _ _ d hd =>
    obtain ⟨hk, ha⟩ := State.coder_live hcur hmq hv
    have hd' := decodeBit_live (sp := s.span) hl (readCtx (s.bank k).entries s.arg0.toNat) hk
    rw [← hd] at hd'
    rw [State.giveResult_cur, State.putBank_cur, State.putCoder_cur]
    exact forward_ptr ha hd'.2 hd'.1.sound.ptr
  | htParse _ _ _ _ hp =>
    have h := parseTable_forward s.span hl s.cfg.htMaxRows s.cur
    rwa [hp] at h
  | htValue _ table _ _ _ hd | htOob _ table _ _ hd =>
    have h := decodeValue_forward s.span hl table s.cur
    rwa [hd] at h
  | grdStart _ hck _ hl' => rw [hl']; exact grdRun_forward hcur hmq hck.mq _ _ _ _
  | grdCont _ _ hck _ hl' => rw [hl']; exact grdRun_forward hcur hmq hck.mq _ _ _ _
  | grrDecode ref hck _ hr =>
    have h := grrRows_forward hcur hmq hck.mq ref
    rwa [hr] at h
  | _ => exact absurd rfl hm

/-- An operation that faults has moved the cursor forward and inside the span (R216, R320, R362). -/
theorem Fails.forward {s u : State} {i : Instr} {f : FaultCode} (hf : Fails s i f u) (hcur : s.CursorOk) (hmq : s.MqOk) :
    Forward s.len s.cur u.cur := by
  have hl : s.len ≤ Config.srcCap := s.len_le
  cases hf with
  | htParse _ _ _ _ hp =>
    have h := parseTable_forward s.span hl s.cfg.htMaxRows s.cur
    rwa [hp] at h
  | htDecode _ table _ _ _ hd =>
    have h := decodeValue_forward s.span hl table s.cur
    rwa [hd] at h
  | grdStart _ hck _ hl' => rw [hl']; exact grdRun_forward hcur hmq hck.mq _ _ _ _
  | grdCont _ _ hck _ hl' => rw [hl']; exact grdRun_forward hcur hmq hck.mq _ _ _ _
  | grrDecode ref hck _ hr =>
    have h := grrRows_forward hcur hmq hck.mq ref
    rwa [hr] at h

theorem Completes.len_kept {s t : State} {i : Instr} (hc : Completes s i t) (hi : i ≠ .sysReset) : t.len = s.len := by
  by_cases h1 : i = .sysClrf
  · subst h1; cases hc; rfl
  · unfold State.len
    rw [(hc.kept h1 hi).srcLen]

theorem Fails.len_kept {s u : State} {i : Instr} {f : FaultCode} (hf : Fails s i f u) : u.len = s.len := by
  unfold State.len
  rw [hf.kept.srcLen]

/-- However a command completes, the cursor stands inside the span (R27). -/
theorem Completes.cursor_inside {s t : State} {i : Instr} (hc : Completes s i t) (hcur : s.CursorOk) (hmq : s.MqOk)
    (hi : i ≠ .sysReset) : t.cur.pos ≤ 8 * s.len := by
  by_cases hs : i = .brSeek
  · subst hs
    have := s.len_le
    cases hc with
    | brSeek =>
      have hp : _ = 8 * min s.arg0.toNat s.len := pos_byteCursor (by omega)
      simp only [State.dropMq_cur, State.setCursor_cur]
      rw [hp]; omega
  · exact (hc.forward hcur hmq hi hs).2 (s.cursorOk_iff_pos.mp hcur)

/-- Settles O19: past its checks every command but `BR.SEEK` moves the cursor `Forward`, which also bounds it by the span. -/
theorem cursorForward : Obligations.CursorForward := by
  intro i s t hcur hmq h hi
  have hin := s.cursorOk_iff_pos.mp hcur
  rcases exec_cases h with ⟨-, -, rfl⟩ | ⟨-, -, f, -, rfl⟩ | ⟨-, hc⟩ | ⟨-, f, u, hf, rfl⟩
  · exact ⟨fun _ => rfl, fun _ => Nat.le_refl _, hin⟩
  · exact ⟨fun _ => rfl, fun _ => Nat.le_refl _, hin⟩
  · refine ⟨fun hm => hc.cur_kept hm hi, fun hs => (hc.forward hcur hmq hi hs).1, ?_⟩
    rw [hc.len_kept hi]
    exact hc.cursor_inside hcur hmq hi
  · have hfw := hf.forward hcur hmq
    refine ⟨fun hm => ?_, fun _ => hfw.1, ?_⟩
    · rw [hf.movesCursor] at hm; cases hm
    · rw [State.takeFault_len, hf.len_kept]
      exact hfw.2 hin

end Sys2Proof.Machine

namespace Sys2Proof.Machine

/-! ### The invariant under each operation on the state (R46) -/

/-- A state with the values of reset but for the parameters, the source memory and the host's side. -/
theorem State.inv_reset (p : Params) {m : Memory} (hm : Memory.wf m) (h : HostPort) :
    ({ State.reset with cfg := p, src := m, host := h } : State).Inv where
  cursor := ⟨Nat.zero_le _, fun _ => rfl⟩
  mq h := by cases h
  fault := ⟨fun h => absurd rfl h, fun h => by cases h⟩
  grd h := by cases h
  reserved := by simp [State.ReservedOk, State.reset]
  bitmaps := ⟨.nil, by simp [State.reset]⟩
  tables := ⟨.nil, by simp [State.reset]⟩
  banks := ⟨⟨⟨.nil, by simp [State.reset]⟩, by simp [State.reset]⟩, ⟨.nil, by simp [State.reset]⟩, by simp [State.reset]⟩
  source := hm

theorem Memory.wf_nil : Memory.wf [] := ⟨.nil, by simp⟩

/-- Settles O9: the state after reset is one of `State.inv_reset`'s. -/
theorem resetInv : Obligations.ResetInv := State.inv_reset defaultParams Memory.wf_nil State.reset.host

theorem State.inv_hardReset (s : State) : s.hardReset.Inv := State.inv_reset s.cfg Memory.wf_nil _

section
variable {s : State} (h : s.Inv)
include h

theorem State.Inv.softReset : s.softReset.Inv := State.inv_reset s.cfg h.source s.host

theorem State.Inv.takeFault (f : FaultCode) (w : Word) : (s.takeFault f w).Inv :=
  { h with fault := ⟨fun _ => rfl, fun _ => by simp⟩ }

theorem State.Inv.clearFault : s.clearFault.Inv :=
  { h with fault := ⟨fun e => absurd rfl e, fun e => by cases e⟩ }

theorem State.Inv.setResult (v : Word) (o b : Bool) : (s.setResult v o b).Inv := { h with }

/-- The host's side of the port is no part of it. -/
theorem State.Inv.setHost (p : HostPort) : ({ s with host := p } : State).Inv := { h with }

theorem State.Inv.dropMq : s.dropMq.Inv := { h with mq := fun e => by cases e }

/-- The cursor may move anywhere inside the span when `MQ_VALID` goes with it (R29). -/
theorem State.Inv.moveCursor {c : Cursor} (hc : c.pos ≤ 8 * s.len) : (s.setCursor c).dropMq.Inv :=
  { h with cursor := (cursorOk_iff c s.len).mpr hc, mq := fun e => by cases e }

/-- A live decoder put back, the cursor being byte-aligned (R28, R154). -/
theorem State.Inv.putCoder (v : Bool) {k : Coder} (ha : s.cur.bitIdx = 0) (hk : k.Live s.len) :
    ({ s.putCoder k with mq := ⟨k.a, k.c, k.ct, k.b, k.st, k.complete, v⟩ } : State).Inv :=
  { h with
    cursor := ⟨hk.sound.ptr, fun _ => ha⟩
    mq := fun _ => ⟨hk.low, hk.high, hk.sound.ct, hk.sound.st, ha⟩ }

theorem State.Inv.putBank {k : Bank} {b : ContextBank} (hb : BankOk k b) : (s.putBank k b).Inv :=
  match k with
  | .gb => { h with banks := ⟨hb, h.banks.2⟩ }
  | .gr => { h with banks := ⟨h.banks.1, hb⟩ }

theorem State.Inv.bank (k : Bank) : BankOk k (s.bank k) :=
  match k with
  | .gb => h.banks.1
  | .gr => h.banks.2

theorem State.Inv.putBitmap {k : Nat} {bm : Bitmap} (hk : k < s.cfg.nbm) (hb : bm.Fits s.cfg) : (s.putBitmap k bm).Inv := by
  refine { h with bitmaps := ⟨Store.sorted_set h.bitmaps.1 k bm, fun q hq => ?_⟩ }
  rcases Store.mem_set hq with rfl | hq
  · exact ⟨hk, hb⟩
  · exact h.bitmaps.2 q hq

theorem State.Inv.freeBitmap (k : Nat) : (s.freeBitmap k).Inv :=
  { h with bitmaps := ⟨Store.sorted_erase h.bitmaps.1 k, fun q hq => h.bitmaps.2 q (Store.mem_erase hq)⟩ }

/-- A valid slot is one of the `NBM`, and its bitmap is inside the limits (R46 (3)). -/
theorem State.Inv.bitmap {k : Nat} {bm : Bitmap} (hb : s.bitmap k = some bm) : k < s.cfg.nbm ∧ bm.Fits s.cfg :=
  h.bitmaps.2 _ (Store.mem_of_get hb)

theorem State.Inv.putTable {k : Nat} {t : HTable} (h1 : 16 ≤ k) (h2 : k ≤ 15 + s.cfg.nhtCustom) (ht : t.Fits s.cfg) :
    (s.putTable k t).Inv := by
  refine { h with tables := ⟨Store.sorted_set h.tables.1 k t, fun q hq => ?_⟩ }
  rcases Store.mem_set hq with rfl | hq
  · exact ⟨h1, h2, ht⟩
  · exact h.tables.2 q hq

theorem State.Inv.dropTable (k : Nat) : (s.dropTable k).Inv :=
  { h with tables := ⟨Store.sorted_erase h.tables.1 k, fun q hq => h.tables.2 q (Store.mem_erase hq)⟩ }

/-- The run state, `CTRL.PAUSE` and the pause feed, a paused decode having a row left (R46 (6)). -/
theorem State.Inv.setRun {g : GrdRun} (hg : g.st = .decoding → g.row.toNat < s.gb.h.toNat) (p : Bool) (q : HostPort) :
    ({ s with grd := g, pause := p, host := q } : State).Inv :=
  { h with grd := hg }

theorem State.Inv.loseGrd : s.loseGrd.Inv := by
  unfold State.loseGrd
  split
  · exact { h with grd := fun e => by cases e }
  · exact h

end

/-! ### Bitmaps inside the limits (R46 (3)) -/

theorem tooLarge_eq_false {p : Params} {w h : Nat} :
    tooLarge p w h = false ↔ w ≤ p.bmMaxW ∧ h ≤ p.bmMaxH ∧ strideOf w * h ≤ p.bmMaxBytes := by
  simp [tooLarge, and_assoc]

theorem Bitmap.fits_of_not_tooLarge {p : Params} {bm : Bitmap} (hw : 1 ≤ bm.w) (hh : 1 ≤ bm.h)
    (hf : tooLarge p bm.w bm.h = false) (hwf : bm.wf) : bm.Fits p := by
  obtain ⟨h1, h2, h3⟩ := tooLarge_eq_false.mp hf
  exact ⟨hw, h1, hh, h2, h3, hwf⟩

/-- A bitmap of the same dimensions in canonical form. -/
theorem Bitmap.Fits.of_same {p : Params} {b c : Bitmap} (hb : b.Fits p) (hw : c.w = b.w) (hh : c.h = b.h) (hwf : c.wf) :
    c.Fits p := by
  obtain ⟨h1, h2, h3, h4, h5, -⟩ := hb
  refine ⟨hw ▸ h1, hw ▸ h2, hh ▸ h3, hh ▸ h4, ?_, hwf⟩
  unfold Bitmap.size Bitmap.stride at *
  rw [hw, hh]; exact h5

theorem one_le_toNat {w : Word} (h : w ≠ 0) : 1 ≤ w.toNat :=
  Nat.one_le_iff_ne_zero.mpr fun e => h (BitVec.eq_of_toNat_eq (by simpa using e))

end Sys2Proof.Machine

namespace Sys2Proof.Machine

/-! ### The invariant under the region decodes (R307, R353) -/

/-- What a generic decode has made, started on a bitmap in canonical form (R320). -/
theorem grdRun_from {s : State} (h : s.Inv) (hv : s.mq.valid = true) (k : SkipSource) {bm : Bitmap} (hb : bm.wf) (row : Nat)
    (ltp : Bool) :
    Region.From s.len Config.gbSize (gbPrefix s.gb.template) bm.w bm.h ⟨s.coder, s.gbBank.entries, bm, ltp⟩
      (grdRun s k bm row ltp).region := by
  obtain ⟨hk, -⟩ := State.coder_live h.cursor h.mq hv
  obtain ⟨hform, hbound⟩ := h.banks.1
  have h0 := Region.From.refl (pre := gbPrefix s.gb.template) (r := ⟨s.coder, s.gbBank.entries, bm, ltp⟩) hk hform hbound hb
  exact rowLoop_keeps (fun y _ hr => decodeRow_from (e := grdEnv s k) s.len_le hr y) _ _ h0

/-- A row loop entered with a row to go and ended paused has a row left (R46 (6)). -/
theorem grdRun_row {s : State} {row : Nat} (hrow : row < s.gb.h.toNat) (k : SkipSource) (bm : Bitmap) (ltp : Bool)
    (hd : (grdRun s k bm row ltp).st = .decoding) :
    (BitVec.ofNat 32 (grdRun s k bm row ltp).row).toNat < s.gb.h.toNat := by
  have hlt : (grdRun s k bm row ltp).row < s.gb.h.toNat := by
    rcases rowLoop_ends (grdEnv s k) (s.gb.h.toNat - row)
        ⟨⟨s.coder, s.gbBank.entries, bm, ltp⟩, row, .decoding, s.pause, s.host.pauseFeed⟩
        (Nat.add_sub_of_le hrow.le) (Nat.sub_pos_of_lt hrow) rfl with ⟨he, -⟩ | ⟨he, -⟩ | ⟨-, -, -, hlt⟩
    · cases hd.symm.trans he
    · cases hd.symm.trans he
    · exact hlt
  have := s.gb.h.isLt
  rw [BitVec.toNat_ofNat]
  omega

theorem State.Inv.grdAfter {s : State} (h : s.Inv) (hv : s.mq.valid = true) (hdst : s.gb.dst < s.cfg.nbm) {bm : Bitmap}
    (hb : bm.Fits s.cfg) {row : Nat} (hrow : row < s.gb.h.toNat) (k : SkipSource) (ltp : Bool) :
    (grdAfter s (grdRun s k bm row ltp)).Inv := by
  obtain ⟨-, -, -, -, -, hwf⟩ := id hb
  have hr := grdRun_from h hv k hwf row ltp
  have hcoder := h.putCoder s.mq.valid (State.coder_live h.cursor h.mq hv).2 hr.coder
  have hbank := hcoder.putBank (k := .gb) (b := ⟨s.gbBank.valid, _⟩) ⟨hr.form, hr.bound⟩
  exact (hbank.putBitmap hdst (hb.of_same hr.wd hr.ht hr.wf)).setRun (grdRun_row hrow k bm ltp) _ _

theorem State.Inv.putGrr {s : State} (h : s.Inv) {ref : Bitmap} (hc : RefineChecked s ref) :
    (grrRows (grrEnv s ref) (grrStart s)).Ends fun r => (putGrr s r).Inv := by
  obtain ⟨hk, ha⟩ := State.coder_live h.cursor h.mq hc.mq
  obtain ⟨hform, hbound⟩ := h.banks.2
  have hb : (Bitmap.blank s.gr.w.toNat s.gr.h.toNat).Fits s.cfg :=
    Bitmap.fits_of_not_tooLarge (one_le_toNat hc.width) (one_le_toNat hc.height) hc.fits (wf_blank _ _)
  have h0 := Region.From.refl (pre := grPrefix (grrEnv s ref).t) (r := grrStart s) hk hform hbound (wf_blank _ _)
  refine RegionStep.ends_mono (grrRows_from (e := grrEnv s ref) s.len_le h0) fun r hr => ?_
  have hcoder := h.putCoder s.mq.valid ha hr.coder
  have hbank := hcoder.putBank (k := .gr) (b := ⟨s.grBank.valid, _⟩) ⟨hr.form, hr.bound⟩
  exact hbank.putBitmap hc.dst (hb.of_same hr.wd hr.ht hr.wf)

theorem StartChecked.blank_fits {s : State} {k : SkipSource} (hc : StartChecked s k) :
    (Bitmap.blank s.gb.w.toNat s.gb.h.toNat).Fits s.cfg :=
  Bitmap.fits_of_not_tooLarge (one_le_toNat hc.width) (one_le_toNat hc.height) hc.fits (wf_blank _ _)

/-! ### The invariant under every command (R46) -/

theorem BankOk.write {k : Bank} {b : ContextBank} (h : BankOk k b) {i : Nat} (hi : i < bankSize k) (v : Bool) (x : Ctx) :
    BankOk k ⟨v, writeCtx b.entries i x⟩ := by
  refine ⟨Store.canonical_write h.1 i x, fun q hq => ?_⟩
  rcases Store.mem_write hq with ⟨rfl, -⟩ | hq
  · exact hi
  · exact h.2 q hq

theorem BankOk.empty (k : Bank) (v : Bool) : BankOk k ⟨v, []⟩ := ⟨⟨.nil, by simp⟩, by simp⟩

theorem customOk_iff {p : Params} {id : Byte} : customOk p id = true ↔ 16 ≤ id.toNat ∧ id.toNat ≤ 15 + p.nhtCustom := by
  simp [customOk]

/-- Whatever a command completes in keeps the invariant. -/
theorem Completes.inv {s t : State} {i : Instr} (hc : Completes s i t) (h : s.Inv)
    (hr : i = .sysClrf ∨ i = .sysReset ∨ s.Ready i) : t.Inv := by
  by_cases hreset : i = .sysReset
  · subst hreset; cases hc; exact h.softReset
  have hwf : i ≠ .sysClrf → wellFormed s.cfg i = true := fun hi => ((hr.resolve_left hi).resolve_left hreset).2
  have hin := hc.cursor_inside h.cursor h.mq hreset
  cases hc with
  | sysNop => exact h
  | sysClrf => exact h.clearFault
  | sysReset => exact absurd rfl hreset
  | brSeek | brSkip => exact h.moveCursor hin
  | brAlign => rw [align_eq] at hin ⊢; exact h.moveCursor hin
  | brReadBits => exact (h.moveCursor hin).setResult _ _ _
  | brReadByte | brReadU16 | brReadU32 => rw [wholeRead_eq]; exact (h.moveCursor hin).setResult _ _ _
  | mqInit ha => exact h.putCoder true ha (initDec_live (sp := s.span) s.len_le (k := s.coder) h.cursor.1).1
  | mqDecode k hv _ hi _ d hd =>
    obtain ⟨hk, ha⟩ := State.coder_live h.cursor h.mq hv
    have hlive := (decodeBit_live (sp := s.span) s.len_le (readCtx (s.bank k).entries s.arg0.toNat) hk).1
    rw [← hd] at hlive
    exact ((h.putCoder s.mq.valid ha hlive).putBank ((h.bank k).write hi _ _)).setResult _ _ _
  | cxClear k => exact h.putBank (BankOk.empty k true)
  | cxWr k _ hi => exact h.putBank ((h.bank k).write hi _ _)
  | htParse id _ _ _ hp =>
    obtain ⟨h1, h2⟩ := customOk_iff.mp (hwf (by simp))
    exact ((h.dropTable id.toNat).moveCursor hin).putTable h1 h2 (parseTable_fits hp)
  | htValue | htOob => exact (h.moveCursor hin).setResult _ _ _
  | brRemain | cxRd | htInfo | htRow | bmGet | bmInfo => exact h.setResult _ _ _
  | bmAlloc slot hw hh hf =>
    exact h.putBitmap (of_decide_eq_true (hwf (by simp)))
      (Bitmap.fits_of_not_tooLarge (one_le_toNat hw) (one_le_toNat hh) hf (wf_blank _ _))
  | bmFree => exact h.freeBitmap _
  | bmFill _ _ _ hb => exact h.putBitmap (h.bitmap hb).1 ((h.bitmap hb).2.of_same rfl rfl (wf_tabulate _ _ _))
  | bmSet _ _ _ hb =>
    obtain ⟨hk, hfit⟩ := h.bitmap hb
    obtain ⟨-, -, -, -, -, hw⟩ := id hfit
    exact h.putBitmap hk (hfit.of_same (by simp) (by simp) (wf_set hw _ _ _))
  | bmCopyLine _ _ hb =>
    obtain ⟨hk, hfit⟩ := h.bitmap hb
    obtain ⟨-, -, -, -, -, hw⟩ := id hfit
    exact h.putBitmap hk (hfit.of_same (by simp) (by simp) (wf_copyLine hw _ _))
  | bmCompose _ _ _ _ _ _ hd => exact h.putBitmap (h.bitmap hd).1 ((h.bitmap hd).2.of_same rfl rfl (wf_tabulate _ _ _))
  | bmKeep => exact h
  | bmGrow _ _ _ hb hh h1 h2 =>
    obtain ⟨hk, hw1, hw2, -⟩ := h.bitmap hb
    exact h.putBitmap hk ⟨hw1, hw2, Nat.one_le_of_lt hh, h1, h2, wf_tabulate _ _ _⟩
  | bmSubImage dst src _ _ hw hh hf =>
    have hd : slotOk s.cfg dst = true := (Bool.and_eq_true_iff.mp (hwf (by simp))).1
    exact h.putBitmap (of_decide_eq_true hd)
      (Bitmap.fits_of_not_tooLarge (one_le_toNat hw) (one_le_toNat hh) hf (wf_tabulate _ _ _))
  | grdStart k hk _ hl => rw [hl]; exact h.grdAfter hk.mq hk.dst hk.blank_fits (one_le_toNat hk.height) k false
  | grdCont _ k hk _ hl =>
    obtain ⟨hdst, hfit⟩ := h.bitmap hk.dst
    rw [hl]; exact h.grdAfter hk.mq hdst hfit (h.grd hk.state) k _
  | grdAbort => exact h.setRun (by simp) _ _
  | grrDecode _ hk _ hrows =>
    have hput := h.putGrr hk
    rwa [hrows] at hput

/-- Whatever an operation that faults had made keeps it. -/
theorem Fails.inv {s u : State} {i : Instr} {f : FaultCode} (hf : Fails s i f u) (h : s.Inv) : u.Inv := by
  have hin := (hf.forward h.cursor h.mq).2 (s.cursorOk_iff_pos.mp h.cursor)
  cases hf with
  | htParse id => exact (h.dropTable id.toNat).moveCursor hin
  | htDecode => exact h.moveCursor hin
  | grdStart k hk _ hl => rw [hl]; exact h.grdAfter hk.mq hk.dst hk.blank_fits (one_le_toNat hk.height) k false
  | grdCont _ k hk _ hl =>
    obtain ⟨hdst, hfit⟩ := h.bitmap hk.dst
    rw [hl]; exact h.grdAfter hk.mq hdst hfit (h.grd hk.state) k _
  | grrDecode _ hk _ hrows =>
    have hput := h.putGrr hk
    rwa [hrows] at hput

/-- Every command keeps the invariant. -/
theorem State.Inv.exec {s t : State} {i : Instr} (h : s.Inv) (he : exec i s = .next t) : t.Inv := by
  rcases exec_cases he with ⟨-, -, rfl⟩ | ⟨-, -, f, -, rfl⟩ | ⟨hr, hc⟩ | ⟨-, f, u, hf, rfl⟩
  · exact h
  · exact h.takeFault f _
  · exact hc.inv h hr
  · exact (hf.inv h).takeFault f _

/-! ### The invariant under every operation of the host (R446) -/

theorem and_mask_reserved (v m : Word) : v &&& m &&& ~~~m = 0 := by
  rw [BitVec.and_assoc]; simp

section
variable {s : State} (h : s.Inv)
include h

/-- The generic-region registers, whose reserved bits read 0, change only while no decode is paused (R36). -/
theorem State.Inv.writeGb {g : GbRegs} (hg : g.cfg &&& ~~~gbCfgMask = 0) : (s.writeGb g).Inv := by
  unfold State.writeGb
  split
  · exact h
  · rename_i hd
    exact { h with reserved := ⟨hg, h.reserved.2⟩, grd := fun e => absurd e hd }

theorem State.Inv.writeSrcLen (v : Word) : (s.writeSrcLen v).Inv := by
  have hrewound : (({ s with srcLen := v, cur := ⟨0, 0⟩ } : State).dropMq).Inv :=
    { h with cursor := ⟨Nat.zero_le _, fun _ => rfl⟩, mq := fun e => by cases e }
  exact hrewound.loseGrd

/-- Cases by offset: `SRC_LEN` is the second, the generic-region registers the 9th to 13th with `GB_CFG` the 11th, `GR_CFG` the
16th. -/
theorem State.Inv.regWrite (off : Byte) (v : Word) : (s.regWrite off v).Inv := by
  obtain ⟨hgb, hgr⟩ := h.reserved
  unfold State.regWrite
  split
  case h_2 => exact h.writeSrcLen v
  case h_9 | h_10 | h_12 | h_13 => exact h.writeGb hgb
  case h_11 => exact h.writeGb (and_mask_reserved _ _)
  case h_16 => exact { h with reserved := ⟨hgb, and_mask_reserved _ _⟩ }
  all_goals exact { h with }

theorem State.Inv.srcWrite {i : Nat} (hi : i < Config.srcCap) (b : Byte) : (s.srcWrite i b).Inv := by
  have hput : ({ s with src := Store.set s.src i b } : State).Inv := { h with source := Memory.wf_set h.source hi b }
  unfold State.srcWrite
  simp only
  split
  · exact hput.dropMq.loseGrd
  · exact hput

theorem State.Inv.bmWrite (slot a : Nat) (b : Byte) : (s.bmWrite slot a b).Inv := by
  unfold State.bmWrite
  split
  · exact h
  · rename_i hb
    obtain ⟨hk, hfit⟩ := h.bitmap hb
    obtain ⟨-, -, -, -, -, hwf⟩ := id hfit
    exact h.putBitmap hk (hfit.of_same (by simp) (by simp) (wf_hostWrite hwf a b))

/-- A word written to `CMD` runs its command, raises IllegalCommand, or is ignored (R100). -/
theorem State.Inv.issue {t : State} {w : Word} (he : issue w s = .next t) : t.Inv := by
  unfold Machine.issue at he
  split at he
  · exact h.exec he
  · cases he
    split
    · exact h.takeFault _ _
    · exact h

theorem State.Inv.hostStep {t : State} {op : HostOp} (he : hostStep op s = .next t) : t.Inv := by
  have hb : ∀ v, (s.setBusyWindow v).Inv := fun v => h.setHost _
  cases op with
  | regRead off =>
    simp only [Machine.hostStep] at he
    split at he
    · cases he
    · cases he; exact (hb false).setHost _
  | regWrite off v =>
    simp only [Machine.hostStep] at he
    split at he
    · cases he
    · split at he
      · exact (hb _).issue he
      · cases he; exact (hb false).regWrite off v
  | srcRead i =>
    simp only [Machine.hostStep] at he
    split at he
    · cases he; exact (hb false).setHost _
    · cases he
  | srcWrite i b =>
    simp only [Machine.hostStep] at he
    split at he
    · rename_i hi
      cases he; exact (hb false).srcWrite hi b
    · cases he
  | bmRead => cases he; exact (hb false).setHost _
  | bmWrite slot a b => cases he; exact (hb false).bmWrite slot a b
  | hardReset => cases he; exact State.inv_hardReset _
  | statusWhileBusy =>
    simp only [Machine.hostStep] at he
    split at he <;> (cases he; exact h.setHost _)

end

/-- Settles O10: the step takes the host's next operation, or does nothing. -/
theorem stepKeepsInv : Obligations.StepKeepsInv := by
  intro s t h he
  change portStep s = .next t at he
  unfold portStep at he
  split at he
  · cases he; exact h
  · exact (h.setHost _).hostStep he

end Sys2Proof.Machine

namespace Sys2Proof.Machine

/-! ### The host's operations as steps (R446) -/

theorem step_of_op {s : State} {op : HostOp} {rest : List HostOp} (h : s.host.ops = op :: rest) :
    step s = hostStep op (s.popOp rest) := by
  unfold step portStep
  rw [h]

theorem hostStep_regRead {off : Byte} (h : off.toNat % 4 = 0) (s : State) :
    hostStep (.regRead off) s = .next ((s.setBusyWindow false).returnData (s.regView off)) :=
  if_neg (not_not.mpr h)

theorem hostStep_regWrite {off : Byte} (h : off.toNat % 4 = 0) (h0 : off ≠ 0) (v : Word) (s : State) :
    hostStep (.regWrite off v) s = .next ((s.setBusyWindow false).regWrite off v) :=
  (if_neg (not_not.mpr h)).trans (if_neg h0)

/-- A step that writes a register other than `CMD`. -/
theorem step_regWrite {s : State} {off : Byte} {v : Word} {rest : List HostOp} (h : s.host.ops = .regWrite off v :: rest)
    (h4 : off.toNat % 4 = 0) (h0 : off ≠ 0) : step s = .next (((s.popOp rest).setBusyWindow false).regWrite off v) :=
  (step_of_op h).trans (hostStep_regWrite h4 h0 v _)

/-! ### Reset (R44) -/

theorem State.afterReset_reset (p : Params) (m : Memory) (h : HostPort) :
    ({ State.reset with cfg := p, src := m, host := h } : State).AfterReset where
  core := rfl
  fault := ⟨rfl, rfl⟩
  result := ⟨rfl, rfl, rfl⟩
  ctrl := rfl
  srcLen := ⟨rfl, rfl⟩
  operands := ⟨rfl, rfl, rfl⟩
  cursor := rfl
  mq := rfl
  gb := rfl
  grd := rfl
  gr := rfl
  id := rfl
  banks := ⟨rfl, rfl⟩
  tables _ hid := if_neg (Nat.not_lt.mpr hid)
  slots _ := rfl

/-- Settles O8: each reset gives the state of R44 with its own parameters, source memory and host's side. -/
theorem resetValues : Obligations.ResetValues := by
  refine ⟨State.afterReset_reset _ _ _, fun s rest h => ?_, fun s => ?_⟩
  · exact ⟨_, step_of_op h, State.afterReset_reset _ _ _, rfl⟩
  · exact ⟨_, rfl, State.afterReset_reset _ _ _, rfl, fun _ => rfl⟩

/-! ### Register writes (R21, R26, R36, R42) -/

theorem State.loseGrd_eq (s : State) :
    s.loseGrd = { s with grd := { s.grd with st := if s.grd.st = .decoding then .error else s.grd.st } } := by
  unfold State.loseGrd
  split <;> rfl

/-- Settles O55: `writeSrcLen` is the rewound cursor, the dropped decoder and the lost decode. -/
theorem srcLenWrite : Obligations.SrcLenWrite := by
  intro s v rest h
  refine ⟨_, step_regWrite h rfl (by decide), ?_, ?_⟩
  · change (State.writeSrcLen _ v).len = _
    unfold State.writeSrcLen
    rw [State.loseGrd_len]
    rfl
  · change State.writeSrcLen _ v = _
    unfold State.writeSrcLen
    rw [State.loseGrd_eq]
    rfl

/-- The five generic-region registers, as what a write makes of `GB_*` (R36). -/
def gbWritten (g : GbRegs) (off : Byte) (v : Word) : GbRegs :=
  if off = 0x50 then { g with w := v } else if off = 0x54 then { g with h := v }
  else if off = 0x58 then { g with cfg := v &&& gbCfgMask } else if off = 0x5C then { g with atLo := v }
  else { g with atHi := v }

/-- The offsets of the generic-region registers (R36). -/
def gbOffsets : List Byte := [0x50, 0x54, 0x58, 0x5C, 0x60]

theorem State.regWrite_gb {off : Byte} (h : off ∈ gbOffsets) (s : State) (v : Word) :
    s.regWrite off v = s.writeGb (gbWritten s.gb off v) := by
  simp only [gbOffsets, List.mem_cons, List.mem_nil_iff, or_false] at h
  rcases h with rfl | rfl | rfl | rfl | rfl <;> rfl

theorem State.writeGb_locked {s : State} (h : s.grd.st = .decoding) (g : GbRegs) : s.writeGb g = s := if_pos h

theorem State.writeGb_open {s : State} (h : s.grd.st ≠ .decoding) (g : GbRegs) : s.writeGb g = { s with gb := g } := if_neg h

/-- A written register reads back, the reserved bits of `GB_CFG` as 0, and the other four read as before. -/
theorem regView_gbWritten {off other : Byte} (h : off ∈ gbOffsets) (ho : other ∈ gbOffsets) (s : State) (v : Word) :
    ({ s with gb := gbWritten s.gb off v } : State).regView other
      = if other = off then (if off = 0x58 then v &&& gbCfgMask else v) else s.regView other := by
  simp only [gbOffsets, List.mem_cons, List.mem_nil_iff, or_false] at h ho
  rcases h with rfl | rfl | rfl | rfl | rfl <;> rcases ho with rfl | rfl | rfl | rfl | rfl <;> rfl

theorem aligned_of_gb : ∀ off ∈ gbOffsets, off.toNat % 4 = 0 ∧ off ≠ 0 := by decide

/-- Settles O57: every one of the five goes through `writeGb`, which a paused decode locks. -/
theorem gbRegistersLocked : Obligations.GbRegistersLocked := by
  intro s off v rest h hoff q
  obtain ⟨h4, h0⟩ := aligned_of_gb off hoff
  have hstep : step s = .next (q.writeGb (gbWritten q.gb off v)) := by
    rw [step_regWrite h h4 h0, State.regWrite_gb hoff]
  refine ⟨fun hd => ?_, fun hd => ?_⟩
  · rw [hstep, State.writeGb_locked (s := q) hd]
  · rw [State.writeGb_open (s := q) hd] at hstep
    refine ⟨_, hstep, rfl, ?_, fun other ho hne => ?_⟩
    · rw [regView_gbWritten hoff hoff, if_pos rfl]; rfl
    · rw [regView_gbWritten hoff ho, if_neg hne]; rfl

/-- The offsets whose writes store a value and do nothing else (R31, R38, R39, R40). -/
def plainOffsets : List Byte := [0x18, 0x20, 0x24, 0x28, 0x2C, 0x30, 0x34, 0x68, 0x6C, 0x70, 0x74, 0x78, 0x7C]

/-- What such a register holds after a write (R31, R38). -/
def plainStored (off : Byte) (v : Word) : Word :=
  if off = 0x18 then v &&& 1 else if off = 0x70 then v &&& grCfgMask else v

theorem bitWord_getLsbD_zero (v : Word) : bitWord (v.getLsbD 0) = v &&& 1 := by
  apply BitVec.eq_of_getLsbD_eq
  intro i _
  rcases i with - | i
  · cases hv : v.getLsbD 0 <;> simp_all [bitWord]
  · cases v.getLsbD 0 <;> simp [bitWord]

/-- A read between two plain registers: the one written gives what it stores, the others what they gave. -/
theorem regView_regWrite_plain {off other : Byte} (h : off ∈ plainOffsets) (ho : other ∈ plainOffsets) (s : State) (v : Word) :
    (s.regWrite off v).regView other = if other = off then plainStored off v else s.regView other := by
  simp only [plainOffsets, List.mem_cons, List.mem_nil_iff, or_false] at h ho
  rcases h with rfl | h
  · rcases ho with rfl | ho
    · exact bitWord_getLsbD_zero v
    · rcases ho with rfl | rfl | rfl | rfl | rfl | rfl | rfl | rfl | rfl | rfl | rfl | rfl <;> rfl
  · rcases h with rfl | rfl | rfl | rfl | rfl | rfl | rfl | rfl | rfl | rfl | rfl | rfl <;>
      rcases ho with rfl | rfl | rfl | rfl | rfl | rfl | rfl | rfl | rfl | rfl | rfl | rfl | rfl <;> rfl

/-- The fields the plain registers show are shown at no other offset. -/
theorem regView_outside_plain {other : Byte} (ho : other ∉ plainOffsets) (s : State) (p : Bool) (a0 a1 : Word) (r : Rect)
    (g : GrRegs) :
    ({ s with pause := p, arg0 := a0, arg1 := a1, rect := r, gr := g } : State).regView other = s.regView other := by
  have hn : ∀ off ∈ plainOffsets, other.toNat ≠ off.toNat := fun off hoff e =>
    ho (BitVec.eq_of_toNat_eq e ▸ hoff)
  simp [plainOffsets] at hn
  unfold State.regView
  split
  case h_6 | h_8 | h_9 | h_10 | h_11 | h_12 | h_13 | h_26 | h_27 | h_28 | h_29 | h_30 | h_31 => omega
  all_goals rfl

/-- A write to a plain register changes no other field. -/
theorem State.regWrite_plain {off : Byte} (h : off ∈ plainOffsets) (s : State) (v : Word) :
    s.regWrite off v = { s with
      pause := (s.regWrite off v).pause, arg0 := (s.regWrite off v).arg0, arg1 := (s.regWrite off v).arg1,
      rect := (s.regWrite off v).rect, gr := (s.regWrite off v).gr } := by
  simp only [plainOffsets, List.mem_cons, List.mem_nil_iff, or_false] at h
  rcases h with rfl | rfl | rfl | rfl | rfl | rfl | rfl | rfl | rfl | rfl | rfl | rfl | rfl <;> rfl

theorem regView_regWrite_other {off other : Byte} (h : off ∈ plainOffsets) (hne : other ≠ off) (s : State) (v : Word) :
    (s.regWrite off v).regView other = s.regView other := by
  by_cases ho : other ∈ plainOffsets
  · rw [regView_regWrite_plain h ho, if_neg hne]
  · rw [State.regWrite_plain h, regView_outside_plain ho]

/-- The read-only registers (R42). -/
def readOnlyOffsets : List Byte := [0x04, 0x08, 0x0C, 0x10, 0x14, 0x38, 0x3C, 0x40, 0x44, 0x48, 0x4C, 0x64, 0x80]

/-- Read-only registers and offsets beyond the register map ignore writes (R42). -/
theorem State.regWrite_ignored {off : Byte} (h : off ∈ readOnlyOffsets ∨ 0x84 ≤ off.toNat) (s : State) (v : Word) :
    s.regWrite off v = s := by
  rcases h with h | h
  · simp only [readOnlyOffsets, List.mem_cons, List.mem_nil_iff, or_false] at h
    rcases h with rfl | rfl | rfl | rfl | rfl | rfl | rfl | rfl | rfl | rfl | rfl | rfl | rfl <;> rfl
  · unfold State.regWrite
    split
    case h_20 => rfl
    all_goals omega

theorem aligned_of_plain : ∀ off ∈ plainOffsets, off.toNat % 4 = 0 ∧ off ≠ 0 := by decide

theorem aligned_of_readOnly : ∀ off ∈ readOnlyOffsets, off.toNat % 4 = 0 ∧ off ≠ 0 := by decide

/-- Settles O58: a plain register stores its value and shows it alone; the read-only and empty offsets write nothing. -/
theorem registerWrites : Obligations.RegisterWrites := by
  intro s off v rest h q plain readOnly
  refine ⟨fun hoff => ?_, fun hoff => ?_⟩
  · obtain ⟨h4, h0⟩ := aligned_of_plain off hoff
    refine ⟨q.regWrite off v, step_regWrite h h4 h0, ?_, fun other hne => ?_, State.regWrite_plain hoff q v⟩
    · rw [regView_regWrite_plain hoff hoff, if_pos rfl]; rfl
    · rw [regView_regWrite_other hoff hne]; rfl
  · have ⟨h4, h0⟩ : off.toNat % 4 = 0 ∧ off ≠ 0 := by
      rcases hoff with hoff | ⟨hge, h4⟩
      · exact aligned_of_readOnly off hoff
      · exact ⟨h4, fun e => by subst e; exact absurd hge (by decide)⟩
    rw [step_regWrite h h4 h0, State.regWrite_ignored (hoff.imp_right And.left)]

/-! ### Register reads (R21, R25) -/

theorem CoreState.code_toNat (c : CoreState) : c.code.toNat = match c with | .idle => 0 | .faulted => 2 := by
  cases c <;> rfl

theorem GrdState.code_toNat (g : GrdState) :
    g.code.toNat = match g with | .ready => 0 | .decoding => 1 | .finished => 2 | .error => 3 := by
  cases g <;> rfl

theorem MqState.code_toNat (m : MqState) :
    m.code.toNat = match m with | .dataAvailable => 0 | .decodingFinished => 1 | .looping => 2 := by
  cases m <;> rfl

/-- The fields of `STATUS` at their bits (R25). -/
theorem State.statusWord_toNat (s : State) :
    s.statusWord.toNat = s.core.code.toNat + 4 * s.grd.st.code.toNat + 16 * s.mq.valid.toNat + 32 * s.mq.complete.toNat
      + 64 * s.mq.st.code.toNat + 256 * s.gbBank.valid.toNat + 512 * s.grBank.valid.toNat + 1024 * s.grd.ltp.toNat := by
  unfold State.statusWord
  simp only [toNat_concat, BitVec.toNat_ofBool, BitVec.toNat_ofNat]
  omega

theorem State.flagsWord_toNat (s : State) : s.flagsWord.toNat = s.oob.toNat + 2 * s.boundary.toNat := by
  unfold State.flagsWord
  simp only [toNat_concat, BitVec.toNat_ofBool, BitVec.toNat_ofNat]
  omega

theorem State.faultWord_of_some {s : State} {f : FaultCode} (h : s.fault = some f) : s.faultWord = f.code.setWidth 32 := by
  unfold State.faultWord
  rw [h]

theorem State.faultWord_of_none {s : State} (h : s.fault = none) : s.faultWord = 0 := by
  unfold State.faultWord
  rw [h]

theorem State.regView_empty {off : Byte} (h : off = 0 ∨ 0x84 ≤ off.toNat) (s : State) : s.regView off = 0 := by
  rcases h with rfl | h
  · rfl
  · unfold State.regView
    split
    case h_33 => rfl
    all_goals omega

theorem toNat_setWidth_of_le {n m : Nat} (h : n ≤ m) (x : BitVec n) : (x.setWidth m).toNat = x.toNat := by
  rw [BitVec.toNat_setWidth]
  exact Nat.mod_eq_of_lt (lt_of_lt_of_le x.isLt (Nat.pow_le_pow_right (by decide) h))

/-- Settles O59: the packed registers by their fields, the others as they stand. -/
theorem registerReads : Obligations.RegisterReads := by
  intro s off rest h h4
  refine ⟨(step_of_op h).trans (hostStep_regRead h4 _), ?_, s.flagsWord_toNat, State.faultWord_of_none, fun f hf => ?_, rfl,
    fun he => s.regView_empty he, rfl, rfl, rfl, rfl, rfl, rfl, rfl, rfl, rfl, rfl, rfl,
    toNat_setWidth_of_le (by decide) _, rfl, rfl, rfl, toNat_setWidth_of_le (by decide) _,
    rfl, rfl, rfl, rfl, rfl, rfl, rfl, rfl, rfl, rfl, rfl, rfl⟩
  · refine s.statusWord_toNat.trans ?_
    rw [CoreState.code_toNat, GrdState.code_toNat, MqState.code_toNat] <;> rfl
  · change s.faultWord.toNat = _
    rw [State.faultWord_of_some hf]
    cases f <;> rfl

end Sys2Proof.Machine

namespace Sys2Proof.Machine

/-! ### The context commands (R160, R161, R162) -/

/-- A bank write changes no field but the banks. -/
theorem State.putBank_frame (s : State) (k : Bank) (b : ContextBank) :
    s.putBank k b = { s with gbBank := (s.putBank k b).gbBank, grBank := (s.putBank k b).grBank } := by
  cases k <;> rfl

theorem Ctx.packed_eq (x : Ctx) : x.packed = BitVec.ofNat 32 (x.idx.val + 128 * x.mps.toNat) := by
  unfold Ctx.packed
  cases x.mps <;> rfl

/-- A legal packed word stands for the entry whose packed form it is (R32, R162). -/
theorem unpackCtx_of_legal {v : Word} (h1 : v.toNat < 256) (h2 : v.toNat / 64 % 2 = 0) (h3 : v.toNat % 64 ≤ 46) :
    ∃ x, unpackCtx v = some x ∧ x.idx.val = v.toNat % 64 ∧ x.mps = decide (128 ≤ v.toNat) ∧ x.packed = v := by
  have hidx : (v.extractLsb' 0 6).toNat = v.toNat % 64 := by rw [toNat_field]; simp
  have hhigh : v.extractLsb' 8 24 = 0 := BitVec.eq_of_toNat_eq (by rw [toNat_field]; simp; omega)
  have hbit : v.getLsbD 6 = false := by
    rw [BitVec.getLsbD, Nat.testBit_eq_decide_div_mod_eq]; simp; omega
  have hmps : v.getLsbD 7 = decide (128 ≤ v.toNat) := by
    rw [BitVec.getLsbD, Nat.testBit_eq_decide_div_mod_eq]; simp; omega
  have hlt : (v.extractLsb' 0 6).toNat < 47 := by omega
  refine ⟨⟨⟨_, hlt⟩, v.getLsbD 7⟩, ?_, hidx, hmps, ?_⟩
  · unfold unpackCtx
    rw [if_neg (by rw [hhigh, hbit]; simp), dif_pos hlt]
  · rw [Ctx.packed_eq]
    apply BitVec.eq_of_toNat_eq
    rw [BitVec.toNat_ofNat]
    change ((v.extractLsb' 0 6).toNat + 128 * (v.getLsbD 7).toNat) % 2 ^ 32 = v.toNat
    rw [hidx, hmps]
    by_cases h : 128 ≤ v.toNat <;> simp [h] <;> omega

theorem exec_cxClear {k : Bank} {s : State} (hi : s.core = .idle) :
    exec (.cxClear k) s = .next (s.putBank k ⟨true, []⟩) := command_done _ ⟨hi, rfl⟩

theorem exec_cxRd {k : Bank} {s : State} (hi : s.core = .idle) (hv : (s.bank k).valid = true)
    (ha : s.arg0.toNat < bankSize k) :
    exec (.cxRd k) s = .next (s.giveResult (readCtx (s.bank k).entries s.arg0.toNat).packed) := by
  refine (command_ready _ ⟨hi, rfl⟩).trans ?_
  rw [if_neg (by simp [hv]), if_neg (Nat.not_le.mpr ha)]
  rfl

theorem exec_cxWr {k : Bank} {s : State} {x : Ctx} (hi : s.core = .idle) (hv : (s.bank k).valid = true)
    (ha : s.arg0.toNat < bankSize k) (hx : unpackCtx s.arg1 = some x) :
    exec (.cxWr k) s = .next (s.putBank k ⟨(s.bank k).valid, writeCtx (s.bank k).entries s.arg0.toNat x⟩) := by
  refine (command_ready _ ⟨hi, rfl⟩).trans ?_
  rw [if_neg (by simp [hv]), if_neg (Nat.not_le.mpr ha), hx]
  rfl

/-- Settles O32: an entry written is the one its packed word stands for, so reading it gives the word back. -/
theorem contextCommands : Obligations.ContextCommands := by
  intro k s hi
  refine ⟨⟨_, exec_cxClear hi, ?_, ?_, ?_, s.putBank_frame _ _⟩, fun hv ha => ⟨?_, fun h1 h2 h3 => ?_⟩⟩
  · rw [State.bank_putBank]
  · intro j
    rw [State.bank_putBank]
    rfl
  · exact fun other ho => State.bank_putBank_other _ ho.symm
  · rw [exec_cxRd hi hv ha, Ctx.packed_eq]
    rfl
  · obtain ⟨x, hx, hidx, hmps, hpacked⟩ := unpackCtx_of_legal h1 h2 h3
    have hread : readCtx ((s.putBank k ⟨(s.bank k).valid, writeCtx (s.bank k).entries s.arg0.toNat x⟩).bank k).entries
        s.arg0.toNat = x := by
      rw [State.bank_putBank]
      exact Store.read_write_same _ _ _ _
    have hback := exec_cxRd (k := k) (s := s.putBank k ⟨(s.bank k).valid, writeCtx (s.bank k).entries s.arg0.toNat x⟩)
      (by simp [hi]) (by simp [hv]) (by simpa using ha)
    rw [State.putBank_arg0, hread, hpacked] at hback
    refine ⟨_, exec_cxWr hi hv ha hx, ?_, by rw [hread, hidx], by rw [hread, hmps], fun j hj => ?_,
      fun other ho => State.bank_putBank_other _ ho.symm, s.putBank_frame _ _, hback⟩
    · rw [State.bank_putBank, hv]
    · rw [State.bank_putBank]
      exact Store.read_write_other hj

/-! ### The canonical codes (R206, R207 (2)) -/

theorem lengthCount_eq (rows : List RawRow) {len : Nat} (h : 1 ≤ len) :
    lengthCount rows len = (rows.filter fun q => q.preflen = len).length := by
  unfold lengthCount
  rw [if_neg (by omega), List.countP_eq_length_filter]
  congr 2

/-- The closed sum for the first code of a length. -/
theorem firstCode_eq (rows : List RawRow) (len : Nat) :
    firstCode rows len = ∑ j ∈ Finset.Ico 1 len, (rows.filter fun q => q.preflen = j).length * 2 ^ (len - j) := by
  induction len with
  | zero => rfl
  | succ n ih =>
    rw [firstCode]
    rcases Nat.eq_zero_or_pos n with rfl | hn
    · rfl
    · rw [Finset.sum_Ico_succ_top hn, ih, lengthCount_eq rows hn, Nat.add_mul, Finset.sum_mul]
      congr 1
      · refine Finset.sum_congr rfl fun j hj => ?_
        obtain ⟨-, hj⟩ := Finset.mem_Ico.mp hj
        rw [Nat.mul_assoc, ← Nat.pow_succ, Nat.succ_sub hj.le]
      · simp

theorem codeOf_eq (rows before : List RawRow) {len : Nat} (h : 1 ≤ len) :
    codeOf rows before len = (∑ j ∈ Finset.Ico 1 len, (rows.filter fun q => q.preflen = j).length * 2 ^ (len - j))
      + (before.filter fun q => q.preflen = len).length := by
  unfold codeOf
  rw [if_neg (by omega), firstCode_eq, lengthCount_eq before h]

theorem codeOf_zero (rows before : List RawRow) : codeOf rows before 0 = 0 := rfl

/-- Settles O37: row `k` is `assignRow` after the rows before it, and its code is the closed sum (`codeOf_eq`). -/
theorem canonicalCodes : Obligations.CanonicalCodes := by
  intro rows k r hr code
  refine ⟨assignRow rows (rows.take k) r, by rw [assignCodes_getElem?, hr]; rfl, rfl, rfl, rfl, rfl, fun hlen => ?_,
    fun h0 => ?_⟩
  · have hcode : codeOf rows (rows.take k) r.preflen = code := codeOf_eq rows _ hlen
    exact ⟨by rw [← hcode]; rfl, by rw [← hcode]; exact decide_eq_true_iff⟩
  · unfold assignRow
    simp only [h0, codeOf_zero]
    exact ⟨rfl, rfl⟩

/-! ### The slot commands (R255, R256, R266) -/

theorem State.bitmap_putBitmap (s : State) (k : Nat) (bm : Bitmap) : (s.putBitmap k bm).bitmap k = some bm :=
  Store.get_set_same _ _ _

theorem State.bitmap_putBitmap_other (s : State) {k j : Nat} (bm : Bitmap) (h : j ≠ k) :
    (s.putBitmap k bm).bitmap j = s.bitmap j := Store.get_set_other h

theorem tooLarge_eq_true {p : Params} {w h : Nat} :
    tooLarge p w h = true ↔ p.bmMaxW < w ∨ p.bmMaxH < h ∨ p.bmMaxBytes < 4 * ((w + 31) / 32) * h := by
  unfold tooLarge
  simp only [Bool.or_eq_true, decide_eq_true_eq, or_assoc]
  rfl

/-- `BM.ALLOC` by its checks, in their order. -/
theorem exec_bmAlloc {slot : Byte} {s : State} (hr : s.Ready (.bmAlloc slot)) :
    exec (.bmAlloc slot) s =
      if s.arg0.toNat = 0 ∨ s.arg1.toNat = 0 then .next (s.takeFault .operandRange (encode (.bmAlloc slot)))
      else if tooLarge s.cfg s.arg0.toNat s.arg1.toNat then
        .next (s.takeFault .resourceLimitExceeded (encode (.bmAlloc slot)))
      else .next (s.putBitmap slot.toNat (Bitmap.blank s.arg0.toNat s.arg1.toNat)) := by
  refine (command_ready _ hr).trans ?_
  simp only
  split
  · rfl
  · split <;> rfl

theorem exec_bmInfo {slot : Byte} {s : State} (sel : InfoSel) (hr : s.Ready (.bmInfo slot sel)) :
    exec (.bmInfo slot sel) s = .next (s.giveResult (slotField sel (s.bitmap slot.toNat))) := command_done _ hr

/-- Settles O40; `BM.ALLOC`, `BM.FREE` and `BM.INFO` have one operand check, that of the slot number. -/
theorem bmSlotCommands : Obligations.BmSlotCommands := by
  intro slot s hr w h tooBig gives
  have hbig : tooBig ↔ tooLarge s.cfg s.arg0.toNat s.arg1.toNat = true := tooLarge_eq_true.symm
  have halloc := exec_bmAlloc (slot := slot) (s := s) hr
  have hinfo : ∀ sel, exec (.bmInfo slot sel) s = .next (s.giveResult (slotField sel (s.bitmap slot.toNat))) :=
    fun sel => exec_bmInfo sel hr
  refine ⟨fun hw hh hf => ?_, fun h0 => ?_, fun hw hh hf => ?_, ?_, fun hb sel => ?_, fun bm hb => ?_⟩
  · rw [if_neg (not_or.mpr ⟨hw, hh⟩), if_neg (hbig.not.mp hf)] at halloc
    exact ⟨_, _, halloc, s.bitmap_putBitmap _ _, rfl, rfl, get_blank _ _, fun k hk => s.bitmap_putBitmap_other _ hk, rfl⟩
  · rw [halloc, if_pos h0]
  · rw [halloc, if_neg (not_or.mpr ⟨hw, hh⟩), if_pos (hbig.mp hf)]
  · exact ⟨_, command_done _ hr, Store.get_erase_same _ _, fun k hk => Store.get_erase_other hk, rfl⟩
  · rw [hinfo, hb]; rfl
  · simp only [hinfo, hb]
    exact ⟨rfl, rfl, rfl, rfl⟩

end Sys2Proof.Machine

namespace Sys2Proof.Machine

/-! ### One checked decision, by the completeness check (R164) -/

theorem Region.checked_complete {r : Region} (h : r.coder.complete = true) (sp : Span) (i : Nat)
    (use : Bool → Region → Region) :
    r.checked sp i use = .error r := if_pos h

theorem Region.checked_open {r : Region} (h : r.coder.complete = false) (sp : Span) (i : Nat)
    (use : Bool → Region → Region) :
    r.checked sp i use = .ok (use (r.decision sp i).1 (r.decision sp i).2) := if_neg (by simp [h])

@[simp] theorem RegionStep.andThen_ok (r : Region) (f : Region → RegionStep) : RegionStep.andThen (.ok r) f = f r := rfl

@[simp] theorem RegionStep.andThen_error (r : Region) (f : Region → RegionStep) : RegionStep.andThen (.error r) f = .error r :=
  rfl

/-- The last of `n + 1` steps that all succeed. -/
theorem RegionStep.each_last {f : Nat → Region → RegionStep} {i n : Nat} {r0 r : Region}
    (h : RegionStep.each f i (n + 1) r0 = .ok r) : ∃ q, RegionStep.each f i n r0 = .ok q ∧ f (i + n) q = .ok r := by
  rw [RegionStep.each_add] at h
  cases hq : RegionStep.each f i n r0 with
  | error e => rw [hq] at h; cases h
  | ok q =>
    rw [hq, RegionStep.andThen_ok, RegionStep.each] at h
    refine ⟨q, rfl, ?_⟩
    cases hf : f (i + n) q with
    | error e => rw [hf] at h; cases h
    | ok r' => rw [hf] at h; exact h

/-- Steps from index 0 that all succeed. -/
theorem RegionStep.each_ok_zero {f : Nat → Region → RegionStep} {n : Nat} {px : Nat → Region}
    (h : ∀ x, x < n → f x (px x) = .ok (px (x + 1))) : RegionStep.each f 0 n (px 0) = .ok (px n) :=
  RegionStep.each_ok f n 0 px fun x hx => by rw [Nat.zero_add]; exact h x hx

/-- Steps from index 0 up to one that fails. -/
theorem RegionStep.each_error_zero {f : Nat → Region → RegionStep} {q : Region} {n w : Nat} {px : Nat → Region} (hn : n < w)
    (h : ∀ x, x < n → f x (px x) = .ok (px (x + 1))) (he : f n (px n) = .error q) :
    RegionStep.each f 0 w (px 0) = .error q :=
  RegionStep.each_error f q w n 0 px hn (fun x hx => by rw [Nat.zero_add]; exact h x hx) (by rw [Nat.zero_add]; exact he)

/-! ### The row loop of a generic region (R307, R311) -/

theorem pauseSample_next (p : Bool) (f : List (Option Bool)) (m : Nat) :
    pauseSample p f (m + 1) = pauseSample (pauseSample p f m) (f.drop m) 1 := by
  induction m generalizing p f with
  | zero => simp [pauseSample]
  | succ m ih => rw [pauseSample_succ, ih, ← pauseSample_succ, List.drop_drop, Nat.add_comm 1 m]

/-- Where a row loop started in `s` stands when it has taken `m` pause samples. -/
def State.loopAt (s : State) (r : Region) (st : GrdState) (row m : Nat) : GrdLoop :=
  ⟨r, row, st, pauseSample s.pause s.host.pauseFeed m, s.host.pauseFeed.drop m⟩

/-- A loop turn that fails. -/
theorem rowLoop_failed {e : GrdEnv} {l : GrdLoop} {r : Region} (h : decodeRow e l.row l.region = .error r) (n : Nat) :
    rowLoop e (n + 1) l = { l with region := r, st := .error } := by rw [rowLoop, h]

/-- The turn that makes the last row. -/
theorem rowLoop_finished {e : GrdEnv} {l : GrdLoop} {r : Region} (h : decodeRow e l.row l.region = .ok r)
    (hend : l.row + 1 = e.h) (n : Nat) : rowLoop e (n + 1) l = { l with region := r, row := e.h, st := .finished } := by
  rw [rowLoop, h]
  simp only [hend, if_true]

/-- A turn that makes a row before the last and samples the pause indicator as 1. -/
theorem rowLoop_paused {e : GrdEnv} {l : GrdLoop} {r : Region} (h : decodeRow e l.row l.region = .ok r)
    (hmore : l.row + 1 < e.h) (hp : pauseSample l.pause l.feed 1 = true) (n : Nat) :
    rowLoop e (n + 1) l = ⟨r, l.row + 1, l.st, true, l.feed.drop 1⟩ := by
  rw [rowLoop, h]
  simp only [if_neg hmore.ne, pauseAt_eq, hp, if_true]

theorem grdAfter_loopAt (s : State) (r : Region) (st : GrdState) (row m : Nat) :
    grdAfter s (s.loopAt r st row m) = s.afterRows r st row m := rfl

section
variable {s : State} {k : SkipSource} {bm : Bitmap} {row n : Nat} {ltp : Bool} {r : Region}
  (h : RegionStep.each (decodeRow (grdEnv s k)) row n ⟨s.coder, s.gbBank.entries, bm, ltp⟩ = .ok r)
include h

/-- After `n` rows with every sample 0 and rows still to go, the loop goes on at row `row + n`. -/
theorem grdRun_rows (hn : row + n < s.gb.h.toNat) (hs : ∀ j, 1 ≤ j → j ≤ n → pauseSample s.pause s.host.pauseFeed j = false) :
    grdRun s k bm row ltp
      = rowLoop (grdEnv s k) (s.gb.h.toNat - (row + n) - 1 + 1) (s.loopAt r .decoding (row + n) n) := by
  unfold grdRun
  rw [show s.gb.h.toNat - row = n + (s.gb.h.toNat - (row + n) - 1 + 1) by omega]
  exact rowLoop_rows (grdEnv s k) n _ _ r row s.pause s.host.pauseFeed h
    (show row + n + _ = s.gb.h.toNat by omega) (by omega) hs

/-- Row `row + n` fails: the loop ends in Error there. -/
theorem grdRun_failed (hn : row + n < s.gb.h.toNat)
    (hs : ∀ j, 1 ≤ j → j ≤ n → pauseSample s.pause s.host.pauseFeed j = false) {r' : Region}
    (he : decodeRow (grdEnv s k) (row + n) r = .error r') :
    grdRun s k bm row ltp = s.loopAt r' .error (row + n) n := by
  rw [grdRun_rows h hn hs, rowLoop_failed he]
  rfl

end

section
variable {s : State} {k : SkipSource} {bm : Bitmap} {row n : Nat} {ltp : Bool} {r : Region}
  (h : RegionStep.each (decodeRow (grdEnv s k)) row (n + 1) ⟨s.coder, s.gbBank.entries, bm, ltp⟩ = .ok r)
  (hs : ∀ j, 1 ≤ j → j < n + 1 → pauseSample s.pause s.host.pauseFeed j = false)
include h hs

/-- Row `H − 1` done: the loop ends Finished. -/
theorem grdRun_finished (hn : row + (n + 1) = s.gb.h.toNat) :
    grdRun s k bm row ltp = s.loopAt r .finished s.gb.h.toNat n := by
  obtain ⟨q, hq, hlast⟩ := RegionStep.each_last h
  rw [grdRun_rows hq (by omega) fun j h1 h2 => hs j h1 (by omega), rowLoop_finished hlast hn]
  rfl

/-- A sample that reads 1 at the boundary after a row that is not the last: the loop ends paused. -/
theorem grdRun_paused (hn : row + (n + 1) < s.gb.h.toNat) (hp : pauseSample s.pause s.host.pauseFeed (n + 1) = true) :
    grdRun s k bm row ltp = s.loopAt r .decoding (row + (n + 1)) (n + 1) := by
  obtain ⟨q, hq, hlast⟩ := RegionStep.each_last h
  have hp' := pauseSample_next s.pause s.host.pauseFeed n ▸ hp
  rw [grdRun_rows hq (by omega) fun j h1 h2 => hs j h1 (by omega), rowLoop_paused hlast hn hp']
  simp only [State.loopAt, hp, List.drop_drop]
  rfl

end

/-! ### The two commands that run it (R304, R305) -/

theorem startChecked_of_canStart {s : State} (h : s.CanStart) : StartChecked s s.skipSource where
  state := h.state
  mq := h.mq
  bank := h.bank
  width := h.width
  height := h.height
  dst := h.dst
  fits := h.fits
  skip := by
    unfold State.skipSource
    cases hu : s.gb.useSkip with
    | false => exact .inl ⟨rfl, rfl⟩
    | true =>
      obtain ⟨hlt, hne, k, hk⟩ := h.skip hu
      exact .inr ⟨rfl, hlt, hne, k, hk, by rw [hk]; rfl⟩

theorem contChecked_of_canContinue {s : State} {bm : Bitmap} (h : s.CanContinue bm) : ContChecked s bm s.skipSource where
  state := h.state
  mq := h.mq
  bank := h.bank
  dst := h.dst
  width := h.width
  height := h.height
  skip := by
    unfold State.skipSource
    cases hu : s.gb.useSkip with
    | false => exact .inl ⟨rfl, rfl⟩
    | true =>
      obtain ⟨hne, k, hk⟩ := h.skip hu
      exact .inr ⟨rfl, k, hk, by rw [hk, if_neg hne]; rfl⟩

/-- How a command ends whose loop ended in Error. -/
theorem finishGrd_loopAt_error (s : State) (r : Region) (row m : Nat) (w : Word) :
    (finishGrd s (s.loopAt r .error row m)).finish w
      = .next ((s.afterRows r .error row m).takeFault .arithmeticStreamComplete w) := by
  rw [finishGrd_finish]
  rfl

/-- How a command ends whose loop ended Finished or paused. -/
theorem finishGrd_loopAt {s : State} {st : GrdState} (h : st ≠ .error) (r : Region) (row m : Nat) (w : Word) :
    (finishGrd s (s.loopAt r st row m)).finish w = .next (s.afterRows r st row m) := by
  rw [finishGrd_finish, if_neg (by exact h), grdAfter_loopAt]

/-- How a command that runs the row loop ends, by its rows and its pause samples. -/
theorem exec_of_grdRun {s : State} {i : Instr} {k : SkipSource} {bm : Bitmap} {row n : Nat} {ltp : Bool} {r : Region}
    (hex : exec i s = (finishGrd s (grdRun s k bm row ltp)).finish (encode i))
    (h : RegionStep.each (decodeRow (grdEnv s k)) row n ⟨s.coder, s.gbBank.entries, bm, ltp⟩ = .ok r) :
    (1 ≤ n → (∀ j, 1 ≤ j → j < n → pauseSample s.pause s.host.pauseFeed j = false) →
      (row + n = s.gb.h.toNat → exec i s = .next (s.afterRows r .finished s.gb.h.toNat (n - 1)))
      ∧ (row + n < s.gb.h.toNat → pauseSample s.pause s.host.pauseFeed n = true →
        exec i s = .next (s.afterRows r .decoding (row + n) n)))
    ∧ ∀ r', (∀ j, 1 ≤ j → j ≤ n → pauseSample s.pause s.host.pauseFeed j = false) → row + n < s.gb.h.toNat →
      decodeRow (grdEnv s k) (row + n) r = .error r' →
      exec i s = .next ((s.afterRows r' .error (row + n) n).takeFault .arithmeticStreamComplete (encode i)) := by
  refine ⟨fun hn hs => ?_, fun r' hs hrow hf => ?_⟩
  · obtain ⟨m, rfl⟩ := Nat.exists_eq_add_of_le' hn
    refine ⟨fun hrow => ?_, fun hrow hp => ?_⟩
    · rw [hex, grdRun_finished h hs hrow, finishGrd_loopAt (by decide)]; rfl
    · rw [hex, grdRun_paused h hs hrow hp, finishGrd_loopAt (by decide)]
  · rw [hex, grdRun_failed h hrow hs hf, finishGrd_loopAt_error]

/-! ### A row of a generic region (R308, R310) -/

/-- A pixel comes from the skip bitmap exactly when `USESKIP` is 1 and the skip slot holds a bitmap with that pixel 1. -/
theorem skips_skipSource (s : State) (bm : Bitmap) (x y : Nat) :
    (grdEnv s s.skipSource).skips bm x y
      = (s.gb.cfg.getLsbD 3 && (s.bitmap (s.gb.cfg.extractLsb' 16 8).toNat).any fun k => k.get x y) := by
  change GrdEnv.skips (grdEnv s s.skipSource) bm x y = (s.gb.useSkip && (s.bitmap s.gb.skip).any fun k => k.get x y)
  unfold State.skipSource
  cases s.gb.useSkip with
  | false => rfl
  | true => cases s.bitmap s.gb.skip <;> rfl

/-- A row that becomes a copy of the row above. -/
theorem get_copyLine_above (bm : Bitmap) (y : Nat) (x' y' : Int) :
    (bm.copyLine y ((y : Int) - 1)).get x' y' = if y' = y ∧ y < bm.h then bm.get x' ((y : Int) - 1) else bm.get x' y' := by
  rw [get_copyLine]
  by_cases hx : 0 ≤ x' ∧ x' < bm.w
  · exact if_congr ⟨fun ⟨h1, _, _, _, h⟩ => ⟨h1, by omega⟩, fun ⟨h1, h⟩ => ⟨h1, hx.1, hx.2, by omega, by omega⟩⟩ rfl rfl
  · have hout : ∀ z : Int, bm.get x' z = false := fun z => get_outside fun ⟨h0, hw, _⟩ => hx ⟨h0, hw⟩
    rw [hout, hout, ite_self, ite_self]

section
variable {e : GrdEnv} {y x : Nat} {r t : Region}

theorem grdPixel_skipped (h : e.skips r.bm x y = true) : grdPixel e y x r = .ok (r.setPixel x y false) := if_pos h

theorem grdPixel_of_not_skipped (h : e.skips r.bm x y = false) :
    grdPixel e y x r = r.checked e.sp (gbContext e.t e.atPixels r.bm x y) fun v r => r.setPixel x y v := if_neg (by simp [h])

theorem grdSltp_on (h : e.tpgdon = true) : grdSltp e r = r.checked e.sp (sltpContext e.t) Region.toggleLtp := if_pos h

theorem grdSltp_off (h : e.tpgdon = false) : grdSltp e r = .ok r := if_neg (by simp [h])

theorem decodeRow_of_sltp_error (h : grdSltp e r = .error t) : decodeRow e y r = .error t := by
  rw [decodeRow, h, RegionStep.andThen_error]

theorem decodeRow_of_typical (h : grdSltp e r = .ok t) (hc : (e.tpgdon && t.ltp) = true) :
    decodeRow e y r = .ok { t with bm := t.bm.copyLine y ((y : Int) - 1) } := by
  rw [decodeRow, h, RegionStep.andThen_ok, if_pos hc]

theorem decodeRow_of_not_typical (h : grdSltp e r = .ok t) (hc : (e.tpgdon && t.ltp) = false) :
    decodeRow e y r = RegionStep.each (grdPixel e y) 0 e.w t := by
  rw [decodeRow, h, RegionStep.andThen_ok, hc]; rfl

end

/-- Settles O48. The loop is followed row by row (`exec_of_grdRun`), a row pixel by pixel (`RegionStep.each_ok_zero`,
`RegionStep.each_error_zero`); a step's success or failure is the completeness check (`Region.checked_open`,
`Region.checked_complete`). -/
theorem grdRowLoop : Obligations.GrdRowLoop := by
  unfold Obligations.GrdRowLoop
  refine ⟨fun s n r r' => ⟨fun hc hrows _ => ?_, fun bm hc hrows _ => ?_⟩, fun s y n r px => ⟨rfl, ?_, ?_, ?_⟩⟩
  · obtain ⟨hends, hfails⟩ := exec_of_grdRun (exec_grdStart (startChecked_of_canStart hc) hc.idle) hrows
    exact ⟨hends, hfails r'⟩
  · obtain ⟨hends, hfails⟩ := exec_of_grdRun (exec_grdCont (contChecked_of_canContinue hc) hc.idle) hrows
    exact ⟨hends, hfails r'⟩
  · intro hon hcomplete
    exact decodeRow_of_sltp_error ((grdSltp_on hon).trans (Region.checked_complete hcomplete _ _ _))
  · intro hon hopen hltp
    have hsltp := (grdSltp_on (e := grdEnv s s.skipSource) hon).trans (Region.checked_open hopen _ _ _)
    exact ⟨_, decodeRow_of_typical hsltp (Bool.and_eq_true_iff.mpr ⟨hon, hltp⟩), Bitmap.copyLine_w .., Bitmap.copyLine_h .., get_copyLine_above _ _⟩
  · intro hplain hn h0 hpx
    have hsltp : grdSltp (grdEnv s s.skipSource) r = .ok (px 0) ∧ ((grdEnv s s.skipSource).tpgdon && (px 0).ltp) = false := by
      rw [h0]
      by_cases hon : s.gb.cfg.getLsbD 2 = true
      · obtain ⟨hopen, hltp⟩ := hplain.resolve_left (by simp [hon])
        rw [if_pos hon]
        exact ⟨(grdSltp_on hon).trans (Region.checked_open hopen _ _ _), Bool.and_eq_false_imp.mpr fun _ => hltp⟩
      · rw [if_neg hon]
        have hoff : (grdEnv s s.skipSource).tpgdon = false := Bool.eq_false_iff.mpr hon
        exact ⟨grdSltp_off hoff, by rw [hoff, Bool.false_and]⟩
    rw [decodeRow_of_not_typical hsltp.1 hsltp.2]
    have hstep : ∀ x, x < n → grdPixel (grdEnv s s.skipSource) y x (px x) = .ok (px (x + 1)) := fun x hx => by
      obtain ⟨hskip, hdecide⟩ := hpx x hx
      cases hsk : (grdEnv s s.skipSource).skips (px x).bm x y with
      | true => rw [grdPixel_skipped hsk, hskip ((skips_skipSource ..).symm.trans hsk)]; rfl
      | false =>
        obtain ⟨hopen, hnext⟩ := hdecide ((skips_skipSource ..).symm.trans hsk)
        rw [grdPixel_of_not_skipped hsk, Region.checked_open hopen, hnext]; rfl
    refine ⟨fun hw => ?_, fun hw hsk hcomplete => ?_⟩
    · obtain rfl := hw
      exact RegionStep.each_ok_zero hstep
    · refine RegionStep.each_error_zero hw hstep ?_
      rw [grdPixel_of_not_skipped ((skips_skipSource s _ n y).trans hsk), Region.checked_complete hcomplete]

end Sys2Proof.Machine

namespace Sys2Proof.Machine

/-! ### Typical prediction in a refinement region (R361) -/

/-- A pixel of the 3×3 reference neighbourhood, by the two places its centre can have. -/
theorem ref_get_centre (e : GrrEnv) (x y : Nat) (i j : Int) :
    e.ref.get ((e.centre x y).1 + i) ((e.centre x y).2 + j)
      = if e.centerDisplaced then e.ref.get (x - e.dx + i) (y - e.dy + j) else e.ref.get (x + i) (y + j) := by
  unfold GrrEnv.centre
  split <;> rfl

theorem typicalValue_eq (e : GrrEnv) (x y : Nat) :
    e.typicalValue x y = e.ref.get ((e.centre x y).1 + 0) ((e.centre x y).2 + 0) := by
  simp only [GrrEnv.typicalValue, add_zero]

/-- The short-circuit of a pixel: the row's flag is 1 and the neighbourhood has one value. -/
theorem shortCircuits_iff (e : GrrEnv) (x y : Nat) (r : Region) :
    (e.tpgron && r.ltp && e.uniform x y) = true ↔
      e.tpgron = true ∧ r.ltp = true ∧ ∀ i ∈ ([-1, 0, 1] : List Int), ∀ j ∈ ([-1, 0, 1] : List Int),
        (if e.centerDisplaced then e.ref.get (x - e.dx + i) (y - e.dy + j) else e.ref.get (x + i) (y + j))
          = if e.centerDisplaced then e.ref.get (x - e.dx + 0) (y - e.dy + 0) else e.ref.get (x + 0) (y + 0) := by
  simp only [← ref_get_centre e x y, typicalValue_eq, Bool.and_eq_true, and_assoc, GrrEnv.uniform, List.all_eq_true,
    beq_iff_eq]
  exact and_congr_right fun _ => and_congr_right fun _ =>
    ⟨fun h i hi j hj => h j hj i hi, fun h j hj i hi => h i hi j hj⟩

/-! ### A pixel and a row of a refinement region (R353, R360) -/

section
variable {e : GrrEnv} {y x : Nat} {r t : Region}

theorem grrPixel_short (h : (e.tpgron && r.ltp && e.uniform x y) = true) :
    grrPixel e y x r = .ok (r.setPixel x y (e.typicalValue x y)) := if_pos h

theorem grrPixel_of_not_short (h : ¬ (e.tpgron && r.ltp && e.uniform x y) = true) :
    grrPixel e y x r = r.checked e.sp (grContext e r.bm x y) fun v r => r.setPixel x y v := if_neg h

theorem grrSltp_on (h : e.tpgron = true) : grrSltp e r = r.checked e.sp (sltpRefContext e.t) Region.toggleLtp := if_pos h

theorem grrSltp_off (h : e.tpgron = false) : grrSltp e r = .ok r := if_neg (by simp [h])

theorem grrRow_of_sltp_error (h : grrSltp e r = .error t) : grrRow e y r = .error t := by
  rw [grrRow, h, RegionStep.andThen_error]

theorem grrRow_of_sltp (h : grrSltp e r = .ok t) : grrRow e y r = RegionStep.each (grrPixel e y) 0 e.w t := by
  rw [grrRow, h, RegionStep.andThen_ok]

end

@[simp] theorem RegionStep.each_one (f : Nat → Region → RegionStep) (i : Nat) (r : Region) : RegionStep.each f i 1 r = f i r := by
  rw [RegionStep.each]
  cases f i r <;> rfl

/-- A one-pixel region without typical prediction is one checked decision. -/
theorem grrRows_one {e : GrrEnv} {r : Region} (hw : e.w = 1) (hh : e.h = 1) (hoff : e.tpgron = false) :
    grrRows e r = r.checked e.sp (grContext e r.bm 0 0) fun v r => r.setPixel 0 0 v := by
  rw [grrRows, hh, RegionStep.each_one, grrRow_of_sltp (grrSltp_off hoff), hw, RegionStep.each_one,
    grrPixel_of_not_short (by simp [hoff])]

/-! ### The command (R353) -/

theorem State.CanRefine.checked {s : State} {ref : Bitmap} (h : s.CanRefine ref) : RefineChecked s ref :=
  ⟨h.mq, h.bank, h.width, h.height, h.dst, h.refSlot, h.differ, h.valid, h.fits⟩

theorem exec_grrDecode_ok {s : State} {ref : Bitmap} (h : s.CanRefine ref) {r : Region}
    (hr : grrRows (grrEnv s ref) (grrStart s) = .ok r) : exec .grrDecode s = .next (s.afterRefinement r) := by
  rw [exec_grrDecode h.checked h.idle, hr]; rfl

theorem exec_grrDecode_error {s : State} {ref : Bitmap} (h : s.CanRefine ref) {r : Region}
    (hr : grrRows (grrEnv s ref) (grrStart s) = .error r) :
    exec .grrDecode s = .next ((s.afterRefinement r).takeFault .arithmeticStreamComplete (encode .grrDecode)) := by
  rw [exec_grrDecode h.checked h.idle, hr]; rfl

/-- Settles O52. Rows and pixels are followed one by one (`RegionStep.each_ok_zero`, `RegionStep.each_error_zero`); a one-pixel
region is one checked decision (`grrRows_one`). -/
theorem grrResult : Obligations.GrrResult := by
  unfold Obligations.GrrResult
  refine ⟨fun s ref hc => ⟨?_, fun r hr => exec_grrDecode_ok hc hr, fun r hr => exec_grrDecode_error hc hr, ?_⟩,
    fun e m q rw' hm hrows => ⟨?_, ?_⟩, fun e y n r px => ⟨?_, ?_⟩⟩
  · exact ⟨rfl, rfl, rfl, rfl, rfl, rfl, rfl, rfl, rfl, rfl, rfl, rfl, rfl⟩
  · intro hw hh hoff hopen
    have hrows := (grrRows_one (e := grrEnv s ref) (r := grrStart s) (by simp [grrEnv, hw]) (by simp [grrEnv, hh]) hoff).trans
      (Region.checked_open hopen _ _ _)
    refine ⟨_, _, exec_grrDecode_ok hc hrows, hc.idle, State.bitmap_putBitmap _ _ _, ?_, ?_, ?_⟩
    · simp [Region.setPixel, Region.decision, grrStart, hw, Bitmap.blank]
    · simp [Region.setPixel, Region.decision, grrStart, hh, Bitmap.blank]
    · refine (get_set _ _ _ _ _ _).trans (if_pos ⟨rfl, rfl, ?_⟩)
      simp [Region.decision, grrStart, hw, hh, Bitmap.blank]
  · rintro rfl
    exact RegionStep.each_ok_zero hrows
  · exact fun hlt hfail => RegionStep.each_error_zero hlt hrows hfail
  · exact fun hon hcomplete => grrRow_of_sltp_error ((grrSltp_on hon).trans (Region.checked_complete hcomplete _ _ _))
  · intro hplain hn h0 hpx
    have hsltp : grrSltp e r = .ok (px 0) := by
      rw [h0]
      by_cases hon : e.tpgron = true
      · rw [if_pos hon]
        exact (grrSltp_on hon).trans (Region.checked_open (hplain.resolve_left (by simp [hon])) _ _ _)
      · rw [if_neg hon]
        exact grrSltp_off (Bool.eq_false_iff.mpr hon)
    have hshort : ∀ x, (e.tpgron && (px x).ltp && e.uniform x y) = true ↔ _ := fun x => shortCircuits_iff e x y (px x)
    have hstep : ∀ x, x < n → grrPixel e y x (px x) = .ok (px (x + 1)) := fun x hx => by
      obtain ⟨hset, hdecide⟩ := hpx x hx
      by_cases hsh : (e.tpgron && (px x).ltp && e.uniform x y) = true
      · rw [grrPixel_short hsh, hset ((hshort x).mp hsh), typicalValue_eq, ref_get_centre]; rfl
      · obtain ⟨hopen, hnext⟩ := hdecide (mt (hshort x).mpr hsh)
        rw [grrPixel_of_not_short hsh, Region.checked_open hopen, hnext]; rfl
    rw [grrRow_of_sltp hsltp]
    refine ⟨fun hw => ?_, fun hw hsh hcomplete => RegionStep.each_error_zero hw hstep ?_⟩
    · obtain rfl := hw
      exact RegionStep.each_ok_zero hstep
    · rw [grrPixel_of_not_short (mt (hshort n).mp hsh), Region.checked_complete hcomplete]

end Sys2Proof.Machine

namespace Sys2Proof.Machine

/-! ### A state with other source bytes (R61) -/

/-- The state `s` with the source memory `m`. -/
def State.withSrc (m : Memory) (s : State) : State := { s with src := m }

/-- The end of a body, with the source memory `m` instead. -/
def Result.withSrc (m : Memory) : Result → Result
  | .done s => .done (s.withSrc m)
  | .raise f s => .raise f (s.withSrc m)

/-- What comes before the body of a command reads no source byte. -/
theorem command_withSrc {i : Instr} {s t : State} {m : Memory} {b b' : Result} (hb : b' = b.withSrc m)
    (h : command i s b = .next t) : command i (s.withSrc m) b' = .next (t.withSrc m) := by
  subst hb
  rcases command_cases h with ⟨hc, rfl⟩ | ⟨hc, hw, rfl⟩ | ⟨hr, rfl⟩ | ⟨hr, f, u, rfl, rfl⟩
  · exact command_faulted _ hc
  · exact command_illegal _ hc hw
  · exact command_done _ hr
  · exact command_raise f _ hr

section
variable {s : State} {m : Memory}

@[simp] theorem State.withSrc_cfg : (s.withSrc m).cfg = s.cfg := rfl
@[simp] theorem State.withSrc_cur : (s.withSrc m).cur = s.cur := rfl
@[simp] theorem State.withSrc_arg0 : (s.withSrc m).arg0 = s.arg0 := rfl
@[simp] theorem State.withSrc_arg1 : (s.withSrc m).arg1 = s.arg1 := rfl
@[simp] theorem State.withSrc_gb : (s.withSrc m).gb = s.gb := rfl
@[simp] theorem State.withSrc_coder : (s.withSrc m).coder = s.coder := rfl
@[simp] theorem State.withSrc_bytesLeft : (s.withSrc m).bytesLeft = s.bytesLeft := rfl
@[simp] theorem State.withSrc_bitmap (slot : Nat) : (s.withSrc m).bitmap slot = s.bitmap slot := rfl
@[simp] theorem State.withSrc_table (id : Nat) : (s.withSrc m).table id = s.table id := rfl
@[simp] theorem State.withSrc_bank (k : Bank) : (s.withSrc m).bank k = s.bank k := rfl
@[simp] theorem State.withSrc_putBank (k : Bank) (b : ContextBank) :
    (s.withSrc m).putBank k b = (s.putBank k b).withSrc m := by cases k <;> rfl

/-- A test that reads no source byte goes the same way. -/
theorem Result.withSrc_ite {c c' : Prop} [Decidable c] [Decidable c'] {a a' b b' : Result} (hc : c' ↔ c)
    (ha : a' = a.withSrc m) (hb : b' = b.withSrc m) : (if c' then a' else b') = (if c then a else b).withSrc m := by
  subst ha hb
  by_cases h : c
  · rw [if_pos h, if_pos (hc.mpr h)]
  · rw [if_neg h, if_neg (hc.not.mpr h)]

/-- So does a check. -/
theorem Result.withSrc_check {c : Prop} [Decidable c] {f : FaultCode} {b b' : Result} (hb : b' = b.withSrc m) :
    (if c then .raise f (s.withSrc m) else b') = (if c then .raise f s else b).withSrc m :=
  Result.withSrc_ite (c := c) Iff.rfl rfl hb

theorem withBitmap_withSrc {slot : Nat} {g g' : Bitmap → Result} (hg : ∀ bm, g' bm = (g bm).withSrc m) :
    withBitmap (s.withSrc m) slot g' = (withBitmap s slot g).withSrc m := by
  unfold withBitmap
  rw [State.withSrc_bitmap]
  cases s.bitmap slot with
  | none => rfl
  | some bm => exact hg bm

theorem withSkip_withSrc {g g' : SkipSource → Result} (hg : ∀ k, g' k = (g k).withSrc m) :
    withSkip (s.withSrc m) g' = (withSkip s g).withSrc m := by
  refine Result.withSrc_ite Iff.rfl ?_ (hg _)
  rw [State.withSrc_bitmap, State.withSrc_gb]
  cases s.bitmap s.gb.skip with
  | none => rfl
  | some k => exact hg _

theorem seekTo_withSrc (n : Nat) : seekTo n (s.withSrc m) = (seekTo n s).withSrc m :=
  Result.withSrc_check rfl

/-- Bytes below the end of the span are all a big-endian read takes (R120). -/
theorem bigEndian_agree {a b : Span} (h : a.Agree b) {i n : Nat} (hi : i + n ≤ a.len) : bigEndian a i n = bigEndian b i n := by
  induction n with
  | zero => rfl
  | succ n ih => rw [bigEndian, bigEndian, ih (by omega), h.2 (i + n) (by omega)]

/-! ### Bodies that read the span, over another that agrees with it -/

variable (h : s.span.Agree (s.withSrc m).span)
include h

theorem readWhole_withSrc {n : Nat} (hn : 0 < n) : readWhole n (s.withSrc m) = (readWhole n s).withSrc m := by
  refine Result.withSrc_check ?_
  rw [State.withSrc_bytesLeft]
  by_cases hle : n ≤ s.bytesLeft
  · have hin : s.cur.byteIdx.toNat + n ≤ s.span.len := by
      have hleft : n ≤ s.len - s.cur.byteIdx.toNat := hle
      change _ ≤ s.len
      omega
    rw [if_pos hle, if_pos hle, bigEndian_agree h hin]
    rfl
  · rw [if_neg hle, if_neg hle]
    rfl

/-- The row loop makes the same of every region, and the state around it differs in the source memory only. -/
theorem runGrd_withSrc (k : SkipSource) (bm : Bitmap) (row : Nat) (ltp : Bool) :
    runGrd (s.withSrc m) k bm row ltp = (runGrd s k bm row ltp).withSrc m := by
  have hrun : grdRun (s.withSrc m) k bm row ltp = grdRun s k bm row ltp :=
    (rowLoop_agree h (grdEnv s k) (s.gb.h.toNat - row) _).symm
  rw [runGrd_eq, runGrd_eq, hrun, finishGrd_eq, finishGrd_eq]
  exact Result.withSrc_ite Iff.rfl rfl rfl

end

/-- Settles O20: a body takes from the source memory only what a span that agrees below `LEN` gives alike (the `_agree` laws
of the reader and the decoders), and puts none of it back. -/
theorem beyondSpanUnread : Obligations.BeyondSpanUnread := by
  intro i s t m hbytes hx
  have h : s.span.Agree (s.withSrc m).span := ⟨rfl, fun a ha => (hbytes a ha).symm⟩
  have hl : s.span.len ≤ Config.srcCap := s.len_le
  change exec i (s.withSrc m) = .next (t.withSrc m)
  cases i with
  | sysClrf | sysReset => cases hx; rfl
  | sysNop | brRemain | htInfo | bmFree | bmInfo | grdAbort => exact command_withSrc rfl hx
  | brSeek | brSkip => exact command_withSrc (seekTo_withSrc _) hx
  | brAlign => exact command_withSrc (by rw [align_eq, align_eq]; rfl) hx
  | brReadBits n => exact command_withSrc (by rw [readBits_agree h hl]; rfl) hx
  | brReadByte | brReadU16 | brReadU32 => exact command_withSrc (readWhole_withSrc h (by decide)) hx
  | mqInit => exact command_withSrc (Result.withSrc_check (by rw [initDec_agree h]; rfl)) hx
  | mqDecode k =>
    refine command_withSrc (Result.withSrc_check (Result.withSrc_check (Result.withSrc_check ?_))) hx
    simp only [decodeBit_agree h, State.withSrc_bank, State.withSrc_coder]
    cases k <;> rfl
  | cxClear k => exact command_withSrc (congrArg Result.done (State.withSrc_putBank k _)) hx
  | cxRd k =>
    exact command_withSrc (Result.withSrc_check (Result.withSrc_check rfl)) hx
  | cxWr k =>
    refine command_withSrc (Result.withSrc_check (Result.withSrc_check ?_)) hx
    rw [State.withSrc_arg1]
    cases unpackCtx s.arg1 with
    | none => rfl
    | some x => cases k <;> rfl
  | htParse id =>
    refine command_withSrc (Result.withSrc_check ?_) hx
    rw [parseTable_agree h hl, State.withSrc_cfg, State.withSrc_cur]
    cases parseTable (s.withSrc m).span s.cfg.htMaxRows s.cur <;> rfl
  | htDecode id =>
    refine command_withSrc ?_ hx
    rw [State.withSrc_table]
    cases s.table id.toNat with
    | none => rfl
    | some table =>
      simp only [decodeValue_agree h hl, State.withSrc_cur]
      rcases decodeValue (s.withSrc m).span table s.cur with (_ | _) | _ <;> rfl
  | htRow id sel =>
    refine command_withSrc ?_ hx
    rw [State.withSrc_table, State.withSrc_arg0]
    cases s.table id.toNat with
    | none => rfl
    | some table =>
      simp only
      cases table.rows[s.arg0.toNat]? <;> rfl
  | bmAlloc => exact command_withSrc (Result.withSrc_check (Result.withSrc_check rfl)) hx
  | bmFill | bmGet | bmSet | bmCopyLine => exact command_withSrc (withBitmap_withSrc fun _ => rfl) hx
  | bmCompose => exact command_withSrc (withBitmap_withSrc fun _ => withBitmap_withSrc fun _ => rfl) hx
  | bmExpand =>
    exact command_withSrc (withBitmap_withSrc fun _ => Result.withSrc_ite Iff.rfl rfl (Result.withSrc_check rfl)) hx
  | bmSubImage =>
    exact command_withSrc (withBitmap_withSrc fun _ => Result.withSrc_check (Result.withSrc_check rfl)) hx
  | grdStart =>
    exact command_withSrc (Result.withSrc_check (Result.withSrc_check
      (withSkip_withSrc fun k => Result.withSrc_check (runGrd_withSrc h k _ _ _)))) hx
  | grdCont =>
    exact command_withSrc (Result.withSrc_check (withBitmap_withSrc fun bm => Result.withSrc_check
      (withSkip_withSrc fun k => runGrd_withSrc h k bm _ _))) hx
  | grrDecode =>
    refine command_withSrc (Result.withSrc_check (Result.withSrc_check
      (withBitmap_withSrc fun ref => Result.withSrc_check ?_))) hx
    have hrows : grrRows (grrEnv (s.withSrc m) ref) (grrStart (s.withSrc m)) = grrRows (grrEnv s ref) (grrStart s) :=
      (grrRows_agree h (grrEnv s ref) (grrStart s)).symm
    unfold grrStart at hrows
    rw [hrows]
    cases grrRows (grrEnv s ref) ⟨s.coder, s.grBank.entries, Bitmap.blank s.gr.w.toNat s.gr.h.toNat, false⟩ <;> rfl

end Sys2Proof.Machine

namespace Sys2Proof.Machine

/-! ### What every command leaves of the memories (R61, R268, R320, R362) -/

@[simp] theorem grdAfter_span (s : State) (l : GrdLoop) : (grdAfter s l).span = s.span := by
  simp [grdAfter, State.span, State.len]
@[simp] theorem putGrr_span (s : State) (r : Region) : (putGrr s r).span = s.span := by simp [putGrr]

theorem grdAfter_bitmap_other {s : State} {k : Nat} (l : GrdLoop) (h : k ≠ s.gb.dst) : (grdAfter s l).bitmap k = s.bitmap k := by
  refine (State.bitmap_putBitmap_other _ l.region.bm h).trans ?_
  simp

theorem putGrr_bitmap_other {s : State} {k : Nat} (r : Region) (h : k ≠ s.gr.dst) : (putGrr s r).bitmap k = s.bitmap k := by
  refine (State.bitmap_putBitmap_other _ r.bm h).trans ?_
  simp

theorem Completes.byte_kept {s t : State} {i : Instr} (hc : Completes s i t) (a : Nat) : t.span.byte a = s.span.byte a := by
  cases hc with
  | sysReset => rfl
  | brAlign => rw [align_eq]; simp
  | brReadByte | brReadU16 | brReadU32 => rw [wholeRead_eq]; simp
  | mqInit => rfl
  | _ => simp

theorem Fails.byte_kept {s u : State} {i : Instr} {f : FaultCode} (hf : Fails s i f u) (a : Nat) :
    u.span.byte a = s.span.byte a := by
  cases hf <;> simp

theorem Completes.bitmap_kept {s t : State} {i : Instr} (hc : Completes s i t) (hi : i ≠ .sysReset) {k : Nat}
    (h : s.target i ≠ some k) : t.bitmap k = s.bitmap k := by
  have hk : ∀ {j}, s.target i = some j → k ≠ j := fun hj e => h (e ▸ hj)
  cases hc with
  | sysReset => exact absurd rfl hi
  | brAlign => rw [align_eq]; simp
  | brReadByte | brReadU16 | brReadU32 => rw [wholeRead_eq]; simp
  | mqInit => rfl
  | bmAlloc | bmFill | bmSet | bmCopyLine | bmCompose | bmGrow | bmSubImage =>
    exact State.bitmap_putBitmap_other _ _ (hk rfl)
  | bmFree => exact Store.get_erase_other (hk rfl)
  | grdStart | grdCont => exact grdAfter_bitmap_other _ (hk rfl)
  | grrDecode => exact putGrr_bitmap_other _ (hk rfl)
  | _ => simp

theorem Fails.bitmap_kept {s u : State} {i : Instr} {f : FaultCode} (hf : Fails s i f u) {k : Nat}
    (h : s.target i ≠ some k) : u.bitmap k = s.bitmap k := by
  have hk : ∀ {j}, s.target i = some j → k ≠ j := fun hj e => h (e ▸ hj)
  cases hf with
  | htParse | htDecode => simp
  | grdStart | grdCont => exact grdAfter_bitmap_other _ (hk rfl)
  | grrDecode => exact putGrr_bitmap_other _ (hk rfl)

/-- Settles O17: each way a command can end keeps the source bytes and the slots it does not target. -/
theorem memoryFrame : Obligations.MemoryFrame := by
  intro i s t h
  rcases exec_cases h with ⟨-, -, rfl⟩ | ⟨-, -, f, -, rfl⟩ | ⟨-, hc⟩ | ⟨-, f, u, hf, rfl⟩
  · exact ⟨fun _ => rfl, fun _ _ _ => rfl⟩
  · exact ⟨fun _ => rfl, fun _ _ _ => rfl⟩
  · exact ⟨hc.byte_kept, fun hi _ => hc.bitmap_kept hi⟩
  · exact ⟨hf.byte_kept, fun _ _ => hf.bitmap_kept⟩

/-! ### The alignment check (R68) -/

theorem exec_of_misaligned {i : Instr} {s : State} {b : Result} (hr : s.Ready i) (hb : s.cur.bitIdx ≠ 0)
    (he : exec i s = command i s (if s.cur.bitIdx ≠ 0 then .raise .misaligned s else b)) :
    exec i s = .next (s.takeFault .misaligned (encode i)) := by
  rw [he, if_pos hb, command_raise _ _ hr]

/-- Settles O25: the first check of each of the seven is that of the bit index. -/
theorem misalignedCommands : Obligations.MisalignedCommands := by
  rintro i s hr hb (hi | ⟨id, rfl⟩)
  · simp only [List.mem_cons, List.mem_nil_iff, or_false] at hi
    rcases hi with rfl | rfl | rfl | rfl | rfl | rfl <;> exact exec_of_misaligned hr hb rfl
  · exact exec_of_misaligned hr hb rfl

/-! ### The pixel commands (R257, R258, R259) -/

/-- A command whose only check is that its slot is valid completes when it is (R250). -/
theorem command_withBitmap {i : Instr} {s : State} {slot : Nat} {bm : Bitmap} (hr : s.Ready i)
    (hb : s.bitmap slot = some bm) (g : Bitmap → State) :
    command i s (withBitmap s slot fun bm => .done (g bm)) = .next (g bm) := by
  unfold withBitmap
  rw [hb]
  exact command_done _ hr

section
variable {slot : Byte} {s : State} {bm : Bitmap} (hb : s.bitmap slot.toNat = some bm)
include hb

theorem exec_bmFill {v : Bool} (hr : s.Ready (.bmFill slot v)) :
    exec (.bmFill slot v) s = .next (s.putBitmap slot.toNat (Bitmap.tabulate bm.w bm.h fun _ _ => v)) :=
  command_withBitmap hr hb _

theorem exec_bmGet (hr : s.Ready (.bmGet slot)) :
    exec (.bmGet slot) s = .next (s.giveResult (bitWord (bm.get s.arg0.toInt s.arg1.toInt))) :=
  command_withBitmap hr hb _

theorem exec_bmSet {v : Bool} (hr : s.Ready (.bmSet slot v)) :
    exec (.bmSet slot v) s = .next (s.putBitmap slot.toNat (bm.set s.arg0.toInt s.arg1.toInt v)) :=
  command_withBitmap hr hb _

end

theorem byte_getMsbD_eq_getLsbD (b : Byte) {k : Nat} (h : k < 8) : b.getMsbD k = b.getLsbD (7 - k) := by
  rw [BitVec.getMsbD_eq_getLsbD, decide_eq_true h, Bool.true_and]

/-- A pixel inside the bitmap is its bit of its byte (R63). -/
theorem get_eq_getLsbD {bm : Bitmap} {x y : Int} (hi : 0 ≤ x ∧ x < bm.w ∧ 0 ≤ y ∧ y < bm.h) :
    bm.get x y = (bm.byte (y.toNat * strideOf bm.w + x.toNat / 8)).getLsbD (7 - x.toNat % 8) := by
  lift x to ℕ using hi.1
  lift y to ℕ using hi.2.2.1
  rw [get_inside (by omega) (by omega), Bitmap.pixel, byte_getMsbD_eq_getLsbD _ (by omega)]
  rfl

/-- `Set` changes no byte but that of its pixel (R63, R253). -/
theorem byte_set_other {bm : Bitmap} {x y : Int} {a : Nat} (v : Bool)
    (h : 0 ≤ x ∧ x < bm.w ∧ 0 ≤ y ∧ y < bm.h → a ≠ y.toNat * strideOf bm.w + x.toNat / 8) :
    (bm.set x y v).byte a = bm.byte a := by
  by_cases hi : 0 ≤ x ∧ x < bm.w ∧ 0 ≤ y ∧ y < bm.h
  · lift x to ℕ using hi.1
    lift y to ℕ using hi.2.2.1
    rw [byte_set (by omega) (by omega)]
    exact if_neg (h hi)
  · rw [set_outside hi]

/-- Settles O41: the three need the slot alone, and what they make of its bitmap is known by pixels (`get_tabulate`, `get_set`)
and by bytes (`byte_set_other`). -/
theorem bmPixelCommands : Obligations.BmPixelCommands := by
  intro slot v s bm hr hb x y inside
  refine ⟨⟨_, _, exec_bmFill hb hr, State.bitmap_putBitmap _ _ _, rfl, rfl, fun x y hi => ?_,
      fun k hk => State.bitmap_putBitmap_other _ _ hk, rfl⟩, exec_bmGet hb hr, get_outside, get_eq_getLsbD,
    ⟨_, _, exec_bmSet hb hr, State.bitmap_putBitmap _ _ _, Bitmap.set_w _ _ _ _, Bitmap.set_h _ _ _ _, get_set _ _ _ _,
      fun a ha => byte_set_other v ha, fun k hk => State.bitmap_putBitmap_other _ _ hk, rfl⟩⟩
  rw [get_tabulate, decide_eq_true hi, Bool.true_and]

/-! ### The source window (R61) -/

/-- A write in the live span drops what the decoders had made of it. -/
theorem State.srcWrite_eq (s : State) (i : Nat) (b : Byte) :
    s.srcWrite i b = { s with
      src := Store.set s.src i b
      mq := { s.mq with valid := s.mq.valid && decide (s.len ≤ i) }
      grd := { s.grd with st := if i < s.len ∧ s.grd.st = .decoding then .error else s.grd.st } } := by
  unfold State.srcWrite
  simp only
  by_cases h : i < s.len
  · rw [if_pos h, State.loseGrd_eq]
    by_cases hd : s.grd.st = .decoding <;> simp [h, hd, State.dropMq]
  · simp [h, Nat.not_lt.mp h]

theorem byte_srcWrite (s : State) (i : Nat) (b : Byte) (a : Nat) :
    (s.srcWrite i b).span.byte a = if a = i then b else s.span.byte a := by
  rw [State.srcWrite_eq]
  change (Store.get (Store.set s.src i b) a).getD _ = _
  rw [Store.get_set]
  split <;> rfl

/-- Settles O56: the window's end is the port's only check, and a write is `srcWrite_eq`. -/
theorem sourceWindow : Obligations.SourceWindow := by
  intro s i b rest
  refine ⟨fun h hi => ?_, fun h hi => ?_, fun h hi => ?_⟩
  · refine ⟨_, (step_of_op h).trans (if_pos hi), byte_srcWrite _ i b, ?_⟩
    rw [State.srcWrite_eq]
    rfl
  · refine (step_of_op h).trans ((if_pos hi).trans ?_)
    rw [BitVec.ofNat_toNat]
    rfl
  · rcases h with h | h <;> exact (step_of_op h).trans (if_neg (Nat.not_lt.mpr hi))

/-! ### The bitmap windows (R63, R64, R65) -/

theorem State.bitmap_bmWrite (s : State) (slot a : Nat) (b : Byte) (k : Nat) :
    (s.bmWrite slot a b).bitmap k = if k = slot then (s.bitmap slot).map (·.hostWrite a b) else s.bitmap k := by
  unfold State.bmWrite
  by_cases hk : k = slot
  · subst hk
    rw [if_pos rfl]
    cases h : s.bitmap k with
    | none => exact h
    | some bm => exact State.bitmap_putBitmap _ _ _
  · rw [if_neg hk]
    cases s.bitmap slot with
    | none => rfl
    | some bm => exact State.bitmap_putBitmap_other _ _ hk

theorem State.bmWrite_frame (s : State) (slot a : Nat) (b : Byte) :
    s.bmWrite slot a b = { s with bitmaps := (s.bmWrite slot a b).bitmaps } := by
  unfold State.bmWrite
  cases s.bitmap slot <;> rfl

theorem hostWrite_beyond {bm : Bitmap} {a : Nat} (h : bm.size ≤ a) (b : Byte) : bm.hostWrite a b = bm :=
  if_neg (Nat.not_lt.mpr h)

/-- A byte the host writes sets the pixels it holds and no other (R63, R65). -/
theorem get_hostWrite {bm : Bitmap} {a x y : Nat} (ha : a < bm.size) (b : Byte) (hx : x < bm.w) (hy : y < bm.h) :
    (bm.hostWrite a b).get x y = if y * strideOf bm.w + x / 8 = a then b.getLsbD (7 - x % 8) else bm.get x y := by
  have hx' : x < (bm.hostWrite a b).w := by simpa using hx
  have hy' : y < (bm.hostWrite a b).h := by simpa using hy
  rw [get_inside hx' hy', pixel_hostWrite ha b hx, byte_getMsbD_eq_getLsbD b (by omega), get_inside hx hy]

/-- The host reads a pixel at its bit of its byte, whatever the padding bits are drawn as (R63, R64). -/
theorem getLsbD_hostRead {bm : Bitmap} {x y : Nat} (hx : x < bm.w) (hy : y < bm.h) (draw : Nat) :
    (bm.hostRead (y * strideOf bm.w + x / 8) draw).getLsbD (7 - x % 8) = bm.get x y := by
  have hbit : x % 8 < 8 := by omega
  have hcol : x / 8 * 8 + x % 8 = x := by omega
  have hpad : (bm.padMask (y * strideOf bm.w + x / 8)).getMsbD (x % 8) = false := by
    rw [getMsbD_padMask _ _ hbit, address_mod hx, hcol]
    exact decide_eq_false (by omega)
  have hsize : y * strideOf bm.w + x / 8 < bm.size := row_address hx hy
  rw [← byte_getMsbD_eq_getLsbD _ hbit, get_inside hx hy, Bitmap.hostRead, if_pos hsize]
  simp [hpad, hbit, Bitmap.pixel, Bitmap.stride]

/-- Settles O60: a write changes its slot by `hostWrite`, which is the identity beyond the bitmap; a read is `hostRead`. -/
theorem bitmapWindow : Obligations.BitmapWindow := by
  intro s slot a b rest
  refine ⟨fun h => ?_, fun h => ?_⟩
  · have hstep : step s = .next (((s.popOp rest).setBusyWindow false).bmWrite slot a b) := step_of_op h
    have hslot := ((s.popOp rest).setBusyWindow false).bitmap_bmWrite slot a b
    have hframe := ((s.popOp rest).setBusyWindow false).bmWrite_frame slot a b
    simp only [State.setBusyWindow_bitmap, State.popOp_bitmap] at hslot
    refine ⟨fun hstray => ⟨_, hstep, fun k => ?_, hframe⟩, fun bm hb ha => ⟨_, bm.hostWrite a b, hstep, ?_,
      Bitmap.hostWrite_w _ _ _, Bitmap.hostWrite_h _ _ _, fun x y hx hy => get_hostWrite ha b hx hy, fun k hk => ?_,
      hframe⟩⟩
    · rw [hslot]
      split
      · rename_i hk
        subst hk
        rcases hstray with hn | ⟨bm, hb, hbeyond⟩
        · rw [hn]; rfl
        · rw [hb, Option.map_some, hostWrite_beyond hbeyond]
      · rfl
    · rw [hslot, if_pos rfl, hb]; rfl
    · rw [hslot, if_neg hk]
  · refine ⟨((s.popOp rest).setBusyWindow false).bmRead slot a s.host.draws, ?_, fun bm hb x y hx hy ha => ?_⟩
    · rw [BitVec.ofNat_toNat]
      exact step_of_op h
    · have hread : ((s.popOp rest).setBusyWindow false).bmRead slot a s.host.draws = bm.hostRead a s.host.draws := by
        unfold State.bmRead
        rw [State.setBusyWindow_bitmap, State.popOp_bitmap, hb]
      rw [hread, ← ha]
      exact getLsbD_hostRead hx hy _

end Sys2Proof.Machine

namespace Sys2Proof.Machine

/-! ### The field readers against the field values of the encoder (R94, R95)

Each is a fact about the 256 values of one byte. -/

theorem readBank_eq_ok {a : Byte} {k : Bank} : readBank a = .ok k ↔ a = bankCode k := by
  cases k <;> decide +revert

theorem readFlag_eq_ok {c : Byte} {v : Bool} : readFlag c = .ok v ↔ c = flagCode v := by
  cases v <;> decide +revert

theorem readRowSel_eq_ok {c : Byte} {sel : RowSel} : readRowSel c = .ok sel ↔ c = rowSelCode sel := by
  cases sel <;> decide +revert

theorem readInfoSel_eq_ok {c : Byte} {sel : InfoSel} : readInfoSel c = .ok sel ↔ c = infoSelCode sel := by
  cases sel <;> decide +revert

theorem readCompose_eq_ok {c : Byte} {q : CombOp × Bool} :
    readCompose c = .ok q ↔ c = combCode q.1 + if q.2 then 8 else 0 := by
  obtain ⟨cop, clip⟩ := q
  cases cop <;> cases clip <;> decide +revert

theorem exists_eq_ok {α : Type} {r : Except Illegal α} : (∃ x, r = .ok x) ↔ r.isOk = true := by
  cases r <;> simp [Except.isOk, Except.toBool]

theorem exists_readBank {a : Byte} : (∃ k, readBank a = .ok k) ↔ a.toNat ≤ 1 := by
  rw [exists_eq_ok]
  decide +revert

theorem exists_readFlag {c : Byte} : (∃ v, readFlag c = .ok v) ↔ c.toNat ≤ 1 := by
  rw [exists_eq_ok]
  decide +revert

theorem exists_readRowSel {c : Byte} : (∃ sel, readRowSel c = .ok sel) ↔ c.toNat ≤ 4 := by
  rw [exists_eq_ok]
  decide +revert

theorem exists_readInfoSel {c : Byte} : (∃ sel, readInfoSel c = .ok sel) ↔ c.toNat ≤ 3 := by
  rw [exists_eq_ok]
  decide +revert

theorem exists_readCompose {c : Byte} : (∃ q, readCompose c = .ok q) ↔ c.toNat % 8 ≤ 4 ∧ c.toNat < 16 := by
  rw [exists_eq_ok]
  decide +revert

/-! ### The decoder, by its stages (R96) -/

theorem whenZero_eq_ok {ok : Bool} {r : Except Illegal Instr} {i : Instr} :
    whenZero ok r = .ok i ↔ ok = true ∧ r = .ok i := by
  cases ok <;> simp [whenZero]

theorem map_eq_ok {α : Type} {r : Except Illegal α} {f : α → Instr} {i : Instr} :
    r.map f = .ok i ↔ ∃ x, r = .ok x ∧ f x = i := by
  cases r <;> simp [Except.map]

theorem checkRange_eq_ok {p : Params} {r : Except Illegal Instr} {i : Instr} :
    checkRange p r = .ok i ↔ r = .ok i ∧ wellFormed p i = true := by
  cases r with
  | error e => simp [checkRange]
  | ok j =>
    simp only [checkRange, Except.ok.injEq]
    split
    · next h => exact ⟨fun e => by cases e; exact ⟨rfl, h⟩, fun ⟨e, _⟩ => e ▸ rfl⟩
    · next h => exact ⟨nofun, fun ⟨e, hi⟩ => absurd (e ▸ hi) h⟩

theorem byte_eq_of_toNat {x : Byte} {n : Nat} (h : x.toNat = n) : x = BitVec.ofNat 8 n := by
  rw [← h, BitVec.ofNat_toNat, BitVec.setWidth_eq]

theorem byte_eq_zero {x : Byte} : x = 0#8 ↔ x.toNat = 0 := ⟨congrArg BitVec.toNat, byte_eq_of_toNat⟩

/-- The four fields of a command's word read as the command, its ranges aside. -/
theorem decodeFields_encode (i : Instr) :
    decodeFields (fieldOp (encode i)) (fieldA (encode i)) (fieldB (encode i)) (fieldC (encode i)) = .ok i := by
  cases i with
  | mqDecode k | cxClear k | cxRd k | cxWr k => simp [encode, decodeFields, whenZero, map_eq_ok, readBank_eq_ok]
  | htRow id sel => simp [encode, decodeFields, whenZero, map_eq_ok, readRowSel_eq_ok]
  | bmFill slot v | bmSet slot v | bmExpand slot v => simp [encode, decodeFields, whenZero, map_eq_ok, readFlag_eq_ok]
  | bmCompose dst src cop clip => simp [encode, decodeFields, map_eq_ok, readCompose_eq_ok]
  | bmInfo slot sel => simp [encode, decodeFields, whenZero, map_eq_ok, readInfoSel_eq_ok]
  | _ => simp [encode, decodeFields, whenZero]

/-- Conversely, each row of the opcode map (R93) fixes the fields that are no operand and the value of every operand field. -/
theorem encode_of_decodeFields {op a b c : Byte} {i : Instr} (h : decodeFields op a b c = .ok i) :
    encode i = assemble op a b c := by
  unfold decodeFields at h
  split at h
  case h_35 => cases h
  all_goals
    rename_i hop
    obtain rfl := byte_eq_of_toNat hop
    simp only [whenZero_eq_ok, map_eq_ok, readBank_eq_ok, readFlag_eq_ok, readRowSel_eq_ok, readInfoSel_eq_ok,
      readCompose_eq_ok, Bool.and_eq_true, decide_eq_true_eq, Except.ok.injEq] at h
  case h_7 | h_17 | h_18 | h_19 | h_21 | h_22 | h_24 | h_26 =>
    obtain ⟨⟨rfl, rfl⟩, rfl⟩ := h
    rfl
  case h_13 | h_14 | h_15 | h_16 =>
    obtain ⟨⟨rfl, rfl⟩, k, rfl, rfl⟩ := h
    rfl
  case h_20 | h_23 | h_25 | h_28 | h_30 =>
    obtain ⟨rfl, v, rfl, rfl⟩ := h
    rfl
  case h_27 =>
    obtain ⟨q, rfl, rfl⟩ := h
    rfl
  case h_29 =>
    obtain ⟨rfl, rfl⟩ := h
    rfl
  all_goals
    obtain ⟨⟨⟨rfl, rfl⟩, rfl⟩, rfl⟩ := h
    rfl

theorem decodeFields_eq_ok {op a b c : Byte} {i : Instr} :
    decodeFields op a b c = .ok i ↔ encode i = assemble op a b c :=
  ⟨encode_of_decodeFields, fun h => by simpa [h] using decodeFields_encode i⟩

theorem decode_eq_ok {p : Params} {w : Word} {i : Instr} : decode p w = .ok i ↔ wellFormed p i = true ∧ encode i = w := by
  rw [decode, checkRange_eq_ok, decodeFields_eq_ok, assemble_fields, and_comm]

/-- Settles O1: a word decodes to the commands that assemble to it and have legal fields (`decode_eq_ok`). -/
theorem decodeOfEncode : Obligations.DecodeOfEncode := fun _ _ h => decode_eq_ok.mpr ⟨h, rfl⟩

/-- Settles O2, the other direction of `decode_eq_ok`. -/
theorem encodeOfDecode : Obligations.EncodeOfDecode := fun _ _ _ => decode_eq_ok.mp

/-- Row by row of the opcode map, the operand fields of a legal command are those R94 allows: a field that is no operand is 0,
an operand field is one its reader takes. -/
theorem exists_decodeFields {p : Params} {op a b c : Byte} :
    (∃ i, decodeFields op a b c = .ok i ∧ wellFormed p i = true) ↔ LegalWord p op.toNat a.toNat b.toNat c.toNat := by
  unfold decodeFields LegalWord
  split
  case h_35 =>
    -- no row: the opcode stands in none of R94's lists
    simp_all
  all_goals
    rename_i hop
    simp [hop, whenZero_eq_ok, map_eq_ok, exists_readBank, exists_readFlag, exists_readRowSel, exists_readInfoSel,
      exists_readCompose, wellFormed, slotOk, tableOk, customOk, byte_eq_zero, and_assoc, -Prod.exists, -Bool.exists_bool]
  all_goals omega

/-- Settles O3: what remains of the decoder after its fields have been read is the check of the ranges. -/
theorem legalWords : Obligations.LegalWords := by
  intro p w
  rw [← toNat_fieldOp, ← toNat_fieldA, ← toNat_fieldB, ← toNat_fieldC, ← exists_decodeFields]
  exact exists_congr fun _ => checkRange_eq_ok

/-- Settles O4: each word is the one its command assembles to. -/
theorem wordsOfTheSpec : Obligations.WordsOfTheSpec :=
  ⟨decodeOfEncode _ (.brReadBits 10) rfl, decodeOfEncode _ (.mqDecode .gr) rfl, decodeOfEncode _ (.htRow 16 .code) rfl,
    decodeOfEncode _ (.bmCompose 2 5 .xnor true) rfl, decodeOfEncode _ (.bmSet 7 true) rfl, decodeOfEncode _ .sysClrf rfl,
    decodeOfEncode _ .grdStart rfl, decodeOfEncode _ .grrDecode rfl⟩

end Sys2Proof.Machine

namespace Sys2Proof.Machine

/-! ### The write of a command word to `CMD` (R100) -/

theorem hostStep_cmd (w : Word) (s : State) :
    hostStep (.regWrite 0x00 w) s = issue w (s.setBusyWindow (s.accepts w)) := rfl

theorem step_cmd {s : State} {w : Word} {rest : List HostOp} (h : s.host.ops = .regWrite 0x00 w :: rest) :
    step s = issue w ((s.popOp rest).setBusyWindow (s.accepts w)) := (step_of_op h).trans (hostStep_cmd w _)

theorem issue_of_ok {s : State} {w : Word} {i : Instr} (h : decode s.cfg w = .ok i) : issue w s = exec i s := by
  rw [issue, h]

theorem issue_of_error {s : State} {w : Word} {e : Illegal} (h : decode s.cfg w = .error e) :
    issue w s = .next (if s.core = .idle then s.takeFault .illegalCommand w else s) := by
  rw [issue, h]

theorem State.accepts_eq_true {s : State} {w : Word} :
    s.accepts w = true ↔ s.core = .idle ∨ w = encode .sysClrf ∨ w = encode .sysReset := by
  simp [State.accepts, or_assoc]

theorem issue_sysClrf (s : State) : issue (encode .sysClrf) s = .next s.clearFault :=
  issue_of_ok (decodeOfEncode _ .sysClrf rfl)

theorem issue_sysReset (s : State) : issue (encode .sysReset) s = .next s.softReset :=
  issue_of_ok (decodeOfEncode _ .sysReset rfl)

/-- Settles O7: of the commands, all but the two have the shape that comes to nothing while Faulted. -/
theorem faultGate : Obligations.FaultGate := by
  intro i s hs hc hr
  obtain ⟨b, hb⟩ := exec_eq_command s hc hr
  rw [hb, command_faulted b hs]

/-- While Faulted a word that is not accepted is ignored, be it a command or not (R397). -/
theorem issue_faulted {s : State} {w : Word} (hs : s.core = .faulted) (hc : w ≠ encode .sysClrf) (hr : w ≠ encode .sysReset) :
    issue w s = .next s := by
  cases hd : decode s.cfg w with
  | error e => rw [issue_of_error hd, if_neg (by simp [hs])]
  | ok i =>
    obtain ⟨-, rfl⟩ := decode_eq_ok.mp hd
    rw [issue_of_ok hd]
    exact faultGate i s hs (fun e => hc (congrArg encode e)) (fun e => hr (congrArg encode e))

/-- Settles O5; a word placed by `withFetchWord` stands in front of the host's operations, which the step leaves. -/
theorem stepRunsDecoded : Obligations.StepRunsDecoded := by
  intro s w i hd
  refine ⟨fun rest h => (step_cmd h).trans (issue_of_ok hd), ?_⟩
  unfold State.withFetchWord
  rw [BitVec.ofNat_toNat, BitVec.setWidth_eq, step_cmd (rest := s.host.ops) rfl]
  exact issue_of_ok hd

/-- Settles O6: the four outcomes of `issue`, with the busy window as `accepts` gives it. -/
theorem issueRule : Obligations.IssueRule := by
  intro s w rest h
  have hstep := step_cmd h
  refine ⟨fun hs e he => ?_, fun hs hc hr => ?_, fun _ hw => ?_, fun _ hw => ?_⟩
  · rw [hstep, State.accepts_eq_true.mpr (.inl hs)]
    exact (issue_of_error (s := (s.popOp rest).setBusyWindow true) he).trans (congrArg _ (if_pos hs))
  · have hno : s.accepts w = false := by
      rw [Bool.eq_false_iff, Ne, State.accepts_eq_true, hs]
      exact fun ha => ha.elim nofun (Or.elim · hc hr)
    rw [hstep, hno]
    exact issue_faulted hs hc hr
  · obtain rfl : w = encode .sysClrf := hw
    rw [hstep, State.accepts_eq_true.mpr (.inr (.inl rfl)), issue_sysClrf]
  · obtain rfl : w = encode .sysReset := hw
    rw [hstep, State.accepts_eq_true.mpr (.inr (.inr rfl)), issue_sysReset]

end Sys2Proof.Machine

namespace Sys2Proof.Machine

/-! ### Composition (R261, R262, R263) -/

theorem composeRect_eq (clip : Bool) (r : Rect) (w h : Nat) :
    composeRect clip r w h = effectiveRect (if clip then r.x.toInt else 0) (if clip then r.y.toInt else 0)
      (if clip then r.w.toNat else w) (if clip then r.h.toNat else h) w h := by
  cases clip <;> rfl

theorem combine_eq (cop : CombOp) (d s : Bool) :
    combine cop d s = match cop with
      | .or => d || s
      | .and => d && s
      | .xor => d != s
      | .xnor => d == s
      | .replace => s := by
  cases cop <;> cases d <;> cases s <;> rfl

theorem exec_bmCompose {dst src : Byte} {cop : CombOp} {clip : Bool} {s : State} {d b : Bitmap}
    (hr : s.Ready (.bmCompose dst src cop clip)) (hd : s.bitmap dst.toNat = some d) (hb : s.bitmap src.toNat = some b) :
    exec (.bmCompose dst src cop clip) s = .next (s.putBitmap dst.toNat
      (d.compose b s.arg0.toInt s.arg1.toInt (composeRect clip s.rect b.w b.h) cop)) := by
  refine (command_ready _ hr).trans ?_
  rw [withBitmap, hd]
  simp only [withBitmap, hb]
  rfl

/-- Settles O43: the two slots are all the command needs, and what it makes of each pixel is `get_compose`. -/
theorem bmComposeResult : Obligations.BmComposeResult := by
  intro dst src cop clip s d b hr hd hb rx ry rw' rh
  refine ⟨_, _, exec_bmCompose hr hd hb, State.bitmap_putBitmap _ _ _, rfl, rfl, fun x y hx0 hx hy0 hy => ?_,
    fun k hk => State.bitmap_putBitmap_other _ _ hk, rfl⟩
  rw [get_compose, decide_eq_true ⟨hx0, hx, hy0, hy⟩, Bool.true_and, composeRect_eq]
  exact if_congr (covers_iff _ _ _) (combine_eq _ _ _) rfl

end Sys2Proof.Machine

namespace Sys2Proof.Machine

/-! ### The cursor in bits (R27, R121) -/

/-- `AVAIL` is what the position of the cursor leaves of the span. -/
theorem availBits_eq (len : Nat) (c : Cursor) : availBits len c = 8 * len - c.pos := by
  unfold availBits Cursor.pos
  omega

theorem cursorAt_byte (i : Nat) : cursorAt (8 * i) = ⟨BitVec.ofNat 32 i, 0⟩ := by
  rw [cursorAt, Nat.mul_div_cancel_left i (by decide), Nat.mul_mod_right]
  rfl

theorem State.CursorOk.pos_add_availBits {s : State} (h : s.CursorOk) :
    s.cur.pos + availBits s.len s.cur = 8 * s.len := by
  rw [availBits_eq, Nat.add_sub_of_le ((cursorOk_iff s.cur s.len).mp h)]

/-! ### Reading bits (R122, R123) -/

/-- The state a read that takes `k` bits completes in (R123); `boundary`: more were asked for. -/
def State.afterBits (s : State) (k : Nat) (boundary : Bool) : State :=
  ((s.setCursor (cursorAt (s.cur.pos + k))).dropMq).setResult (BitVec.ofNat 32 (s.span.number s.cur.pos k)) false boundary

theorem exec_brReadBits {n : Byte} {s : State} (hr : s.Ready (.brReadBits n)) :
    exec (.brReadBits n) s =
      .next (s.afterBits (min n.toNat (availBits s.len s.cur)) (decide (availBits s.len s.cur < n.toNat))) := by
  refine (command_done _ hr).trans ?_
  rw [readBits_eq s.span s.len_le, decide_eq_decide.mpr (min_lt_iff.trans (or_iff_right (lt_irrefl _)))]
  rfl

theorem exec_brReadBits_complete {n : Byte} {s : State} (hr : s.Ready (.brReadBits n))
    (h : n.toNat ≤ availBits s.len s.cur) : exec (.brReadBits n) s = .next (s.afterBits n.toNat false) := by
  rw [exec_brReadBits hr, min_eq_left h, decide_eq_false (Nat.not_lt.mpr h)]

/-- Where a read that finds its bits completes. -/
theorem eq_afterBits_of_exec {n : Byte} {s t : State} (ht : exec (.brReadBits n) s = .next t) (hi : s.core = .idle)
    (hn : n.toNat ≤ 32) (h : n.toNat ≤ availBits s.len s.cur) : t = s.afterBits n.toNat false := by
  rw [exec_brReadBits_complete ⟨hi, decide_eq_true hn⟩ h] at ht
  exact (Host.Outcome.next.inj ht).symm

/-- Settles O22: the read is `exec_brReadBits`, and one that finds too few bits takes all there are. -/
theorem readBitsResult : Obligations.ReadBitsResult := by
  refine fun n s hr => ⟨exec_brReadBits hr, fun hc hn => ?_⟩
  change availBits s.len s.cur < n.toNat at hn
  change cursorAt (s.cur.pos + min n.toNat (availBits s.len s.cur)) = _
  rw [min_eq_right hn.le, hc.pos_add_availBits, cursorAt_byte]

/-! ### One read after another (R132 (2)) -/

theorem State.pos_afterBits {s : State} {n : Nat} (b : Bool) (h : n ≤ availBits s.len s.cur) :
    (s.afterBits n b).cur.pos = s.cur.pos + n := by
  have hp := readBits_pos s.span s.len_le s.cur n
  rw [readBits_complete s.span s.len_le s.cur n h] at hp
  exact hp.trans (congrArg _ (min_eq_left h))

/-- A read that finds its bits leaves so many fewer. -/
theorem State.availBits_afterBits {s : State} {n : Nat} (b : Bool) (h : n ≤ availBits s.len s.cur) :
    availBits (s.afterBits n b).len (s.afterBits n b).cur = availBits s.len s.cur - n := by
  rw [availBits_eq, availBits_eq, s.pos_afterBits b h, Nat.sub_sub]
  rfl

/-- `RESULT` has room for 32 bits. -/
theorem State.toNat_result_afterBits (s : State) {n : Nat} (b : Bool) (hn : n ≤ 32) :
    (s.afterBits n b).result.toNat = s.span.number s.cur.pos n :=
  (BitVec.toNat_ofNat _ _).trans
    (Nat.mod_eq_of_lt ((s.span.number_lt _ _).trans_le (Nat.pow_le_pow_right (by decide) hn)))

theorem State.cur_afterBits_afterBits {s : State} {m : Nat} (n : Nat) (b : Bool) (h : m ≤ availBits s.len s.cur) :
    ((s.afterBits m b).afterBits n b).cur = (s.afterBits (m + n) b).cur := by
  change cursorAt ((s.afterBits m b).cur.pos + n) = cursorAt (s.cur.pos + (m + n))
  rw [s.pos_afterBits b h, Nat.add_assoc]

theorem State.result_afterBits_afterBits {s : State} {m n : Nat} (b : Bool) (h : m ≤ availBits s.len s.cur)
    (hn : m + n ≤ 32) :
    (s.afterBits m b).result.toNat * 2 ^ n + ((s.afterBits m b).afterBits n b).result.toNat
      = (s.afterBits (m + n) b).result.toNat := by
  rw [s.toNat_result_afterBits b (by omega), s.toNat_result_afterBits b hn, State.toNat_result_afterBits _ b (by omega),
    s.pos_afterBits b h]
  exact (s.span.number_add _ _ _).symm

/-! ### Byte-granular reads (R124, R125, R126) -/

theorem command_readWhole {i : Instr} {s : State} (hr : s.Ready i) (hb : s.cur.bitIdx = 0) (n : Nat) :
    command i s (readWhole n s) = .next (wholeRead s n) := by
  have h : readWhole n s = .done (wholeRead s n) := by
    rw [readWhole, if_neg (not_not.mpr hb), wholeRead, apply_ite Result.done]
  rw [h, command_done _ hr]

/-- At a byte boundary a read of whole bytes is one of their bits (R132 (3)). -/
theorem wholeRead_eq_afterBits {s : State} {n : Nat} (hb : s.cur.bitIdx = 0) (h : n ≤ s.bytesLeft) :
    wholeRead s n = s.afterBits (8 * n) false := by
  rw [wholeRead_eq_of_le h, State.afterBits, Cursor.pos_of_aligned hb, bigEndian_eq, ← Nat.mul_add, cursorAt_byte,
    BitVec.ofNat_add, BitVec.ofNat_toNat, BitVec.setWidth_eq]
  rfl

theorem le_availBits_of_bytesLeft {s : State} {n : Nat} (hb : s.cur.bitIdx = 0) (h : n ≤ s.bytesLeft) :
    8 * n ≤ availBits s.len s.cur := by
  rw [availBits_eq, Cursor.pos_of_aligned hb, ← Nat.mul_sub]
  exact Nat.mul_le_mul_left 8 h

/-- Settles O26: two reads that find their bits are one, in cursor and value; whole bytes are bits at a byte boundary. -/
theorem readBitsLaws : Obligations.ReadBitsLaws := by
  refine ⟨fun n1 n2 n s t1 t2 t hi h32 hsum hav h1 h2 h => ?_, fun s hi hb h4 => ?_⟩
  · change n.toNat ≤ availBits s.len s.cur at hav
    have hav1 : n1.toNat ≤ availBits s.len s.cur := by omega
    have hleft := s.availBits_afterBits false hav1
    obtain rfl := eq_afterBits_of_exec h hi (by omega) hav
    obtain rfl := eq_afterBits_of_exec h1 hi (by omega) hav1
    obtain rfl := eq_afterBits_of_exec h2 hi (by omega) (by omega)
    rw [hsum]
    exact ⟨State.cur_afterBits_afterBits _ _ hav1, State.result_afterBits_afterBits _ hav1 h32⟩
  · calc exec (.brReadBits 32) s
        = .next (s.afterBits 32 false) :=
          exec_brReadBits_complete (n := 32) ⟨hi, rfl⟩ (le_availBits_of_bytesLeft (n := 4) hb h4)
      _ = .next (wholeRead s 4) := congrArg _ (wholeRead_eq_afterBits hb h4).symm
      _ = exec .brReadU32 s := (command_readWhole ⟨hi, rfl⟩ hb 4).symm

/-- Settles O23: each of the three completes in `wholeRead`, whose number is written out byte by byte. -/
theorem wholeByteReads : Obligations.WholeByteReads := by
  intro s hi hb p got short b
  have read : ∀ n v, bigEndian s.span p n = v → wholeRead s n = if n ≤ s.len - p then got n v else short := by
    rintro n _ rfl
    rfl
  refine ⟨(command_readWhole ⟨hi, rfl⟩ hb 1).trans (congrArg _ (read 1 _ ?_)),
    (command_readWhole ⟨hi, rfl⟩ hb 2).trans (congrArg _ (read 2 _ ?_)),
    (command_readWhole ⟨hi, rfl⟩ hb 4).trans (congrArg _ (read 4 _ ?_))⟩ <;>
  simp only [bigEndian, b] <;> omega

/-! ### The cursor commands (R127 to R130) -/

theorem command_seekTo {i : Instr} {s : State} (hr : s.Ready i) (hb : s.cur.bitIdx = 0) (n : Nat) :
    command i s (seekTo n s) = .next (s.setCursor ⟨BitVec.ofNat 32 (min n s.len), 0⟩).dropMq := by
  rw [seekTo, if_neg (not_not.mpr hb), command_done _ hr]

/-- Settles O24: a seek at a byte boundary is `command_seekTo`; `BR.ALIGN` and `BR.REMAIN` have no check of their own. -/
theorem cursorCommands : Obligations.CursorCommands := by
  intro s hi at'
  refine ⟨fun hb => command_seekTo ⟨hi, rfl⟩ hb _, fun hb => command_seekTo ⟨hi, rfl⟩ hb _, ?_, command_done _ ⟨hi, rfl⟩⟩
  refine (command_done _ ⟨hi, rfl⟩).trans ?_
  rw [align_eq, ite_not]
  rfl

end Sys2Proof.Machine

namespace Sys2Proof.Machine

/-! ### Byte-in in numbers (R155) -/

/-- A byte put into a word at bit `n`. -/
theorem setWidth_shiftLeft (b : Byte) (n : Nat) : b.setWidth 32 <<< n = BitVec.ofNat 32 (b.toNat * 2 ^ n) := by
  apply BitVec.eq_of_toNat_eq
  simp [Nat.shiftLeft_eq]

theorem byteIn_plain (sp : Span) {k : Coder} (hb : k.b ≠ 0xFF) :
    byteIn sp k = { k with
      ptr := incPtr sp k.ptr
      b := byteAt sp (incPtr sp k.ptr).toNat
      c := k.c + 0xFF00 - BitVec.ofNat 32 ((byteAt sp (incPtr sp k.ptr).toNat).toNat * 2 ^ 8)
      ct := 8
      complete := k.complete || decide (sp.len ≤ (incPtr sp k.ptr).toNat) } := by
  rw [byteIn_eq, byteInFetch_plain sp hb, setWidth_shiftLeft]
  rfl

theorem byteIn_stuffed (sp : Span) {k : Coder} (hb : k.b = 0xFF) (h : (byteAt sp (k.ptr.toNat + 1)).toNat ≤ 0x8F) :
    byteIn sp k = { k with
      ptr := incPtr sp k.ptr
      b := byteAt sp (k.ptr.toNat + 1)
      c := k.c + 0xFE00 - BitVec.ofNat 32 ((byteAt sp (k.ptr.toNat + 1)).toNat * 2 ^ 9)
      ct := 7
      complete := k.complete || decide (sp.len ≤ (incPtr sp k.ptr).toNat) } := by
  rw [byteIn_eq, byteInFetch_stuffed sp hb h, setWidth_shiftLeft]
  rfl

/-- The next byte-in takes the marker path: `B` is `0xFF` and what follows is a marker or the end of the span. -/
def Coder.AtMarker (sp : Span) (k : Coder) : Prop := k.b = 0xFF ∧ 0x8F < (byteAt sp (k.ptr.toNat + 1)).toNat

theorem markerHit_eq (k : Coder) :
    markerHit k = { k with
      ct := 8
      st := if k.st = .dataAvailable then .decodingFinished else .looping
      complete := k.complete || decide (k.st ≠ .dataAvailable) } := by
  unfold markerHit
  cases k.st <;> simp

theorem byteIn_marker {sp : Span} {k : Coder} (h : k.AtMarker sp) :
    byteIn sp k = { k with
      ct := 8
      st := if k.st = .dataAvailable then .decodingFinished else .looping
      complete := k.complete || decide (k.st ≠ .dataAvailable) || decide (sp.len ≤ k.ptr.toNat) } := by
  rw [byteIn_eq, byteInFetch_marker sp h.1 h.2, markerHit_eq]

/-- Once on the marker path the decoder stays there: `B`, `C` and the pointer do not move (R165 (5)). -/
theorem iterate_byteIn_marker {sp : Span} {k : Coder} (h : k.AtMarker sp) (n : Nat) :
    ((byteIn sp)^[n] k).AtMarker sp ∧ ((byteIn sp)^[n] k).c = k.c ∧ ((byteIn sp)^[n] k).ptr = k.ptr := by
  induction n with
  | zero => exact ⟨h, rfl, rfl⟩
  | succ n ih =>
    rw [Function.iterate_succ_apply', byteIn_marker ih.1]
    exact ih

/-- Two byte-ins on the marker path end in Looping and completion, wherever the stream state stood (D10). -/
theorem byteIn_byteIn_marker {sp : Span} {k : Coder} (h : k.AtMarker sp) :
    (byteIn sp (byteIn sp k)).st = .looping ∧ (byteIn sp (byteIn sp k)).complete = true := by
  have hst : (byteIn sp k).st ≠ .dataAvailable := by
    rw [byteIn_marker h]
    dsimp only
    split <;> decide
  rw [byteIn_marker (k := byteIn sp k) (iterate_byteIn_marker h 1).1]
  simp [hst]

/-- Settles O28: the three paths are `byteIn_plain`, `byteIn_stuffed` and `byteIn_marker`, the last leading back to
itself. -/
theorem markerByteIns : Obligations.MarkerByteIns := by
  intro sp k byteOr next q
  refine ⟨fun hb => byteIn_plain sp hb, fun hb hn => ?_, fun hb hn => ?_⟩
  · rw [byteIn_stuffed sp hb hn]
    simp only [next, BitVec.ofNat_toNat, BitVec.setWidth_eq]
    rfl
  · have hk : k.AtMarker sp := ⟨hb, hn⟩
    refine ⟨byteIn_marker hk, fun n => ?_⟩
    obtain ⟨hm, hc, hp⟩ := iterate_byteIn_marker hk n
    refine ⟨hm.1, hc, hp, fun h1 => ?_, fun h1 hst => ?_, fun h2 => ?_⟩
    · obtain ⟨m, rfl⟩ := Nat.exists_eq_add_of_le' h1
      rw [Function.iterate_succ_apply', byteIn_marker (iterate_byteIn_marker hk m).1]
    · rw [h1, Function.iterate_one, byteIn_marker hk]
      exact if_pos hst
    · obtain ⟨m, rfl⟩ := Nat.exists_eq_add_of_le' h2
      rw [Function.iterate_succ_apply', Function.iterate_succ_apply']
      exact byteIn_byteIn_marker (iterate_byteIn_marker hk m).1

/-! ### `MQ.INIT` in numbers (R157) -/

/-- `MQ.INIT` at a byte boundary: the registers of `INITDEC`, with `MQ_VALID` set. -/
theorem exec_mqInit {s : State} (hi : s.core = .idle) (hb : s.cur.bitIdx = 0) :
    let k := initDec s.span s.coder
    exec .mqInit s = .next { s with
      mq := ⟨k.a, k.c, k.ct, k.b, k.st, k.complete, true⟩, cur := ⟨k.ptr, 0⟩ } := by
  refine (command_ready _ ⟨hi, rfl⟩).trans ?_
  rw [if_neg (not_not.mpr hb), ← hb]
  rfl

theorem incPtr_eq_min {sp : Span} (hl : sp.len ≤ Config.srcCap) {p : Word} (hp : p.toNat ≤ sp.len) :
    (incPtr sp p).toNat = min (p.toNat + 1) sp.len := by
  rw [incPtr_toNat sp p hl]
  split <;> omega

@[simp] theorem seed_ptr (sp : Span) (k : Coder) : (seed sp k).ptr = k.ptr := by simp only [seed]
@[simp] theorem seed_st (sp : Span) (k : Coder) : (seed sp k).st = .dataAvailable := by simp only [seed]
@[simp] theorem seed_complete (sp : Span) (k : Coder) : (seed sp k).complete = false := by simp only [seed]
@[simp] theorem seed_b (sp : Span) (k : Coder) : (seed sp k).b = byteAt sp k.ptr.toNat := by simp only [seed]

theorem seed_c (sp : Span) (k : Coder) :
    (seed sp k).c = BitVec.ofNat 32 ((255 - (byteAt sp k.ptr.toNat).toNat) * 2 ^ 16) := by
  have hnot : byteAt sp k.ptr.toNat ^^^ 0xFF = ~~~ byteAt sp k.ptr.toNat := BitVec.xor_allOnes
  rw [seed, setWidth_shiftLeft, hnot, BitVec.toNat_not]

theorem seed_c_eq_zero {sp : Span} {k : Coder} (hb : byteAt sp k.ptr.toNat = 0xFF) : (seed sp k).c = 0 := by
  rw [seed, hb]
  rfl

/-- The last shift of `INITDEC`, in numbers: `C` after its byte-in, which added `t` and subtracted `y` (R155, R157). -/
theorem initDec_c {m t y : Nat} (hy : y < 2 ^ 32) (h : y ≤ m + t) :
    (BitVec.ofNat 32 m + BitVec.ofNat 32 t - BitVec.ofNat 32 y) <<< 7 = BitVec.ofNat 32 ((m + t - y) * 2 ^ 7) := by
  rw [← BitVec.ofNat_add, BitVec.ofNat_sub_ofNat_of_le _ _ hy h]
  apply BitVec.eq_of_toNat_eq
  simp [Nat.shiftLeft_eq]

theorem initDec_plain {sp : Span} {k : Coder} (hb : byteAt sp k.ptr.toNat ≠ 0xFF) :
    initDec sp k = ⟨0x8000, BitVec.ofNat 32 (((255 - (byteAt sp k.ptr.toNat).toNat) * 2 ^ 16 + 0xFF00
        - (byteAt sp (incPtr sp k.ptr).toNat).toNat * 2 ^ 8) * 2 ^ 7), 1,
      byteAt sp (incPtr sp k.ptr).toNat, .dataAvailable, decide (sp.len ≤ (incPtr sp k.ptr).toNat), incPtr sp k.ptr⟩ := by
  have hlt := (byteAt sp (incPtr sp k.ptr).toNat).isLt
  rw [initDec_eq, byteIn_plain sp (k := seed sp k) hb, seed_c, ← initDec_c (by omega) (by omega)]
  simp only [seed_ptr, seed_st, seed_complete, Bool.false_or]
  rfl

theorem initDec_stuffed {sp : Span} {k : Coder} (hb : byteAt sp k.ptr.toNat = 0xFF)
    (h : (byteAt sp (k.ptr.toNat + 1)).toNat ≤ 0x8F) :
    initDec sp k = ⟨0x8000, BitVec.ofNat 32 ((2 ^ 32 + 0xFE00 - (byteAt sp (k.ptr.toNat + 1)).toNat * 2 ^ 9) * 2 ^ 7), 0,
      byteAt sp (k.ptr.toNat + 1), .dataAvailable, decide (sp.len ≤ (incPtr sp k.ptr).toNat), incPtr sp k.ptr⟩ := by
  have hc : (seed sp k).c = BitVec.ofNat 32 (2 ^ 32) := (seed_c_eq_zero hb).trans (by decide)
  rw [initDec_eq, byteIn_stuffed sp (k := seed sp k) hb (by rwa [seed_ptr]), hc, ← initDec_c (by omega) (by omega)]
  simp only [seed_ptr, seed_st, seed_complete, Bool.false_or]
  rfl

theorem initDec_marker {sp : Span} {k : Coder} (hb : byteAt sp k.ptr.toNat = 0xFF)
    (h : 0x8F < (byteAt sp (k.ptr.toNat + 1)).toNat) :
    initDec sp k = ⟨0x8000, 0, 1, 0xFF, .decodingFinished, decide (sp.len ≤ k.ptr.toNat), k.ptr⟩ := by
  rw [initDec_eq, byteIn_marker (k := seed sp k) ⟨hb, by rwa [seed_ptr]⟩, seed_c_eq_zero hb]
  simp only [seed_ptr, seed_st, seed_complete, seed_b, hb, if_true, ne_eq, not_true, decide_false, Bool.false_or]
  rfl

/-- Settles O27: `MQ.INIT` leaves what `INITDEC` does, by its byte-in's three paths. -/
theorem mqInitResult : Obligations.MqInitResult := by
  intro s hi hb hcur p byteOr q
  have hbyte : ∀ i, byteOr i = (byteAt s.span i).toNat := fun i => (apply_ite BitVec.toNat (i < s.len) _ 0xFF).symm
  have hff : byteAt s.span p = 0xFF ↔ byteOr p = 0xFF := by rw [hbyte, ← BitVec.toNat_inj]; rfl
  have hback : ∀ i, byteAt s.span i = BitVec.ofNat 8 (byteOr i) := fun i => by
    rw [hbyte, BitVec.ofNat_toNat, BitVec.setWidth_eq]
  have hq : (incPtr s.span s.coder.ptr).toNat = q := incPtr_eq_min s.len_le hcur.1
  have hptr : incPtr s.span s.coder.ptr = BitVec.ofNat 32 q := by rw [← hq, BitVec.ofNat_toNat, BitVec.setWidth_eq]
  refine ⟨fun h => ?_, fun h hn => ?_, fun h hn => ?_⟩
  · have hk := initDec_plain (k := s.coder) (hff.not.mpr h)
    rw [hq, hptr, ← hbyte, ← hbyte, hback] at hk
    rw [exec_mqInit hi hb, hk]
    rfl
  · have hk := initDec_marker (k := s.coder) (hff.mpr h) (hn.trans_eq (hbyte _))
    rw [exec_mqInit hi hb, hk, ← hb]
    rfl
  · have hk := initDec_stuffed (k := s.coder) (hff.mpr h) ((hbyte _).symm.trans_le hn)
    rw [hq, hptr, ← hbyte, hback] at hk
    rw [exec_mqInit hi hb, hk]
    rfl

/-! ### The renormalization in numbers (R156) -/

/-- A shift by one is doubling, also where the top bit is lost. -/
theorem shiftLeft_one_eq (w : Word) : w <<< 1 = BitVec.ofNat 32 (2 * w.toNat) := by
  apply BitVec.eq_of_toNat_eq
  rw [BitVec.toNat_shiftLeft, BitVec.toNat_ofNat, Nat.shiftLeft_eq, Nat.mul_comm, Nat.pow_one]

/-- The loop stops at the first iteration that sets bit 15 of `A`, and doubling `A` brings it there within its bound. -/
theorem renormLoop_eq_iterate (sp : Span) (n : Nat) (k : Coder) (h1 : k.a.toNat < 0x8000)
    (h2 : 0x8000 ≤ 2 ^ n * k.a.toNat) :
    ∃ m, 1 ≤ m ∧ m ≤ n ∧ renormLoop sp n k = (renormStep sp)^[m] k
      ∧ 0x8000 ≤ ((renormStep sp)^[m] k).a.toNat ∧ ((renormStep sp)^[m] k).a.toNat ≤ 0xFFFE
      ∧ ∀ j, 1 ≤ j → j < m → ((renormStep sp)^[j] k).a.toNat < 0x8000 := by
  induction n generalizing k with
  | zero => omega
  | succ n ih =>
    have ha : (renormStep sp k).a.toNat = 2 * k.a.toNat := by rw [renormStep_a, double_toNat h1]
    have hbit := bit15_iff (a := (renormStep sp k).a) (by omega)
    rw [renormLoop]
    by_cases hset : 0x8000 ≤ (renormStep sp k).a.toNat
    · exact ⟨1, le_rfl, by omega, if_pos (hbit.mpr hset), hset, by rw [Function.iterate_one]; omega, by omega⟩
    · obtain ⟨m, hm1, hmn, hloop, hlow, hhigh, hbefore⟩ := ih (renormStep sp k) (by omega)
        (by rw [ha, ← Nat.mul_assoc, ← Nat.pow_succ]; exact h2)
      refine ⟨m + 1, by omega, by omega, (if_neg (hbit.not.mpr hset)).trans hloop, hlow, hhigh, fun j hj hjm => ?_⟩
      obtain ⟨i, rfl⟩ := Nat.exists_eq_add_of_le' hj
      rcases Nat.eq_zero_or_pos i with rfl | hi
      · exact Nat.not_le.mp hset
      · exact hbefore i hi (by omega)

/-! ### A decision in numbers (R158) -/

/-- What a decision subtracts from and compares with, in numbers: `A − Qe`. -/
theorem sub_qe_eq {a qe : Word} (h : qe.toNat ≤ a.toNat) : a - qe = BitVec.ofNat 32 (a.toNat - qe.toNat) := by
  apply BitVec.eq_of_toNat_eq
  rw [BitVec.toNat_sub_of_le h, BitVec.toNat_ofNat, Nat.mod_eq_of_lt (by omega)]

/-- The high half of `C` against the reduced interval. -/
theorem high_lt_iff (c : Word) {a : Nat} (ha : a < 2 ^ 16) : c >>> 16 < BitVec.ofNat 32 a ↔ c.toNat / 2 ^ 16 < a := by
  rw [BitVec.lt_def, BitVec.toNat_ushiftRight, Nat.shiftRight_eq_div_pow, BitVec.toNat_ofNat, Nat.mod_eq_of_lt (by omega)]

/-- What the upper sub-interval leaves of `C`. -/
theorem sub_high_eq (c : Word) {a : Nat} (h : a ≤ c.toNat / 2 ^ 16) :
    c - (BitVec.ofNat 32 a <<< 16) = BitVec.ofNat 32 (c.toNat - a * 2 ^ 16) := by
  have hc := c.isLt
  have hle : (BitVec.ofNat 32 a <<< 16).toNat = a * 2 ^ 16 := by
    rw [BitVec.toNat_shiftLeft, BitVec.toNat_ofNat, Nat.shiftLeft_eq]
    omega
  apply BitVec.eq_of_toNat_eq
  rw [BitVec.toNat_sub_of_le (by rw [BitVec.le_def]; omega), hle, BitVec.toNat_ofNat, Nat.mod_eq_of_lt (by omega)]

/-- `DECODE` in numbers, `a` being `A − Qe` (R158). -/
theorem decodeBit_eq (sp : Span) (x : Ctx) {k : Coder} (hlow : 0x8000 ≤ k.a.toNat) (hhigh : k.a.toNat ≤ 0xFFFF) :
    let qe := (qeRow x.idx).qe
    let a := k.a.toNat - qe.toNat
    let lower : Coder := { k with a := BitVec.ofNat 32 a }
    let upper : Coder := { k with a := qe, c := BitVec.ofNat 32 (k.c.toNat - a * 2 ^ 16) }
    decodeBit sp x k =
      if k.c.toNat / 2 ^ 16 < a then
        if 0x8000 ≤ a then ⟨x.mps, x, lower⟩
        else if a < qe.toNat then ⟨!x.mps, x.onLps, renorm sp lower⟩
        else ⟨x.mps, x.onMps, renorm sp lower⟩
      else if a < qe.toNat then ⟨x.mps, x.onMps, renorm sp upper⟩
      else ⟨!x.mps, x.onLps, renorm sp upper⟩ := by
  have hqe := (qeRow_bounds x.idx).2
  unfold decodeBit
  generalize (qeRow x.idx).qe = qe at hqe ⊢
  simp only [sub_qe_eq (a := k.a) (qe := qe) (by omega)]
  generalize ha : k.a.toNat - qe.toNat = a
  have hnat : (BitVec.ofNat 32 a).toNat = a := by rw [BitVec.toNat_ofNat]; omega
  have hbit : (BitVec.ofNat 32 a).getLsbD 15 = true ↔ 0x8000 ≤ a := by rw [bit15_iff (by omega), hnat]
  have hexch : BitVec.ofNat 32 a < qe ↔ a < qe.toNat := by rw [BitVec.lt_def, hnat]
  simp only [high_lt_iff k.c (a := a) (by omega), hbit, hexch]
  by_cases hc : k.c.toNat / 2 ^ 16 < a
  · rw [if_pos hc, if_pos hc]
  · rw [if_neg hc, if_neg hc, sub_high_eq k.c (Nat.not_lt.mp hc)]

/-- Settles O29: the five cases are the branches of `decodeBit_eq`, the loop is `renormLoop_eq_iterate`. -/
theorem decisionFlow : Obligations.DecisionFlow := by
  intro sp x k row a mpsCtx lpsCtx shift
  refine ⟨fun hlow hhigh => ?_, fun h1 h2 => ?_⟩
  · rw [decodeBit_eq sp x hlow hhigh]
    refine ⟨fun hc ha => ?_, fun hc ha hq => ?_, fun hc ha hq => ?_, fun hc hq => ?_, fun hc hq => ?_⟩
    · rw [if_pos hc, if_pos ha]
    · rw [if_pos hc, if_neg (Nat.not_le.mpr ha), if_pos hq]
      rfl
    · rw [if_pos hc, if_neg (Nat.not_le.mpr ha), if_neg (Nat.not_lt.mpr hq)]
      rfl
    · rw [if_neg (Nat.not_lt.mpr hc), if_pos hq]
      rfl
    · rw [if_neg (Nat.not_lt.mpr hc), if_neg (Nat.not_lt.mpr hq)]
      rfl
  · have hshift : shift = renormStep sp := by
      funext q
      simp only [shift, ← shiftLeft_one_eq]
      rfl
    obtain ⟨n, hn1, hn, hloop, hlow, hhigh, hbefore⟩ := renormLoop_eq_iterate sp 15 k h2 (by omega)
    rw [hshift, renorm, hloop]
    refine ⟨n, hn1, hn, rfl, (bit15_iff (by omega)).mpr hlow, fun m hm hmn => ?_, hlow, hhigh⟩
    have hlt := hbefore m hm hmn
    exact Bool.eq_false_of_not_eq_true ((bit15_iff (by omega)).not.mpr (by omega))

/-! ### The checks and results of the context commands (R159, R161, R162) -/

/-- `MQ.DECODE` by its checks, in their order (R159). -/
theorem exec_mqDecode {k : Bank} {s : State} (hi : s.core = .idle) :
    exec (.mqDecode k) s =
      let d := decodeBit s.span (readCtx (s.bank k).entries s.arg0.toNat) s.coder
      if s.mq.valid = false ∨ (s.bank k).valid = false then .next (s.takeFault .badState (encode (.mqDecode k)))
      else if bankSize k ≤ s.arg0.toNat then .next (s.takeFault .operandRange (encode (.mqDecode k)))
      else if s.mq.complete = true then .next (s.takeFault .arithmeticStreamComplete (encode (.mqDecode k)))
      else .next (((s.putCoder d.coder).putBank k
        ⟨(s.bank k).valid, writeCtx (s.bank k).entries s.arg0.toNat d.ctx⟩).giveResult (bitWord d.bit)) := by
  refine (command_ready _ ⟨hi, rfl⟩).trans ?_
  simp only [Bool.or_eq_true, Bool.not_eq_true']
  split_ifs <;> rfl

/-- The two checks that come first in `CX.RD` and in `CX.WR`: the bank is valid, the index inside it (R161, R162). -/
theorem command_bankChecks {i : Instr} {s : State} (hr : s.Ready i) (k : Bank) (b : Result) :
    command i s (if !(s.bank k).valid then .raise .badState s
      else if bankSize k ≤ s.arg0.toNat then .raise .operandRange s else b) =
    if (s.bank k).valid = false then .next (s.takeFault .badState (encode i))
    else if bankSize k ≤ s.arg0.toNat then .next (s.takeFault .operandRange (encode i))
    else b.finish (encode i) := by
  rw [command_ready _ hr]
  simp only [Bool.not_eq_true']
  split_ifs <;> rfl

/-- A word with a bit in 31:8, with bit 6, or with `I > 46` stands for no entry (R162). -/
theorem unpackCtx_eq_none {v : Word} (h : 256 ≤ v.toNat ∨ v.toNat / 64 % 2 = 1 ∨ 46 < v.toNat % 64) :
    unpackCtx v = none := by
  have hv := v.isLt
  rcases h with hhigh | hbit | hidx
  · have hne : v.extractLsb' 8 24 ≠ 0 := fun hzero => by
      have hfield : v.toNat / 2 ^ 8 % 2 ^ 24 = 0 := by rw [← toNat_field, hzero]; rfl
      omega
    exact if_pos (.inl hne)
  · have hset : v.getLsbD 6 = true := by
      rw [BitVec.getLsbD, Nat.testBit_eq_decide_div_mod_eq]
      exact decide_eq_true hbit
    exact if_pos (.inr hset)
  · have hge : ¬ (v.extractLsb' 0 6).toNat < 47 := by
      rw [toNat_field]
      omega
    unfold unpackCtx
    rw [dif_neg hge, ite_self]

/-- Settles O31: each command by its checks, and what `CX.WR` rejects is what `unpackCtx` has no entry for. -/
theorem contextChecks : Obligations.ContextChecks := by
  intro k s hi noValid outside v
  refine ⟨fun h => ?_, fun hm hv ha => ?_, fun hm hv ha hc => ?_, fun hv => ⟨?_, ?_⟩, fun hv ha => ?_, fun hv h => ?_⟩
  · rw [exec_mqDecode hi, if_pos h]
  · rw [exec_mqDecode hi, if_neg (not_or.mpr ⟨by simp [hm], hv⟩), if_pos ha]
  · rw [exec_mqDecode hi, if_neg (not_or.mpr ⟨by simp [hm], hv⟩), if_neg ha, if_pos hc]
  · exact (command_bankChecks ⟨hi, rfl⟩ k _).trans (if_pos hv)
  · exact (command_bankChecks ⟨hi, rfl⟩ k _).trans (if_pos hv)
  · exact (command_bankChecks ⟨hi, rfl⟩ k _).trans ((if_neg hv).trans (if_pos ha))
  · refine (command_bankChecks ⟨hi, rfl⟩ k _).trans ((if_neg hv).trans ?_)
    by_cases ha : outside
    · exact if_pos ha
    · rw [if_neg ha, unpackCtx_eq_none (h.resolve_left ha)]
      rfl

/-- Settles O30: past its checks the command puts the decision's decoder, entry and bit, and the frame of that is the state
itself but for the fields named. -/
theorem mqDecodeResult : Obligations.MqDecodeResult := by
  intro k s hi hm hv ha hc d
  have hexec := exec_mqDecode (k := k) hi
  rw [if_neg (by simp [hm, hv]), if_neg (Nat.not_le.mpr ha), if_neg (by simp [hc])] at hexec
  refine ⟨_, hexec, ?_, fun j => ?_, fun other ho => ?_, ?_⟩
  · rw [State.giveResult_bank, State.bank_putBank, hv]
  · rw [State.giveResult_bank, State.bank_putBank]
    exact Store.read_write _ _ _ _ _
  · rw [State.giveResult_bank, State.bank_putBank_other _ ho.symm, State.putCoder_bank]
  · rw [State.putBank_frame, State.putCoder, hm]
    rfl

end Sys2Proof.Machine

namespace Sys2Proof.Machine

/-! ### Canonical codes under a Kraft sum of at most 1 (R206, R207 (3)) -/

/-- The codes of a length fill `firstCode` up to here; twice this is the first code of the next length (R206). -/
def codeEnd (rows : List RawRow) (len : Nat) : Nat := firstCode rows len + lengthCount rows len

/-- What the rows of length 1 to `len` take of the `2^32` words of 32 bits. -/
def kraftUpTo (rows : List RawRow) (len : Nat) : Nat :=
  ((rows.filter fun r => decide (1 ≤ r.preflen ∧ r.preflen ≤ len)).map fun r => 2 ^ (32 - r.preflen)).sum

theorem kraftUpTo_cons (r : RawRow) (t : List RawRow) (len : Nat) :
    kraftUpTo (r :: t) len
      = (if 1 ≤ r.preflen ∧ r.preflen ≤ len then 2 ^ (32 - r.preflen) else 0) + kraftUpTo t len := by
  simp only [kraftUpTo, List.filter_cons, decide_eq_true_eq]
  split
  · exact List.sum_cons
  · exact (Nat.zero_add _).symm

theorem lengthCount_cons (r : RawRow) (t : List RawRow) {len : Nat} (h : 1 ≤ len) :
    lengthCount (r :: t) len = (if r.preflen = len then 1 else 0) + lengthCount t len := by
  have h0 : len ≠ 0 := by omega
  simp only [lengthCount, if_neg h0, List.countP_cons, beq_iff_eq, Nat.add_comm]

theorem kraftUpTo_succ (rows : List RawRow) (len : Nat) :
    kraftUpTo rows (len + 1) = kraftUpTo rows len + lengthCount rows (len + 1) * 2 ^ (32 - (len + 1)) := by
  induction rows with
  | nil => simp [kraftUpTo, lengthCount]
  | cons r t ih =>
    rw [kraftUpTo_cons, kraftUpTo_cons, lengthCount_cons r t (by omega), ih, Nat.add_mul]
    rcases Nat.lt_trichotomy r.preflen (len + 1) with h | h | h
    · have hiff : 1 ≤ r.preflen ∧ r.preflen ≤ len + 1 ↔ 1 ≤ r.preflen ∧ r.preflen ≤ len := by omega
      rw [if_neg h.ne, if_congr hiff rfl rfl]
      ring
    · rw [if_pos (by omega), if_neg (by omega), if_pos h, h]
      ring
    · rw [if_neg (by omega), if_neg (by omega), if_neg h.ne']
      ring

theorem kraftUpTo_zero (rows : List RawRow) : kraftUpTo rows 0 = 0 := by
  induction rows with
  | nil => rfl
  | cons r t ih => rw [kraftUpTo_cons, ih, if_neg (by omega)]

theorem codeEnd_mul (rows : List RawRow) {len : Nat} (h : len ≤ 32) :
    codeEnd rows len * 2 ^ (32 - len) = kraftUpTo rows len := by
  induction len with
  | zero => rw [kraftUpTo_zero]; exact Nat.zero_mul _
  | succ n ih =>
    have hpow : 2 ^ (32 - n) = 2 * 2 ^ (32 - (n + 1)) := by rw [← Nat.pow_succ']; congr 1; omega
    rw [kraftUpTo_succ, ← ih (by omega), codeEnd, firstCode, hpow, codeEnd]
    ring

theorem kraftUpTo_le (rows : List RawRow) (len : Nat) : kraftUpTo rows len
    ≤ ((rows.filter fun r => decide (1 ≤ r.preflen)).map fun r => 2 ^ (32 - r.preflen)).sum := by
  have hsub : (rows.filter fun r => decide (1 ≤ r.preflen ∧ r.preflen ≤ len)).Sublist
      (rows.filter fun r => decide (1 ≤ r.preflen)) :=
    List.monotone_filter_right rows fun r hr => decide_eq_true (of_decide_eq_true hr).1
  exact (hsub.map _).sum_le_sum fun n _ => n.zero_le

/-- A Kraft sum of at most 1 leaves room for the codes of each length. -/
theorem codeEnd_le {rows : List RawRow} {len : Nat} (hk : kraftUpTo rows len ≤ 2 ^ 32) (h : len ≤ 32) :
    codeEnd rows len ≤ 2 ^ len := by
  refine Nat.le_of_mul_le_mul_right ?_ (Nat.two_pow_pos (32 - len))
  rw [codeEnd_mul rows h, ← Nat.pow_add, Nat.add_sub_cancel' h]
  exact hk

/-- Every code of a longer length comes after the codes of a shorter one. -/
theorem codeEnd_mul_le_firstCode (rows : List RawRow) {a b : Nat} (h : a < b) :
    codeEnd rows a * 2 ^ (b - a) ≤ firstCode rows b := by
  induction b, h using Nat.le_induction with
  | base => simp [firstCode, codeEnd]
  | succ n hn ih =>
    rw [firstCode, Nat.succ_sub (by omega), Nat.pow_succ, ← Nat.mul_assoc]
    exact Nat.mul_le_mul_right 2 (ih.trans (Nat.le_add_right _ _))

/-- Of two rows of one length, the later one has more rows of the length before it. -/
theorem lengthCount_take_lt {rows : List RawRow} {i j : Nat} {r : RawRow} (hr : rows[i]? = some r) (hlen : 1 ≤ r.preflen)
    (hij : i < j) : lengthCount (rows.take i) r.preflen < lengthCount (rows.take j) r.preflen := by
  obtain ⟨hi, hget⟩ := List.getElem?_eq_some_iff.mp hr
  have hsub : (rows.take i ++ [r]).Sublist (rows.take j) := by
    rw [← hget, List.take_append_getElem hi]
    exact List.take_sublist_take_left hij
  unfold lengthCount
  rw [if_neg (by omega), if_neg (by omega)]
  refine Nat.lt_of_lt_of_le ?_ hsub.countP_le
  simp

theorem codeOf_eq_add (rows before : List RawRow) {len : Nat} (h : 1 ≤ len) :
    codeOf rows before len = firstCode rows len + lengthCount before len := if_neg (by omega)

theorem codeOf_lt_codeEnd {rows : List RawRow} {k : Nat} {r : RawRow} (hr : rows[k]? = some r) (hlen : 1 ≤ r.preflen) :
    codeOf rows (rows.take k) r.preflen < codeEnd rows r.preflen := by
  obtain ⟨hk, -⟩ := List.getElem?_eq_some_iff.mp hr
  have hlt := lengthCount_take_lt hr hlen hk
  rw [List.take_length] at hlt
  rw [codeOf_eq_add _ _ hlen]
  exact Nat.add_lt_add_left hlt _

/-- Codes of one length ascend in table order. -/
theorem codeOf_lt_codeOf {rows : List RawRow} {i j : Nat} {r : RawRow} (hr : rows[i]? = some r) (hlen : 1 ≤ r.preflen)
    (hij : i < j) : codeOf rows (rows.take i) r.preflen < codeOf rows (rows.take j) r.preflen := by
  rw [codeOf_eq_add _ _ hlen, codeOf_eq_add _ _ hlen]
  exact Nat.add_lt_add_left (lengthCount_take_lt hr hlen hij) _

/-- No code is the front of another row's that is no shorter: one of the same length differs from it, and a longer one's
front lies past all codes of its length. -/
theorem codeOf_div_ne {rows : List RawRow} {i j : Nat} {q r : RawRow} (hij : i ≠ j) (hq : rows[i]? = some q)
    (hr : rows[j]? = some r) (hlen : 1 ≤ q.preflen) (hle : q.preflen ≤ r.preflen) :
    codeOf rows (rows.take j) r.preflen / 2 ^ (r.preflen - q.preflen) ≠ codeOf rows (rows.take i) q.preflen := by
  rcases hle.eq_or_lt with heq | hlt
  · rw [heq, Nat.sub_self, Nat.pow_zero, Nat.div_one]
    rcases Nat.lt_or_gt_of_ne hij with h | h
    · have := codeOf_lt_codeOf hq hlen h
      rw [heq] at this
      exact this.ne'
    · exact (codeOf_lt_codeOf hr (by omega) h).ne
  · have hpast : codeEnd rows q.preflen ≤ codeOf rows (rows.take j) r.preflen / 2 ^ (r.preflen - q.preflen) := by
      rw [Nat.le_div_iff_mul_le (Nat.two_pow_pos _)]
      refine (codeEnd_mul_le_firstCode rows hlt).trans ?_
      rw [codeOf_eq_add _ _ (hlen.trans hle)]
      exact Nat.le_add_right _ _
    exact ((codeOf_lt_codeEnd hq hlen).trans_le hpast).ne'

/-- With a Kraft sum of at most 1 a row's code fits its length, so the store keeps it whole (R34). -/
theorem assignRow_of_kraft {rows : List RawRow} (h32 : ∀ r ∈ rows, r.preflen ≤ 32)
    (hk : ∀ len, kraftUpTo rows len ≤ 2 ^ 32) {k : Nat} {h : HtRow}
    (hh : (assignCodes rows)[k]? = some h) (hlen : 1 ≤ h.preflen) :
    ∃ r, rows[k]? = some r ∧ h.preflen = r.preflen ∧ h.code.toNat = codeOf rows (rows.take k) r.preflen
      ∧ h.dead = false ∧ h.code.toNat < 2 ^ h.preflen := by
  rw [assignCodes_getElem?] at hh
  obtain ⟨r, hr, rfl⟩ := Option.map_eq_some_iff.mp hh
  have hr32 : r.preflen ≤ 32 := h32 r (List.mem_of_getElem? hr)
  have hfits : codeOf rows (rows.take k) r.preflen < 2 ^ r.preflen :=
    (codeOf_lt_codeEnd hr hlen).trans_le (codeEnd_le (hk _) hr32)
  have hcode : (assignRow rows (rows.take k) r).code.toNat = codeOf rows (rows.take k) r.preflen :=
    (BitVec.toNat_ofNat _ _).trans (Nat.mod_eq_of_lt (hfits.trans_le (Nat.pow_le_pow_right (by decide) hr32)))
  exact ⟨r, hr, rfl, hcode, decide_eq_false (Nat.not_le.mpr hfits), hcode.trans_lt hfits⟩

/-- Settles O38: `codeEnd` of a length is at most its number of words, and twice it starts the next length. -/
theorem kraftPrefixFree : Obligations.KraftPrefixFree := by
  intro rows h32 hsum
  have hk : ∀ len, kraftUpTo rows len ≤ 2 ^ 32 := fun len => (kraftUpTo_le rows len).trans hsum
  refine ⟨fun h hm hlen => ?_, fun i j g h hij hg hh h1 hle => ?_⟩
  · obtain ⟨k, hh⟩ := List.mem_iff_getElem?.mp hm
    obtain ⟨-, -, -, -, hlive, hfits⟩ := assignRow_of_kraft h32 hk hh hlen
    exact ⟨hlive, hfits⟩
  · obtain ⟨q, hq, hqlen, hqcode, -, -⟩ := assignRow_of_kraft h32 hk hg h1
    obtain ⟨r, hr, hrlen, hrcode, -, -⟩ := assignRow_of_kraft h32 hk hh (h1.trans hle)
    rw [hqlen] at h1 hle ⊢
    rw [hrlen] at hle ⊢
    rw [hqcode, hrcode]
    exact codeOf_div_ne hij hq hr h1 hle

end Sys2Proof.Machine

namespace Sys2Proof.Machine

/-! ### The header of a table description (R209, R210) -/

/-- The header that the bits from position `p` on stand for. -/
def headerAt (sp : Span) (p : Nat) : HtHeader where
  oob := (sp.number p 8).testBit 0
  ps := sp.number p 8 / 2 % 8 + 1
  rs := sp.number p 8 / 16 % 8 + 1
  low := (BitVec.ofNat 32 (sp.number (p + 8) 32)).toInt
  high := (BitVec.ofNat 32 (sp.number (p + 40) 32)).toInt

theorem toNat_oob_headerAt (sp : Span) (p : Nat) : (headerAt sp p).oob.toNat = sp.number p 8 % 2 := by
  rw [headerAt, Nat.testBit_zero]
  rcases Nat.mod_two_eq_zero_or_one (sp.number p 8) with h | h <;> simp [h]

/-- Bit 7 of the flags byte is its half of the range. -/
theorem testBit_seven_number (sp : Span) (p : Nat) : (sp.number p 8).testBit 7 = decide (128 ≤ sp.number p 8) := by
  have hlt := sp.number_lt p 8
  rw [Nat.testBit_eq_decide_div_mod_eq]
  exact decide_eq_decide.mpr (by omega)

/-- A read that comes after `n` bits have been read: its number, or StreamExhausted where the span ends. -/
theorem need_onward {sp : Span} (hl : sp.len ≤ Config.srcCap) {c : Cursor} {n : Nat} (h : n ≤ availBits sp.len c)
    (m : Nat) : need sp (cursorAt (c.pos + n)) m =
      if n + m ≤ availBits sp.len c then .ok (sp.number (c.pos + n) m) (cursorAt (c.pos + (n + m)))
      else .raise .streamExhausted (cursorAt (c.pos + availBits sp.len c)) := by
  rcases Nat.eq_zero_or_pos n with rfl | hn
  · rw [Nat.add_zero, cursorAt_pos, Nat.zero_add]
    split
    · exact need_complete sp hl c m ‹_›
    · exact need_short sp hl c m (by omega)
  · have hend := availBits_le sp.len c (by omega)
    rw [need_at sp hl _ _ (by omega), Nat.add_assoc, if_congr (show _ ↔ n + m ≤ availBits sp.len c by omega) rfl rfl, hend]

section
variable {sp : Span} (hl : sp.len ≤ Config.srcCap) {c : Cursor}
include hl

theorem parseHeader_reserved (h : 8 ≤ availBits sp.len c) (hf : 128 ≤ sp.number c.pos 8) :
    parseHeader sp c = .raise .structuralError (cursorAt (c.pos + 8)) := by
  rw [parseHeader, need_complete sp hl c 8 h, Parse.andThen_ok, testBit_seven_number, if_pos (decide_eq_true hf)]

/-- Past the flags byte only the two bounds remain. -/
theorem parseHeader_bounds (h : 8 ≤ availBits sp.len c) (hf : sp.number c.pos 8 < 128) :
    parseHeader sp c =
      if 72 ≤ availBits sp.len c then
        if (headerAt sp c.pos).high < (headerAt sp c.pos).low then .raise .structuralError (cursorAt (c.pos + 72))
        else .ok (headerAt sp c.pos) (cursorAt (c.pos + 72))
      else .raise .streamExhausted (cursorAt (c.pos + availBits sp.len c)) := by
  rw [parseHeader, need_complete sp hl c 8 h, Parse.andThen_ok, testBit_seven_number,
    if_neg (by simpa using hf), need_onward hl h]
  by_cases h40 : 40 ≤ availBits sp.len c
  · rw [if_pos h40, Parse.andThen_ok, need_onward hl h40]
    by_cases h72 : 72 ≤ availBits sp.len c
    · rw [if_pos h72, if_pos h72]
      rfl
    · rw [if_neg h72, if_neg h72]
      rfl
  · rw [if_neg h40, if_neg (by omega)]
    rfl

theorem parseHeader_short (h : availBits sp.len c < 72) (hf : 8 ≤ availBits sp.len c → sp.number c.pos 8 < 128) :
    parseHeader sp c = .raise .streamExhausted (cursorAt (c.pos + availBits sp.len c)) := by
  by_cases h8 : 8 ≤ availBits sp.len c
  · rw [parseHeader_bounds hl h8 (hf h8), if_neg (by omega)]
  · rw [parseHeader, need_short sp hl c 8 (by omega)]
    rfl

end

/-! ### The normal rows, by their numbers in the stream (R209, R210) -/

section
variable (sp : Span) (hd : HtHeader) (p : Nat)

/-- Where row `k` of a description at position `p` begins. -/
def rowPos (k : Nat) : Nat := p + (72 + k * (hd.ps + hd.rs))

/-- `RANGELEN` of row `k`. -/
def rangeAt (k : Nat) : Nat := sp.number (rowPos hd p k + hd.ps) hd.rs

/-- `CURLOW` before row `k`. -/
def reachAt (k : Nat) : Int := hd.low + ∑ j ∈ Finset.range k, (2 : Int) ^ rangeAt sp hd p j

/-- Row `k` as it is read. -/
def rowAt (k : Nat) : RawRow :=
  ⟨.normal, sp.number (rowPos hd p k) hd.ps, rangeAt sp hd p k, BitVec.ofInt 32 (reachAt sp hd p k)⟩

/-- The first `k` rows. -/
def rowsAt (k : Nat) : List RawRow := (List.range k).map (rowAt sp hd p)

/-- Row `k` passes its tests in a store of `maxRows` rows. -/
structure RowFits (maxRows k : Nat) : Prop where
  range : rangeAt sp hd p k ≤ 31
  top : reachAt sp hd p (k + 1) ≤ 2 ^ 31 - 1
  count : k + 3 + hd.oob.toNat ≤ maxRows

theorem rowPos_succ (k : Nat) : rowPos hd p (k + 1) = rowPos hd p k + hd.ps + hd.rs := by
  unfold rowPos
  ring

theorem reachAt_succ (k : Nat) : reachAt sp hd p (k + 1) = reachAt sp hd p k + 2 ^ rangeAt sp hd p k := by
  rw [reachAt, Finset.sum_range_succ, ← add_assoc]
  rfl

theorem rowsAt_succ (k : Nat) : rowsAt sp hd p (k + 1) = rowsAt sp hd p k ++ [rowAt sp hd p k] := by
  rw [rowsAt, List.range_succ, List.map_append]
  rfl

variable {sp hd p} {maxRows k : Nat} (hl : sp.len ≤ Config.srcCap)
include hl

/-- The turn of the loop that reads row `k`, which lies inside the span. -/
theorem parseNormal_row (hk : rowPos hd p (k + 1) ≤ 8 * sp.len) (fuel : Nat) :
    parseNormal sp maxRows hd (fuel + 1) (reachAt sp hd p k) (rowsAt sp hd p k) (cursorAt (rowPos hd p k)) =
      let c := cursorAt (rowPos hd p (k + 1))
      if 31 < rangeAt sp hd p k then .raise .structuralError c
      else if 2 ^ 31 - 1 < reachAt sp hd p (k + 1) then .raise .structuralError c
      else if maxRows < k + 3 + hd.oob.toNat then .raise .resourceLimitExceeded c
      else if hd.high ≤ reachAt sp hd p (k + 1) then .ok (rowsAt sp hd p (k + 1)) c
      else parseNormal sp maxRows hd fuel (reachAt sp hd p (k + 1)) (rowsAt sp hd p (k + 1)) c := by
  have hlen : (rowsAt sp hd p (k + 1)).length + 2 + hd.oob.toNat = k + 3 + hd.oob.toNat := by
    rw [rowsAt, List.length_map, List.length_range]
  rw [parseNormal_step sp hl _ _ _ _ _ _ (by rw [rowPos_succ] at hk; omega), ← rowPos_succ, if_pos hk, ← hlen, rowsAt_succ,
    reachAt_succ]
  rfl

/-- The turn of the loop at a row that leaves the span. -/
theorem parseNormal_row_short (hk : rowPos hd p k ≤ 8 * sp.len) (hshort : 8 * sp.len < rowPos hd p (k + 1)) (fuel : Nat) :
    parseNormal sp maxRows hd (fuel + 1) (reachAt sp hd p k) (rowsAt sp hd p k) (cursorAt (rowPos hd p k)) =
      .raise .streamExhausted (cursorAt (8 * sp.len)) := by
  rw [parseNormal_step sp hl _ _ _ _ _ _ hk, ← rowPos_succ, if_neg (by omega)]

/-- Rows that pass their tests and do not reach `HTHIGH` lead the loop on to the next row. -/
theorem parseNormal_reaches (hk : rowPos hd p k ≤ 8 * sp.len)
    (hrows : ∀ j, j < k → RowFits sp hd p maxRows j ∧ reachAt sp hd p (j + 1) < hd.high) :
    parseNormal sp maxRows hd (maxRows + 1) hd.low [] (cursorAt (p + 72)) =
      parseNormal sp maxRows hd (maxRows - k + 1) (reachAt sp hd p k) (rowsAt sp hd p k) (cursorAt (rowPos hd p k)) := by
  induction k with
  | zero => simp [reachAt, rowsAt, rowPos]
  | succ k ih =>
    obtain ⟨hfit, hbelow⟩ := hrows k (Nat.lt_succ_self k)
    have hfuel : maxRows - k = maxRows - (k + 1) + 1 := by have := hfit.count; omega
    rw [ih (by rw [rowPos_succ] at hk; omega) fun j hj => hrows j (Nat.lt_succ_of_lt hj), parseNormal_row hl hk]
    simp only
    rw [if_neg (Nat.not_lt.mpr hfit.range), if_neg (not_lt.mpr hfit.top), if_neg (Nat.not_lt.mpr hfit.count),
      if_neg (not_le.mpr hbelow), hfuel]

/-- The loop ends well at the first row that passes its tests and reaches `HTHIGH`. -/
theorem parseNormal_ends (hk : rowPos hd p (k + 1) ≤ 8 * sp.len)
    (hrows : ∀ j, j < k → RowFits sp hd p maxRows j ∧ reachAt sp hd p (j + 1) < hd.high)
    (hlast : RowFits sp hd p maxRows k) (hhigh : hd.high ≤ reachAt sp hd p (k + 1)) :
    parseNormal sp maxRows hd (maxRows + 1) hd.low [] (cursorAt (p + 72)) =
      .ok (rowsAt sp hd p (k + 1)) (cursorAt (rowPos hd p (k + 1))) := by
  rw [parseNormal_reaches hl (by rw [rowPos_succ] at hk; omega) hrows, parseNormal_row hl hk]
  simp only
  rw [if_neg (Nat.not_lt.mpr hlast.range), if_neg (not_lt.mpr hlast.top), if_neg (Nat.not_lt.mpr hlast.count), if_pos hhigh]

end

/-! ### The escape rows and the whole table (R209, R210) -/

/-- The escape rows, which begin at position `q`. -/
def escapesAt (sp : Span) (hd : HtHeader) (q : Nat) : List RawRow :=
  [⟨.lower, sp.number q hd.ps, 32, BitVec.ofInt 32 (hd.low - 1)⟩,
    ⟨.upper, sp.number (q + hd.ps) hd.ps, 32, BitVec.ofInt 32 hd.high⟩]
  ++ if hd.oob then [⟨.oob, sp.number (q + hd.ps + hd.ps) hd.ps, 0, 0⟩] else []

/-- Where the escape rows end. -/
def escapesEnd (hd : HtHeader) (q : Nat) : Nat := q + (2 + hd.oob.toNat) * hd.ps

/-- Each `PREFLEN` read for an escape row is that of one. -/
theorem exists_mem_escapesAt (sp : Span) (hd : HtHeader) (q : Nat) {j : Nat} (hj : j < 2 + hd.oob.toNat) :
    ∃ r ∈ escapesAt sp hd q, r.preflen = sp.number (q + j * hd.ps) hd.ps := by
  match j, hj with
  | 0, _ => exact ⟨_, List.mem_append_left _ List.mem_cons_self, by rw [Nat.zero_mul, Nat.add_zero]⟩
  | 1, _ => exact ⟨_, List.mem_append_left _ (List.mem_cons_of_mem _ List.mem_cons_self), by rw [Nat.one_mul]⟩
  | 2, hj =>
    have ho : hd.oob = true := by
      by_contra h
      simp [Bool.eq_false_of_not_eq_true h] at hj
    exact ⟨_, List.mem_append_right _ (by rw [if_pos ho]; exact List.mem_cons_self), by rw [Nat.two_mul, Nat.add_assoc]⟩
  | j + 3, hj =>
    have := hd.oob.toNat_le
    omega

theorem any_preflen_of_exists (sp : Span) (hd : HtHeader) (p q k : Nat)
    (h : (∃ j, j ≤ k ∧ 32 < sp.number (rowPos hd p j) hd.ps)
      ∨ ∃ j, j < 2 + hd.oob.toNat ∧ 32 < sp.number (q + j * hd.ps) hd.ps) :
    ((rowsAt sp hd p (k + 1) ++ escapesAt sp hd q).any fun r => decide (32 < r.preflen)) = true := by
  rw [List.any_append, Bool.or_eq_true, List.any_eq_true, List.any_eq_true]
  refine h.imp (fun ⟨j, hj, hlt⟩ => ?_) fun ⟨j, hj, hlt⟩ => ?_
  · exact ⟨_, List.mem_map_of_mem (List.mem_range.mpr (Nat.lt_succ_of_le hj)), decide_eq_true hlt⟩
  · obtain ⟨r, hr, hlen⟩ := exists_mem_escapesAt sp hd q hj
    exact ⟨r, hr, decide_eq_true (hlen ▸ hlt)⟩

section
variable {sp : Span} {hd : HtHeader} {maxRows : Nat} {c c1 : Cursor} (hh : parseHeader sp c = .ok hd c1)
include hh

theorem parseTable_raise_of_rows {f : FaultCode} {c2 : Cursor}
    (hn : parseNormal sp maxRows hd (maxRows + 1) hd.low [] c1 = .raise f c2) : parseTable sp maxRows c = .raise f c2 := by
  rw [parseTable, hh, Parse.andThen_ok, hn]
  rfl

/-- Past the normal rows the escape rows and the test of `PREFLEN` remain. -/
theorem parseTable_of_rows (hl : sp.len ≤ Config.srcCap) {rows : List RawRow} {q : Nat} (hq : q ≤ 8 * sp.len)
    (hn : parseNormal sp maxRows hd (maxRows + 1) hd.low [] c1 = .ok rows (cursorAt q)) :
    parseTable sp maxRows c =
      if hd.low = -2 ^ 31 then .raise .structuralError (cursorAt q)
      else if escapesEnd hd q ≤ 8 * sp.len then
        if (rows ++ escapesAt sp hd q).any fun r => decide (32 < r.preflen) then
          .raise .structuralError (cursorAt (escapesEnd hd q))
        else .ok ⟨hd.oob, assignCodes (rows ++ escapesAt sp hd q)⟩ (cursorAt (escapesEnd hd q))
      else .raise .streamExhausted (cursorAt (8 * sp.len)) := by
  rw [parseTable, hh, Parse.andThen_ok, hn, Parse.andThen_ok, parseEscapes_at sp hl _ _ _ hq, List.append_assoc]
  split
  · rfl
  · rw [← escapesEnd]
    split <;> rfl

end

/-! ### `HT.PARSE` by how the parse ends (R208) -/

theorem exec_htParse_raise {id : Byte} {s : State} (hr : s.Ready (.htParse id)) (ha : s.cur.bitIdx = 0) {f : FaultCode}
    {c : Cursor} (hp : parseTable s.span s.cfg.htMaxRows s.cur = .raise f c) :
    exec (.htParse id) s =
      .next ((((s.dropTable id.toNat).dropMq).setCursor c).takeFault f (encode (.htParse id))) := by
  refine (command_ready _ hr).trans ?_
  rw [if_neg (not_not.mpr ha), hp]
  rfl

theorem exec_htParse_ok {id : Byte} {s : State} (hr : s.Ready (.htParse id)) (ha : s.cur.bitIdx = 0) {t : HTable}
    {c : Cursor} (hp : parseTable s.span s.cfg.htMaxRows s.cur = .ok t c) :
    exec (.htParse id) s = .next ((((s.dropTable id.toNat).dropMq).setCursor c).putTable id.toNat t) := by
  refine (command_ready _ hr).trans ?_
  rw [if_neg (not_not.mpr ha), hp]
  rfl

/-- At a byte boundary the bits left are those of the bytes left. -/
theorem availBits_of_aligned {len : Nat} {c : Cursor} (h : c.bitIdx = 0) :
    availBits len c = 8 * (len - c.byteIdx.toNat) := by
  rw [availBits, h]
  rfl

/-- Settles O34: the header by `parseHeader_bounds`, the rows by following the loop up to row `k`. -/
theorem htParseFaults : Obligations.HtParseFaults := by
  intro s id hr ha p avail flags oob ps rs bound low high row range reach failed
  have hl : s.span.len ≤ Config.srcCap := s.len_le
  have havail : availBits s.span.len s.cur = avail := availBits_of_aligned ha
  have hfail : ∀ {f n}, parseTable s.span s.cfg.htMaxRows s.cur = .raise f (cursorAt (p + n)) → failed f n :=
    fun h => exec_htParse_raise hr ha h
  have hheader : ∀ {f c}, parseHeader s.span s.cur = .raise f c → parseTable s.span s.cfg.htMaxRows s.cur = .raise f c :=
    fun h => by rw [parseTable, h]; rfl
  refine ⟨fun h hf => hfail (hheader ?_), fun h hf => hfail (hheader ?_), fun h hf hb => hfail (hheader ?_),
    fun k h72 hf hb hk hbefore => ?_⟩
  · rw [← havail] at h hf ⊢
    exact parseHeader_short hl h hf
  · exact parseHeader_reserved hl (havail ▸ h) hf
  · rw [parseHeader_bounds hl (by omega) hf, if_pos (by omega)]
    exact if_pos hb
  · intro stop done
    have hh : parseHeader s.span s.cur = .ok (headerAt s.span p) (cursorAt (p + 72)) := by
      rw [parseHeader_bounds hl (by omega) hf, if_pos (by omega)]
      exact if_neg (not_lt.mpr hb)
    have hend : p + avail = 8 * s.span.len := havail ▸ availBits_le _ _ (by omega)
    have hoob : (headerAt s.span p).oob.toNat = oob := toNat_oob_headerAt _ _
    have hfits : ∀ {j}, range j ≤ 31 → reach (j + 1) ≤ 2 ^ 31 - 1 → j + 3 + oob ≤ s.cfg.htMaxRows →
        RowFits s.span (headerAt s.span p) p s.cfg.htMaxRows j := fun h1 h2 h3 => ⟨h1, h2, by rw [hoob]; exact h3⟩
    have hrows : ∀ j, j < k → RowFits s.span (headerAt s.span p) p s.cfg.htMaxRows j
        ∧ reachAt s.span (headerAt s.span p) p (j + 1) < high := fun j hj =>
      have ⟨h1, h2, h3, h4⟩ := hbefore j hj
      ⟨hfits h1 h2 h3, h4⟩
    have hpos : rowPos (headerAt s.span p) p k ≤ 8 * s.span.len := hend ▸ Nat.add_le_add_left hk p
    have hin : stop ≤ avail → rowPos (headerAt s.span p) p (k + 1) ≤ 8 * s.span.len :=
      fun h => hend ▸ Nat.add_le_add_left h p
    have hloop := parseNormal_reaches hl hpos hrows
    have hturn := fun h => hloop.trans (parseNormal_row hl (hin h) _)
    have hrowFail : ∀ {f n}, parseNormal s.span s.cfg.htMaxRows (headerAt s.span p) (s.cfg.htMaxRows + 1) low []
        (cursorAt (p + 72)) = .raise f (cursorAt (p + n)) → failed f n := fun h => hfail (parseTable_raise_of_rows hh h)
    refine ⟨fun h => hrowFail ?_, fun h h1 => hrowFail ?_, fun h h1 h2 => hrowFail ?_, fun h h1 h2 h3 => hrowFail ?_,
      fun h h1 h2 h3 h4 => ?_⟩
    · rw [hend]
      exact hloop.trans (parseNormal_row_short hl hpos (hend ▸ Nat.add_lt_add_left h p) _)
    · exact (hturn h).trans (if_pos h1)
    · exact (hturn h).trans ((if_neg (Nat.not_lt.mpr h1)).trans (if_pos h2))
    · exact (hturn h).trans ((if_neg (Nat.not_lt.mpr h1)).trans ((if_neg (not_lt.mpr h2)).trans (if_pos (hoob ▸ h3))))
    · have htable := parseTable_of_rows hh hl (hin h) (parseNormal_ends hl (hin h) hrows (hfits h1 h2 h3) h4)
      have hdone : escapesEnd (headerAt s.span p) (rowPos (headerAt s.span p) p (k + 1)) = p + done := by
        rw [escapesEnd, hoob]
        exact Nat.add_assoc _ _ _
      rw [hdone, ← hend] at htable
      refine ⟨fun hlow => hfail (htable.trans (if_pos hlow)), fun hlow hd => hfail ?_, fun hlow hd hlong => hfail ?_⟩
      · exact htable.trans ((if_neg hlow).trans (if_neg (by omega)))
      · have hany := any_preflen_of_exists s.span (headerAt s.span p) p (p + stop) k (hoob ▸ hlong)
        exact htable.trans ((if_neg hlow).trans ((if_pos (by omega)).trans (if_pos hany)))

end Sys2Proof.Machine

namespace Sys2Proof.Machine

/-! ### A legal description, read from the stream (R202, R209) -/

/-- What the header of a description says. -/
def Description.header (d : Description) : HtHeader := ⟨d.oob, d.ps, d.rs, d.low, d.high⟩

theorem Description.bound_succ (d : Description) {k : Nat} (hk : k < d.normal.length) :
    d.bound (k + 1) = d.bound k + 2 ^ (d.normal.getD k (0, 0)).2 := by
  rw [Description.bound, List.take_succ_eq_append_getElem hk, List.map_append, List.sum_append, ← add_assoc,
    List.getD_eq_getElem _ _ hk]
  simp [Description.bound]

/-- The two's complement of 32 bits loses nothing of a bound. -/
theorem toInt_number_of_eq {sp : Span} {q : Nat} {x : Int} (h : sp.number q 32 = (BitVec.ofInt 32 x).toNat)
    (h1 : -2 ^ 31 ≤ x) (h2 : x ≤ 2 ^ 31 - 1) : (BitVec.ofNat 32 (sp.number q 32)).toInt = x := by
  rw [h, BitVec.ofNat_toNat, BitVec.setWidth_eq, BitVec.toInt_ofInt_eq_self (by decide) h1 (by omega)]

section
variable {d : Description} {sp : Span} {p : Nat} (hat : d.At sp p)
include hat

theorem Description.At.headerAt_eq {params : Params} (hd : d.Legal params) : headerAt sp p = d.header := by
  obtain ⟨hps1, hps8, hrs1, hrs8⟩ := hd.widths
  obtain ⟨hlow, hle, hhigh⟩ := hd.bounds
  have hoob := d.oob.toNat_le
  have hflag : (d.oob.toNat + 2 * (d.ps - 1) + 16 * (d.rs - 1)).testBit 0 = d.oob := by
    rw [Nat.testBit_zero, show (d.oob.toNat + 2 * (d.ps - 1) + 16 * (d.rs - 1)) % 2 = d.oob.toNat by omega]
    cases d.oob <;> rfl
  rw [headerAt, toInt_number_of_eq hat.low hlow.le (by omega), toInt_number_of_eq hat.high (by omega) hhigh,
    hat.flags, hflag, Description.header, HtHeader.mk.injEq]
  exact ⟨rfl, by omega, by omega, rfl, rfl⟩

theorem Description.At.rangeAt_eq {k : Nat} (hk : k < d.normal.length) :
    rangeAt sp d.header p k = (d.normal.getD k (0, 0)).2 := by
  rw [rangeAt, rowPos, ← Nat.add_assoc]
  exact (hat.normal k hk).2

theorem Description.At.reachAt_eq {k : Nat} (hk : k ≤ d.normal.length) : reachAt sp d.header p k = d.bound k := by
  induction k with
  | zero => simp [reachAt, Description.bound, Description.header]
  | succ k ih => rw [reachAt_succ, ih (by omega), hat.rangeAt_eq hk, d.bound_succ hk]

theorem Description.At.rows_eq :
    rowsAt sp d.header p d.normal.length ++ escapesAt sp d.header (rowPos d.header p d.normal.length) = d.rows := by
  have hrow : ∀ k ∈ List.range d.normal.length, rowAt sp d.header p k =
      ⟨.normal, (d.normal.getD k (0, 0)).1, (d.normal.getD k (0, 0)).2, BitVec.ofInt 32 (d.bound k)⟩ := by
    intro k hk
    have hk := List.mem_range.mp hk
    rw [rowAt, hat.rangeAt_eq hk, hat.reachAt_eq hk.le, rowPos, ← Nat.add_assoc]
    exact congrArg (RawRow.mk _ · _ _) (hat.normal k hk).1
  rw [rowsAt, List.map_congr_left hrow, Description.rows, List.append_assoc, escapesAt, rowPos, ← Nat.add_assoc]
  change _ ++ ([RawRow.mk _ (sp.number (p + 72 + d.normal.length * (d.ps + d.rs)) d.ps) _ _,
    ⟨_, sp.number (p + 72 + d.normal.length * (d.ps + d.rs) + d.ps) d.ps, _, _⟩] ++ if d.oob = true then _ else _) = _
  rw [hat.lower, hat.upper]
  cases ho : d.oob with
  | false => rfl
  | true =>
    have := hat.oob ho
    rw [Nat.two_mul, ← Nat.add_assoc] at this
    rw [← this]
    rfl

end

/-- Every row passes its tests, and only the last one reaches `HTHIGH`. -/
theorem Description.Legal.rowFits {params : Params} {d : Description} {sp : Span} {p k : Nat} (hd : d.Legal params)
    (hat : d.At sp p) (hk : k < d.normal.length) : RowFits sp d.header p params.htMaxRows k where
  range := by
    rw [hat.rangeAt_eq hk, List.getD_eq_getElem _ _ hk]
    exact hd.ranges _ (List.getElem_mem hk)
  top := by
    rw [hat.reachAt_eq hk]
    rcases Nat.eq_or_lt_of_le hk with hlast | hlt
    · rw [hlast]
      exact hd.top
    · exact (hd.short (k + 1) (by omega) hlt).le.trans hd.bounds.2.2
  count := by
    have hoob : d.header.oob = d.oob := rfl
    have := hd.count
    rw [hoob]
    omega

section
variable {params : Params} {d : Description} {sp : Span} {c : Cursor} (hl : sp.len ≤ Config.srcCap) (hd : d.Legal params)
  (hat : d.At sp c.pos)
include hl hd hat

theorem parseHeader_of_legal (h72 : 72 ≤ availBits sp.len c) :
    parseHeader sp c = .ok d.header (cursorAt (c.pos + 72)) := by
  have hflags : sp.number c.pos 8 < 128 := by
    have := hd.widths
    have := d.oob.toNat_le
    rw [hat.flags]
    omega
  rw [parseHeader_bounds hl (by omega) hflags, if_pos h72, hat.headerAt_eq hd]
  exact if_neg (not_lt.mpr hd.bounds.2.1)

theorem parseNormal_of_legal (hrows : rowPos d.header c.pos d.normal.length ≤ 8 * sp.len) :
    parseNormal sp params.htMaxRows d.header (params.htMaxRows + 1) d.header.low [] (cursorAt (c.pos + 72)) =
      .ok (rowsAt sp d.header c.pos d.normal.length) (cursorAt (rowPos d.header c.pos d.normal.length)) := by
  obtain ⟨m, hm⟩ := Nat.exists_eq_add_of_le' hd.nonempty
  rw [hm] at hrows ⊢
  refine parseNormal_ends hl hrows (fun j hj => ⟨hd.rowFits hat (by omega), ?_⟩) (hd.rowFits hat (by omega)) ?_
  · rw [hat.reachAt_eq (by omega)]
    exact hd.short (j + 1) (by omega) (by omega)
  · rw [hat.reachAt_eq hm.ge, ← hm]
    exact hd.covers

theorem parseTable_of_legal (hsize : d.size ≤ availBits sp.len c) :
    parseTable sp params.htMaxRows c = .ok ⟨d.oob, assignCodes d.rows⟩ (cursorAt (c.pos + d.size)) := by
  have h72 : 72 ≤ d.size := by
    rw [Description.size, Nat.add_assoc]
    exact Nat.le_add_right _ _
  have hend : c.pos + availBits sp.len c = 8 * sp.len := availBits_le _ _ (by omega)
  have hstop : escapesEnd d.header (rowPos d.header c.pos d.normal.length) = c.pos + d.size := by
    rw [escapesEnd, rowPos, Description.size, Nat.add_assoc]
    rfl
  have hrows : rowPos d.header c.pos d.normal.length ≤ c.pos + d.size := hstop ▸ Nat.le_add_right _ _
  have hlong : ¬ (d.rows.any fun r => decide (32 < r.preflen)) = true := by
    simpa using hd.lengths
  rw [parseTable_of_rows (parseHeader_of_legal hl hd hat (h72.trans hsize)) hl (by omega)
    (parseNormal_of_legal hl hd hat (by omega)), hat.rows_eq, hstop]
  exact (if_neg hd.bounds.1.ne').trans ((if_pos (by omega)).trans (if_neg hlong))

end

theorem State.table_putTable (s : State) {id : Nat} (h : 16 ≤ id) (t : HTable) : (s.putTable id t).table id = some t := by
  rw [State.table, if_neg (by omega)]
  exact Store.get_set_same _ _ _

/-- Settles O33: the parse is `parseTable_of_legal`, and what `HT.PARSE` puts is the table parsed. -/
theorem htParseReads : Obligations.HtParseReads := by
  intro s id d hr ha hd hat hsize
  have hp := parseTable_of_legal s.len_le hd hat (by rw [availBits_of_aligned ha]; exact hsize)
  obtain ⟨hid, -⟩ := customOk_iff.mp hr.2
  refine ⟨_, exec_htParse_ok hr ha hp, State.table_putTable _ hid _, fun k hk => ?_, rfl⟩
  rw [State.table_putTable_other _ hk.symm]
  exact State.table_dropTable_other hk.symm

end Sys2Proof.Machine

namespace Sys2Proof.Machine

/-! ### A candidate against the rows (R211) -/

/-- A live row whose code, of `n` bits, is `cand`. -/
def HtRow.Matches (r : HtRow) (n cand : Nat) : Prop :=
  r.dead = false ∧ 1 ≤ r.preflen ∧ r.preflen = n ∧ r.code.toNat = cand

theorem HtRow.matches_iff (r : HtRow) (n cand : Nat) :
    (!r.isDead && r.preflen == n && r.code.toNat == cand) = true ↔ r.Matches n cand := by
  simp [HtRow.isDead, HtRow.Matches, Nat.one_le_iff_ne_zero, and_assoc]

theorem matchRow_eq_none {rows : List HtRow} {n cand : Nat} (h : ∀ q ∈ rows, ¬ q.Matches n cand) :
    matchRow rows n cand = none :=
  List.find?_eq_none.mpr fun q hq => (q.matches_iff n cand).not.mpr (h q hq)

/-- A row that matches is the one found when no other matches. -/
theorem matchRow_eq_some {rows : List HtRow} {n cand : Nat} {r : HtRow} (hr : r ∈ rows) (hm : r.Matches n cand)
    (honly : ∀ q ∈ rows, q.Matches n cand → q = r) : matchRow rows n cand = some r := by
  cases hfind : matchRow rows n cand with
  | none => exact absurd ((r.matches_iff n cand).mpr hm) (List.find?_eq_none.mp hfind r hr)
  | some q =>
    have hq := List.find?_some hfind
    rw [honly q (List.mem_of_find?_eq_some hfind) ((q.matches_iff n cand).mp hq)]

/-! ### `DecodeValue` bit by bit (R211) -/

section
variable {sp : Span} (hl : sp.len ≤ Config.srcCap) {c : Cursor} (rows : List HtRow) {n : Nat}
include hl

/-- The turn of the loop that reads bit `n` of the code. -/
theorem decodeFrom_step (h : n + 1 ≤ availBits sp.len c) (fuel : Nat) :
    decodeFrom sp rows (fuel + 1) n (sp.number c.pos n) (cursorAt (c.pos + n)) =
      (matchRow rows (n + 1) (sp.number c.pos (n + 1))).elim
        (decodeFrom sp rows fuel (n + 1) (sp.number c.pos (n + 1)) (cursorAt (c.pos + (n + 1))))
        fun r => rowValue sp r (cursorAt (c.pos + (n + 1))) := by
  rw [decodeFrom, need_onward hl (Nat.le_of_succ_le h), if_pos h, Parse.andThen_ok, Span.number_add sp c.pos n 1, pow_one]
  cases matchRow rows (n + 1) (sp.number c.pos n * 2 + sp.number (c.pos + n) 1) <;> rfl

/-- The turn of the loop that finds the span at its end. -/
theorem decodeFrom_short (h : n = availBits sp.len c) (fuel cand : Nat) :
    decodeFrom sp rows (fuel + 1) n cand (cursorAt (c.pos + n)) = .raise .streamExhausted (cursorAt (c.pos + n)) := by
  rw [decodeFrom, need_onward hl h.le, if_neg (by omega), h]
  rfl

/-- Bits that no row matches lead the loop on. -/
theorem decodeFrom_noMatch (h : n ≤ availBits sp.len c) (fuel : Nat)
    (hno : ∀ j, 1 ≤ j → j ≤ n → ∀ q ∈ rows, ¬ q.Matches j (sp.number c.pos j)) :
    decodeFrom sp rows (fuel + n) 0 0 c = decodeFrom sp rows fuel n (sp.number c.pos n) (cursorAt (c.pos + n)) := by
  induction n generalizing fuel with
  | zero => rw [Nat.add_zero, Nat.add_zero, cursorAt_pos]; rfl
  | succ n ih =>
    have hnone := matchRow_eq_none (hno (n + 1) (Nat.succ_pos n) le_rfl)
    rw [Nat.add_comm n 1, ← Nat.add_assoc, ih (by omega) (fuel + 1) fun j h1 hj => hno j h1 (by omega),
      decodeFrom_step hl rows h, hnone]
    rw [Nat.add_comm 1 n]
    rfl

/-- The value of the first row matched. -/
theorem decodeValue_match {t : HTable} {r : HtRow} (h : r.preflen ≤ availBits sp.len c) (h32 : r.preflen ≤ 32)
    (hr : r ∈ t.rows) (hm : r.Matches r.preflen (sp.number c.pos r.preflen))
    (honly : ∀ j, j ≤ r.preflen → ∀ q ∈ t.rows, q.Matches j (sp.number c.pos j) → q = r) :
    decodeValue sp t c = rowValue sp r (cursorAt (c.pos + r.preflen)) := by
  obtain ⟨n, hn⟩ := Nat.exists_eq_add_of_le' hm.2.1
  have hfuel : Config.htMaxLen = 31 - n + 1 + n := by rw [Config.htMaxLen]; omega
  have hfirst : ∀ j, 1 ≤ j → j ≤ n → ∀ q ∈ t.rows, ¬ q.Matches j (sp.number c.pos j) := by
    intro j _ hj q hq hqm
    have hqr := honly j (by omega) q hq hqm
    obtain ⟨-, -, hlen, -⟩ := hqm
    rw [hqr] at hlen
    omega
  rw [hn] at h hm
  rw [decodeValue, hfuel, decodeFrom_noMatch hl _ (by omega) _ hfirst, decodeFrom_step hl _ h,
    matchRow_eq_some hr hm (honly _ hn.ge), hn]
  rfl

theorem decodeValue_exhausted {t : HTable} (h : availBits sp.len c < 32)
    (hno : ∀ j, 1 ≤ j → j ≤ availBits sp.len c → ∀ q ∈ t.rows, ¬ q.Matches j (sp.number c.pos j)) :
    decodeValue sp t c = .raise .streamExhausted (cursorAt (c.pos + availBits sp.len c)) := by
  have hfuel : Config.htMaxLen = 31 - availBits sp.len c + 1 + availBits sp.len c := by rw [Config.htMaxLen]; omega
  rw [decodeValue, hfuel, decodeFrom_noMatch hl _ le_rfl _ hno, decodeFrom_short hl _ rfl]

theorem decodeValue_noCode {t : HTable} (h : 32 ≤ availBits sp.len c)
    (hno : ∀ j, 1 ≤ j → j ≤ 32 → ∀ q ∈ t.rows, ¬ q.Matches j (sp.number c.pos j)) :
    decodeValue sp t c = .raise .huffmanNoCode (cursorAt (c.pos + 32)) := by
  rw [decodeValue, show Config.htMaxLen = 0 + 32 from rfl, decodeFrom_noMatch hl _ h _ hno]
  rfl

end

/-! ### The literal bits of a row (R201, R203) -/

/-- The value of a row with literal bits `off`; only a Lower row subtracts them (R201). -/
def HtRow.value (r : HtRow) (off : Word) : Word := if r.kind = .lower then r.rangelow - off else r.rangelow + off

theorem rowValue_oob (sp : Span) {r : HtRow} (h : r.kind = .oob) (c : Cursor) : rowValue sp r c = .ok none c := by
  rw [rowValue, h]

theorem rowValue_eq (sp : Span) {r : HtRow} (h : r.kind ≠ .oob) (c : Cursor) :
    rowValue sp r c = (need sp c r.rangelen).andThen fun off c => .ok (some (r.value (BitVec.ofNat 32 off))) c := by
  rw [rowValue]
  unfold HtRow.value
  cases hk : r.kind with
  | oob => exact absurd hk h
  | _ => rfl

section
variable {sp : Span} (hl : sp.len ≤ Config.srcCap) {c : Cursor} {r : HtRow} (hk : r.kind ≠ .oob) {n : Nat}
include hl hk

theorem rowValue_complete (h : n + r.rangelen ≤ availBits sp.len c) :
    rowValue sp r (cursorAt (c.pos + n)) =
      .ok (some (r.value (BitVec.ofNat 32 (sp.number (c.pos + n) r.rangelen)))) (cursorAt (c.pos + (n + r.rangelen))) := by
  rw [rowValue_eq sp hk, need_onward hl (Nat.le_of_add_right_le h), if_pos h]
  rfl

theorem rowValue_exhausted (hn : n ≤ availBits sp.len c) (h : availBits sp.len c < n + r.rangelen) :
    rowValue sp r (cursorAt (c.pos + n)) = .raise .streamExhausted (cursorAt (c.pos + availBits sp.len c)) := by
  rw [rowValue_eq sp hk, need_onward hl hn, if_neg (Nat.not_le.mpr h)]
  rfl

end

/-! ### `HT.DECODE` by how the decoding ends (R212, R213) -/

section
variable {id : Byte} {s : State} (hr : s.Ready (.htDecode id)) {tb : HTable} (ht : s.table id.toNat = some tb) {c : Cursor}
include hr ht

theorem exec_htDecode_value {v : Word} (hd : decodeValue s.span tb s.cur = .ok (some v) c) :
    exec (.htDecode id) s = .next ((s.setCursor c).dropMq.giveResult v) := by
  refine (command_ready _ hr).trans ?_
  rw [ht]
  simp only [hd]
  rfl

theorem exec_htDecode_oob (hd : decodeValue s.span tb s.cur = .ok none c) :
    exec (.htDecode id) s = .next ((s.setCursor c).dropMq.setResult 0 true false) := by
  refine (command_ready _ hr).trans ?_
  rw [ht]
  simp only [hd]
  rfl

theorem exec_htDecode_raise {f : FaultCode} (hd : decodeValue s.span tb s.cur = .raise f c) :
    exec (.htDecode id) s = .next ((s.setCursor c).dropMq.takeFault f (encode (.htDecode id))) := by
  refine (command_ready _ hr).trans ?_
  rw [ht]
  simp only [hd]
  rfl

end

/-- Settles O35: the row found is `r` (`decodeValue_match`), and its literal bits are one more read. -/
theorem htDecodeValue : Obligations.HtDecodeValue := by
  intro s id tb r hr ht hmem hlive hlen h32 hcode honly avail off after
  have hl : s.span.len ≤ Config.srcCap := s.len_le
  have hvalue : r.preflen ≤ avail →
      decodeValue s.span tb s.cur = rowValue s.span r (cursorAt (s.cur.pos + r.preflen)) := fun h =>
    decodeValue_match hl h h32 hmem ⟨hlive, hlen, rfl, hcode.symm⟩ fun j hj q hq ⟨hqlive, hqlen, hqj, hqcode⟩ =>
      honly q hq hqlive hqlen (hqj ▸ hj) (hqj ▸ hqcode.symm)
  refine ⟨fun hk h => ?_, fun hk h => ?_, fun hk h hshort => ?_⟩
  · exact exec_htDecode_oob hr ht ((hvalue h).trans (rowValue_oob _ hk _))
  · exact exec_htDecode_value hr ht ((hvalue (Nat.le_of_add_right_le h)).trans (rowValue_complete hl hk h))
  · exact exec_htDecode_raise hr ht ((hvalue h).trans (rowValue_exhausted hl hk h hshort))

/-- Settles O36: the bits read match no row (`decodeFrom_noMatch`), and then the span or the 32 bits are at their end. -/
theorem htDecodeFaults : Obligations.HtDecodeFaults := by
  intro s id hr avail failed
  refine ⟨fun ht => ?_, fun tb ht hno => ?_⟩
  · refine (command_ready _ hr).trans ?_
    rw [ht]
    rfl
  · have hl : s.span.len ≤ Config.srcCap := s.len_le
    have hnone : ∀ j, 1 ≤ j → j ≤ min avail 32 → ∀ q ∈ tb.rows, ¬ q.Matches j (s.span.number s.cur.pos j) :=
      fun j _ hj q hq ⟨hqlive, hqlen, hqj, hqcode⟩ => hno q hq hqlive hqlen (hqj ▸ hj) (hqj ▸ hqcode.symm)
    refine ⟨fun h => ?_, fun h => ?_⟩
    · exact exec_htDecode_raise hr ht (decodeValue_exhausted hl h fun j h1 hj => hnone j h1 (le_min hj (hj.trans h.le)))
    · exact exec_htDecode_raise hr ht (decodeValue_noCode hl h fun j h1 hj => hnone j h1 (le_min (hj.trans h) hj))

/-! ### `HT.INFO` and `HT.ROW` (R214, R215) -/

theorem exec_htRow {id : Byte} {sel : RowSel} {s : State} (hr : s.Ready (.htRow id sel)) {tb : HTable}
    (ht : s.table id.toNat = some tb) {r : HtRow} (hrow : tb.rows[s.arg0.toNat]? = some r) :
    exec (.htRow id sel) s = .next (s.giveResult (rowField sel r)) := by
  refine (command_ready _ hr).trans ?_
  rw [ht]
  simp only [hrow]
  rfl

theorem exec_htInfo {id : Byte} {s : State} (hr : s.Ready (.htInfo id)) :
    exec (.htInfo id) s = .next (s.giveResult ((s.table id.toNat).elim 0 fun t =>
      BitVec.ofNat 32 (t.rows.length + t.oob.toNat * 2 ^ 16 + 2 ^ 31))) := by
  refine (command_done _ hr).trans ?_
  cases s.table id.toNat <;> rfl

/-- The `KIND` field of a row, `DEAD` in bit 8 (R201, R215). -/
theorem rowField_kind (r : HtRow) : rowField .kind r = BitVec.ofNat 32
    ((match r.kind with | .normal => 0 | .lower => 1 | .upper => 2 | .oob => 3) + r.dead.toNat * 2 ^ 8) := by
  rw [rowField]
  cases r.kind <;> cases r.dead <;> rfl

/-- Settles O39; the operand check of the two commands is that of the table id, whatever the selector. -/
theorem tableInspection : Obligations.TableInspection := by
  intro s id sel hr gives
  have hinfo := exec_htInfo (id := id) (s := s) hr
  refine ⟨fun ht => ⟨?_, ?_⟩, fun tb ht => ⟨?_, fun ha => ?_, fun r hrow => ?_⟩⟩
  · rw [hinfo, ht]
    rfl
  · refine (command_ready _ hr).trans ?_
    rw [ht]
    rfl
  · rw [hinfo, ht]
    rfl
  · refine (command_ready _ hr).trans ?_
    rw [ht]
    simp only [List.getElem?_eq_none ha]
    rfl
  · have hfield : ∀ sel, exec (.htRow id sel) s = .next (gives (rowField sel r)) := fun sel =>
      exec_htRow (sel := sel) hr ht hrow
    exact ⟨hfield _, hfield _, hfield _, hfield _, (hfield _).trans (congrArg Host.Outcome.next (congrArg gives (rowField_kind r)))⟩

end Sys2Proof.Machine

namespace Sys2Proof.Machine

/-! ### Commands that need a bitmap, by its slot (R250) -/

theorem withBitmap_none {s : State} {slot : Nat} (hb : s.bitmap slot = none) (f : Bitmap → Result) :
    withBitmap s slot f = .raise .badState s := by
  rw [withBitmap, hb]

theorem withBitmap_some {s : State} {slot : Nat} {bm : Bitmap} (hb : s.bitmap slot = some bm) (f : Bitmap → Result) :
    withBitmap s slot f = f bm := by
  rw [withBitmap, hb]

/-- A command whose first check is that a slot is valid raises BadState when it is not. -/
theorem command_withBitmap_none {i : Instr} {s : State} {slot : Nat} (hr : s.Ready i) (hb : s.bitmap slot = none)
    (f : Bitmap → Result) : command i s (withBitmap s slot f) = .next (s.takeFault .badState (encode i)) := by
  rw [withBitmap_none hb, command_raise _ _ hr]

/-- `BM.COMPOSE` needs the contents of both slots. -/
theorem exec_bmCompose_badState {dst src : Byte} {cop : CombOp} {clip : Bool} {s : State}
    (hr : s.Ready (.bmCompose dst src cop clip)) (hb : s.bitmap dst.toNat = none ∨ s.bitmap src.toNat = none) :
    exec (.bmCompose dst src cop clip) s = .next (s.takeFault .badState (encode (.bmCompose dst src cop clip))) := by
  cases hd : s.bitmap dst.toNat with
  | none => exact command_withBitmap_none hr hd _
  | some d =>
    have hsrc : s.bitmap src.toNat = none := hb.resolve_left (by simp [hd])
    refine (command_ready _ hr).trans ?_
    rw [withBitmap_some hd, withBitmap_none hsrc]
    rfl

/-- Settles O46: each of the commands checks the slot before anything else of its own, `BM.COMPOSE` either of two. -/
theorem invalidSlots : Obligations.InvalidSlots := by
  intro i slot other s hr hb hi
  rcases hi with ⟨v, rfl | rfl | rfl⟩ | rfl | rfl | hcompose | rfl
  case inr.inr.inr.inl =>
    obtain ⟨cop, clip, rfl | rfl⟩ := hcompose
    · exact exec_bmCompose_badState hr (.inl hb)
    · exact exec_bmCompose_badState hr (.inr hb)
  all_goals exact command_withBitmap_none hr hb _

/-! ### The commands that write rows or a part of a bitmap (R260, R264, R265) -/

theorem exec_bmCopyLine {slot : Byte} {s : State} {bm : Bitmap} (hb : s.bitmap slot.toNat = some bm)
    (hr : s.Ready (.bmCopyLine slot)) :
    exec (.bmCopyLine slot) s = .next (s.putBitmap slot.toNat (bm.copyLine s.arg0.toInt s.arg1.toInt)) :=
  command_withBitmap hr hb _

/-- `BM.EXPAND` by its checks, in their order. -/
theorem exec_bmExpand {slot : Byte} {v : Bool} {s : State} {bm : Bitmap} (hb : s.bitmap slot.toNat = some bm)
    (hr : s.Ready (.bmExpand slot v)) :
    exec (.bmExpand slot v) s =
      if s.arg0.toNat ≤ bm.h then .next s
      else if s.cfg.bmMaxH < s.arg0.toNat ∨ s.cfg.bmMaxBytes < bm.stride * s.arg0.toNat then
        .next (s.takeFault .resourceLimitExceeded (encode (.bmExpand slot v)))
      else .next (s.putBitmap slot.toNat
        (Bitmap.tabulate bm.w s.arg0.toNat fun x y => if y < bm.h then bm.pixel x y else v)) := by
  refine (command_ready _ hr).trans ?_
  rw [withBitmap_some hb]
  simp only
  split
  · rfl
  · split <;> rfl

/-- `BM.SUBIMAGE` by its checks, in their order. -/
theorem exec_bmSubImage {dst src : Byte} {s : State} {b : Bitmap} (hb : s.bitmap src.toNat = some b)
    (hr : s.Ready (.bmSubImage dst src)) :
    exec (.bmSubImage dst src) s =
      if s.rect.w.toNat = 0 ∨ s.rect.h.toNat = 0 then .next (s.takeFault .operandRange (encode (.bmSubImage dst src)))
      else if tooLarge s.cfg s.rect.w.toNat s.rect.h.toNat then
        .next (s.takeFault .resourceLimitExceeded (encode (.bmSubImage dst src)))
      else .next (s.putBitmap dst.toNat (Bitmap.tabulate s.rect.w.toNat s.rect.h.toNat fun i j =>
        b.get (s.rect.x.toInt + i) (s.rect.y.toInt + j))) := by
  refine (command_ready _ hr).trans ?_
  rw [withBitmap_some hb]
  simp only
  split
  · rfl
  · split <;> rfl

/-- A copied row by its pixels, columns outside the bitmap included: there both rows read as 0 (R252). -/
theorem get_copyLine_row (bm : Bitmap) (d r x y : Int) :
    (bm.copyLine d r).get x y = if y = d ∧ 0 ≤ d ∧ d < bm.h then bm.get x r else bm.get x y := by
  rw [get_copyLine]
  by_cases hx : 0 ≤ x ∧ x < bm.w
  · simp only [hx, true_and]
  · have hzero : ∀ z, bm.get x z = false := fun z => get_outside fun h => hx ⟨h.1, h.2.1⟩
    simp only [hzero, ite_self]

/-- A bitmap with rows of `v` below it, inside the new bounds. -/
theorem get_grown {bm : Bitmap} {n : Nat} {v : Bool} {x y : Int} (hx0 : 0 ≤ x) (hx : x < bm.w) (hy0 : 0 ≤ y) (hy : y < n) :
    (Bitmap.tabulate bm.w n fun x y => if y < bm.h then bm.pixel x y else v).get x y
      = if y < bm.h then bm.get x y else v := by
  rw [get_tabulate, decide_eq_true ⟨hx0, hx, hy0, hy⟩, Bool.true_and]
  lift x to ℕ using hx0
  lift y to ℕ using hy0
  simp only [Int.toNat_natCast, Nat.cast_lt]
  split
  · exact (get_inside (by omega) ‹_›).symm
  · rfl

/-- Settles O42: a copied row is `get_copyLine_row`, and `BM.EXPAND` keeps, fails or grows (`get_grown`) by its two checks. -/
theorem bmRowCommands : Obligations.BmRowCommands := by
  intro slot v s bm hr hb d r nh tooBig
  have hexp := exec_bmExpand hb hr
  refine ⟨⟨_, _, exec_bmCopyLine hb hr, State.bitmap_putBitmap _ _ _, Bitmap.copyLine_w _ _ _, Bitmap.copyLine_h _ _ _,
    get_copyLine_row _ _ _, fun k hk => State.bitmap_putBitmap_other _ _ hk, rfl⟩, fun h => ?_, fun h hbig => ?_,
    fun h hfit => ?_⟩
  · exact hexp.trans (if_pos h)
  · exact hexp.trans ((if_neg h.not_ge).trans (if_pos hbig))
  · exact ⟨_, _, hexp.trans ((if_neg h.not_ge).trans (if_neg hfit)), State.bitmap_putBitmap _ _ _, rfl, rfl,
      fun x y => get_grown, fun k hk => State.bitmap_putBitmap_other _ _ hk, rfl⟩

/-- Settles O44: the three outcomes are those of `exec_bmSubImage`, and the new bitmap's pixels are those it tabulates. -/
theorem bmSubImageResult : Obligations.BmSubImageResult := by
  intro dst src s b hr hb w h tooBig faults
  have hsub := exec_bmSubImage hb hr
  have hbig : tooBig ↔ tooLarge s.cfg w h = true := tooLarge_eq_true.symm
  refine ⟨fun h0 => ?_, fun hw hh hf => ?_, fun hw hh hf => ?_⟩
  · exact hsub.trans (if_pos h0)
  · exact hsub.trans ((if_neg (not_or.mpr ⟨hw, hh⟩)).trans (if_pos (hbig.mp hf)))
  · refine ⟨_, _, hsub.trans ((if_neg (not_or.mpr ⟨hw, hh⟩)).trans (if_neg (hbig.not.mp hf))), State.bitmap_putBitmap _ _ _,
      rfl, rfl, fun i j hi hj => ?_, fun k hk => State.bitmap_putBitmap_other _ _ hk, rfl⟩
    rw [get_tabulate, decide_eq_true (by omega), Bool.true_and]
    rfl

/-! ### Composing twice (R261, R263, R267) -/

@[simp] theorem Bitmap.compose_w (dst src : Bitmap) (x y : Int) (q : Clip) (cop : CombOp) :
    (dst.compose src x y q cop).w = dst.w := rfl

@[simp] theorem Bitmap.compose_h (dst src : Bitmap) (x y : Int) (q : Clip) (cop : CombOp) :
    (dst.compose src x y q cop).h = dst.h := rfl

/-- Combining twice with one source bit: XOR and XNOR undo themselves, the others are idempotent (R261). -/
theorem combine_combine (cop : CombOp) (d s : Bool) :
    combine cop (combine cop d s) s = if cop = .xor ∨ cop = .xnor then d else combine cop d s := by
  cases cop <;> cases d <;> cases s <;> rfl

theorem get_compose_compose (dst src : Bitmap) (x y : Int) (q : Clip) (cop : CombOp) (dx dy : Int) :
    ((dst.compose src x y q cop).compose src x y q cop).get dx dy
      = if cop = .xor ∨ cop = .xnor then dst.get dx dy else (dst.compose src x y q cop).get dx dy := by
  by_cases hi : 0 ≤ dx ∧ dx < dst.w ∧ 0 ≤ dy ∧ dy < dst.h
  · rw [get_compose, get_compose, Bitmap.compose_w, Bitmap.compose_h]
    simp only [decide_eq_true hi, Bool.true_and]
    split
    · exact combine_combine _ _ _
    · exact (ite_self _).symm
  · rw [get_outside (bm := dst) hi, get_outside (by simpa using hi), get_outside (by simpa using hi), ite_self]

/-- The whole of a bitmap at `(0, 0)` of one with its dimensions covers every pixel; what REPLACE puts there, XOR clears. -/
theorem get_compose_replace_xor {dst src : Bitmap} (hw : dst.w = src.w) (hh : dst.h = src.h) (dx dy : Int) :
    let q := effectiveRect 0 0 src.w src.h src.w src.h
    ((dst.compose src 0 0 q .replace).compose src 0 0 q .xor).get dx dy = false := by
  intro q
  by_cases hi : 0 ≤ dx ∧ dx < dst.w ∧ 0 ≤ dy ∧ dy < dst.h
  · have hcov : q.covers (dx - 0 + q.rx) (dy - 0 + q.ry) = true := by
      rw [covers_iff]
      simp only [q, effectiveRect]
      omega
    rw [get_compose, get_compose, if_pos hcov, if_pos hcov, Bitmap.compose_w, Bitmap.compose_h, decide_eq_true hi]
    exact Bool.xor_self _
  · exact get_outside (by simpa using hi)

/-- The operator and the clip flag of a composition have no check, and storing a bitmap changes none of its checks (R94). -/
theorem State.Ready.bmCompose_after {dst src : Byte} {cop : CombOp} {clip : Bool} {s : State}
    (hr : s.Ready (.bmCompose dst src cop clip)) (k : Nat) (bm : Bitmap) (cop' : CombOp) (clip' : Bool) :
    (s.putBitmap k bm).Ready (.bmCompose dst src cop' clip') := hr

/-- Two compositions of one source onto one destination, nothing else having changed between them. -/
theorem bitmap_of_compose_compose {dst src : Byte} {cop cop' : CombOp} {clip : Bool} {s t u : State} {d b : Bitmap}
    (hne : dst ≠ src) (hr : s.Ready (.bmCompose dst src cop clip)) (hd : s.bitmap dst.toNat = some d)
    (hb : s.bitmap src.toNat = some b) (ht : exec (.bmCompose dst src cop clip) s = .next t)
    (hu : exec (.bmCompose dst src cop' clip) t = .next u) :
    let q := composeRect clip s.rect b.w b.h
    let c := d.compose b s.arg0.toInt s.arg1.toInt q cop
    t.bitmap dst.toNat = some c ∧ u.bitmap dst.toNat = some (c.compose b s.arg0.toInt s.arg1.toInt q cop') := by
  intro q c
  have hslots : src.toNat ≠ dst.toNat := fun e => hne (BitVec.eq_of_toNat_eq e.symm)
  have hc : (s.putBitmap dst.toNat c).bitmap dst.toNat = some c := State.bitmap_putBitmap _ _ _
  cases (exec_bmCompose hr hd hb).symm.trans ht
  cases (exec_bmCompose (hr.bmCompose_after _ _ _ _) hc ((State.bitmap_putBitmap_other _ _ hslots).trans hb)).symm.trans hu
  exact ⟨hc, State.bitmap_putBitmap _ _ _⟩

/-- Settles O45: `bitmap_of_compose_compose` gives the two bitmaps, by whose pixels composing twice and REPLACE then XOR are
known. -/
theorem composeAlgebra : Obligations.ComposeAlgebra := by
  intro dst src cop clip s t u d b _ hne hr hd hb
  refine ⟨fun ht hu => ?_, fun hw hh hx hy ht hu => ?_⟩
  · obtain ⟨htd, hud⟩ := bitmap_of_compose_compose hne hr hd hb ht hu
    exact ⟨_, _, htd, hud, rfl, rfl, get_compose_compose _ _ _ _ _ _⟩
  · have hr' : s.Ready (.bmCompose dst src .replace false) := hr
    obtain ⟨-, hud⟩ := bitmap_of_compose_compose hne hr' hd hb ht hu
    rw [hx, hy] at hud
    exact ⟨_, hud, rfl, rfl, get_compose_replace_xor hw hh⟩

end Sys2Proof.Machine

namespace Sys2Proof.Machine

/-! ### A row loop that paused, taken up again (R318) -/

/-- The loop with `CTRL.PAUSE = 0` and no write to it to come, as `State.quiet`. -/
def GrdLoop.quiet (l : GrdLoop) : GrdLoop := { l with pause := false, feed := [] }

/-- A turn that makes a row before the last and samples the pause indicator as 0. -/
theorem rowLoop_next {e : GrdEnv} {l : GrdLoop} {r : Region} (h : decodeRow e l.row l.region = .ok r)
    (hmore : l.row + 1 < e.h) (hp : pauseSample l.pause l.feed 1 = false) (n : Nat) :
    rowLoop e (n + 1) l = rowLoop e n ⟨r, l.row + 1, l.st, false, l.feed.drop 1⟩ := by
  rw [rowLoop, h]
  simp only [if_neg hmore.ne, pauseAt_eq, hp, Bool.false_eq_true, if_false]

/-- With every sample 0, the rows a paused loop has made and the rows it left are the rows of one loop. -/
theorem rowLoop_quiet_of_paused (e : GrdEnv) (n : Nat) (l : GrdLoop) (hn : n = e.h - l.row)
    (hd : (rowLoop e n l).st = .decoding) :
    rowLoop e n l.quiet = rowLoop e (e.h - (rowLoop e n l).row) (rowLoop e n l).quiet := by
  induction n generalizing l with
  | zero => rw [rowLoop, rowLoop, ← hn, rowLoop]
  | succ n ih =>
    cases hr : decodeRow e l.row l.region with
    | error r => rw [rowLoop_failed hr] at hd; cases hd
    | ok r =>
      by_cases hend : l.row + 1 = e.h
      · rw [rowLoop_finished hr hend] at hd; cases hd
      · have hmore : l.row + 1 < e.h := by omega
        have hleft : n = e.h - (l.row + 1) := by omega
        rw [rowLoop_next (l := l.quiet) hr hmore rfl]
        cases hp : pauseSample l.pause l.feed 1 with
        | true => rw [rowLoop_paused hr hmore hp, hleft]; rfl
        | false =>
          rw [rowLoop_next hr hmore hp] at hd ⊢
          exact ih _ hleft hd

section
variable (s : State) (l : GrdLoop)

@[simp] theorem grdAfter_grd : (grdAfter s l).grd = ⟨l.st, BitVec.ofNat 32 l.row, l.region.ltp⟩ := rfl
@[simp] theorem grdAfter_pause : (grdAfter s l).pause = l.pause := rfl

theorem grdAfter_bitmap_dst : (grdAfter s l).bitmap s.gb.dst = some l.region.bm := State.bitmap_putBitmap s s.gb.dst l.region.bm

end

/-- A loop that paused, taken up with no further pause, ends as the loop that never pauses. -/
theorem grdRun_resume {s : State} {k : SkipSource} {bm : Bitmap} {row : Nat} {ltp : Bool} {l : GrdLoop}
    (hl : l = grdRun s k bm row ltp) (hd : l.st = .decoding) :
    grdRun (grdAfter s l).quiet k l.region.bm l.row l.region.ltp = grdRun s.quiet k bm row ltp := by
  have hstart : (⟨l.region, l.row, .decoding, false, []⟩ : GrdLoop) = l.quiet := by rw [← hd]; rfl
  change rowLoop (grdEnv s k) (s.gb.h.toNat - l.row) ⟨l.region, l.row, .decoding, false, []⟩ = _
  rw [hstart]
  subst hl
  exact (rowLoop_quiet_of_paused (grdEnv s k) _ ⟨⟨s.coder, s.gbBank.entries, bm, ltp⟩, row, .decoding, s.pause, _⟩ rfl
    hd).symm

/-- What the first command made of the decoder, the bank, the destination and the run state, the second makes anew. -/
theorem grdAfter_grdAfter_quiet (s : State) (l m : GrdLoop) :
    grdAfter (grdAfter s l).quiet m = grdAfter s.quiet m := by
  have hb : Store.set (Store.set s.bitmaps s.gb.dst l.region.bm) s.gb.dst m.region.bm
      = Store.set s.bitmaps s.gb.dst m.region.bm := Store.set_set _ _ _ _
  change { grdAfter s.quiet m with bitmaps := Store.set (Store.set s.bitmaps s.gb.dst l.region.bm) s.gb.dst m.region.bm } = _
  rw [hb]
  rfl

/-! ### The checks of the two commands, by where they differ (R304, R305) -/

/-- Where a generic decode reads its skip bitmap, as both commands have checked it. -/
def SkipFrom (s : State) (k : SkipSource) : Prop :=
  (s.gb.useSkip = false ∧ k = .unused)
    ∨ (s.gb.useSkip = true
      ∧ ∃ b, s.bitmap s.gb.skip = some b ∧ k = if s.gb.skip = s.gb.dst then .destination else .slot b)

theorem StartChecked.skipFrom {s : State} {k : SkipSource} (h : StartChecked s k) : SkipFrom s k := by
  rcases h.skip with h | ⟨hu, -, hne, b, hb, rfl⟩
  · exact .inl h
  · exact .inr ⟨hu, b, hb, (if_neg hne).symm⟩

/-- A decode writes the skip slot only where that slot is the destination, and then does not read it. -/
theorem SkipFrom.after_run {s : State} {k : SkipSource} (h : SkipFrom s k) (l : GrdLoop) : SkipFrom (grdAfter s l).quiet k := by
  have hgb : (grdAfter s l).quiet.gb = s.gb := rfl
  have hbm : ∀ j, (grdAfter s l).quiet.bitmap j = (grdAfter s l).bitmap j := fun _ => rfl
  unfold SkipFrom
  rw [hgb, hbm]
  refine h.imp_right fun ⟨hu, b, hb, hk⟩ => ⟨hu, ?_⟩
  by_cases he : s.gb.skip = s.gb.dst
  · rw [he, grdAfter_bitmap_dst]
    exact ⟨l.region.bm, rfl, by rw [hk, if_pos he, if_pos rfl]⟩
  · exact ⟨b, (grdAfter_bitmap_other l he).trans hb, hk⟩

/-- What a generic decode keeps of a destination: its dimensions. -/
theorem grdRun_dims (s : State) (k : SkipSource) (bm : Bitmap) (row : Nat) (ltp : Bool) :
    (grdRun s k bm row ltp).region.bm.w = bm.w ∧ (grdRun s k bm row ltp).region.bm.h = bm.h :=
  rowLoop_keeps (P := fun r => r.bm.w = bm.w ∧ r.bm.h = bm.h)
    (fun y r ⟨hw, hh⟩ => RegionStep.ends_mono (decodeRow_onlyRow _ y r)
      fun _ ⟨hw', hh', _⟩ => ⟨hw'.trans hw, hh'.trans hh⟩)
    _ _ ⟨rfl, rfl⟩

/-- A run with no row to go, which no reachable state has, leaves the run state as it was. -/
theorem grdRun_of_no_row {s : State} {row : Nat} (h : s.gb.h.toNat ≤ row) (k : SkipSource) (bm : Bitmap) (ltp : Bool) :
    grdRun s k bm row ltp = ⟨⟨s.coder, s.gbBank.entries, bm, ltp⟩, row, .decoding, s.pause, s.host.pauseFeed⟩ := by
  rw [grdRun, Nat.sub_eq_zero_of_le h, rowLoop]

/-- How a run with a row to go ends (R307). -/
theorem grdRun_ends {s : State} {row : Nat} (h : row < s.gb.h.toNat) (k : SkipSource) (bm : Bitmap) (ltp : Bool) :
    ((grdRun s k bm row ltp).st = .finished ∧ (grdRun s k bm row ltp).row = s.gb.h.toNat)
      ∨ ((grdRun s k bm row ltp).st = .error ∧ row ≤ (grdRun s k bm row ltp).row
        ∧ (grdRun s k bm row ltp).row < s.gb.h.toNat)
      ∨ ((grdRun s k bm row ltp).st = .decoding ∧ (grdRun s k bm row ltp).pause = true ∧ row < (grdRun s k bm row ltp).row
        ∧ (grdRun s k bm row ltp).row < s.gb.h.toNat) :=
  rowLoop_ends (grdEnv s k) (s.gb.h.toNat - row)
    ⟨⟨s.coder, s.gbBank.entries, bm, ltp⟩, row, .decoding, s.pause, s.host.pauseFeed⟩
    (Nat.add_sub_cancel' h.le) (by omega) rfl

/-- The row a loop stands at fits `GRD_ROW`, also where the run had no row to go. -/
theorem grdRun_row_toNat {row : Nat} (hrow : row < 2 ^ 32) (s : State) (k : SkipSource) (bm : Bitmap) (ltp : Bool) :
    (BitVec.ofNat 32 (grdRun s k bm row ltp).row).toNat = (grdRun s k bm row ltp).row := by
  have hlt : (grdRun s k bm row ltp).row < 2 ^ 32 := by
    by_cases hgo : row < s.gb.h.toNat
    · have hle : (grdRun s k bm row ltp).row ≤ s.gb.h.toNat := by
        rcases grdRun_ends hgo k bm ltp with ⟨-, h⟩ | ⟨-, -, h⟩ | ⟨-, -, -, h⟩ <;> exact h.le
      exact hle.trans_lt s.gb.h.isLt
    · rw [grdRun_of_no_row (Nat.not_lt.mp hgo)]
      exact hrow
  exact (BitVec.toNat_ofNat ..).trans (Nat.mod_eq_of_lt hlt)

/-- What `GRD.START` and `GRD.CONT` have both checked when they run the row loop on `bm`. -/
structure GrdChecked (s : State) (bm : Bitmap) (k : SkipSource) : Prop where
  mq : s.mq.valid = true
  bank : s.gbBank.valid = true
  width : bm.w = s.gb.w.toNat
  height : bm.h = s.gb.h.toNat
  skip : SkipFrom s k

theorem StartChecked.grdChecked {s : State} {k : SkipSource} (h : StartChecked s k) :
    GrdChecked s (Bitmap.blank s.gb.w.toNat s.gb.h.toNat) k := ⟨h.mq, h.bank, rfl, rfl, h.skipFrom⟩

theorem ContChecked.grdChecked {s : State} {bm : Bitmap} {k : SkipSource} (h : ContChecked s bm k) : GrdChecked s bm k :=
  ⟨h.mq, h.bank, h.width, h.height, h.skip⟩

/-- A loop that paused leaves all that `GRD.CONT` checks (R305). -/
theorem GrdChecked.contChecked {s : State} {bm : Bitmap} {k : SkipSource} (h : GrdChecked s bm k) {row : Nat} {ltp : Bool}
    {l : GrdLoop} (hl : l = grdRun s k bm row ltp) (hd : l.st = .decoding) :
    ContChecked (grdAfter s l).quiet l.region.bm k := by
  obtain ⟨hw, hh⟩ := grdRun_dims s k bm row ltp
  rw [← hl] at hw hh
  exact ⟨hd, h.mq, h.bank, grdAfter_bitmap_dst s l, hw.trans h.width, hh.trans h.height, h.skip.after_run l⟩

/-- No check reads the pause indicator. -/
theorem StartChecked.quiet {s : State} {k : SkipSource} (h : StartChecked s k) : StartChecked s.quiet k :=
  ⟨h.state, h.mq, h.bank, h.width, h.height, h.dst, h.fits, h.skip⟩

theorem ContChecked.quiet {s : State} {bm : Bitmap} {k : SkipSource} (h : ContChecked s bm k) : ContChecked s.quiet bm k :=
  ⟨h.state, h.mq, h.bank, h.dst, h.width, h.height, h.skip⟩

/-- So `GRD.CONT` after the pause runs the loop that never pauses, from the same state. -/
theorem exec_grdCont_resume {s : State} {bm : Bitmap} {k : SkipSource} (hi : s.core = .idle) (h : GrdChecked s bm k) {row : Nat}
    {ltp : Bool} {l : GrdLoop} (hrow : row < 2 ^ 32) (hl : l = grdRun s k bm row ltp) (hd : l.st = .decoding) :
    exec .grdCont (grdAfter s l).quiet
      = (finishGrd (grdAfter s l).quiet (grdRun s.quiet k bm row ltp)).finish (encode .grdCont) := by
  have hback : (BitVec.ofNat 32 l.row).toNat = l.row := hl ▸ grdRun_row_toNat hrow s k bm ltp
  rw [exec_grdCont (h.contChecked hl hd) ((grdAfter_core s l).trans hi), ← grdRun_resume hl hd]
  change (finishGrd _ (grdRun _ k l.region.bm (BitVec.ofNat 32 l.row).toNat l.region.ltp)).finish _ = _
  rw [hback]

/-- Two commands that end one loop from states it makes equal differ in the command word of a fault only. -/
theorem finishGrd_eq_but_faultCmd {s s' u v : State} {l : GrdLoop} {w w' : Word} (h : grdAfter s l = grdAfter s' l)
    (hu : (finishGrd s l).finish w = .next u) (hv : (finishGrd s' l).finish w' = .next v) :
    { u with faultCmd := 0 } = { v with faultCmd := 0 } := by
  rw [finishGrd_finish, h] at hu
  rw [finishGrd_finish] at hv
  cases hu
  cases hv
  split <;> rfl

/-- What ends Idle has completed: a fault leaves the block Faulted. -/
theorem completes_of_idle {i : Instr} {s t : State} (h : exec i s = .next t) (hs : s.core = .idle) (ht : t.core = .idle) :
    Completes s i t := by
  rcases exec_cases h with ⟨-, hf, -⟩ | ⟨-, -, f, -, rfl⟩ | ⟨-, hc⟩ | ⟨-, f, u, -, rfl⟩
  · rw [hs] at hf; cases hf
  · cases ht
  · exact hc
  · cases ht

/-- The command `i` from its quiet state against its pause in `l` and the continuation from there. -/
theorem resumed_eq_but_faultCmd {i : Instr} {s u v : State} {bm : Bitmap} {k : SkipSource} {row : Nat} {ltp : Bool} {l : GrdLoop}
    (hi : s.core = .idle) (h : GrdChecked s bm k) (hrow : row < 2 ^ 32) (hl : l = grdRun s k bm row ltp) (hd : l.st = .decoding)
    (hex : exec i s.quiet = (finishGrd s.quiet (grdRun s.quiet k bm row ltp)).finish (encode i))
    (hu : exec .grdCont (grdAfter s l).quiet = .next u) (hv : exec i s.quiet = .next v) :
    { u with faultCmd := 0 } = { v with faultCmd := 0 } := by
  rw [exec_grdCont_resume hi h hrow hl hd] at hu
  exact finishGrd_eq_but_faultCmd (grdAfter_grdAfter_quiet s l _) hu (hex.symm.trans hv)

/-- Settles O50: the loop `GRD.CONT` resumes is the rest of the one that never pauses (`rowLoop_quiet_of_paused`), and writes
over whatever the first command wrote (`grdAfter_grdAfter_quiet`). -/
theorem rowResumability : Obligations.RowResumability := by
  intro i s t u v hi hs h ht hd hu hv
  have hc := completes_of_idle h hs ht
  rcases hi with rfl | rfl
  · cases hc with
    | grdStart k hck l hl =>
      exact resumed_eq_but_faultCmd hs hck.grdChecked (Nat.two_pow_pos 32) hl hd (exec_grdStart hck.quiet hs) hu hv
  · cases hc with
    | grdCont bm k hck l hl =>
      exact resumed_eq_but_faultCmd hs hck.grdChecked s.grd.row.isLt hl hd (exec_grdCont hck.quiet hs) hu hv

end Sys2Proof.Machine

namespace Sys2Proof.Machine

/-! ### `GRD_STATE` over all commands (R303) -/

/-- A command other than the three of the generic decoder leaves its run state. -/
theorem Completes.grd_kept {s t : State} {i : Instr} (hc : Completes s i t) (h1 : i ≠ .grdStart) (h2 : i ≠ .grdCont)
    (h3 : i ≠ .grdAbort) (h4 : i ≠ .sysReset) : t.grd = s.grd := by
  cases hc with
  | grdStart => exact absurd rfl h1
  | grdCont => exact absurd rfl h2
  | grdAbort => exact absurd rfl h3
  | sysReset => exact absurd rfl h4
  | brAlign => rw [align_eq]; simp
  | brReadByte | brReadU16 | brReadU32 => rw [wholeRead_eq]; simp
  | grrDecode => simp [putGrr]
  | _ => simp

theorem Fails.grd_kept {s u : State} {i : Instr} {f : FaultCode} (hf : Fails s i f u) (h1 : i ≠ .grdStart)
    (h2 : i ≠ .grdCont) : u.grd = s.grd := by
  cases hf with
  | grdStart => exact absurd rfl h1
  | grdCont => exact absurd rfl h2
  | htParse | htDecode => simp
  | grrDecode => simp [putGrr]

/-- `l` is where the row loop of `GRD.START` or `GRD.CONT` ends, run on at least one row. -/
def LoopOf (s : State) (i : Instr) (l : GrdLoop) : Prop :=
  (i = .grdStart ↔ s.grd.st ≠ .decoding)
    ∧ ∃ k bm row ltp, row < s.gb.h.toNat ∧ l = grdRun s k bm row ltp

/-- How it ends, as the registers show it. -/
theorem LoopOf.registers {s : State} {i : Instr} {l : GrdLoop} (h : LoopOf s i l) :
    l.st ≠ .ready ∧ (l.st = .decoding → l.pause = true) ∧ (l.st = .finished → BitVec.ofNat 32 l.row = s.gb.h) := by
  obtain ⟨-, k, bm, row, ltp, hrow, hl⟩ := h
  have hends := grdRun_ends hrow k bm ltp
  rw [← hl] at hends
  rcases hends with ⟨hst, hend⟩ | ⟨hst, -⟩ | ⟨hst, hp, -⟩
  · rw [hst, hend]
    exact ⟨by decide, nofun, fun _ => BitVec.ofNat_toNat ..⟩
  · rw [hst]
    exact ⟨by decide, nofun, nofun⟩
  · rw [hst]
    exact ⟨by decide, fun _ => hp, nofun⟩

theorem StartChecked.loopOf {s : State} {k : SkipSource} (h : StartChecked s k) (bm : Bitmap) (ltp : Bool) :
    LoopOf s .grdStart (grdRun s k bm 0 ltp) :=
  ⟨iff_of_true rfl h.state, k, bm, 0, ltp, one_le_toNat h.height, rfl⟩

/-- A continuation that changes the run state had a row to go. -/
theorem ContChecked.loopOf {s : State} {bm : Bitmap} {k : SkipSource} (h : ContChecked s bm k) {l : GrdLoop}
    (hl : l = grdRun s k bm s.grd.row.toNat s.grd.ltp) (hne : (grdAfter s l).grd ≠ s.grd) : LoopOf s .grdCont l := by
  refine ⟨iff_of_false nofun (not_not.mpr h.state), k, bm, _, _, ?_, hl⟩
  by_contra hrow
  refine hne ?_
  rw [hl, grdRun_of_no_row (Nat.not_lt.mp hrow), grdAfter_grd, BitVec.ofNat_toNat, BitVec.setWidth_eq, ← h.state]

theorem Completes.loopOf {s t : State} {i : Instr} (hc : Completes s i t) (hi : i = .grdStart ∨ i = .grdCont)
    (hne : t.grd ≠ s.grd) : ∃ l, LoopOf s i l ∧ l.st ≠ .error ∧ t = grdAfter s l := by
  rcases hi with rfl | rfl
  · cases hc with | grdStart k hck l hl he => exact ⟨l, hl ▸ hck.loopOf _ _, he, rfl⟩
  · cases hc with | grdCont bm k hck l hl he => exact ⟨l, hck.loopOf hl hne, he, rfl⟩

theorem Fails.loopOf {s u : State} {i : Instr} {f : FaultCode} (hf : Fails s i f u) (hi : i = .grdStart ∨ i = .grdCont)
    (hne : u.grd ≠ s.grd) : ∃ l, LoopOf s i l ∧ l.st = .error ∧ u = grdAfter s l := by
  rcases hi with rfl | rfl
  · cases hf with | grdStart k hck l hl he => exact ⟨l, hl ▸ hck.loopOf _ _, he, rfl⟩
  · cases hf with | grdCont bm k hck l hl he => exact ⟨l, hck.loopOf hl hne, he, rfl⟩

theorem exec_grdAbort {s : State} (hi : s.core = .idle) : exec .grdAbort s = .next (s.setGrd ⟨.ready, 0, false⟩) :=
  command_done _ ⟨hi, rfl⟩

/-- Settles O16: only a row loop leads to a state other than Ready, and how one ends is `LoopOf.registers`; it is in Error
exactly when its command then faults. -/
theorem grdStateRule : Obligations.GrdStateRule := by
  intro i s t h
  refine ⟨fun h1 h2 h3 h4 => ?_, fun hi hne => ?_, fun hi hs => ?_⟩
  · rcases exec_cases h with ⟨-, -, rfl⟩ | ⟨-, -, f, -, rfl⟩ | ⟨-, hc⟩ | ⟨-, f, u, hf, rfl⟩
    · rfl
    · rfl
    · exact hc.grd_kept h1 h2 h3 h4
    · exact hf.grd_kept h1 h2
  · rcases exec_cases h with ⟨-, -, rfl⟩ | ⟨-, -, f, -, rfl⟩ | ⟨hr, hc⟩ | ⟨-, f, u, hf, rfl⟩
    · exact absurd rfl hne
    · exact absurd rfl hne
    · obtain ⟨l, hl, he, rfl⟩ := hc.loopOf hi hne
      obtain ⟨hready, hpause, hrow⟩ := hl.registers
      have hs : s.core = .idle := by
        rcases hi with rfl | rfl <;> exact ((hr.resolve_left nofun).resolve_left nofun).1
      have hidle : (grdAfter s l).core ≠ .faulted := by simp [hs]
      exact ⟨hl.1, hready, hpause, hrow, iff_of_false he hidle⟩
    · obtain ⟨l, hl, he, rfl⟩ := hf.loopOf hi hne
      obtain ⟨hready, hpause, hrow⟩ := hl.registers
      exact ⟨hl.1, hready, hpause, hrow, iff_of_true he rfl⟩
  · subst hi
    cases (exec_grdAbort hs).symm.trans h
    rfl

/-- Settles O21; of the four, `SYS.CLRF` and `SYS.RESET` are no `command`, and the two others have no check. -/
theorem systemCommands : Obligations.SystemCommands := by
  intro s
  exact ⟨fun hi => command_done s ⟨hi, rfl⟩, rfl, rfl, exec_grdAbort⟩

/-- Settles O53: a context number is the sum its bits stand for (R312 to R315). -/
theorem genericContexts : Obligations.GenericContexts := by
  intro q bm x y p
  have h1 : (1 : BitVec 2) ≠ 0 := by decide
  have h2 : (2 : BitVec 2) ≠ 0 ∧ (2 : BitVec 2) ≠ 1 := by decide
  have h3 : (3 : BitVec 2) ≠ 0 ∧ (3 : BitVec 2) ≠ 1 ∧ (3 : BitVec 2) ≠ 2 := by decide
  refine ⟨?_, ?_, ?_, ?_⟩ <;>
    · simp only [gbContext, gbTemplate, h1, h2, h3, if_true, if_false, List.map, bitsNumber]
      ring

end Sys2Proof.Machine

namespace Sys2Proof.Machine

/-! ### The rows a decode has not reached (R317, R319) -/

/-- Every row from `y0` on is 0. -/
def Bitmap.ZeroFrom (bm : Bitmap) (y0 : Int) : Prop := ∀ x y : Int, y0 ≤ y → bm.get x y = false

/-- Writing row `y` leaves the rows below it 0. -/
theorem Region.OnlyRow.zeroFrom {y : Nat} {b : Bitmap} {r : Region} (h : r.OnlyRow y b) (hb : b.ZeroFrom y) :
    r.bm.ZeroFrom (y + 1) := by
  obtain ⟨-, -, hother⟩ := h
  intro x y' hy
  rw [hother x y' (by omega)]
  exact hb x y' (by omega)

/-- The row loop keeps the rows below the one it stands at 0, and that one too unless it failed in it. -/
theorem rowLoop_zeroFrom (e : GrdEnv) (n : Nat) (l : GrdLoop) (h : l.region.bm.ZeroFrom l.row) :
    (rowLoop e n l).region.bm.ZeroFrom ((rowLoop e n l).row + 1)
      ∧ ((rowLoop e n l).st ≠ .error → (rowLoop e n l).region.bm.ZeroFrom (rowLoop e n l).row) := by
  have hbelow : ∀ {b : Bitmap} {y : Int}, b.ZeroFrom y → b.ZeroFrom (y + 1) := fun hb x y' hy => hb x y' (by omega)
  induction n generalizing l with
  | zero => exact ⟨hbelow h, fun _ => h⟩
  | succ n ih =>
    have honly := decodeRow_onlyRow e l.row l.region
    rw [rowLoop]
    cases hr : decodeRow e l.row l.region with
    | error r =>
      rw [hr] at honly
      exact ⟨honly.zeroFrom h, fun hne => absurd rfl hne⟩
    | ok r =>
      rw [hr] at honly
      have hnext : r.bm.ZeroFrom (l.row + 1 : Nat) := honly.zeroFrom h
      simp only
      split
      · exact ⟨hbelow hnext, fun _ => hnext⟩
      · split
        · exact ⟨hbelow hnext, fun _ => hnext⟩
        · exact ih _ hnext

/-- However the row loop of a generic-region command ends, these parts of the state are as `grdAfter` has them. -/
theorem next_of_finishGrd {s t : State} {l : GrdLoop} {w : Word} (h : (finishGrd s l).finish w = .next t) :
    t.bitmaps = (grdAfter s l).bitmaps ∧ t.grd = (grdAfter s l).grd := by
  rw [finishGrd_finish] at h
  cases h
  split <;> exact ⟨rfl, rfl⟩

/-- Settles O49: `GRD.START` begins with every row 0, and `rowLoop_zeroFrom` keeps those it has not reached. -/
theorem grdZeroBelow : Obligations.GrdZeroBelow := by
  intro s t hc h
  rw [exec_grdStart (startChecked_of_canStart hc) hc.idle] at h
  obtain ⟨hbitmaps, hgrd⟩ := next_of_finishGrd h
  obtain ⟨hbelow, hat⟩ := rowLoop_zeroFrom (grdEnv s s.skipSource) (s.gb.h.toNat - 0)
    ⟨⟨s.coder, s.gbBank.entries, Bitmap.blank s.gb.w.toNat s.gb.h.toNat, false⟩, 0, .decoding, s.pause, s.host.pauseFeed⟩
    fun x y _ => get_blank _ _ x y
  rw [← grdRun] at hbelow hat
  obtain ⟨hw, hh⟩ := grdRun_dims s s.skipSource (Bitmap.blank s.gb.w.toNat s.gb.h.toNat) 0 false
  refine ⟨_, (congrArg (Store.get · s.gb.dst) hbitmaps).trans (grdAfter_bitmap_dst _ _), hw, hh, fun x y hy => ?_⟩
  rw [hgrd, grdAfter_grd, grdRun_row_toNat (Nat.two_pow_pos 32)] at hy
  rcases hy with ⟨hd, hle⟩ | hlt
  · exact hat (fun he => by cases hd.symm.trans he) x y hle
  · exact hbelow x y hlt

end Sys2Proof.Machine

namespace Sys2Proof.Machine

/-! ### A wholly skipped region (R308, R316) -/

/-- The bitmap with pixels `0` to `n - 1` of row `y` made 0, as a skipped row makes them. -/
def Bitmap.clearPixels (bm : Bitmap) (y : Nat) : Nat → Bitmap
  | 0 => bm
  | n + 1 => (bm.clearPixels y n).set n y false

/-- The bitmap with `n` rows from `row` on made 0. -/
def Bitmap.clearRows (bm : Bitmap) (row : Nat) : Nat → Bitmap
  | 0 => bm
  | n + 1 => (bm.clearRows row n).clearPixels (row + n) bm.w

@[simp] theorem Bitmap.clearPixels_w (bm : Bitmap) (y n : Nat) : (bm.clearPixels y n).w = bm.w := by
  induction n with
  | zero => rfl
  | succ n ih => rw [clearPixels, set_w, ih]

@[simp] theorem Bitmap.clearPixels_h (bm : Bitmap) (y n : Nat) : (bm.clearPixels y n).h = bm.h := by
  induction n with
  | zero => rfl
  | succ n ih => rw [clearPixels, set_h, ih]

@[simp] theorem Bitmap.clearRows_w (bm : Bitmap) (row n : Nat) : (bm.clearRows row n).w = bm.w := by
  induction n with
  | zero => rfl
  | succ n ih => rw [clearRows, clearPixels_w, ih]

@[simp] theorem Bitmap.clearRows_h (bm : Bitmap) (row n : Nat) : (bm.clearRows row n).h = bm.h := by
  induction n with
  | zero => rfl
  | succ n ih => rw [clearRows, clearPixels_h, ih]

/-- Writing 0 to a pixel is seen at that pixel only, inside the bitmap or not. -/
theorem get_set_false (bm : Bitmap) (x y x' y' : Int) :
    (bm.set x y false).get x' y' = if x' = x ∧ y' = y then false else bm.get x' y' := by
  rw [get_set]
  by_cases hi : 0 ≤ x ∧ x < bm.w ∧ 0 ≤ y ∧ y < bm.h
  · simp only [hi, and_true]
  · rw [if_neg fun h => hi h.2.2]
    split
    · rename_i h
      rw [h.1, h.2, get_outside hi]
    · rfl

theorem get_clearPixels (bm : Bitmap) (y n : Nat) (x' y' : Int) :
    (bm.clearPixels y n).get x' y' = if y' = y ∧ x' < n then false else bm.get x' y' := by
  induction n with
  | zero =>
    split
    · exact get_outside (by omega)
    · rfl
  | succ n ih =>
    rw [Bitmap.clearPixels, get_set_false, ih, ← ite_or]
    exact if_congr (by omega) rfl rfl

/-- A row made 0 over the whole width. -/
theorem get_clearRow (bm : Bitmap) (y : Nat) (x' y' : Int) :
    (bm.clearPixels y bm.w).get x' y' = if y' = y then false else bm.get x' y' := by
  rw [get_clearPixels]
  by_cases hx : x' < bm.w
  · simp only [hx, and_true]
  · rw [if_neg fun h => hx h.2, get_outside fun h => hx h.2.1, ite_self]

theorem get_clearRows (bm : Bitmap) (row n : Nat) (x' y' : Int) :
    (bm.clearRows row n).get x' y' = if row ≤ y' ∧ y' < (row + n : Nat) then false else bm.get x' y' := by
  induction n with
  | zero => rw [if_neg (by omega), Bitmap.clearRows]
  | succ n ih =>
    rw [Bitmap.clearRows, ← Bitmap.clearRows_w bm row n, get_clearRow, ih, ← ite_or]
    exact if_congr (by omega) rfl rfl

/-- A row all of whose pixels are skipped becomes 0, with no decision taken. -/
theorem decodeRow_skipped {e : GrdEnv} {y : Nat} {r : Region} (hoff : e.tpgdon = false) (hw : r.bm.w = e.w)
    (hs : ∀ b x, x < e.w → e.skips b x y = true) :
    decodeRow e y r = .ok { r with bm := r.bm.clearPixels y r.bm.w } := by
  rw [decodeRow_of_not_typical (grdSltp_off hoff) (by rw [hoff, Bool.false_and]), ← hw]
  exact RegionStep.each_ok_zero (px := fun x => { r with bm := r.bm.clearPixels y x }) fun x hx =>
    grdPixel_skipped (hs _ x (hw ▸ hx))

theorem decodeRows_skipped {e : GrdEnv} {row n : Nat} {r : Region} (hoff : e.tpgdon = false) (hw : r.bm.w = e.w)
    (hs : ∀ b x y, x < e.w → y < row + n → e.skips b x y = true) :
    RegionStep.each (decodeRow e) row n r = .ok { r with bm := r.bm.clearRows row n } := by
  refine RegionStep.each_ok _ n row (fun m => { r with bm := r.bm.clearRows row m }) fun m hm => ?_
  have hw' : (r.bm.clearRows row m).w = e.w := (Bitmap.clearRows_w ..).trans hw
  refine (decodeRow_skipped hoff hw' fun b x hx => hs b x _ hx (by omega)).trans ?_
  rw [Bitmap.clearRows_w, Bitmap.clearRows]

@[simp] theorem pauseSample_nil (p : Bool) (m : Nat) : pauseSample p [] m = p := by cases m <;> rfl

/-- Rows that change nothing but the destination leave nothing else changed, with no write to `CTRL` to come. -/
theorem State.afterRows_of_bm {s : State} (hf : s.host.pauseFeed = []) (b : Bitmap) (ltp : Bool) (row m : Nat) (st : GrdState) :
    s.afterRows ⟨s.coder, s.gbBank.entries, b, ltp⟩ st row m
      = { s with bitmaps := Store.set s.bitmaps s.gb.dst b, grd := ⟨st, BitVec.ofNat 32 row, ltp⟩ } := by
  have hfeed : s.host = { s.host with pauseFeed := [] } := by rw [← hf]
  rw [State.afterRows, hf, pauseSample_nil, List.drop_nil, ← hfeed]
  rfl

section
variable {s : State} {k : Bitmap} (hu : s.gb.useSkip = true) (hoff : s.gb.tpgdon = false) (hp : s.pause = false)
  (hf : s.host.pauseFeed = []) (hk : s.bitmap s.gb.skip = some k)
  (hs : ∀ x y : Nat, x < s.gb.w.toNat → y < s.gb.h.toNat → k.get x y = true)
include hu hoff hp hf hk hs

/-- A generic-region command on a wholly skipped region, from its first row on. -/
theorem exec_of_skipped {i : Instr} {bm : Bitmap} {row : Nat} {ltp : Bool}
    (hex : exec i s = (finishGrd s (grdRun s s.skipSource bm row ltp)).finish (encode i)) (hw : bm.w = s.gb.w.toNat)
    (hrow : row < s.gb.h.toNat) :
    exec i s = .next { s with
      bitmaps := Store.set s.bitmaps s.gb.dst (bm.clearRows row (s.gb.h.toNat - row)), grd := ⟨.finished, s.gb.h, ltp⟩ } := by
  have hskip : ∀ b x y, x < s.gb.w.toNat → y < row + (s.gb.h.toNat - row) →
      (grdEnv s s.skipSource).skips b x y = true := fun b x y hx hy => by
    have hin : k.get x y = true := hs x y hx (by omega)
    rw [skips_skipSource]
    change (s.gb.useSkip && (s.bitmap s.gb.skip).any fun k => k.get x y) = true
    rw [hu, hk, Bool.true_and]
    exact hin
  have hrows := decodeRows_skipped (e := grdEnv s s.skipSource) (r := ⟨s.coder, s.gbBank.entries, bm, ltp⟩) hoff hw hskip
  have hend := ((exec_of_grdRun hex hrows).1 (by omega) fun j _ _ => by rw [hf, hp, pauseSample_nil]).1 (by omega)
  rw [hend, State.afterRows_of_bm hf, BitVec.ofNat_toNat, BitVec.setWidth_eq]

end

/-- Settles O47: both commands leave what `exec_of_skipped` says, whose rows from the first one on are 0 (`get_clearRows`). -/
theorem grdAllSkipped : Obligations.GrdAllSkipped := by
  intro s k hu hoff hp hf hk hs
  refine ⟨fun hc => ?_, fun bm hc hrow => ?_⟩
  · have hex := exec_of_skipped hu hoff hp hf hk hs (exec_grdStart (startChecked_of_canStart hc) hc.idle) rfl
      (one_le_toNat hc.height)
    refine ⟨_, _, hex, Store.get_set_same _ _ _, Bitmap.clearRows_w _ _ _, Bitmap.clearRows_h _ _ _, fun x y => ?_,
      fun j hj => Store.get_set_other hj, rfl⟩
    rw [get_clearRows, get_blank, ite_self]
  · have hex := exec_of_skipped hu hoff hp hf hk hs (exec_grdCont (contChecked_of_canContinue hc) hc.idle) hc.width hrow
    refine ⟨_, _, hex, Store.get_set_same _ _ _, Bitmap.clearRows_w _ _ _, Bitmap.clearRows_h _ _ _, fun x y => ?_,
      fun j hj => Store.get_set_other hj, rfl⟩
    rw [get_clearRows]
    by_cases hy : y < bm.h
    · have hend : y < (s.grd.row.toNat + (s.gb.h.toNat - s.grd.row.toNat) : Nat) := by
        have := hc.height
        omega
      simp only [hend, and_true]
    · rw [get_outside fun h => hy h.2.2.2, ite_self, ite_self]

end Sys2Proof.Machine

namespace Sys2Proof.Machine

/-! ### The checks of the region commands, in their order (R304, R305, R353) -/

/-- A body that raises, of a command with no check on its fields. -/
theorem command_of_raise {i : Instr} {s : State} {b : Result} {f : FaultCode} (hr : s.Ready i) (hb : b = .raise f s) :
    command i s b = .next (s.takeFault f (encode i)) := by rw [hb, command_raise _ _ hr]

theorem withSkip_none {s : State} (h : s.gb.useSkip = true ∧ s.bitmap s.gb.skip = none) (f : SkipSource → Result) :
    withSkip s f = .raise .badState s := by
  rw [withSkip, if_pos h.1, h.2]

/-- Past the check of the skip slot the body goes on with one skip source or another. -/
theorem withSkip_some {s : State} (h : ¬ (s.gb.useSkip = true ∧ s.bitmap s.gb.skip = none)) (f : SkipSource → Result) :
    ∃ k, withSkip s f = f k := by
  unfold withSkip
  split
  · split
    · exact absurd ⟨‹_›, ‹_›⟩ h
    · exact ⟨_, rfl⟩
  · exact ⟨_, rfl⟩

theorem skipFrom_of_valid {s : State} (h : ¬ (s.gb.useSkip = true ∧ s.bitmap s.gb.skip = none)) : ∃ k, SkipFrom s k := by
  cases hu : s.gb.useSkip with
  | false => exact ⟨_, .inl ⟨hu, rfl⟩⟩
  | true =>
    obtain ⟨b, hb⟩ := Option.ne_none_iff_exists'.mp fun hn => h ⟨hu, hn⟩
    exact ⟨_, .inr ⟨hu, b, hb, rfl⟩⟩

theorem SkipFrom.not_invalid {s : State} {k : SkipSource} (h : SkipFrom s k) :
    ¬ (s.gb.useSkip = true ∧ s.bitmap s.gb.skip = none) := by
  rintro ⟨hu, hn⟩
  rcases h with ⟨hu', -⟩ | ⟨-, b, hb, -⟩
  · cases hu.symm.trans hu'
  · cases hn.symm.trans hb

/-- Every check of `GRD.CONT` raises BadState. -/
theorem exec_grdCont_badState {s : State} (hi : s.core = .idle) (h : ∀ bm k, ¬ ContChecked s bm k) :
    exec .grdCont s = .next (s.takeFault .badState (encode .grdCont)) := by
  refine command_of_raise ⟨hi, rfl⟩ ?_
  split
  · rfl
  · rename_i hready
    simp only [not_or, not_not, Bool.not_eq_false] at hready
    obtain ⟨hst, hmq, hbank⟩ := hready
    cases hb : s.bitmap s.gb.dst with
    | none => exact withBitmap_none hb _
    | some bm =>
      rw [withBitmap_some hb]
      split
      · rfl
      · rename_i hdims
        simp only [not_or, not_not] at hdims
        obtain ⟨hw, hh⟩ := hdims
        by_cases hn : s.gb.useSkip = true ∧ s.bitmap s.gb.skip = none
        · exact withSkip_none hn _
        · obtain ⟨k, hk⟩ := skipFrom_of_valid hn
          exact absurd ⟨hst, hmq, hbank, hb, hw, hh, hk⟩ (h bm k)

/-- Settles O51: each check is a test of the command's body, reached by failing those before it; `GRD.CONT`, whose checks all
raise one fault, raises it unless all hold. -/
theorem regionChecks : Obligations.RegionChecks := by
  intro s hi faults gbBad gbRange noSkip grBad grRange big
  have hbig : ∀ {w h}, big w h → tooLarge s.cfg w h = true := tooLarge_eq_true.mpr
  have hstart : s.Ready .grdStart := ⟨hi, rfl⟩
  have hrefine : s.Ready .grrDecode := ⟨hi, rfl⟩
  refine ⟨fun h => ?_, fun hd hb h => ?_, fun hd hb hr h => ?_, fun hd hb hr hn h => ?_, fun h => ?_, fun h => ?_,
    fun bm hbm h => ?_, fun h => ?_, fun hb h => ?_, fun hb hr h => ?_, fun hb hr hv h => ?_⟩
  · exact command_of_raise hstart (if_pos h)
  · exact command_of_raise hstart ((if_neg (not_or.mpr ⟨hd, hb⟩)).trans (if_pos h))
  · exact command_of_raise hstart
      ((if_neg (not_or.mpr ⟨hd, hb⟩)).trans ((if_neg hr).trans (withSkip_none h _)))
  · obtain ⟨k, hk⟩ := withSkip_some hn fun skip =>
      if tooLarge s.cfg s.gb.w.toNat s.gb.h.toNat then .raise .resourceLimitExceeded s
      else runGrd s skip (Bitmap.blank s.gb.w.toNat s.gb.h.toNat) 0 false
    exact command_of_raise hstart
      ((if_neg (not_or.mpr ⟨hd, hb⟩)).trans ((if_neg hr).trans (hk.trans (if_pos (hbig h)))))
  · refine exec_grdCont_badState hi fun bm k hc => ?_
    rcases h with hst | hmq | hbank
    · exact hst hc.state
    · exact absurd (hc.mq.symm.trans hmq) (by decide)
    · exact absurd (hc.bank.symm.trans hbank) (by decide)
  · refine exec_grdCont_badState hi fun bm k hc => ?_
    rcases h with hnone | hskip
    · cases hnone.symm.trans hc.dst
    · exact hc.grdChecked.skip.not_invalid hskip
  · refine exec_grdCont_badState hi fun bm' k hc => ?_
    cases hbm.symm.trans hc.dst
    exact h.elim (· hc.width) (· hc.height)
  · exact command_of_raise hrefine (if_pos h)
  · exact command_of_raise hrefine ((if_neg hb).trans (if_pos h))
  · exact command_of_raise hrefine ((if_neg hb).trans ((if_neg hr).trans (withBitmap_none h _)))
  · obtain ⟨ref, href⟩ := Option.ne_none_iff_exists'.mp hv
    exact command_of_raise hrefine
      ((if_neg hb).trans ((if_neg hr).trans ((withBitmap_some href _).trans (if_pos (hbig h)))))

end Sys2Proof.Machine

namespace Sys2Proof.Machine

/-! ### The context numbers and the typical pixel of a refinement region (R357, R358, R361) -/

/-- The centre of the 3×3 test, coordinate by coordinate. -/
theorem centre_eq (e : GrrEnv) (x y : Nat) :
    e.centre x y = (if e.centerDisplaced then (x : Int) - e.dx else x, if e.centerDisplaced then (y : Int) - e.dy else y) := by
  unfold GrrEnv.centre
  split <;> rfl

/-- A neighbourhood all of whose nine pixels agree with its centre is uniform. -/
theorem uniform_of_neighbourhood {e : GrrEnv} {x y : Nat}
    (h : ∀ i j : Int, -1 ≤ i → i ≤ 1 → -1 ≤ j → j ≤ 1 →
      e.ref.get ((e.centre x y).1 + i) ((e.centre x y).2 + j) = e.typicalValue x y) : e.uniform x y = true := by
  have hbounds : ∀ k ∈ ([-1, 0, 1] : List Int), -1 ≤ k ∧ k ≤ 1 := by decide
  simp only [GrrEnv.uniform, List.all_eq_true, beq_iff_eq]
  intro j hj i hi
  exact h i j (hbounds i hi).1 (hbounds i hi).2 (hbounds j hj).1 (hbounds j hj).2

/-- Settles O54: a template's number is the sum its bits stand for (R357, R358), and a uniform neighbourhood short-circuits the
pixel (`grrPixel_short`). -/
theorem refinementContexts : Obligations.RefinementContexts := by
  intro e bm x y r p
  have h10 : (1 : BitVec 1) ≠ 0 := by decide
  refine ⟨fun ht => ?_, fun ht => ?_, ?_⟩
  · simp only [grContext, grTemplate, ht, if_true, List.map, GrrEnv.look, bitsNumber]
    ring
  · simp only [grContext, grTemplate, ht, h10, if_false, List.map, GrrEnv.look, bitsNumber]
    ring
  · intro reg htpgron hltp cx cy hnear
    have hc : e.centre x y = (cx, cy) := centre_eq e x y
    have hvalue : e.typicalValue x y = e.ref.get cx cy := by rw [GrrEnv.typicalValue, hc]
    have huniform : e.uniform x y = true := uniform_of_neighbourhood (by rw [hc, hvalue]; exact hnear)
    rw [grrPixel_short (by rw [htpgron, hltp, huniform]; rfl), hvalue, Region.setPixel]

end Sys2Proof.Machine

namespace Sys2Proof.Machine

/-! ### Which fault a procedure that reads the stream raises (R210, R211) -/

/-- The procedure ends in a value or raises one of `fs`. -/
def Parse.RaisesIn {α : Type} (fs : List FaultCode) : Parse α → Prop
  | .ok _ _ => True
  | .raise f _ => f ∈ fs

theorem Parse.RaisesIn.mem {α : Type} {fs : List FaultCode} {p : Parse α} {f : FaultCode} {c : Cursor} (h : p.RaisesIn fs)
    (hp : p = .raise f c) : f ∈ fs := by
  subst hp
  exact h

theorem Parse.RaisesIn.andThen {α β : Type} {fs : List FaultCode} {p : Parse α} {g : α → Cursor → Parse β}
    (hp : p.RaisesIn fs) (hg : ∀ v c, (g v c).RaisesIn fs) : (p.andThen g).RaisesIn fs := by
  cases p with
  | ok v c => exact hg v c
  | raise f c => exact hp

theorem Parse.RaisesIn.ite {α : Type} {fs : List FaultCode} {P : Prop} [Decidable P] {a b : Parse α}
    (ha : a.RaisesIn fs) (hb : b.RaisesIn fs) : (if P then a else b).RaisesIn fs := by
  split
  · exact ha
  · exact hb

/-- A read that has not its bits is the one way to run out of the stream. -/
theorem need_raisesIn {fs : List FaultCode} (h : FaultCode.streamExhausted ∈ fs) (sp : Span) (c : Cursor) (n : Nat) :
    (need sp c n).RaisesIn fs := by
  rw [need_eq]
  exact .ite h trivial

section
variable {fs : List FaultCode} (hexh : FaultCode.streamExhausted ∈ fs)
include hexh

theorem parseHeader_raisesIn (hstr : FaultCode.structuralError ∈ fs) (sp : Span) (c : Cursor) :
    (parseHeader sp c).RaisesIn fs :=
  .andThen (need_raisesIn hexh ..) fun _ _ => .ite hstr <|
    .andThen (need_raisesIn hexh ..) fun _ _ => .andThen (need_raisesIn hexh ..) fun _ _ => .ite hstr trivial

theorem parseNormal_raisesIn (hstr : FaultCode.structuralError ∈ fs) (hlim : FaultCode.resourceLimitExceeded ∈ fs) (sp : Span)
    (maxRows : Nat) (hd : HtHeader) (fuel : Nat) (low : Int) (rows : List RawRow) (c : Cursor) :
    (parseNormal sp maxRows hd fuel low rows c).RaisesIn fs := by
  induction fuel generalizing low rows c with
  | zero => exact hlim
  | succ fuel ih =>
    exact .andThen (need_raisesIn hexh ..) fun _ _ => .andThen (need_raisesIn hexh ..) fun _ _ =>
      .ite hstr (.ite hstr (.ite hlim (.ite trivial (ih ..))))

theorem parseEscapes_raisesIn (hstr : FaultCode.structuralError ∈ fs) (sp : Span) (hd : HtHeader) (rows : List RawRow)
    (c : Cursor) : (parseEscapes sp hd rows c).RaisesIn fs :=
  .ite hstr <| .andThen (need_raisesIn hexh ..) fun _ _ => .andThen (need_raisesIn hexh ..) fun _ _ =>
    .ite (.andThen (need_raisesIn hexh ..) fun _ _ => trivial) trivial

theorem rowValue_raisesIn (sp : Span) (r : HtRow) (c : Cursor) : (rowValue sp r c).RaisesIn fs := by
  unfold rowValue
  cases r.kind with
  | oob => trivial
  | lower | normal | upper => exact .andThen (need_raisesIn hexh ..) fun _ _ => trivial

theorem decodeFrom_raisesIn (hno : FaultCode.huffmanNoCode ∈ fs) (sp : Span) (rows : List HtRow) (fuel n cand : Nat)
    (c : Cursor) : (decodeFrom sp rows fuel n cand c).RaisesIn fs := by
  induction fuel generalizing n cand c with
  | zero => exact hno
  | succ fuel ih =>
    refine .andThen (need_raisesIn hexh ..) fun _ _ => ?_
    split
    · exact rowValue_raisesIn hexh ..
    · exact ih ..

end

theorem parseTable_raisesIn (sp : Span) (maxRows : Nat) (c : Cursor) (id : Byte) :
    (parseTable sp maxRows c).RaisesIn (operationFaults (.htParse id)) := by
  have hexh : FaultCode.streamExhausted ∈ operationFaults (.htParse id) := by simp [operationFaults]
  have hstr : FaultCode.structuralError ∈ operationFaults (.htParse id) := by simp [operationFaults]
  have hlim : FaultCode.resourceLimitExceeded ∈ operationFaults (.htParse id) := by simp [operationFaults]
  exact .andThen (parseHeader_raisesIn hexh hstr ..) fun _ _ => .andThen (parseNormal_raisesIn hexh hstr hlim ..) fun _ _ =>
    .andThen (parseEscapes_raisesIn hexh hstr ..) fun _ _ => .ite hstr trivial

theorem decodeValue_raisesIn (sp : Span) (t : HTable) (c : Cursor) (id : Byte) :
    (decodeValue sp t c).RaisesIn (operationFaults (.htDecode id)) :=
  decodeFrom_raisesIn (by simp [operationFaults]) (by simp [operationFaults]) ..

/-! ### The table of faults over all commands (R406) -/

/-- What an operation raises is in its row of the table: a region decode's one fault by name, the Huffman unit's by what its
procedures raise. -/
theorem Fails.mem_operationFaults {s u : State} {i : Instr} {f : FaultCode} (hf : Fails s i f u) : f ∈ operationFaults i := by
  cases hf with
  | htParse id _ _ _ hp => exact (parseTable_raisesIn _ _ _ id).mem hp
  | htDecode id _ _ _ _ hd => exact (decodeValue_raisesIn _ _ _ id).mem hd
  | grdStart | grdCont | grrDecode => simp [operationFaults]

/-- A command that completes while Idle leaves the block Idle (R394). -/
theorem Completes.core_idle {s t : State} {i : Instr} (hc : Completes s i t) (hs : s.core = .idle) : t.core = .idle := by
  by_cases h1 : i = .sysClrf
  · subst h1; cases hc; rfl
  · by_cases h2 : i = .sysReset
    · subst h2; cases hc; rfl
    · rw [(hc.kept h1 h2).core, hs]

/-- Settles O12: of the ways a command can end, started Idle, only a check's raise and an operation's raise end Faulted; the
first is the left side as it stands, the second is fault entry on top of what the operation had made. -/
theorem faultMatrix : Obligations.FaultMatrix := by
  intro i s t hs h ht
  rcases exec_cases h with ⟨-, hfaulted, -⟩ | ⟨-, -, hcheck⟩ | ⟨-, hc⟩ | ⟨-, f, u, hf, rfl⟩
  · rw [hs] at hfaulted; cases hfaulted
  · exact .inl hcheck
  · rw [hc.core_idle hs] at ht; cases ht
  · exact .inr ⟨⟨f, hf.mem_operationFaults, State.takeFault_fault ..⟩, State.takeFault_faultCmd .., hf.result_kept⟩

end Sys2Proof.Machine
